-- ==== Sys2Proof/Word.lean ====
section
/-! DEFINITION. Word.lean: the word types of the block. -/

namespace Sys2Proof

/-- One byte of a raw slot (R38). -/
abbrev Byte := BitVec 8

/-- A 32-bit word: the command and status registers (R32, R33) and every unsigned 32-bit field (R35 to R44). -/
abbrev Word32 := BitVec 32

/-- A 64-bit word: the argument and result registers (R30, R31) and every signed 64-bit field (R35, R44). -/
abbrev Word64 := BitVec 64

/-- The bit pattern of an IEEE 754 binary32 value (R12). -/
abbrev F32 := BitVec 32

/-- The bit pattern of an IEEE 754 binary64 value (R12). -/
abbrev F64 := BitVec 64

/-- R94: the window functions that `mod` selects for `FIRDES`. -/
inductive WindowFn where
  | blackman
  | hamming
  | kaiser
deriving DecidableEq, Repr

end Sys2Proof
end

