-- ==== Sys2Proof/Syntax.lean ====
section
/-! DEFINITION. Syntax.lean: the thirteen commands of R93. -/

namespace Sys2Proof

/-- A command, one constructor per row of the opcode map (R93). `ctx`, `src` and `dst` are slot numbers (R90); which of
them a command has is its format (R91). -/
inductive Instr where
  /-- R111: Blackman window coefficient. -/
  | winblk
  /-- R112: Hamming window coefficient. -/
  | winham
  /-- R113: Kaiser window coefficient. -/
  | winksr
  /-- R114: the Bessel function I0. -/
  | wini0
  /-- R121: bounded-denominator rational approximation. -/
  | ratapx
  /-- R131: design a low-pass filter into a FIR context. -/
  | firdes (ctx : Nat) (win : WindowFn)
  /-- R134: streaming filter, both channels. -/
  | firflt (ctx src dst : Nat)
  /-- R136: streaming filter, real channel only. -/
  | firfltr (ctx src dst : Nat)
  /-- R151: construct a resampler; `custom` takes the prototype from the tap staging buffer. -/
  | resinit (ctx : Nat) (custom : Bool)
  /-- R156: streaming resampler. -/
  | resamp (ctx src dst : Nat)
  /-- R171: construct a converter. -/
  | cnvinit (ctx : Nat)
  /-- R173: straight fill. -/
  | cnvfill (ctx src dst : Nat)
  /-- R178: mixing fill. -/
  | cnvmix (ctx src dst : Nat)
deriving DecidableEq, Repr

end Sys2Proof
end

