-- ==== Sys2Proof/WellFormed.lean ====
section
/-! DEFINITION. WellFormed.lean: which commands have an encoding. -/

namespace Sys2Proof

/-- R95: an index field is four bits wide and names slots 0 to 15. -/
abbrev slotFits (i : Nat) : Prop := i < 16

/-- R90, R91, R95: every index field the format of the command uses fits its four bits. -/
def Instr.wellFormed : Instr → Bool
  | .winblk => true
  | .winham => true
  | .winksr => true
  | .wini0 => true
  | .ratapx => true
  | .firdes ctx _ => decide (slotFits ctx)
  | .firflt ctx src dst => decide (slotFits ctx ∧ slotFits src ∧ slotFits dst)
  | .firfltr ctx src dst => decide (slotFits ctx ∧ slotFits src ∧ slotFits dst)
  | .resinit ctx _ => decide (slotFits ctx)
  | .resamp ctx src dst => decide (slotFits ctx ∧ slotFits src ∧ slotFits dst)
  | .cnvinit ctx => decide (slotFits ctx)
  | .cnvfill ctx src dst => decide (slotFits ctx ∧ slotFits src ∧ slotFits dst)
  | .cnvmix ctx src dst => decide (slotFits ctx ∧ slotFits src ∧ slotFits dst)

end Sys2Proof
end

