-- ==== Sys2Proof/Decode.lean ====
section
/-! DEFINITION. Decode.lean: the command word of R90 to R103, both ways. -/

namespace Sys2Proof

/-- Why a word is no command (R96). Each of them makes the block raise `IllegalCommand`. -/
inductive DecodeError where
  /-- The opcode is none of the thirteen of R93. -/
  | unassignedOpcode
  /-- `rsv` is not zero. -/
  | reservedNotZero
  /-- A field the format does not use is not zero. -/
  | unusedFieldNotZero
  /-- `FIRDES` with `mod` of 3 or more. -/
  | badWindow
  /-- `RESINIT` with a bit of `mod[3:1]` set. -/
  | badCustomFlag
deriving DecidableEq, Repr

/-- The six fields of a command word (R90). -/
structure Fields where
  opcode : Nat
  ctx : Nat
  src : Nat
  dst : Nat
  mod : Nat
  rsv : Nat
deriving DecidableEq, Repr

/-- R90: the fields of a word, each at its fixed place. -/
def fieldsOf (w : Word32) : Fields where
  opcode := (w.extractLsb' 0 8).toNat
  ctx := (w.extractLsb' 8 4).toNat
  src := (w.extractLsb' 12 4).toNat
  dst := (w.extractLsb' 16 4).toNat
  mod := (w.extractLsb' 20 4).toNat
  rsv := (w.extractLsb' 24 8).toNat

/-- R91, format `N`: no field but the opcode. -/
def formatN (f : Fields) (i : Instr) : Except DecodeError Instr :=
  if f.ctx = 0 ∧ f.src = 0 ∧ f.dst = 0 ∧ f.mod = 0 then .ok i else .error .unusedFieldNotZero

/-- R91, format `C`: `ctx`, and `mod` as R94 says for the command. -/
def formatC (f : Fields) (i : Except DecodeError Instr) : Except DecodeError Instr :=
  if f.src = 0 ∧ f.dst = 0 then i else .error .unusedFieldNotZero

/-- R91, format `S`: `ctx`, `src` and `dst`. -/
def formatS (f : Fields) (i : Instr) : Except DecodeError Instr :=
  if f.mod = 0 then .ok i else .error .unusedFieldNotZero

/-- R94: the window that `mod` selects. -/
def windowOf : Nat → Option WindowFn
  | 0 => some .blackman
  | 1 => some .hamming
  | 2 => some .kaiser
  | _ => none

/-- R94: `FIRDES` takes a window from `mod`. -/
def firdesOf (f : Fields) : Except DecodeError Instr :=
  match windowOf f.mod with
  | some win => .ok (.firdes f.ctx win)
  | none => .error .badWindow

/-- R94: `RESINIT` takes the custom-taps flag from `mod[0]`. -/
def resinitOf (f : Fields) : Except DecodeError Instr :=
  if f.mod = 0 then .ok (.resinit f.ctx false)
  else if f.mod = 1 then .ok (.resinit f.ctx true)
  else .error .badCustomFlag

/-- R94: `CNVINIT` uses no `mod`. -/
def cnvinitOf (f : Fields) : Except DecodeError Instr :=
  if f.mod = 0 then .ok (.cnvinit f.ctx) else .error .unusedFieldNotZero

/-- R93, R96: the command that the fields of a word make, `rsv` apart. -/
def commandOf (f : Fields) : Except DecodeError Instr :=
  match f.opcode with
  | 0x10 => formatN f .winblk
  | 0x11 => formatN f .winham
  | 0x12 => formatN f .winksr
  | 0x13 => formatN f .wini0
  | 0x20 => formatN f .ratapx
  | 0x30 => formatC f (firdesOf f)
  | 0x31 => formatS f (.firflt f.ctx f.src f.dst)
  | 0x32 => formatS f (.firfltr f.ctx f.src f.dst)
  | 0x40 => formatC f (resinitOf f)
  | 0x41 => formatS f (.resamp f.ctx f.src f.dst)
  | 0x50 => formatC f (cnvinitOf f)
  | 0x51 => formatS f (.cnvfill f.ctx f.src f.dst)
  | 0x52 => formatS f (.cnvmix f.ctx f.src f.dst)
  | _ => .error .unassignedOpcode

/-- R96: the command a word stands for, or why it stands for none. Total on every word. -/
def decode (w : Word32) : Except DecodeError Instr :=
  let f := fieldsOf w
  if f.rsv = 0 then commandOf f else .error .reservedNotZero

/-- R90: the word with the given fields and `rsv` zero. -/
def assemble (opcode ctx src dst mod : Nat) : Word32 :=
  BitVec.ofNat 32 (opcode + ctx * 2 ^ 8 + src * 2 ^ 12 + dst * 2 ^ 16 + mod * 2 ^ 20)

/-- R94: the value of `mod` that selects a window. -/
def windowCode : WindowFn → Nat
  | .blackman => 0
  | .hamming => 1
  | .kaiser => 2

/-- R90 to R94: the word of a command. -/
def encode : Instr → Word32
  | .winblk => assemble 0x10 0 0 0 0
  | .winham => assemble 0x11 0 0 0 0
  | .winksr => assemble 0x12 0 0 0 0
  | .wini0 => assemble 0x13 0 0 0 0
  | .ratapx => assemble 0x20 0 0 0 0
  | .firdes ctx win => assemble 0x30 ctx 0 0 (windowCode win)
  | .firflt ctx src dst => assemble 0x31 ctx src dst 0
  | .firfltr ctx src dst => assemble 0x32 ctx src dst 0
  | .resinit ctx custom => assemble 0x40 ctx 0 0 (if custom then 1 else 0)
  | .resamp ctx src dst => assemble 0x41 ctx src dst 0
  | .cnvinit ctx => assemble 0x50 ctx 0 0 0
  | .cnvfill ctx src dst => assemble 0x51 ctx src dst 0
  | .cnvmix ctx src dst => assemble 0x52 ctx src dst 0

/-- R103: `match` of the command's row, its opcode in bits 7:0. -/
def rowMatch : Instr → Word32
  | .winblk => 0x00000010#32
  | .winham => 0x00000011#32
  | .winksr => 0x00000012#32
  | .wini0 => 0x00000013#32
  | .ratapx => 0x00000020#32
  | .firdes _ _ => 0x00000030#32
  | .firflt _ _ _ => 0x00000031#32
  | .firfltr _ _ _ => 0x00000032#32
  | .resinit _ _ => 0x00000040#32
  | .resamp _ _ _ => 0x00000041#32
  | .cnvinit _ => 0x00000050#32
  | .cnvfill _ _ _ => 0x00000051#32
  | .cnvmix _ _ _ => 0x00000052#32

/-- R103: `mask` of the command's row. -/
def rowMask : Instr → Word32
  | .winblk => 0xFFFFFFFF#32
  | .winham => 0xFFFFFFFF#32
  | .winksr => 0xFFFFFFFF#32
  | .wini0 => 0xFFFFFFFF#32
  | .ratapx => 0xFFFFFFFF#32
  | .firdes _ _ => 0xFF0FF0FF#32
  | .firflt _ _ _ => 0xFFF000FF#32
  | .firfltr _ _ _ => 0xFFF000FF#32
  | .resinit _ _ => 0xFFEFF0FF#32
  | .resamp _ _ _ => 0xFFF000FF#32
  | .cnvinit _ => 0xFFFFF0FF#32
  | .cnvfill _ _ _ => 0xFFF000FF#32
  | .cnvmix _ _ _ => 0xFFF000FF#32

/-- The command the decoder reads from a table row's word: `nbits` bits of `w`, the bits above them zero. Every command
is the one 32-bit word written to `CMD` (R90, R98). -/
def decodeTableWord (nbits w : Nat) : Option Instr :=
  match decode (BitVec.ofNat 32 (w % 2 ^ nbits)) with
  | .ok i => some i
  | .error _ => none

end Sys2Proof
end

