-- ==== Sys2Proof/Config.lean ====
section
/-! DEFINITION. Config.lean: what an implementation fixes (the structural parameters of R7) and the free values (R13, R16). -/

namespace Sys2Proof

/-- The floating-point operations whose NaN results the spec leaves free (R13, R15, R16). -/
inductive FpOp where
  | add | sub | mul | div | sqrt | cvt | cos | sin
deriving DecidableEq, Repr

/-- R13, U3: the sign and the payload of a NaN that a binary64 operation gives. Only the sign bit and the low 51 bits
of the answer are used (`Machine.quietNaN64`). A free value: no body, nothing can be proved of it.
DEDUCED, log entry 4. -/
opaque Config.nanSource64 : FpOp → F64 → F64 → F64

/-- R13, U3: the same for an operation on binary32 operands; only the sign bit and the low 22 bits of the answer are used. -/
opaque Config.nanSource32 : FpOp → F32 → F32 → F32

/-- R15, U3: the same for the conversion of a binary64 NaN to binary32. -/
opaque Config.nanNarrow : F64 → F32

/-- R15, U3: the same for the conversion of a binary32 NaN to binary64. -/
opaque Config.nanWiden : F32 → F64

/-- R16, U2: the result bits of the cosine that the spec leaves to the numerics configuration. `Machine.cos64` puts
the fixed properties of R16 on top of it. DEDUCED, safe, log entry 5. -/
opaque Config.cosSource : F64 → F64

/-- R16, U2: the result bits of the sine that the spec leaves to the numerics configuration (see `Machine.sin64`). -/
opaque Config.sinSource : F64 → F64

/-- The limits among the structural parameters of R7: the physical extents of the memories and the largest counts. -/
structure Limits where
  pktDepth : Nat
  rawDepth : Nat
  tbufDepth : Nat
  tapMax : Nat
  resLMax : Nat
  resKMax : Nat
  ncoMax : Nat
deriving DecidableEq, Repr

/-- The structural parameters of R7: the slot counts and the limits. -/
structure Params where
  nfir : Nat
  nres : Nat
  ncnv : Nat
  npkt : Nat
  nraw : Nat
  lim : Limits
deriving DecidableEq, Repr

/-- The constraints R7 puts on the limits. -/
abbrev Limits.Ok (l : Limits) : Prop :=
  (1 ≤ l.pktDepth ∧ l.pktDepth ≤ 2 ^ 31 - 1) ∧ (4 ≤ l.rawDepth ∧ l.rawDepth ≤ 2 ^ 31 - 1) ∧
  (1 ≤ l.tbufDepth ∧ l.tbufDepth ≤ 2 ^ 31 - 1) ∧ (3 ≤ l.tapMax ∧ l.tapMax ≤ 2 ^ 31 - 1) ∧
  (1 ≤ l.resLMax ∧ l.resLMax ≤ 2 ^ 31 - 1) ∧ (1 ≤ l.resKMax ∧ l.resKMax ≤ 2 ^ 31 - 1) ∧
  (1 ≤ l.ncoMax ∧ l.ncoMax ≤ 2 ^ 31 - 1)

/-- The constraints R7 puts on the structural parameters. -/
abbrev Params.Ok (p : Params) : Prop :=
  (1 ≤ p.nfir ∧ p.nfir ≤ 16) ∧ (1 ≤ p.nres ∧ p.nres ≤ 16) ∧ (1 ≤ p.ncnv ∧ p.ncnv ≤ 16) ∧
  (2 ≤ p.npkt ∧ p.npkt ≤ 16) ∧ (1 ≤ p.nraw ∧ p.nraw ≤ 16) ∧ p.lim.Ok

/-- The reference values of R7: the spec's own choice, on which no rule depends. -/
def Params.reference : Params where
  nfir := 2
  nres := 2
  ncnv := 1
  npkt := 4
  nraw := 2
  lim :=
    { pktDepth := 65536, rawDepth := 262144, tbufDepth := 16384, tapMax := 4095, resLMax := 10000, resKMax := 1024,
      ncoMax := 4096 }

end Sys2Proof
end

