-- ==== Sys2Proof/Machine/Fp.lean ====
section
/-! DEFINITION. Machine/Fp.lean: the arithmetic of R12 to R17. Every finite value of a format is a whole number of its
smallest subnormal (the UNIT: 2^-149 for binary32, 2^-1074 for binary64), so each operation is computed exactly on whole
numbers of units and rounded once, to nearest with ties to even. -/

namespace Sys2Proof.Machine

/-- A binary interchange format: the widths of its fraction and its exponent field. -/
structure Fmt where
  mbits : Nat
  ebits : Nat
deriving DecidableEq, Repr

/-- R12: binary32. -/
def fmt32 : Fmt := ⟨23, 8⟩

/-- R12: binary64. -/
def fmt64 : Fmt := ⟨52, 11⟩

/-- The magnitude pattern (all bits but the sign) of an infinity. -/
def Fmt.infMag (f : Fmt) : Nat := (2 ^ f.ebits - 1) * 2 ^ f.mbits

/-- The value 1.0 is 2 to this power units. -/
def Fmt.unitExp (f : Fmt) : Nat := 2 ^ (f.ebits - 1) - 2 + f.mbits

/-- The value 1.0 in units. -/
def Fmt.one (f : Fmt) : Nat := 2 ^ f.unitExp

/-- The value, in units, of a finite magnitude pattern. -/
def Fmt.units (f : Fmt) (mag : Nat) : Nat :=
  let e := mag / 2 ^ f.mbits
  if e = 0 then mag else (mag % 2 ^ f.mbits + 2 ^ f.mbits) * 2 ^ (e - 1)

/-- The whole number nearest `num / den`, ties to even (R13). -/
def roundHalfEven (num den : Nat) : Nat :=
  let q := num / den
  let r := num % den
  if den < 2 * r then q + 1 else if 2 * r = den then q + q % 2 else q

/-- The magnitude pattern nearest to `num / den` units, ties to even, overflow to infinity (R13). The quantum of the
binade of the value is `2 ^ sh` units. -/
def Fmt.round (f : Fmt) (num den : Nat) : Nat :=
  let sh := Nat.log2 (num / den) - f.mbits
  min (roundHalfEven num (den * 2 ^ sh) + sh * 2 ^ f.mbits) f.infMag

/-- A floating-point datum, its finite values in units. -/
inductive FpVal where
  | nan
  | inf (neg : Bool)
  | fin (neg : Bool) (units : Nat)
deriving DecidableEq, Repr

/-- An exact result: no number at all, an infinity, or a signed rational number of units. -/
inductive Exact where
  | invalid
  | inf (neg : Bool)
  | rat (neg : Bool) (num den : Nat)
deriving DecidableEq, Repr

/-- The datum a sign and a magnitude pattern stand for. -/
def Fmt.classify (f : Fmt) (neg : Bool) (mag : Nat) : FpVal :=
  if f.infMag < mag then .nan else if mag = f.infMag then .inf neg else .fin neg (f.units mag)

/-- R13: the exact sum. An exact zero is negative only if both operands are negative zeros. -/
def Exact.add : FpVal → FpVal → Exact
  | .nan, _ => .invalid
  | _, .nan => .invalid
  | .inf s, .inf t => if s = t then .inf s else .invalid
  | .inf s, .fin _ _ => .inf s
  | .fin _ _, .inf t => .inf t
  | .fin s a, .fin t b =>
    if s = t then .rat s (a + b) 1
    else if a = b then .rat false 0 1
    else if a < b then .rat t (b - a) 1 else .rat s (a - b) 1

/-- The datum with its sign changed. -/
def FpVal.negate : FpVal → FpVal
  | .nan => .nan
  | .inf s => .inf (!s)
  | .fin s a => .fin (!s) a

/-- R13: the exact product, in units of which `one` make 1.0. -/
def Exact.mul (one : Nat) : FpVal → FpVal → Exact
  | .nan, _ => .invalid
  | _, .nan => .invalid
  | .inf s, .inf t => .inf (s != t)
  | .inf s, .fin t b => if b = 0 then .invalid else .inf (s != t)
  | .fin s a, .inf t => if a = 0 then .invalid else .inf (s != t)
  | .fin s a, .fin t b => .rat (s != t) (a * b) one

/-- R13: the exact quotient, in units of which `one` make 1.0. A non-zero number over zero is an infinity (R199). -/
def Exact.div (one : Nat) : FpVal → FpVal → Exact
  | .nan, _ => .invalid
  | _, .nan => .invalid
  | .inf _, .inf _ => .invalid
  | .inf s, .fin t _ => .inf (s != t)
  | .fin s _, .inf t => .rat (s != t) 0 1
  | .fin s a, .fin t b => if b = 0 then (if a = 0 then .invalid else .inf (s != t)) else .rat (s != t) (a * one) b

/-- One bit of the square root: the bit of weight `2 ^ k` and those below it, `r` holding the bits above. -/
def isqrtFrom (n : Nat) : Nat → Nat → Nat
  | 0, r => if (r + 1) * (r + 1) ≤ n then r + 1 else r
  | k + 1, r => isqrtFrom n k (if (r + 2 ^ (k + 1)) * (r + 2 ^ (k + 1)) ≤ n then r + 2 ^ (k + 1) else r)

/-- The whole part of the square root. -/
def isqrt (n : Nat) : Nat := isqrtFrom n (Nat.log2 n / 2) 0

/-- R13: the square root, in units of which `one` make 1.0. A root that is not whole is given as the middle of the two
whole numbers around it: the points where rounding changes are whole numbers of units for every root of a
representable number, so it rounds as the root itself does. -/
def Exact.sqrt (one : Nat) : FpVal → Exact
  | .nan => .invalid
  | .inf s => if s then .invalid else .inf false
  | .fin s a =>
    if a = 0 then .rat s 0 1
    else if s then .invalid
    else
      let r := isqrt (a * one)
      if r * r = a * one then .rat false r 1 else .rat false (2 * r + 1) 2

/-- A sign and a magnitude pattern, or no number. -/
def Fmt.roundExact (f : Fmt) : Exact → Option (Bool × Nat)
  | .invalid => none
  | .inf s => some (s, f.infMag)
  | .rat s num den => some (s, f.round num den)

/-- The sign bit of a binary64 pattern. -/
def neg64 (x : F64) : Bool := x.msb

/-- The magnitude pattern of a binary64 pattern. -/
def mag64 (x : F64) : Nat := x.toNat % 2 ^ 63

/-- The sign bit of a binary32 pattern. -/
def neg32 (x : F32) : Bool := x.msb

/-- The magnitude pattern of a binary32 pattern. -/
def mag32 (x : F32) : Nat := x.toNat % 2 ^ 31

/-- The datum of a binary64 pattern. -/
def val64 (x : F64) : FpVal := fmt64.classify (neg64 x) (mag64 x)

/-- The datum of a binary32 pattern. -/
def val32 (x : F32) : FpVal := fmt32.classify (neg32 x) (mag32 x)

/-- The binary64 pattern of a sign and a magnitude pattern. -/
def pack64 (neg : Bool) (mag : Nat) : F64 := BitVec.ofNat 64 (if neg then 2 ^ 63 + mag else mag)

/-- The binary32 pattern of a sign and a magnitude pattern. -/
def pack32 (neg : Bool) (mag : Nat) : F32 := BitVec.ofNat 32 (if neg then 2 ^ 31 + mag else mag)

/-- A quiet NaN with the sign and the payload of `source` (R13, U3). -/
def quietNaN64 (source : F64) : F64 := source ||| 0x7FF8000000000000#64

/-- A quiet NaN with the sign and the payload of `source` (R13, U3). -/
def quietNaN32 (source : F32) : F32 := source ||| 0x7FC00000#32

/-- The binary64 pattern of an exact result; `nan` is used where there is no number. -/
def result64 (nan : F64) (r : Exact) : F64 :=
  match fmt64.roundExact r with
  | none => quietNaN64 nan
  | some (s, m) => pack64 s m

/-- The binary32 pattern of an exact result; `nan` is used where there is no number. -/
def result32 (nan : F32) (r : Exact) : F32 :=
  match fmt32.roundExact r with
  | none => quietNaN32 nan
  | some (s, m) => pack32 s m

/-- R13: `add64`. -/
def add64 (x y : F64) : F64 := result64 (Config.nanSource64 .add x y) (.add (val64 x) (val64 y))

/-- R13: `sub64`. -/
def sub64 (x y : F64) : F64 := result64 (Config.nanSource64 .sub x y) (.add (val64 x) (val64 y).negate)

/-- R13: `mul64`. -/
def mul64 (x y : F64) : F64 := result64 (Config.nanSource64 .mul x y) (.mul fmt64.one (val64 x) (val64 y))

/-- R13: `div64`. -/
def div64 (x y : F64) : F64 := result64 (Config.nanSource64 .div x y) (.div fmt64.one (val64 x) (val64 y))

/-- R13: `sqrt64`. -/
def sqrt64 (x : F64) : F64 := result64 (Config.nanSource64 .sqrt x x) (.sqrt fmt64.one (val64 x))

/-- R13: `add32`. -/
def add32 (x y : F32) : F32 := result32 (Config.nanSource32 .add x y) (.add (val32 x) (val32 y))

/-- R13: `sub32`. -/
def sub32 (x y : F32) : F32 := result32 (Config.nanSource32 .sub x y) (.add (val32 x) (val32 y).negate)

/-- R13: `mul32`. -/
def mul32 (x y : F32) : F32 := result32 (Config.nanSource32 .mul x y) (.mul fmt32.one (val32 x) (val32 y))

/-- R14: `isNaN`. -/
def isNaN64 (x : F64) : Bool := fmt64.infMag < mag64 x

/-- R14: `isNaN` on binary32. -/
def isNaN32 (x : F32) : Bool := fmt32.infMag < mag32 x

/-- The place of a datum that is no NaN in the order of the numbers: the two zeros share one place. -/
def order64 (x : F64) : Int := if neg64 x then -(mag64 x : Int) else mag64 x

/-- The place of a datum that is no NaN in the order of the numbers: the two zeros share one place. -/
def order32 (x : F32) : Int := if neg32 x then -(mag32 x : Int) else mag32 x

/-- R14: `x < y`, false if either is a NaN. -/
def lt64 (x y : F64) : Bool := !isNaN64 x && !isNaN64 y && decide (order64 x < order64 y)

/-- R14: `x <= y`, false if either is a NaN. `x > y` is `lt64 y x` and `x >= y` is `le64 y x`. -/
def le64 (x y : F64) : Bool := !isNaN64 x && !isNaN64 y && decide (order64 x ≤ order64 y)

/-- R14: `x = y` as numbers, false if either is a NaN. -/
def eq64 (x y : F64) : Bool := !isNaN64 x && !isNaN64 y && decide (order64 x = order64 y)

/-- R14: `x < y` on binary32, false if either is a NaN. -/
def lt32 (x y : F32) : Bool := !isNaN32 x && !isNaN32 y && decide (order32 x < order32 y)

/-- R14: `x <= y` on binary32, false if either is a NaN. -/
def le32 (x y : F32) : Bool := !isNaN32 x && !isNaN32 y && decide (order32 x ≤ order32 y)

/-- R14: `x = y` as numbers on binary32, false if either is a NaN. -/
def eq32 (x y : F32) : Bool := !isNaN32 x && !isNaN32 y && decide (order32 x = order32 y)

/-- R15: `ofInt64`, the binary64 value nearest a whole number. -/
def ofInt64 (n : Int) : F64 := pack64 (decide (n < 0)) (fmt64.round (n.natAbs * fmt64.one) 1)

/-- R15: `cvt32`, a binary64 value rounded to binary32. -/
def cvt32 (x : F64) : F32 :=
  match val64 x with
  | .nan => quietNaN32 (Config.nanNarrow x)
  | .inf s => pack32 s fmt32.infMag
  | .fin s a => pack32 s (fmt32.round (a * fmt32.one) fmt64.one)

/-- R15: `cvt64`, a binary32 value widened exactly. -/
def cvt64 (x : F32) : F64 :=
  match val32 x with
  | .nan => quietNaN64 (Config.nanWiden x)
  | .inf s => pack64 s fmt64.infMag
  | .fin s a => pack64 s (fmt64.round (a * fmt64.one) fmt32.one)

/-- R15: `floorInt`, the largest whole number not above a finite value. R132 never calls it on anything else. -/
def floorInt (x : F64) : Int :=
  match val64 x with
  | .nan => 0
  | .inf _ => 0
  | .fin s a => (if s then -(a : Int) else a) / (fmt64.one : Int)

/-- 1.0. -/
def one64 : F64 := 0x3FF0000000000000#64

/-- -1.0. -/
def minusOne64 : F64 := 0xBFF0000000000000#64

/-- R16: what every elementary function has in common. A NaN or an infinity gives a NaN, +0.0 gives `atZero`, and the
free value `source` decides the rest, kept within [-1.0, 1.0]. -/
def elementary (nan : F64) (atZero : F64) (source : F64) (x : F64) : F64 :=
  if fmt64.infMag ≤ mag64 x then quietNaN64 nan
  else if x = 0#64 then atZero
  else if le64 minusOne64 source && le64 source one64 then source
  else atZero

/-- R16: `cos64`. -/
def cos64 (x : F64) : F64 := elementary (Config.nanSource64 .cos x x) one64 (Config.cosSource x) x

/-- R16: `sin64`. -/
def sin64 (x : F64) : F64 := elementary (Config.nanSource64 .sin x x) 0#64 (Config.sinSource x) x

end Sys2Proof.Machine
end

