-- ==== Sys2Proof/Machine/Constants.lean ====
section
/-! DEFINITION. Machine/Constants.lean: the named numeric constants of R8, each the binary64 pattern the rule's table gives. -/

namespace Sys2Proof.Machine

/-- R8: `C_BLK_A0`, 0.42. -/
def cBlkA0 : F64 := 0x3FDAE147AE147AE1#64
/-- R8: `C_BLK_A1`, 0.5. -/
def cBlkA1 : F64 := 0x3FE0000000000000#64
/-- R8: `C_BLK_A2`, 0.08. -/
def cBlkA2 : F64 := 0x3FB47AE147AE147B#64
/-- R8: `C_HAM_A0`, 0.54. -/
def cHamA0 : F64 := 0x3FE147AE147AE148#64
/-- R8: `C_HAM_A1`, 0.46. -/
def cHamA1 : F64 := 0x3FDD70A3D70A3D71#64
/-- R8: `C_I0_EPS`, 1e-12. -/
def cI0Eps : F64 := 0x3D719799812DEA11#64
/-- R8: `C_NTAPS_DIV`, 22.0. -/
def cNtapsDiv : F64 := 0x4036000000000000#64
/-- R8: `C_NORM`, 32768.0. -/
def cNorm : F64 := 0x40E0000000000000#64
/-- R8: `C_RES_ATTEN`, 72.22. -/
def cResAtten : F64 := 0x40520E147AE147AE#64
/-- R8: `C_FBW_DEFAULT`, 0.4. A value the host writes (R100); no command uses it. -/
def cFbwDefault : F64 := 0x3FD999999999999A#64
/-- R8: `C_HALFBAND`, 0.5. -/
def cHalfband : F64 := 0x3FE0000000000000#64
/-- R8: `C_RES_BETA`, 7.0. -/
def cResBeta : F64 := 0x401C000000000000#64
/-- R8: `C_FBW_LO`, 0.001. -/
def cFbwLo : F64 := 0x3F50624DD2F1A9FC#64
/-- R8: `C_FBW_HI`, 0.499. -/
def cFbwHi : F64 := 0x3FDFEF9DB22D0E56#64
/-- R8: `C_I0_XMAX`, 700.0. -/
def cI0Xmax : F64 := 0x4085E00000000000#64
/-- R8: `PI64`. -/
def pi64 : F64 := 0x400921FB54442D18#64
/-- 2.0. -/
def two64 : F64 := 0x4000000000000000#64
/-- 4.0. -/
def four64 : F64 := 0x4010000000000000#64
/-- R17: `TWO_PI64`. -/
def twoPi64 : F64 := mul64 two64 pi64
/-- +0.0. -/
def zero64 : F64 := 0#64
/-- +0.0. -/
def zero32 : F32 := 0#32

end Sys2Proof.Machine
end

