-- ==== Sys2Proof/Machine/Memory.lean ====
section
/-! DEFINITION. Machine/Memory.lean: an element memory (R35 to R44, R70) as a list of (index, value) pairs, indices
strictly rising, no pair holding what an unlisted index reads as. -/

namespace Sys2Proof.Machine

/-- An element memory whose elements have `w` bits. A memory of bytes is a list of `Host.Cell`. -/
abbrev Mem (w : Nat) := List (Nat × BitVec w)

/-- What an unlisted index reads as. R62 leaves the contents after reset open; DESIGN CHOICE: zero, unsafe, log entry 3. -/
def Mem.unlisted (w : Nat) : BitVec w := 0#w

/-- The element at an index (R71). -/
def Mem.read {w : Nat} : Mem w → Nat → BitVec w
  | [], _ => Mem.unlisted w
  | (j, v) :: m, i => if i = j then v else Mem.read m i

/-- A pair in front of a memory, left out where it holds what an unlisted index reads as. -/
def Mem.push {w : Nat} (i : Nat) (v : BitVec w) (m : Mem w) : Mem w := if v = Mem.unlisted w then m else (i, v) :: m

/-- The memory with one element replaced whole (R71, R75). -/
def Mem.write {w : Nat} (m : Mem w) (i : Nat) (v : BitVec w) : Mem w :=
  m.filter (fun c => decide (c.1 < i)) ++ Mem.push i v (m.filter fun c => decide (i < c.1))

/-- `n` elements from index `base + k` on, the one at `base + j` being `f j`, in front of a memory of higher indices. -/
def Mem.block {w : Nat} (base : Nat) (f : Nat → BitVec w) (above : Mem w) : Nat → Nat → Mem w
  | 0, _ => above
  | n + 1, k => Mem.push (base + k) (f k) (Mem.block base f above n (k + 1))

/-- The memory with `n` elements from index `base` on replaced, the one at `base + k` by `f k`. -/
def Mem.fill {w : Nat} (m : Mem w) (base n : Nat) (f : Nat → BitVec w) : Mem w :=
  m.filter (fun c => decide (c.1 < base)) ++
    Mem.block base f (m.filter fun c => decide (base + n ≤ c.1)) n 0

/-- A memory of physical extent `extent` with the listed contents: pairs are written in turn, those outside the extent
dropped. -/
def Mem.load {w : Nat} (extent : Nat) (contents : List (Nat × BitVec w)) : Mem w :=
  contents.foldl (fun m c => if c.1 < extent then m.write c.1 c.2 else m) []

/-- The canonical form. -/
abbrev Mem.wf {w : Nat} (m : Mem w) : Prop := m.Pairwise (fun c d => c.1 < d.1) ∧ ∀ c ∈ m, c.2 ≠ Mem.unlisted w

/-- Every listed index lies inside the physical extent (R71). -/
abbrev Mem.within {w : Nat} (m : Mem w) (extent : Nat) : Prop := ∀ c ∈ m, c.1 < extent

end Sys2Proof.Machine
end

