-- ==== Sys2Proof/Machine/State.lean ====
section
/-! DEFINITION. Machine/State.lean: everything the spec gives the block (R30 to R46), the queue of host actions the step
reads, and the state after reset (R62, R211). -/

namespace Sys2Proof.Machine

/-- Why a step could stop the machine. There is no such reason: every error of the block is a status code with a next
state (R190, R194), every access of a command is in range (R206) and a host access outside an extent reads as zero or
is ignored (R71). -/
inductive Fault
deriving DecidableEq, Repr

/-- Why a step gives no result. -/
inductive Refusal where
  /-- Raised by an arm of `exec` whose instruction has no meaning yet; safe. No arm does so. -/
  | notModelled (mnemonic : String)
  /-- Raised where the fuel of the I0 series runs out (R115, U5); safe. No legal operand reaches it. -/
  | seriesFuelExhausted
  /-- Raised where the fuel of the mediant search runs out (R121, R216, U5); safe. No legal operand reaches it. -/
  | mediantFuelExhausted
  /-- Raised where the fuel of the oscillator length search runs out (R176, R216, U5); safe. No converter that `CNVINIT`
  built reaches it. -/
  | lengthFuelExhausted
deriving DecidableEq, Repr

/-- R35: one complex sample packet slot. -/
structure Packet where
  cap : Word32
  size : Word32
  rate : Word32
  freq : Word64
  freqValid : Bool
  re : Mem 32
  im : Mem 32
deriving DecidableEq, Repr

/-- R38: one raw byte buffer slot. -/
structure RawSlot where
  len : Word32
  byte : Mem 8
deriving DecidableEq, Repr

/-- R39: the tap staging buffer. -/
structure TapBuffer where
  tlen : Word32
  t : Mem 32
deriving DecidableEq, Repr

/-- R40: one FIR context. -/
structure FirCtx where
  valid : Bool
  ntaps : Word32
  decim : Word32
  taps : Mem 32
  dre : Mem 32
  dim : Mem 32
  tapCur : Word32
  decCur : Word32
deriving DecidableEq, Repr

/-- R42: one resampler context. `L`, `M` and `K` of the rule are `facL`, `facM` and `subLen`; the coefficient `ph[p][k]`
stands at index `p * RES_K_MAX + k`. -/
structure ResCtx where
  valid : Bool
  facL : Word32
  facM : Word32
  subLen : Word32
  ph : Mem 32
  dre : Mem 32
  dim : Mem 32
  pos : Word32
  ctr : Word32
deriving DecidableEq, Repr

/-- R44: one converter context. -/
structure CnvCtx where
  valid : Bool
  lut : Mem 32
  rate : Word32
  center : Word64
  maxlen : Word32
  ncoValid : Bool
  ncoFreq : Word64
  ncoLen : Word32
  cos : Mem 32
  sin : Mem 32
  cur : Word32
deriving DecidableEq, Repr

/-- R70, R71: the name of an element the host port can reach: a register, a scalar field, or one element of an array. -/
inductive Elem where
  | a (i : Nat) | r (i : Nat) | cmd | status
  | pktCap (p : Nat) | pktSize (p : Nat) | pktRate (p : Nat) | pktFreq (p : Nat) | pktFreqValid (p : Nat)
  | pktRe (p i : Nat) | pktIm (p i : Nat)
  | rawLen (b : Nat) | rawByte (b i : Nat)
  | tbufLen | tbufT (i : Nat)
  | firValid (c : Nat) | firNtaps (c : Nat) | firDecim (c : Nat) | firTaps (c i : Nat) | firDre (c i : Nat)
  | firDim (c i : Nat) | firTapCur (c : Nat) | firDecCur (c : Nat)
  | resValid (c : Nat) | resL (c : Nat) | resM (c : Nat) | resK (c : Nat) | resPh (c p k : Nat) | resDre (c i : Nat)
  | resDim (c i : Nat) | resPos (c : Nat) | resCtr (c : Nat)
  | cnvValid (c : Nat) | cnvLut (c u : Nat) | cnvRate (c : Nat) | cnvCenter (c : Nat) | cnvMaxlen (c : Nat)
  | cnvNcoValid (c : Nat) | cnvNcoFreq (c : Nat) | cnvNcoLen (c : Nat) | cnvCos (c i : Nat) | cnvSin (c i : Nat)
  | cnvCur (c : Nat)
deriving DecidableEq, Repr

/-- R62, U1: what the element memories hold after a reset, slot by slot: any contents at all. A slot past the end of a
list holds zeros. -/
structure InitMem where
  pktRe : List (Mem 32) := []
  pktIm : List (Mem 32) := []
  rawByte : List (Mem 8) := []
  tbufT : Mem 32 := []
  firTaps : List (Mem 32) := []
  firDre : List (Mem 32) := []
  firDim : List (Mem 32) := []
  resPh : List (Mem 32) := []
  resDre : List (Mem 32) := []
  resDim : List (Mem 32) := []
  cnvLut : List (Mem 32) := []
  cnvCos : List (Mem 32) := []
  cnvSin : List (Mem 32) := []
deriving DecidableEq, Repr

/-- What the outside world does to the block (R5, R71, R210): a read, a write (of `CMD`: a command), or a reset that
leaves the element memories with the given contents. -/
inductive HostAction where
  | read (e : Elem)
  | write (e : Elem) (v : Word64)
  | reset (contents : InitMem)
deriving DecidableEq, Repr

/-- The whole machine. `lim` and the lengths of the slot lists are the structural parameters of R7, which no step
changes; `host` is the host's list of actions still to come (R34, R80). Both are the model's own fields
(DESIGN CHOICE, log entries 1 and 2). -/
structure State where
  a : Vector Word64 8
  r : Vector Word64 2
  cmd : Word32
  status : Word32
  pkt : List Packet
  raw : List RawSlot
  tbuf : TapBuffer
  fir : List FirCtx
  res : List ResCtx
  cnv : List CnvCtx
  lim : Limits
  host : List HostAction
deriving DecidableEq, Repr

/-- R35, R211: a packet slot after reset, its element memories holding `re` and `im`. -/
def Packet.afterReset (re im : Mem 32) : Packet where
  cap := 0
  size := 0
  rate := 0
  freq := 0
  freqValid := false
  re := re
  im := im

/-- R38, R211: a raw slot after reset. -/
def RawSlot.afterReset (byte : Mem 8) : RawSlot where
  len := 0
  byte := byte

/-- R40, R211: a FIR context after reset. -/
def FirCtx.afterReset (taps dre dim : Mem 32) : FirCtx where
  valid := false
  ntaps := 0
  decim := 0
  taps := taps
  dre := dre
  dim := dim
  tapCur := 0
  decCur := 0

/-- R42, R211: a resampler context after reset. -/
def ResCtx.afterReset (ph dre dim : Mem 32) : ResCtx where
  valid := false
  facL := 0
  facM := 0
  subLen := 0
  ph := ph
  dre := dre
  dim := dim
  pos := 0
  ctr := 0

/-- R44, R211: a converter context after reset. -/
def CnvCtx.afterReset (lut cos sin : Mem 32) : CnvCtx where
  valid := false
  lut := lut
  rate := 0
  center := 0
  maxlen := 0
  ncoValid := false
  ncoFreq := 0
  ncoLen := 0
  cos := cos
  sin := sin
  cur := 0

/-- R62, R211: the state right after reset of a block with structural parameters `p`, its element memories holding
`m`, and nothing asked of it yet. -/
def State.resetWith (p : Params) (m : InitMem) : State where
  a := Vector.replicate 8 0
  r := Vector.replicate 2 0
  cmd := 0
  status := 0
  pkt := (List.range p.npkt).map fun i =>
    .afterReset (.load p.lim.pktDepth (m.pktRe.getD i [])) (.load p.lim.pktDepth (m.pktIm.getD i []))
  raw := (List.range p.nraw).map fun i => .afterReset (.load p.lim.rawDepth (m.rawByte.getD i []))
  tbuf := { tlen := 0, t := .load p.lim.tbufDepth m.tbufT }
  fir := (List.range p.nfir).map fun i =>
    .afterReset (.load p.lim.tapMax (m.firTaps.getD i [])) (.load p.lim.tapMax (m.firDre.getD i []))
      (.load p.lim.tapMax (m.firDim.getD i []))
  res := (List.range p.nres).map fun i =>
    .afterReset (.load (p.lim.resLMax * p.lim.resKMax) (m.resPh.getD i [])) (.load p.lim.resKMax (m.resDre.getD i []))
      (.load p.lim.resKMax (m.resDim.getD i []))
  cnv := (List.range p.ncnv).map fun i =>
    .afterReset (.load 65536 (m.cnvLut.getD i [])) (.load p.lim.ncoMax (m.cnvCos.getD i []))
      (.load p.lim.ncoMax (m.cnvSin.getD i []))
  lim := p.lim
  host := []

/-- R211: the state right after reset, with the reference parameters of R7 and, for the element memories R62 leaves
open, nothing listed (DESIGN CHOICE, unsafe, log entry 3). -/
def State.reset : State := State.resetWith .reference {}

end Sys2Proof.Machine
end

