-- ==== Sys2Proof/Machine/Flags.lean ====
section
/-! DEFINITION. Machine/Flags.lean: the status register (R33) and the error codes (R191). It is the only status the block
has: there are no condition codes and no floating-point flags (R13, R33). -/

namespace Sys2Proof.Machine

/-- R191: the error codes but 0. -/
inductive ErrCode where
  | invalidFilterParameters
  | invalidResamplerParameters
  | illegalCommand
  | badIndex
  | notConstructed
  | badOperand
  | capacityExceeded
deriving DecidableEq, Repr

/-- R191: the number of an error code. -/
def ErrCode.number : ErrCode → Nat
  | .invalidFilterParameters => 1
  | .invalidResamplerParameters => 2
  | .illegalCommand => 3
  | .badIndex => 4
  | .notConstructed => 5
  | .badOperand => 6
  | .capacityExceeded => 7

/-- R33: the status word with the given code: `busy` and the bits above it are zero. -/
def statusWord (code : Nat) : Word32 := BitVec.setWidth 32 (BitVec.ofNat 8 code)

/-- R33: `STATUS.code`. -/
def State.code (s : State) : Nat := (s.status.extractLsb' 0 8).toNat

/-- R33: `STATUS.busy`. -/
def State.busy (s : State) : Bool := s.status.getLsbD 8

end Sys2Proof.Machine
end

