-- ==== Sys2Proof/Machine/Ops.lean ====
section
/-! DEFINITION. Machine/Ops.lean: the named operations over registers, slots and the host port. -/

namespace Sys2Proof.Machine

/-- R11, R194: `raise E`, the one way an error is taken: the code goes to the status register and nothing else changes.
There is no return from it (R195). -/
def State.raise (s : State) (e : ErrCode) : State := { s with status := statusWord e.number }

/-- R11: the end of a command without `raise`: code 0. -/
def State.complete (s : State) : State := { s with status := statusWord 0 }

/-- R30: an argument register. -/
def State.arg (s : State) (i : Fin 8) : Word64 := s.a[i]

/-- R31: a result register written. -/
def State.setR (s : State) (i : Fin 2) (v : Word64) : State := { s with r := s.r.set i v }

/-- R35: a packet slot replaced. -/
def State.setPkt (s : State) (p : Nat) (x : Packet) : State := { s with pkt := s.pkt.set p x }

/-- R40: a FIR context replaced. -/
def State.setFir (s : State) (c : Nat) (x : FirCtx) : State := { s with fir := s.fir.set c x }

/-- R42: a resampler context replaced. -/
def State.setRes (s : State) (c : Nat) (x : ResCtx) : State := { s with res := s.res.set c x }

/-- R44: a converter context replaced. -/
def State.setCnv (s : State) (c : Nat) (x : CnvCtx) : State := { s with cnv := s.cnv.set c x }

/-- R36: `PktOK`. -/
abbrev PktOK (l : Limits) (p : Packet) : Prop := p.size.toNat ≤ p.cap.toNat ∧ p.cap.toNat ≤ l.pktDepth

/-- R38: `RawOK`. -/
abbrev RawOK (l : Limits) (b : RawSlot) : Prop := b.len.toNat ≤ l.rawDepth

/-- R42: where `ph[p][k]` stands in the coefficient memory of a resampler context (DESIGN CHOICE, safe, log entry 11). -/
def phIndex (l : Limits) (p k : Nat) : Nat := p * l.resKMax + k

/-- The 64 bits the host port gives for an element of `w` bits (R71: the whole element; DESIGN CHOICE, log entry 12). -/
def portValue {w : Nat} (v : BitVec w) : Word64 := v.setWidth 64

/-- One bit as the host port gives it. -/
def portBit (b : Bool) : Word64 := if b then 1 else 0

/-- R71: an element of an array, zero outside its physical extent. -/
def portElem {w : Nat} (extent : Nat) (m : Mem w) (i : Nat) : Word64 := if i < extent then portValue (m.read i) else 0

/-- R71: a field of a slot, zero where there is no such slot (DEDUCED, log entry 7). -/
def portSlot {α : Type} (slots : List α) (i : Nat) (f : α → Word64) : Word64 :=
  match slots[i]? with
  | some x => f x
  | none => 0

/-- R71: `HostRead`. -/
def hostRead (s : State) : Elem → Word64
  | .a i => if h : i < 8 then s.a[i] else 0
  | .r i => if h : i < 2 then s.r[i] else 0
  | .cmd => portValue s.cmd
  | .status => portValue s.status
  | .pktCap p => portSlot s.pkt p fun x => portValue x.cap
  | .pktSize p => portSlot s.pkt p fun x => portValue x.size
  | .pktRate p => portSlot s.pkt p fun x => portValue x.rate
  | .pktFreq p => portSlot s.pkt p fun x => portValue x.freq
  | .pktFreqValid p => portSlot s.pkt p fun x => portBit x.freqValid
  | .pktRe p i => portSlot s.pkt p fun x => portElem s.lim.pktDepth x.re i
  | .pktIm p i => portSlot s.pkt p fun x => portElem s.lim.pktDepth x.im i
  | .rawLen b => portSlot s.raw b fun x => portValue x.len
  | .rawByte b i => portSlot s.raw b fun x => portElem s.lim.rawDepth x.byte i
  | .tbufLen => portValue s.tbuf.tlen
  | .tbufT i => portElem s.lim.tbufDepth s.tbuf.t i
  | .firValid c => portSlot s.fir c fun x => portBit x.valid
  | .firNtaps c => portSlot s.fir c fun x => portValue x.ntaps
  | .firDecim c => portSlot s.fir c fun x => portValue x.decim
  | .firTaps c i => portSlot s.fir c fun x => portElem s.lim.tapMax x.taps i
  | .firDre c i => portSlot s.fir c fun x => portElem s.lim.tapMax x.dre i
  | .firDim c i => portSlot s.fir c fun x => portElem s.lim.tapMax x.dim i
  | .firTapCur c => portSlot s.fir c fun x => portValue x.tapCur
  | .firDecCur c => portSlot s.fir c fun x => portValue x.decCur
  | .resValid c => portSlot s.res c fun x => portBit x.valid
  | .resL c => portSlot s.res c fun x => portValue x.facL
  | .resM c => portSlot s.res c fun x => portValue x.facM
  | .resK c => portSlot s.res c fun x => portValue x.subLen
  | .resPh c p k => portSlot s.res c fun x =>
      if p < s.lim.resLMax ∧ k < s.lim.resKMax then portValue (x.ph.read (phIndex s.lim p k)) else 0
  | .resDre c i => portSlot s.res c fun x => portElem s.lim.resKMax x.dre i
  | .resDim c i => portSlot s.res c fun x => portElem s.lim.resKMax x.dim i
  | .resPos c => portSlot s.res c fun x => portValue x.pos
  | .resCtr c => portSlot s.res c fun x => portValue x.ctr
  | .cnvValid c => portSlot s.cnv c fun x => portBit x.valid
  | .cnvLut c u => portSlot s.cnv c fun x => portElem 65536 x.lut u
  | .cnvRate c => portSlot s.cnv c fun x => portValue x.rate
  | .cnvCenter c => portSlot s.cnv c fun x => portValue x.center
  | .cnvMaxlen c => portSlot s.cnv c fun x => portValue x.maxlen
  | .cnvNcoValid c => portSlot s.cnv c fun x => portBit x.ncoValid
  | .cnvNcoFreq c => portSlot s.cnv c fun x => portValue x.ncoFreq
  | .cnvNcoLen c => portSlot s.cnv c fun x => portValue x.ncoLen
  | .cnvCos c i => portSlot s.cnv c fun x => portElem s.lim.ncoMax x.cos i
  | .cnvSin c i => portSlot s.cnv c fun x => portElem s.lim.ncoMax x.sin i
  | .cnvCur c => portSlot s.cnv c fun x => portValue x.cur

/-- R71: an element of an array replaced, ignored outside its physical extent. -/
def pokeElem {w : Nat} (extent : Nat) (m : Mem w) (i : Nat) (v : Word64) : Mem w :=
  if i < extent then m.write i (v.setWidth w) else m

/-- R71: `HostWrite` of an element other than `CMD`, the value truncated to the element's width. A write to an element
the host may not write, or to a slot or index that does not exist, is ignored. A write to `CMD` is a command
(R32) and is the step's own. -/
def hostWrite (s : State) (e : Elem) (v : Word64) : State :=
  match e with
  | .a i => if h : i < 8 then { s with a := s.a.set i v } else s
  | .pktCap p => { s with pkt := s.pkt.modify p fun x => { x with cap := v.setWidth 32 } }
  | .pktSize p => { s with pkt := s.pkt.modify p fun x => { x with size := v.setWidth 32 } }
  | .pktRate p => { s with pkt := s.pkt.modify p fun x => { x with rate := v.setWidth 32 } }
  | .pktFreq p => { s with pkt := s.pkt.modify p fun x => { x with freq := v } }
  | .pktFreqValid p => { s with pkt := s.pkt.modify p fun x => { x with freqValid := v.getLsbD 0 } }
  | .pktRe p i => { s with pkt := s.pkt.modify p fun x => { x with re := pokeElem s.lim.pktDepth x.re i v } }
  | .pktIm p i => { s with pkt := s.pkt.modify p fun x => { x with im := pokeElem s.lim.pktDepth x.im i v } }
  | .rawLen b => { s with raw := s.raw.modify b fun x => { x with len := v.setWidth 32 } }
  | .rawByte b i => { s with raw := s.raw.modify b fun x => { x with byte := pokeElem s.lim.rawDepth x.byte i v } }
  | .tbufLen => { s with tbuf := { s.tbuf with tlen := v.setWidth 32 } }
  | .tbufT i => { s with tbuf := { s.tbuf with t := pokeElem s.lim.tbufDepth s.tbuf.t i v } }
  | .r _ | .cmd | .status => s
  | .firValid _ | .firNtaps _ | .firDecim _ | .firTaps _ _ | .firDre _ _ | .firDim _ _ | .firTapCur _ | .firDecCur _ => s
  | .resValid _ | .resL _ | .resM _ | .resK _ | .resPh _ _ _ | .resDre _ _ | .resDim _ _ | .resPos _ | .resCtr _ => s
  | .cnvValid _ | .cnvLut _ _ | .cnvRate _ | .cnvCenter _ | .cnvMaxlen _ | .cnvNcoValid _ | .cnvNcoFreq _
  | .cnvNcoLen _ | .cnvCos _ _ | .cnvSin _ _ | .cnvCur _ => s

/-- The structural parameters of the block (R7). -/
def State.params (s : State) : Params where
  nfir := s.fir.length
  nres := s.res.length
  ncnv := s.cnv.length
  npkt := s.pkt.length
  nraw := s.raw.length
  lim := s.lim

/-- R210, R211: a reset by the platform between two host actions, the element memories holding `m` afterwards. The
host's own list goes on. -/
def State.platformReset (s : State) (m : InitMem) : State := { State.resetWith s.params m with host := s.host }

/-- R32: the command register takes the word the host writes. -/
def State.latch (s : State) (w : Word32) : State := { s with cmd := w }

end Sys2Proof.Machine
end

