-- ==== Sys2Proof/Machine/Operands.lean ====
section
/-! DEFINITION. Machine/Operands.lean: how a command reads its argument registers and writes its results (R10, R99, R100),
and the operand checks that several commands share. -/

namespace Sys2Proof.Machine

/-- R10: `ai(i)`, an argument register read as a signed 64-bit integer. -/
def State.ai (s : State) (i : Fin 8) : Int := (s.arg i).toInt

/-- R10: `af(i)`, an argument register read as the pattern of a binary64 value. -/
def State.af (s : State) (i : Fin 8) : F64 := s.arg i

/-- R100: a whole-number result, zero-extended to 64 bits. -/
def intResult (n : Nat) : Word64 := BitVec.ofNat 64 n

/-- R110: the contract of a window generator. -/
abbrev WindowContract (n N : Int) : Prop := (2 ≤ N ∧ N ≤ 2 ^ 31 - 1) ∧ 0 ≤ n ∧ n ≤ N - 1

/-- R113, R114, R130: the domain of I0 and of the Kaiser shape parameter. A NaN is outside it. -/
def seriesDomain (x : F64) : Bool := le64 zero64 x && le64 x cI0Xmax

/-- R121: the range of an operand of `RATAPX`. -/
abbrev RatOperand (n : Int) : Prop := 1 ≤ n ∧ n ≤ 2 ^ 32 - 1

/-- R134, R156: the operand tests of a command that moves samples from packet `src` to packet `dst`. -/
abbrev StreamOperands (l : Limits) (src dst : Nat) (inp out : Packet) (off len : Int) : Prop :=
  src ≠ dst ∧ PktOK l inp ∧ PktOK l out ∧ 0 ≤ off ∧ 0 ≤ len ∧ off + len ≤ inp.size.toNat

/-- R171, R178: the range of a frequency. -/
abbrev FreqInRange (n : Int) : Prop := -2 ^ 62 ≤ n ∧ n ≤ 2 ^ 62

end Sys2Proof.Machine
end

