-- ==== Sys2Proof/Machine/Converter.lean ====
section
/-! DEFINITION. Machine/Converter.lean: the fixed-point IQ converter with digital mixer (R170 to R182), `CNVINIT`,
`CNVFILL` and `CNVMIX`. -/

namespace Sys2Proof.Machine

/-- R172: a raw 16-bit pattern read as two's complement. -/
def rawSigned (u : Nat) : Int := if u < 32768 then u else (u : Int) - 65536

/-- R172: `Norm`, an entry of the normalization table. -/
def normEntry (u : Nat) : F32 := cvt32 (div64 (ofInt64 (rawSigned u)) cNorm)

/-- R171: the context that `CNVINIT` leaves: the table built, the configuration set, the oscillator cache emptied. -/
def CnvCtx.built (C : CnvCtx) (fs fcen ml : Int) : CnvCtx :=
  { C with
    valid := true, lut := C.lut.fill 0 65536 normEntry, rate := BitVec.ofInt 32 fs, center := BitVec.ofInt 64 fcen
    maxlen := BitVec.ofInt 32 ml, ncoValid := false, ncoFreq := 0, ncoLen := 0, cur := 0 }

/-- R171: `CNVINIT`. -/
def execCnvinit (ctx : Nat) (s : State) : Host.Outcome State Fault Refusal :=
  match s.cnv[ctx]? with
  | none => .next (s.raise .badIndex)
  | some C =>
    let s0 := s.setCnv ctx { C with valid := false }
    if s.ai 0 < 1 ∨ 2 ^ 32 - 1 < s.ai 0 then .next (s0.raise .badOperand)
    else if ¬ FreqInRange (s.ai 1) then .next (s0.raise .badOperand)
    else if s.ai 2 < 1 ∨ (s.lim.ncoMax : Int) < s.ai 2 then .next (s0.raise .badOperand)
    else .next (s.setCnv ctx (C.built (s.ai 0) (s.ai 1) (s.ai 2))).complete

/-- R74: the 16-bit pattern in the bytes `i` (low) and `i + 1` (high) of a raw slot. -/
def rawPattern (b : RawSlot) (i : Nat) : Nat := (b.byte.read i).toNat + 256 * (b.byte.read (i + 1)).toNat

/-- R74: the pattern of the I part of a raw sample. -/
def rawI (b : RawSlot) (j : Nat) : Nat := rawPattern b (4 * j)

/-- R74: the pattern of the Q part of a raw sample. -/
def rawQ (b : RawSlot) (j : Nat) : Nat := rawPattern b (4 * j + 2)

/-- R173, R178: how many samples a fill converts: whole groups of four bytes, room in the packet (R76). -/
def fillCount (b : RawSlot) (out : Packet) : Nat := min (b.len.toNat / 4) (out.cap.toNat - out.size.toNat)

/-- R173: the packet after a straight fill of `n` samples. -/
def fillOutput (C : CnvCtx) (b : RawSlot) (out : Packet) (n : Nat) : Packet :=
  { out with
    re := out.re.fill out.size.toNat n fun j => C.lut.read (rawI b j)
    im := out.im.fill out.size.toNat n fun j => C.lut.read (rawQ b j)
    size := BitVec.ofNat 32 (out.size.toNat + n)
    rate := C.rate, freq := C.center, freqValid := true }

/-- R173: `CNVFILL`. -/
def execCnvfill (ctx src dst : Nat) (s : State) : Host.Outcome State Fault Refusal :=
  match s.cnv[ctx]?, s.raw[src]?, s.pkt[dst]? with
  | some C, some b, some out =>
    if C.valid = false then .next (s.raise .notConstructed)
    else if ¬ (RawOK s.lim b ∧ PktOK s.lim out) then .next (s.raise .badOperand)
    else
      let n := fillCount b out
      if n = 0 then .next (s.setR 0 (intResult 0)).complete
      else .next ((s.setPkt dst (fillOutput C b out n)).setR 0 (intResult n)).complete
  | _, _, _ => .next (s.raise .badIndex)

/-- R175: `EffectiveMix`. -/
def effectiveMix (C : CnvCtx) (chan : Int) : Int :=
  let mf := C.center.toInt - chan
  if mf = 0 ∨ C.maxlen.toNat * mf.natAbs < C.rate.toNat then mf + C.rate.toNat else mf

/-- R176: the best table length found so far and its error. -/
structure LengthBest where
  len : Nat
  err : Nat
deriving DecidableEq, Repr

/-- R176: the candidate of `i` cycles taken where it is better. -/
def LengthBest.consider (rate A i : Nat) (b : LengthBest) : LengthBest :=
  if (i * rate) % A < b.err then { len := (i * rate) / A, err := (i * rate) % A } else b

/-- R176: the length search from `i` cycles on, under fuel. -/
def lengthSearch (rate A ml : Nat) : Nat → Nat → LengthBest → Option LengthBest
  | 0, _, _ => none
  | fuel + 1, i, b => if i * rate < ml * A then lengthSearch rate A ml fuel (i + 1) (b.consider rate A i) else some b

/-- Fuel enough for the length search at any sample rate of 1 or more: the loop runs at most `(ml * A - 1) / rate` times. -/
def lengthFuel (rate A ml : Nat) : Nat := ml * A / rate + 1

/-- R176: the table length for the frequency `f`. -/
def tableLength (rate A ml : Nat) : Option LengthBest :=
  lengthSearch rate A ml (lengthFuel rate A ml) 1 { len := rate / A, err := rate % A }

/-- R176: the angle of table entry `t`. -/
def tableAngle (f : Int) (rate t : Nat) : F64 :=
  div64 (mul64 twoPi64 (ofInt64 ((f * t) % (rate : Int)))) (ofInt64 rate)

/-- R176: the context with the oscillator table of `len` entries for `f`, its cursor at 0. -/
def CnvCtx.regenerated (C : CnvCtx) (f : Int) (len : Nat) : CnvCtx :=
  { C with
    ncoLen := BitVec.ofNat 32 len
    cos := C.cos.fill 0 len fun t => cvt32 (cos64 (tableAngle f C.rate.toNat t))
    sin := C.sin.fill 0 len fun t => cvt32 (sin64 (tableAngle f C.rate.toNat t))
    ncoFreq := BitVec.ofInt 64 f, ncoValid := true, cur := 0 }

/-- What bringing the oscillator cache up to date ends in. -/
inductive CacheUpdate where
  | ready (C : CnvCtx)
  | tooLong
  | noFuel
deriving DecidableEq, Repr

/-- R176: `Regenerate`. -/
def regenerate (C : CnvCtx) (f : Int) : CacheUpdate :=
  match tableLength C.rate.toNat f.natAbs C.maxlen.toNat with
  | none => .noFuel
  | some b => if C.maxlen.toNat < b.len then .tooLong else .ready (C.regenerated f b.len)

/-- R178: the cache brought up to date for `f`: regenerated only where it is empty or holds another frequency (R174).
The key is compared as it is stored, in 64 bits (DEDUCED, log entry 8). -/
def updateCache (C : CnvCtx) (f : Int) : CacheUpdate :=
  if C.ncoValid = false ∨ C.ncoFreq ≠ BitVec.ofInt 64 f then regenerate C f else .ready C

/-- R177: the sample `(i, q)` multiplied by the conjugate of the oscillator value `(cs, sn)`. -/
def mixSample (i q cs sn : F32) : F32 × F32 :=
  (add32 (mul32 i cs) (mul32 q sn), sub32 (mul32 q cs) (mul32 i sn))

/-- The running state of a `CNVMIX`: the output arrays and the oscillator cursor. -/
structure MixRun where
  re : Mem 32
  im : Mem 32
  cur : Nat
deriving DecidableEq, Repr

/-- R177, R178: raw sample `j` mixed into output index `at_ + j` and the cursor moved on. -/
def MixRun.sample (C : CnvCtx) (b : RawSlot) (at_ j : Nat) (x : MixRun) : MixRun :=
  let y := mixSample (C.lut.read (rawI b j)) (C.lut.read (rawQ b j)) (C.cos.read x.cur) (C.sin.read x.cur)
  { re := x.re.write (at_ + j) y.1, im := x.im.write (at_ + j) y.2, cur := (x.cur + 1) % C.ncoLen.toNat }

/-- R178: the first `n` samples mixed, in rising order. -/
def mixLoop (C : CnvCtx) (b : RawSlot) (at_ : Nat) : Nat → MixRun → MixRun
  | 0, x => x
  | n + 1, x => (mixLoop C b at_ n x).sample C b at_ n

/-- R178: the run of a mixing fill of `n` samples. -/
def mixRun (C : CnvCtx) (b : RawSlot) (out : Packet) (n : Nat) : MixRun :=
  mixLoop C b out.size.toNat n { re := out.re, im := out.im, cur := C.cur.toNat }

/-- R178: the packet after a mixing fill of `n` samples that ran to `x`. -/
def mixOutput (C : CnvCtx) (out : Packet) (chan : Int) (n : Nat) (x : MixRun) : Packet :=
  { out with
    re := x.re, im := x.im, size := BitVec.ofNat 32 (out.size.toNat + n)
    rate := C.rate, freq := BitVec.ofInt 64 chan, freqValid := true }

/-- R178, R179: the end of a `CNVMIX` once the cache of the context is up to date in `C`. -/
def mixFill (ctx dst : Nat) (C : CnvCtx) (b : RawSlot) (out : Packet) (chan : Int) (s : State) : State :=
  let n := fillCount b out
  if C.ncoLen = 0 ∨ n = 0 then ((s.setCnv ctx C).setR 0 (intResult 0)).complete
  else
    let x := mixRun C b out n
    (((s.setCnv ctx { C with cur := BitVec.ofNat 32 x.cur }).setPkt dst (mixOutput C out chan n x)).setR 0
      (intResult n)).complete

/-- R178: `CNVMIX`. -/
def execCnvmix (ctx src dst : Nat) (s : State) : Host.Outcome State Fault Refusal :=
  match s.cnv[ctx]?, s.raw[src]?, s.pkt[dst]? with
  | some C, some b, some out =>
    if C.valid = false then .next (s.raise .notConstructed)
    else if ¬ (RawOK s.lim b ∧ PktOK s.lim out) then .next (s.raise .badOperand)
    else if ¬ FreqInRange (s.ai 0) then .next (s.raise .badOperand)
    else
      match updateCache C (effectiveMix C (s.ai 0)) with
      | .noFuel => .refused .lengthFuelExhausted
      | .tooLong => .next ((s.setCnv ctx { C with ncoValid := false }).raise .capacityExceeded)
      | .ready D => .next (mixFill ctx dst D b out (s.ai 0) s)
  | _, _, _ => .next (s.raise .badIndex)

end Sys2Proof.Machine
end

