-- ==== Sys2Proof/Machine/Rational.lean ====
section
/-! DEFINITION. Machine/Rational.lean: the rational approximation unit (R120 to R123), `RATAPX`. -/

namespace Sys2Proof.Machine

/-- R121: the two bounds of the mediant search, `ln/ld` below the target and `un/ud` above it. -/
structure Bounds where
  ln : Nat
  ld : Nat
  un : Nat
  ud : Nat
deriving DecidableEq, Repr

/-- R121: the bounds the search starts from, 0/1 and 1/0. -/
def Bounds.start : Bounds := ⟨0, 1, 1, 0⟩

/-- R121: the bounds after one mediant, for the target `n/d`. -/
def Bounds.narrow (n d : Nat) (b : Bounds) : Bounds :=
  if (b.ln + b.un) * d < n * (b.ld + b.ud) then { b with ln := b.ln + b.un, ld := b.ld + b.ud }
  else { b with un := b.ln + b.un, ud := b.ld + b.ud }

/-- R121: the mediant search for `n/d` with denominators up to `maxd`, under fuel. -/
def mediantSearch (n d maxd : Nat) : Nat → Bounds → Option Bounds
  | 0, _ => none
  | fuel + 1, b => if maxd < b.ld + b.ud then some b else mediantSearch n d maxd fuel (b.narrow n d)

/-- Fuel enough for the mediant search: while `ud` is 0 a mediant adds 1 to `un`, which stays within one of `n/d`, and
afterwards each mediant adds at least 1 to the sum of the denominators. -/
def mediantFuel (n d maxd : Nat) : Nat := n / d + maxd + 2

/-- R121: the bound with the smaller error; the lower one on a tie. Both errors are multiplied by `ld * ud * d`. -/
def Bounds.nearest (n d : Nat) (b : Bounds) : Nat × Nat :=
  let el := ((b.ln : Int) * d - n * b.ld).natAbs * b.ud
  let eu := ((b.un : Int) * d - n * b.ud).natAbs * b.ld
  if b.ud ≠ 0 ∧ eu < el then (b.un, b.ud) else (b.ln, b.ld)

/-- R121: the approximation of `num/den`. -/
def ratApprox (num den maxd : Nat) : Option (Nat × Nat) :=
  let g := Nat.gcd num den
  let n := num / g
  let d := den / g
  if d ≤ maxd then some (n, d)
  else
    match mediantSearch n d maxd (mediantFuel n d maxd) .start with
    | some b => some (b.nearest n d)
    | none => none

/-- R121: `RATAPX`. -/
def execRatapx (s : State) : Host.Outcome State Fault Refusal :=
  if RatOperand (s.ai 0) ∧ RatOperand (s.ai 1) ∧ RatOperand (s.ai 2) then
    match ratApprox (s.ai 0).toNat (s.ai 1).toNat (s.ai 2).toNat with
    | some (n, d) => .next ((s.setR 0 (intResult n)).setR 1 (intResult d)).complete
    | none => .refused .mediantFuelExhausted
  else .next (s.raise .badOperand)

end Sys2Proof.Machine
end

