-- ==== Sys2Proof/Machine/Window.lean ====
section
/-! DEFINITION. Machine/Window.lean: the window function library (R110 to R115) and its four commands. -/

namespace Sys2Proof.Machine

/-- R115: the loop of the I0 series, from the state before the term of index `k`, under fuel. -/
def i0Loop : Nat → F64 → F64 → F64 → Nat → Option F64
  | 0, _, _, _, _ => none
  | fuel + 1, h, s, u, k =>
    let q := div64 h (ofInt64 k)
    let u := mul64 u (mul64 q q)
    let s := add64 s u
    if lt64 u cI0Eps then some s else i0Loop fuel h s u (k + 1)

/-- The fuel of the I0 series. The largest argument the commands accept takes 961 terms (R115), a smaller one no more. -/
def i0Fuel : Nat := 1000

/-- R115: the modified Bessel function I0 as the block computes it. -/
def i0 (x : F64) : Option F64 := i0Loop i0Fuel (div64 x two64) one64 one64 1

/-- R111: the Blackman coefficient. -/
def blackman (n N : Int) : F64 :=
  let x := ofInt64 n
  let d := ofInt64 (N - 1)
  let p1 := div64 (mul64 twoPi64 x) d
  let p2 := div64 (mul64 (mul64 four64 pi64) x) d
  add64 (sub64 cBlkA0 (mul64 cBlkA1 (cos64 p1))) (mul64 cBlkA2 (cos64 p2))

/-- R112: the Hamming coefficient. -/
def hamming (n N : Int) : F64 :=
  let x := ofInt64 n
  let d := ofInt64 (N - 1)
  let p1 := div64 (mul64 twoPi64 x) d
  sub64 cHamA0 (mul64 cHamA1 (cos64 p1))

/-- R113: the argument at which the numerator of the Kaiser coefficient takes I0, away from the edges. -/
def kaiserArg (n N : Int) (beta : F64) : F64 :=
  let x := ofInt64 n
  let d := ofInt64 (N - 1)
  let q := sub64 (div64 (mul64 two64 x) d) one64
  mul64 beta (sqrt64 (sub64 one64 (mul64 q q)))

/-- R113: the Kaiser coefficient. -/
def kaiser (n N : Int) (beta : F64) : Option F64 :=
  if n = 0 ∨ n = N - 1 then
    match i0 beta with
    | some b => some (div64 one64 b)
    | none => none
  else
    match i0 (kaiserArg n N beta), i0 beta with
    | some g, some b => some (div64 g b)
    | _, _ => none

/-- R110: the window procedure the filter designer calls. -/
def window (win : WindowFn) (n N : Int) (beta : F64) : Option F64 :=
  match win with
  | .blackman => some (blackman n N)
  | .hamming => some (hamming n N)
  | .kaiser => kaiser n N beta

/-- R111: `WINBLK`. -/
def execWinblk (s : State) : Host.Outcome State Fault Refusal :=
  if WindowContract (s.ai 0) (s.ai 1) then .next (s.setR 0 (blackman (s.ai 0) (s.ai 1))).complete
  else .next (s.raise .badOperand)

/-- R112: `WINHAM`. -/
def execWinham (s : State) : Host.Outcome State Fault Refusal :=
  if WindowContract (s.ai 0) (s.ai 1) then .next (s.setR 0 (hamming (s.ai 0) (s.ai 1))).complete
  else .next (s.raise .badOperand)

/-- R113: `WINKSR`. -/
def execWinksr (s : State) : Host.Outcome State Fault Refusal :=
  if ¬ WindowContract (s.ai 0) (s.ai 1) then .next (s.raise .badOperand)
  else if ¬ seriesDomain (s.af 2) then .next (s.raise .badOperand)
  else
    match kaiser (s.ai 0) (s.ai 1) (s.af 2) with
    | some v => .next (s.setR 0 v).complete
    | none => .refused .seriesFuelExhausted

/-- R114: `WINI0`. -/
def execWini0 (s : State) : Host.Outcome State Fault Refusal :=
  if seriesDomain (s.af 0) then
    match i0 (s.af 0) with
    | some v => .next (s.setR 0 v).complete
    | none => .refused .seriesFuelExhausted
  else .next (s.raise .badOperand)

end Sys2Proof.Machine
end

