-- ==== Sys2Proof/Machine/Fir.lean ====
section
/-! DEFINITION. Machine/Fir.lean: the FIR filter engine (R130 to R141), `FIRDES`, `FIRFLT` and `FIRFLTR`. -/

namespace Sys2Proof.Machine

/-- What a design ends in: taps, an error code, or an I0 series out of fuel. -/
inductive Design where
  | taps (ts : List F32)
  | fail (e : ErrCode)
  | noFuel
deriving DecidableEq, Repr

/-- R132: the tap-count quotient. -/
def tapQuotient (att fs tw : F64) : F64 := div64 (mul64 att fs) (mul64 cNtapsDiv tw)

/-- 2^62 as a binary64 value. -/
def twoTo62 : F64 := ofInt64 (2 ^ 62)

/-- -2^62 as a binary64 value. -/
def minusTwoTo62 : F64 := ofInt64 (-2 ^ 62)

/-- R132: the quotient as a whole number, saturated at magnitude 2^62. -/
def tapFloor (q : F64) : Int :=
  if le64 twoTo62 q then 2 ^ 62 else if le64 q minusTwoTo62 then -2 ^ 62 else floorInt q

/-- R132: clamped to `maxTaps` where that is positive, then forced odd. -/
def tapClamp (nt maxTaps : Int) : Int :=
  let nt := if 0 < maxTaps then min nt maxTaps else nt
  if nt % 2 = 0 then nt + 1 else nt

/-- R132: `TapCount`. -/
def tapCount (att fs tw : F64) (maxTaps limit : Int) : Except ErrCode Nat :=
  let q := tapQuotient att fs tw
  if isNaN64 q then .error .badOperand
  else
    let nt := tapClamp (tapFloor q) maxTaps
    if nt < 3 then .error .badOperand
    else if limit < nt then .error .capacityExceeded
    else .ok nt.toNat

/-- R133: one value of the truncated ideal low-pass response. -/
def sincAt (w0 : F64) (n : Int) : F64 :=
  if n = 0 then div64 w0 pi64 else div64 (sin64 (mul64 (ofInt64 n) w0)) (mul64 (ofInt64 n) pi64)

/-- R133: the windowed response `h[0 .. count-1]` of a filter of `nt` taps. -/
def windowed (nt : Nat) (w0 : F64) (win : WindowFn) (beta : F64) : Nat → Option (List F64)
  | 0 => some []
  | i + 1 =>
    match windowed nt w0 win beta i, window win i nt beta with
    | some hs, some w => some (hs ++ [mul64 (sincAt w0 ((i : Int) - ((nt - 1) / 2 : Nat))) w])
    | _, _ => none

/-- R133: the sum of the centre tap and twice each of the `count` taps above it, from the centre outwards. -/
def dcSum (h : List F64) (m : Nat) : Nat → F64
  | 0 => h.getD m zero64
  | n + 1 => add64 (dcSum h m n) (mul64 two64 (h.getD (m + (n + 1)) zero64))

/-- R133: the response scaled to the gain and stored as binary32. -/
def scaleTaps (gain : F64) (h : List F64) (m : Nat) : List F32 :=
  let scale := div64 gain (dcSum h m m)
  h.map fun x => cvt32 (mul64 x scale)

/-- R133: `Prototype`. -/
def prototype (nt : Nat) (gain fs fc : F64) (win : WindowFn) (beta : F64) : Option (List F32) :=
  let w0 := div64 (mul64 twoPi64 fc) fs
  match windowed nt w0 win beta nt with
  | some h => some (scaleTaps gain h ((nt - 1) / 2))
  | none => none

/-- R130: the validation list of the filter designer. A NaN fails it. -/
def designValid (fs fc tw : F64) : Bool :=
  lt64 zero64 fs && (lt64 zero64 fc && le64 fc (div64 fs two64)) && lt64 zero64 tw

/-- R130: `DesignLowPass`. -/
def designLowPass (gain fs fc tw att : F64) (win : WindowFn) (beta : F64) (maxTaps limit : Int) : Design :=
  if ¬ designValid fs fc tw then .fail .invalidFilterParameters
  else if win = .kaiser ∧ ¬ seriesDomain beta then .fail .badOperand
  else
    match tapCount att fs tw maxTaps limit with
    | .error e => .fail e
    | .ok nt =>
      match prototype nt gain fs fc win beta with
      | some ts => .taps ts
      | none => .noFuel

/-- R131: the context that a finished design leaves: its taps, a cleared delay line, cursors at 0. -/
def FirCtx.built (F : FirCtx) (decim : Int) (ts : List F32) : FirCtx where
  valid := true
  ntaps := BitVec.ofNat 32 ts.length
  decim := BitVec.ofInt 32 decim
  taps := F.taps.fill 0 ts.length fun k => ts.getD k zero32
  dre := F.dre.fill 0 ts.length fun _ => zero32
  dim := F.dim.fill 0 ts.length fun _ => zero32
  tapCur := 0
  decCur := 0

/-- R131: `FIRDES`. -/
def execFirdes (ctx : Nat) (win : WindowFn) (s : State) : Host.Outcome State Fault Refusal :=
  match s.fir[ctx]? with
  | none => .next (s.raise .badIndex)
  | some F =>
    let s0 := s.setFir ctx { F with valid := false }
    let decim := s.ai 0
    if decim ≤ 0 then .next (s0.raise .invalidFilterParameters)
    else if 2 ^ 31 - 1 < decim then .next (s0.raise .badOperand)
    else
      match designLowPass (s.af 1) (s.af 2) (s.af 3) (s.af 4) (s.af 5) win (s.af 7) (s.ai 6) s.lim.tapMax with
      | .noFuel => .refused .seriesFuelExhausted
      | .fail e => .next (s0.raise e)
      | .taps ts => .next ((s.setFir ctx (F.built decim ts)).setR 0 (intResult ts.length)).complete

/-- R134, R136: which channels a filter command works on. -/
inductive Channels where
  | both
  | realOnly
deriving DecidableEq, Repr

/-- R138: the rest of a dot product: `count` taps from tap `k`, the delay line read backwards from `idx` around its `n`
places, added one by one to `acc`. -/
def firAcc (taps line : Mem 32) (n : Nat) : Nat → Nat → Nat → F32 → F32
  | 0, _, _, acc => acc
  | count + 1, k, idx, acc =>
    firAcc taps line n count (k + 1) (if idx = 0 then n - 1 else idx - 1)
      (add32 acc (mul32 (taps.read k) (line.read idx)))

/-- R138: `FirDot` of one channel. -/
def firDot (F : FirCtx) (line : Mem 32) : F32 := firAcc F.taps line F.ntaps.toNat F.ntaps.toNat 0 F.tapCur.toNat zero32

/-- The running state of a filter command: the context, the output arrays, the next output index, the samples consumed. -/
structure FirRun where
  ctx : FirCtx
  re : Mem 32
  im : Mem 32
  o : Nat
  i : Nat
deriving DecidableEq, Repr

/-- R134, R136: an input sample put into the delay line at the tap cursor. -/
def FirRun.insert (ch : Channels) (inp : Packet) (off : Nat) (x : FirRun) : FirRun :=
  let at_ := x.ctx.tapCur.toNat
  let dre := x.ctx.dre.write at_ (inp.re.read (off + x.i))
  match ch with
  | .both => { x with ctx := { x.ctx with dre := dre, dim := x.ctx.dim.write at_ (inp.im.read (off + x.i)) } }
  | .realOnly => { x with ctx := { x.ctx with dre := dre } }

/-- R134, R136: an output sample computed and appended. -/
def FirRun.emit (ch : Channels) (x : FirRun) : FirRun :=
  let re := x.re.write x.o (firDot x.ctx x.ctx.dre)
  match ch with
  | .both => { x with re := re, im := x.im.write x.o (firDot x.ctx x.ctx.dim), o := x.o + 1 }
  | .realOnly => { x with re := re, o := x.o + 1 }

/-- R134: both cursors moved on and the sample counted. -/
def FirRun.advance (x : FirRun) : FirRun :=
  { x with
    ctx := { x.ctx with
      decCur := BitVec.ofNat 32 ((x.ctx.decCur.toNat + 1) % x.ctx.decim.toNat)
      tapCur := BitVec.ofNat 32 ((x.ctx.tapCur.toNat + 1) % x.ctx.ntaps.toNat) }
    i := x.i + 1 }

/-- R134, R135: the loop over the samples still to come, `cap` being the capacity of the output packet. It stops early
where an output is due and there is no room for it, the sample inserted but not counted. -/
def firLoop (ch : Channels) (inp : Packet) (off cap : Nat) : Nat → FirRun → FirRun
  | 0, x => x
  | n + 1, x =>
    let y := x.insert ch inp off
    if y.ctx.decCur = 0 then
      if y.o = cap then y else firLoop ch inp off cap n (y.emit ch).advance
    else firLoop ch inp off cap n y.advance

/-- R134, R137: the output packet after a filter command that ran to `x`. -/
def firOutput (inp out : Packet) (x : FirRun) : Packet :=
  { out with re := x.re, im := x.im, size := BitVec.ofNat 32 x.o
             rate := BitVec.ofNat 32 (inp.rate.toNat / x.ctx.decim.toNat) }

/-- R134: the run of a filter command from its first sample to its end. -/
def firRun (ch : Channels) (F : FirCtx) (inp out : Packet) (off len : Nat) : FirRun :=
  firLoop ch inp off out.cap.toNat len { ctx := F, re := out.re, im := out.im, o := out.size.toNat, i := 0 }

/-- R134, R136: a filter command on the given channels. -/
def firFilter (ch : Channels) (ctx src dst : Nat) (s : State) : Host.Outcome State Fault Refusal :=
  match s.fir[ctx]?, s.pkt[src]?, s.pkt[dst]? with
  | some F, some inp, some out =>
    if F.valid = false then .next (s.raise .notConstructed)
    else if ¬ StreamOperands s.lim src dst inp out (s.ai 0) (s.ai 1) then .next (s.raise .badOperand)
    else
      let x := firRun ch F inp out (s.ai 0).toNat (s.ai 1).toNat
      .next (((s.setFir ctx x.ctx).setPkt dst (firOutput inp out x)).setR 0 (intResult x.i)).complete
  | _, _, _ => .next (s.raise .badIndex)

/-- R134: `FIRFLT`. -/
def execFirflt (ctx src dst : Nat) (s : State) : Host.Outcome State Fault Refusal := firFilter .both ctx src dst s

/-- R136: `FIRFLTR`. -/
def execFirfltr (ctx src dst : Nat) (s : State) : Host.Outcome State Fault Refusal := firFilter .realOnly ctx src dst s

end Sys2Proof.Machine
end

