-- ==== Sys2Proof/Machine/Resampler.lean ====
section
/-! DEFINITION. Machine/Resampler.lean: the polyphase rational resampler (R150 to R160), `RESINIT` and `RESAMP`. -/

namespace Sys2Proof.Machine

/-- R152: the fractional bandwidth clamped to `[C_FBW_LO, C_FBW_HI]`. -/
def clampFbw (fbw : F64) : F64 :=
  let fb := if lt64 fbw cFbwLo then cFbwLo else fbw
  if lt64 cFbwHi fb then cFbwHi else fb

/-- R152: the transition width and the cutoff of the default prototype. -/
def protoBand (L M : Nat) (fb : F64) : F64 × F64 :=
  if M ≤ L then
    let tw := sub64 cHalfband fb
    (tw, sub64 cHalfband (div64 tw two64))
  else
    let rate := div64 (ofInt64 L) (ofInt64 M)
    let tw := mul64 rate (sub64 cHalfband fb)
    (tw, sub64 (mul64 rate cHalfband) (div64 tw two64))

/-- R152: `DefaultPrototype`. -/
def defaultPrototype (lim : Limits) (L M : Nat) (fbw : F64) (mtpp : Int) : Design :=
  if isNaN64 fbw then .fail .badOperand
  else
    let band := protoBand L M (clampFbw fbw)
    let mt : Int := if 0 < mtpp then mtpp * L else 0
    designLowPass (ofInt64 L) (ofInt64 L) band.2 band.1 cResAtten .kaiser cResBeta mt (L * lim.resKMax : Nat)

/-- R155: `CustomPrototype`. -/
def customPrototype (lim : Limits) (b : TapBuffer) : Design :=
  if b.tlen.toNat < 1 ∨ lim.tbufDepth < b.tlen.toNat then .fail .badOperand
  else .taps ((List.range b.tlen.toNat).map b.t.read)

/-- R153: `Split` for the phases below the given one: phase `p` takes the prototype's coefficients `p`, `p + L`, … and
zeros past its end. -/
def splitPhases (lim : Limits) (ph : Mem 32) (L K : Nat) (P : List F32) : Nat → Mem 32
  | 0 => ph
  | p + 1 =>
    (splitPhases lim ph L K P p).fill (phIndex lim p 0) K fun k =>
      if p + k * L < P.length then P.getD (p + k * L) zero32 else zero32

/-- R151: the context that a finished construction leaves. -/
def ResCtx.built (R : ResCtx) (lim : Limits) (L M K : Nat) (P : List F32) : ResCtx where
  valid := true
  facL := BitVec.ofNat 32 L
  facM := BitVec.ofNat 32 M
  subLen := BitVec.ofNat 32 K
  ph := splitPhases lim R.ph L K P L
  dre := R.dre.fill 0 K fun _ => zero32
  dim := R.dim.fill 0 K fun _ => zero32
  pos := 0
  ctr := 0

/-- R151: the sub-filter length of `n` prototype coefficients in `L` phases. -/
def subFilterLen (n L : Nat) : Nat := (n + L - 1) / L

/-- R151: `RESINIT`. -/
def execResinit (ctx : Nat) (custom : Bool) (s : State) : Host.Outcome State Fault Refusal :=
  match s.res[ctx]? with
  | none => .next (s.raise .badIndex)
  | some R =>
    let s0 := s.setRes ctx { R with valid := false }
    let l0 := s.ai 0
    let m0 := s.ai 1
    if l0 ≤ 0 ∨ m0 ≤ 0 then .next (s0.raise .invalidResamplerParameters)
    else if 2 ^ 31 - 1 < l0 ∨ 2 ^ 31 - 1 < m0 then .next (s0.raise .badOperand)
    else
      let g := Nat.gcd l0.toNat m0.toNat
      let L := l0.toNat / g
      let M := m0.toNat / g
      if s.lim.resLMax < L then .next (s0.raise .capacityExceeded)
      else
        match (if custom then customPrototype s.lim s.tbuf else defaultPrototype s.lim L M (s.af 2) (s.ai 3)) with
        | .noFuel => .refused .seriesFuelExhausted
        | .fail e => .next (s0.raise e)
        | .taps P =>
          let K := subFilterLen P.length L
          if s.lim.resKMax < K then .next (s0.raise .capacityExceeded)
          else
            .next (((s.setRes ctx (R.built s.lim L M K P)).setR 0 (intResult L)).setR 1 (intResult M)).complete

/-- R158: the rest of a dot product: `count` coefficients of the phase from coefficient `k`, coefficient `k` against the
`k`-th most recent sample. -/
def resAcc (lim : Limits) (R : ResCtx) (line : Mem 32) (p : Nat) : Nat → Nat → F32 → F32
  | 0, _, acc => acc
  | count + 1, k, acc =>
    resAcc lim R line p count (k + 1)
      (add32 acc (mul32 (R.ph.read (phIndex lim p k))
        (line.read ((R.pos.toNat + R.subLen.toNat - 1 - k) % R.subLen.toNat))))

/-- R158: `ResDot` of one channel. -/
def resDot (lim : Limits) (R : ResCtx) (line : Mem 32) (p : Nat) : F32 := resAcc lim R line p R.subLen.toNat 0 zero32

/-- The running state of a `RESAMP`: the context, the output arrays, the next output index, the samples consumed. -/
structure ResRun where
  ctx : ResCtx
  re : Mem 32
  im : Mem 32
  o : Nat
  cnt : Nat
deriving DecidableEq, Repr

/-- R156: `Consume`, with `L` taken off the phase counter before it. -/
def ResRun.consume (inp : Packet) (off : Nat) (x : ResRun) : ResRun :=
  { x with
    ctx := { x.ctx with
      ctr := BitVec.ofNat 32 (x.ctx.ctr.toNat - x.ctx.facL.toNat)
      dre := x.ctx.dre.write x.ctx.pos.toNat (inp.re.read (off + x.cnt))
      dim := x.ctx.dim.write x.ctx.pos.toNat (inp.im.read (off + x.cnt))
      pos := BitVec.ofNat 32 ((x.ctx.pos.toNat + 1) % x.ctx.subLen.toNat) }
    cnt := x.cnt + 1 }

/-- R156: the inner loop, at most `left` samples: consume while the phase counter is `L` or more. -/
def resDrain (inp : Packet) (off : Nat) : Nat → ResRun → ResRun
  | 0, x => x
  | left + 1, x =>
    if x.ctx.facL.toNat ≤ x.ctx.ctr.toNat then resDrain inp off left (x.consume inp off) else x

/-- R156: one output sample computed and appended, and the phase counter moved on by `M`. -/
def ResRun.emit (lim : Limits) (x : ResRun) : ResRun :=
  { x with
    ctx := { x.ctx with ctr := BitVec.ofNat 32 (x.ctx.ctr.toNat + x.ctx.facM.toNat) }
    re := x.re.write x.o (resDot lim x.ctx x.ctx.dre x.ctx.ctr.toNat)
    im := x.im.write x.o (resDot lim x.ctx x.ctx.dim x.ctx.ctr.toNat)
    o := x.o + 1 }

/-- R156: the outer loop, for as many outputs as there is room for, while input samples of the `len` remain. -/
def resLoop (lim : Limits) (inp : Packet) (off len : Nat) : Nat → ResRun → ResRun
  | 0, x => x
  | room + 1, x =>
    if x.cnt < len then
      let y := x.emit lim
      resLoop lim inp off len room (resDrain inp off (len - y.cnt) y)
    else x

/-- R156: the run of a `RESAMP` from its drain to its end. -/
def resRun (lim : Limits) (R : ResCtx) (inp out : Packet) (off len : Nat) : ResRun :=
  resLoop lim inp off len (out.cap.toNat - out.size.toNat)
    (resDrain inp off len { ctx := R, re := out.re, im := out.im, o := out.size.toNat, cnt := 0 })

/-- R159: the output rate, ties rounded up. -/
def resRate (rate L M : Nat) : Nat := (2 * rate * L + M) / (2 * M)

/-- R156, R159: the output packet after a `RESAMP` that ran to `x`, with output rate `nr`. -/
def resOutput (inp out : Packet) (nr : Nat) (x : ResRun) : Packet :=
  { out with re := x.re, im := x.im, size := BitVec.ofNat 32 x.o, rate := BitVec.ofNat 32 nr
             freq := inp.freq, freqValid := inp.freqValid }

/-- R156: `RESAMP`. -/
def execResamp (ctx src dst : Nat) (s : State) : Host.Outcome State Fault Refusal :=
  match s.res[ctx]?, s.pkt[src]?, s.pkt[dst]? with
  | some R, some inp, some out =>
    if R.valid = false then .next (s.raise .notConstructed)
    else if ¬ StreamOperands s.lim src dst inp out (s.ai 0) (s.ai 1) then .next (s.raise .badOperand)
    else
      let nr := resRate inp.rate.toNat R.facL.toNat R.facM.toNat
      if 2 ^ 32 - 1 < nr then .next (s.raise .badOperand)
      else
        let x := resRun s.lim R inp out (s.ai 0).toNat (s.ai 1).toNat
        .next (((s.setRes ctx x.ctx).setPkt dst (resOutput inp out nr x)).setR 0 (intResult x.cnt)).complete
  | _, _, _ => .next (s.raise .badIndex)

end Sys2Proof.Machine
end

