-- ==== Sys2Proof/Machine/Dispatch.lean ====
section
/-! DEFINITION. Machine/Dispatch.lean: one arm per command. -/

namespace Sys2Proof.Machine

def exec (i : Instr) (s : State) : Host.Outcome State Fault Refusal :=
  match i with
  | .winblk => Sys2Proof.Machine.execWinblk s
  | .winham => Sys2Proof.Machine.execWinham s
  | .winksr => Sys2Proof.Machine.execWinksr s
  | .wini0 => Sys2Proof.Machine.execWini0 s
  | .ratapx => Sys2Proof.Machine.execRatapx s
  | .firdes ctx win => Sys2Proof.Machine.execFirdes ctx win s
  | .firflt ctx src dst => Sys2Proof.Machine.execFirflt ctx src dst s
  | .firfltr ctx src dst => Sys2Proof.Machine.execFirfltr ctx src dst s
  | .resinit ctx custom => Sys2Proof.Machine.execResinit ctx custom s
  | .resamp ctx src dst => Sys2Proof.Machine.execResamp ctx src dst s
  | .cnvinit ctx => Sys2Proof.Machine.execCnvinit ctx s
  | .cnvfill ctx src dst => Sys2Proof.Machine.execCnvfill ctx src dst s
  | .cnvmix ctx src dst => Sys2Proof.Machine.execCnvmix ctx src dst s

end Sys2Proof.Machine
end

