-- ==== Sys2Proof/Machine/Step.lean ====
section
/-! DEFINITION. Machine/Step.lean: one host action. -/

namespace Sys2Proof.Machine

/-- R32, R96: a host write of a word to `CMD`: the register takes the word, and the command it stands for runs to
completion (R6); a word that is no command raises `IllegalCommand`. -/
def issue (s : State) (w : Word32) : Host.Outcome State Fault Refusal :=
  match decode w with
  | .ok i => exec i (s.latch w)
  | .error _ => .next ((s.latch w).raise .illegalCommand)

/-- One step: the next action of the host, if there is one. Between actions the block is idle (R204, R212). -/
def step (s : State) : Host.Outcome State Fault Refusal :=
  match s.host with
  | [] => .next s
  | .read _ :: rest => .next { s with host := rest }
  | .write .cmd v :: rest => issue { s with host := rest } (v.setWidth 32)
  | .write e v :: rest => .next (hostWrite { s with host := rest } e v)
  | .reset m :: rest => .next (State.platformReset { s with host := rest } m)

/-- The state in which the host's next action is to write the given command word to `CMD`. -/
def State.withFetchWord (s : State) (nbits w : Nat) : State :=
  { s with host := .write .cmd (BitVec.ofNat 64 (w % 2 ^ nbits)) :: s.host }

end Sys2Proof.Machine
end

