-- ==== Sys2Proof/Safety.lean ====
section
/-! DEFINITION. Safety.lean: what the spec promises of every state the block can be in (R7, R33, R36, R41, R43, R45, R191, R206),
and the readings of its formulas that the statements use. -/

namespace Sys2Proof.Machine

/-- R33, R191: the status word holds a code from 0 to 7 and zeros above it. -/
abbrev State.StatusLegal (s : State) : Prop := s.status.toNat ≤ 7

/-- R7: the structural parameters keep their constraints. -/
abbrev State.ParamsOk (s : State) : Prop := s.params.Ok

/-- R41: what holds of a FIR context whenever it is valid. -/
structure FirCtx.Ok (l : Limits) (F : FirCtx) : Prop where
  odd : F.ntaps.toNat % 2 = 1
  three_le : 3 ≤ F.ntaps.toNat
  le_max : F.ntaps.toNat ≤ l.tapMax
  decim_pos : 1 ≤ F.decim.toNat
  decim_le : F.decim.toNat ≤ 2 ^ 31 - 1
  tapCur_lt : F.tapCur.toNat < F.ntaps.toNat
  decCur_lt : F.decCur.toNat < F.decim.toNat

/-- R43: what holds of a resampler context whenever it is valid. -/
structure ResCtx.Ok (l : Limits) (R : ResCtx) : Prop where
  facL_pos : 1 ≤ R.facL.toNat
  facL_le : R.facL.toNat ≤ l.resLMax
  facM_pos : 1 ≤ R.facM.toNat
  facM_le : R.facM.toNat ≤ 2 ^ 31 - 1
  coprime : Nat.gcd R.facL.toNat R.facM.toNat = 1
  subLen_pos : 1 ≤ R.subLen.toNat
  subLen_le : R.subLen.toNat ≤ l.resKMax
  pos_lt : R.pos.toNat < R.subLen.toNat
  ctr_le : R.ctr.toNat ≤ R.facL.toNat + R.facM.toNat - 1

/-- R44, R45: what holds of a converter context whenever it is valid. -/
structure CnvCtx.Ok (l : Limits) (C : CnvCtx) : Prop where
  table : ∀ u, u < 65536 → C.lut.read u = normEntry u
  rate_pos : 1 ≤ C.rate.toNat
  center : FreqInRange C.center.toInt
  maxlen_pos : 1 ≤ C.maxlen.toNat
  maxlen_le : C.maxlen.toNat ≤ l.ncoMax
  cache : C.ncoValid = true →
    C.ncoLen.toNat ≤ C.maxlen.toNat ∧ (C.cur.toNat < C.ncoLen.toNat ∨ C.ncoLen.toNat = 0 ∧ C.cur.toNat = 0)

/-- R41 for every FIR context of the block. -/
def State.FirOk (s : State) : Prop := ∀ F ∈ s.fir, F.valid = true → F.Ok s.lim

/-- R43 for every resampler context of the block. -/
def State.ResOk (s : State) : Prop := ∀ R ∈ s.res, R.valid = true → R.Ok s.lim

/-- R45 for every converter context of the block. -/
def State.CnvOk (s : State) : Prop := ∀ C ∈ s.cnv, C.valid = true → C.Ok s.lim

/-- Every element memory is in its canonical form. -/
structure State.MemCanonical (s : State) : Prop where
  pkt : ∀ p ∈ s.pkt, p.re.wf ∧ p.im.wf
  raw : ∀ b ∈ s.raw, b.byte.wf
  tbuf : s.tbuf.t.wf
  fir : ∀ F ∈ s.fir, F.taps.wf ∧ F.dre.wf ∧ F.dim.wf
  res : ∀ R ∈ s.res, R.ph.wf ∧ R.dre.wf ∧ R.dim.wf
  cnv : ∀ C ∈ s.cnv, C.lut.wf ∧ C.cos.wf ∧ C.sin.wf

/-- R206: no element memory holds anything outside its physical extent (R35 to R44). -/
structure State.MemWithin (s : State) : Prop where
  pkt : ∀ p ∈ s.pkt, p.re.within s.lim.pktDepth ∧ p.im.within s.lim.pktDepth
  raw : ∀ b ∈ s.raw, b.byte.within s.lim.rawDepth
  tbuf : s.tbuf.t.within s.lim.tbufDepth
  fir : ∀ F ∈ s.fir, F.taps.within s.lim.tapMax ∧ F.dre.within s.lim.tapMax ∧ F.dim.within s.lim.tapMax
  res : ∀ R ∈ s.res, R.ph.within (s.lim.resLMax * s.lim.resKMax) ∧ R.dre.within s.lim.resKMax ∧
    R.dim.within s.lim.resKMax
  cnv : ∀ C ∈ s.cnv, C.lut.within 65536 ∧ C.cos.within s.lim.ncoMax ∧ C.sin.within s.lim.ncoMax

/-- What the spec promises of every state of the block, the packet sizes apart, which the host may set as it likes. -/
structure State.Inv (s : State) : Prop where
  params : s.ParamsOk
  status : s.StatusLegal
  fir : s.FirOk
  res : s.ResOk
  cnv : s.CnvOk
  canonical : s.MemCanonical
  within : s.MemWithin

/-! ## Readings of the host's part -/

/-- The state with the first two argument registers set to the given values. -/
def State.withArgs (s : State) (a0 a1 : Int) : State :=
  { s with a := (s.a.set 0 (BitVec.ofInt 64 a0)).set 1 (BitVec.ofInt 64 a1) }

/-- An outcome with its next state changed. -/
def mapNext (f : State → State) : Host.Outcome State Fault Refusal → Host.Outcome State Fault Refusal
  | .next s => .next (f s)
  | .fault e => .fault e
  | .refused e => .refused e

/-- R30 to R44: the width of an element. -/
def Elem.width : Elem → Nat
  | .a _ | .r _ | .pktFreq _ | .cnvCenter _ | .cnvNcoFreq _ => 64
  | .pktFreqValid _ | .firValid _ | .resValid _ | .cnvValid _ | .cnvNcoValid _ => 1
  | .rawByte _ _ => 8
  | .cmd | .status | .pktCap _ | .pktSize _ | .pktRate _ | .pktRe _ _ | .pktIm _ _ | .rawLen _ | .tbufLen | .tbufT _ => 32
  | .firNtaps _ | .firDecim _ | .firTaps _ _ | .firDre _ _ | .firDim _ _ | .firTapCur _ | .firDecCur _ => 32
  | .resL _ | .resM _ | .resK _ | .resPh _ _ _ | .resDre _ _ | .resDim _ _ | .resPos _ | .resCtr _ => 32
  | .cnvLut _ _ | .cnvRate _ | .cnvMaxlen _ | .cnvNcoLen _ | .cnvCos _ _ | .cnvSin _ _ | .cnvCur _ => 32

/-- R71: the elements a host write replaces, `CMD` apart, whose write is a command. -/
def Elem.writable : Elem → Bool
  | .a _ | .pktCap _ | .pktSize _ | .pktRate _ | .pktFreq _ | .pktFreqValid _ | .pktRe _ _ | .pktIm _ _ => true
  | .rawLen _ | .rawByte _ _ | .tbufLen | .tbufT _ => true
  | _ => false

/-- R70, R71: the slot of the element exists and its index lies inside the physical extent of its array. -/
def State.hasElem (s : State) : Elem → Prop
  | .a i => i < 8
  | .r i => i < 2
  | .cmd | .status | .tbufLen => True
  | .pktCap p | .pktSize p | .pktRate p | .pktFreq p | .pktFreqValid p => p < s.pkt.length
  | .pktRe p i | .pktIm p i => p < s.pkt.length ∧ i < s.lim.pktDepth
  | .rawLen b => b < s.raw.length
  | .rawByte b i => b < s.raw.length ∧ i < s.lim.rawDepth
  | .tbufT i => i < s.lim.tbufDepth
  | .firValid c | .firNtaps c | .firDecim c | .firTapCur c | .firDecCur c => c < s.fir.length
  | .firTaps c i | .firDre c i | .firDim c i => c < s.fir.length ∧ i < s.lim.tapMax
  | .resValid c | .resL c | .resM c | .resK c | .resPos c | .resCtr c => c < s.res.length
  | .resPh c p k => c < s.res.length ∧ p < s.lim.resLMax ∧ k < s.lim.resKMax
  | .resDre c i | .resDim c i => c < s.res.length ∧ i < s.lim.resKMax
  | .cnvValid c | .cnvRate c | .cnvCenter c | .cnvMaxlen c | .cnvNcoValid c | .cnvNcoFreq c | .cnvNcoLen c | .cnvCur c =>
    c < s.cnv.length
  | .cnvLut c u => c < s.cnv.length ∧ u < 65536
  | .cnvCos c i | .cnvSin c i => c < s.cnv.length ∧ i < s.lim.ncoMax

/-- R211: the values after reset, item by item, for every slot. -/
structure State.ResetValues (t : State) : Prop where
  registers : t.a = Vector.replicate 8 0 ∧ t.r = Vector.replicate 2 0 ∧ t.cmd = 0 ∧ t.status = 0
  pkt : ∀ P ∈ t.pkt, P.cap = 0 ∧ P.size = 0 ∧ P.rate = 0 ∧ P.freq = 0 ∧ P.freqValid = false
  raw : ∀ B ∈ t.raw, B.len = 0
  tbuf : t.tbuf.tlen = 0
  fir : ∀ F ∈ t.fir, F.valid = false ∧ F.ntaps = 0 ∧ F.decim = 0 ∧ F.tapCur = 0 ∧ F.decCur = 0
  res : ∀ R ∈ t.res, R.valid = false ∧ R.facL = 0 ∧ R.facM = 0 ∧ R.subLen = 0 ∧ R.pos = 0 ∧ R.ctr = 0
  cnv : ∀ C ∈ t.cnv, C.valid = false ∧ C.rate = 0 ∧ C.center = 0 ∧ C.maxlen = 0 ∧ C.ncoValid = false ∧ C.ncoFreq = 0 ∧
    C.ncoLen = 0 ∧ C.cur = 0

/-! ## What a command names -/

/-- R84: the FIR context a command works on. -/
def firCtxOf : Instr → Option Nat
  | .firdes c _ | .firflt c _ _ | .firfltr c _ _ => some c
  | .winblk | .winham | .winksr | .wini0 | .ratapx | .resinit _ _ | .resamp _ _ _ | .cnvinit _ | .cnvfill _ _ _
  | .cnvmix _ _ _ => none

/-- R84: the resampler context a command works on. -/
def resCtxOf : Instr → Option Nat
  | .resinit c _ | .resamp c _ _ => some c
  | .winblk | .winham | .winksr | .wini0 | .ratapx | .firdes _ _ | .firflt _ _ _ | .firfltr _ _ _ | .cnvinit _
  | .cnvfill _ _ _ | .cnvmix _ _ _ => none

/-- R84: the converter context a command works on. -/
def cnvCtxOf : Instr → Option Nat
  | .cnvinit c | .cnvfill c _ _ | .cnvmix c _ _ => some c
  | .winblk | .winham | .winksr | .wini0 | .ratapx | .firdes _ _ | .firflt _ _ _ | .firfltr _ _ _ | .resinit _ _
  | .resamp _ _ _ => none

/-- R37, R99: the packet slots a command names. -/
def packetsOf : Instr → List Nat
  | .firflt _ p q | .firfltr _ p q | .resamp _ p q => [p, q]
  | .cnvfill _ _ q | .cnvmix _ _ q => [q]
  | .winblk | .winham | .winksr | .wini0 | .ratapx | .firdes _ _ | .resinit _ _ | .cnvinit _ => []

/-- R37, R99: the raw slot a command names. -/
def rawOf : Instr → Option Nat
  | .cnvfill _ b _ | .cnvmix _ b _ => some b
  | .winblk | .winham | .winksr | .wini0 | .ratapx | .firdes _ _ | .firflt _ _ _ | .firfltr _ _ _ | .resinit _ _
  | .resamp _ _ _ | .cnvinit _ => none

/-- R99: the argument registers a command reads. -/
def argumentsOf : Instr → List (Fin 8)
  | .winblk | .winham => [0, 1]
  | .winksr => [0, 1, 2]
  | .wini0 => [0]
  | .ratapx => [0, 1, 2]
  | .firdes _ .kaiser => [0, 1, 2, 3, 4, 5, 6, 7]
  | .firdes _ .blackman | .firdes _ .hamming => [0, 1, 2, 3, 4, 5, 6]
  | .firflt _ _ _ | .firfltr _ _ _ | .resamp _ _ _ => [0, 1]
  | .resinit _ false => [0, 1, 2, 3]
  | .resinit _ true => [0, 1]
  | .cnvinit _ => [0, 1, 2]
  | .cnvfill _ _ _ => []
  | .cnvmix _ _ _ => [0]

/-- R99: the result registers a command writes. -/
def resultsOf : Instr → List (Fin 2)
  | .winblk | .winham | .winksr | .wini0 => [0]
  | .ratapx => [0, 1]
  | .firdes _ _ => [0]
  | .firflt _ _ _ | .firfltr _ _ _ | .resamp _ _ _ => [0]
  | .resinit _ _ => [0, 1]
  | .cnvinit _ => []
  | .cnvfill _ _ _ | .cnvmix _ _ _ => [0]

/-- R192: the codes a command can end with once it is decoded, 0 among them. -/
def codesOf : Instr → List Nat
  | .winblk | .winham | .winksr | .wini0 | .ratapx => [0, 6]
  | .firdes _ _ => [0, 1, 4, 6, 7]
  | .firflt _ _ _ | .firfltr _ _ _ | .resamp _ _ _ | .cnvfill _ _ _ => [0, 4, 5, 6]
  | .resinit _ _ => [0, 2, 4, 6, 7]
  | .cnvinit _ => [0, 4, 6]
  | .cnvmix _ _ _ => [0, 4, 5, 6, 7]

/-! ## Readings of the numerics -/

/-- R13: the pattern `m` is the magnitude nearest to `q` units, of two equally near ones the even one. A magnitude past
the largest finite one stands for an infinity, whose place in the order is that of the next power of two. -/
def Fmt.IsNearest (f : Fmt) (q : ℝ) (m : Nat) : Prop :=
  m ≤ f.infMag ∧ ∀ m', m' ≤ f.infMag → |(f.units m : ℝ) - q| ≤ |(f.units m' : ℝ) - q| ∧
    (|(f.units m : ℝ) - q| = |(f.units m' : ℝ) - q| → m = m' ∨ m % 2 = 0)

/-- The number a binary64 pattern stands for, in units. An infinity is given the place of the next power of two. -/
noncomputable def value64 (x : F64) : ℝ := if neg64 x then -(fmt64.units (mag64 x) : ℝ) else fmt64.units (mag64 x)

/-- The number a binary32 pattern stands for, in units. An infinity is given the place of the next power of two. -/
noncomputable def value32 (x : F32) : ℝ := if neg32 x then -(fmt32.units (mag32 x) : ℝ) else fmt32.units (mag32 x)

/-- A binary64 pattern of a finite number. -/
abbrev Finite64 (x : F64) : Prop := mag64 x < fmt64.infMag

/-- A binary32 pattern of a finite number. -/
abbrev Finite32 (x : F32) : Prop := mag32 x < fmt32.infMag

/-- R13: `z` is the exact number of `q` units rounded once, an exact zero having the given sign. -/
def Rounded64 (z : F64) (q : ℝ) (zeroNeg : Bool) : Prop :=
  fmt64.IsNearest |q| (mag64 z) ∧ neg64 z = if q = 0 then zeroNeg else decide (q < 0)

/-- R13: the same for binary32. -/
def Rounded32 (z : F32) (q : ℝ) (zeroNeg : Bool) : Prop :=
  fmt32.IsNearest |q| (mag32 z) ∧ neg32 z = if q = 0 then zeroNeg else decide (q < 0)

/-! ## Readings of the formulas -/

/-- R138, R158: a dot product of `n` coefficients, coefficient `k` against sample `k`, rounded to binary32 after every
product and every sum, from +0.0, `k` rising. -/
def dotProduct (coef sample : Nat → F32) : Nat → F32
  | 0 => zero32
  | n + 1 => add32 (dotProduct coef sample n) (mul32 (coef n) (sample n))

/-- R134: how many samples come before the first one that is due to produce an output. -/
def FirCtx.firstDue (F : FirCtx) : Nat := (F.decim.toNat - F.decCur.toNat) % F.decim.toNat

/-- R134: how many of the next `m` samples are due to produce an output. -/
def FirCtx.produced (F : FirCtx) (m : Nat) : Nat := (m - F.firstDue + F.decim.toNat - 1) / F.decim.toNat

/-- R135: how many of `len` samples a filter command consumes with room for `room` outputs: it stops at the first sample
whose output has no room. -/
def FirCtx.consumed (F : FirCtx) (room len : Nat) : Nat := min len (F.firstDue + room * F.decim.toNat)

/-- R138: the sample `k` samples older than sample `m` of the stream `x` that follows the samples in the delay line. -/
def FirCtx.history (F : FirCtx) (line : Mem 32) (x : Nat → F32) (m k : Nat) : F32 :=
  if k ≤ m then x (m - k) else line.read ((F.tapCur.toNat + m + F.ntaps.toNat - k) % F.ntaps.toNat)

/-- R138: the output for sample `m` of the stream `x`. -/
def FirCtx.outputAt (F : FirCtx) (line : Mem 32) (x : Nat → F32) (m : Nat) : F32 :=
  dotProduct F.taps.read (F.history line x m) F.ntaps.toNat

/-- R156: where the phase counter would stand at output `j` of a command, had nothing been taken off it. -/
def ResCtx.phaseAt (R : ResCtx) (j : Nat) : Nat := R.ctr.toNat + j * R.facM.toNat

/-- R156, R157: how many outputs a `RESAMP` of `len` samples computes with room for `room`: one for each whose preceding
samples are fewer than `len`. -/
def ResCtx.outputs (R : ResCtx) (room len : Nat) : Nat :=
  min room ((len * R.facL.toNat - R.ctr.toNat + R.facM.toNat - 1) / R.facM.toNat)

/-- R156, R157: how many samples it consumes: those that the phase counter owes after the outputs, as far as they go. -/
def ResCtx.consumed (R : ResCtx) (room len : Nat) : Nat :=
  min len (R.phaseAt (R.outputs room len) / R.facL.toNat)

/-- R158: the `k`-th most recent sample once `c` samples of the stream `x` have followed those in the delay line. -/
def ResCtx.history (R : ResCtx) (line : Mem 32) (x : Nat → F32) (c k : Nat) : F32 :=
  if k < c then x (c - 1 - k) else line.read ((R.pos.toNat + c + R.subLen.toNat - 1 - k) % R.subLen.toNat)

/-- R156, R158: output `j` of a command on the stream `x`. -/
def ResCtx.outputAt (l : Limits) (R : ResCtx) (line : Mem 32) (x : Nat → F32) (j : Nat) : F32 :=
  dotProduct (fun k => R.ph.read (phIndex l (R.phaseAt j % R.facL.toNat) k))
    (R.history line x (R.phaseAt j / R.facL.toNat)) R.subLen.toNat

/-- R177, R180: the sample `j` of a command that starts at cursor `cur`: mixed with the table entry `cur + j`, around
the table. -/
def CnvCtx.mixAt (C : CnvCtx) (b : RawSlot) (cur j : Nat) : F32 × F32 :=
  mixSample (C.lut.read (rawI b j)) (C.lut.read (rawQ b j)) (C.cos.read ((cur + j) % C.ncoLen.toNat))
    (C.sin.read ((cur + j) % C.ncoLen.toNat))

/-- R115: the term of index `k` of the I0 series. -/
def seriesTerm (x : F64) : Nat → F64
  | 0 => one64
  | k + 1 =>
    let q := div64 (div64 x two64) (ofInt64 ((k + 1 : Nat) : Int))
    mul64 (seriesTerm x k) (mul64 q q)

/-- R115: the sum of the terms of the I0 series up to index `k`. -/
def seriesSum (x : F64) : Nat → F64
  | 0 => one64
  | k + 1 => add64 (seriesSum x k) (seriesTerm x (k + 1))

/-- R115: `v` is the value I0 of `x`: the sum up to the first term, from index 1 on, that falls below the threshold. -/
def IsI0 (x v : F64) : Prop :=
  ∃ K, 1 ≤ K ∧ v = seriesSum x K ∧ lt64 (seriesTerm x K) cI0Eps = true ∧
    ∀ k, 1 ≤ k → k < K → lt64 (seriesTerm x k) cI0Eps = false

/-- R113: `v` is the Kaiser coefficient. -/
def IsKaiser (n N : Int) (beta v : F64) : Prop :=
  let q := sub64 (div64 (mul64 two64 (ofInt64 n)) (ofInt64 (N - 1))) one64
  if n = 0 ∨ n = N - 1 then ∃ b, IsI0 beta b ∧ v = div64 one64 b
  else ∃ g b, IsI0 (mul64 beta (sqrt64 (sub64 one64 (mul64 q q)))) g ∧ IsI0 beta b ∧ v = div64 g b

/-- R110, R111, R112: `v` is the value of the window. -/
def IsWindow (win : WindowFn) (n N : Int) (beta v : F64) : Prop :=
  let p1 := div64 (mul64 twoPi64 (ofInt64 n)) (ofInt64 (N - 1))
  let p2 := div64 (mul64 (mul64 four64 pi64) (ofInt64 n)) (ofInt64 (N - 1))
  match win with
  | .blackman => v = add64 (sub64 cBlkA0 (mul64 cBlkA1 (cos64 p1))) (mul64 cBlkA2 (cos64 p2))
  | .hamming => v = sub64 cHamA0 (mul64 cHamA1 (cos64 p1))
  | .kaiser => IsKaiser n N beta v

/-- R133: `h` is the ideal low-pass response `n` places from its centre. -/
def IsLowPass (w0 : F64) (n : Int) (h : F64) : Prop :=
  (n = 0 → h = div64 w0 pi64) ∧ (n ≠ 0 → h = div64 (sin64 (mul64 (ofInt64 n) w0)) (mul64 (ofInt64 n) pi64))

/-- R133: the sum of the centre tap `m` and twice each of the `n` taps above it, from the centre outwards. -/
def gainSum (h : Nat → F64) (m : Nat) : Nat → F64
  | 0 => h m
  | n + 1 => add64 (gainSum h m n) (mul64 two64 (h (m + (n + 1))))

/-- R133: `tap` is the prototype of `nt` taps. -/
def IsPrototype (nt : Nat) (gain fs fc : F64) (win : WindowFn) (beta : F64) (tap : Nat → F32) : Prop :=
  ∃ h : Nat → F64,
    (∀ i : Nat, i < nt → ∃ x w, IsLowPass (div64 (mul64 twoPi64 fc) fs) ((i : Int) - ((nt - 1) / 2 : Nat)) x ∧
      IsWindow win i nt beta w ∧ h i = mul64 x w) ∧
    ∀ i, i < nt → tap i = cvt32 (mul64 (h i) (div64 gain (gainSum h ((nt - 1) / 2) ((nt - 1) / 2))))

/-- R132: the tap-count quotient as a whole number, saturated at magnitude 2^62. -/
noncomputable def saturatedFloor (q : F64) : Int :=
  if 2 ^ 62 ≤ value64 q / fmt64.one then 2 ^ 62
  else if value64 q / fmt64.one ≤ -2 ^ 62 then -2 ^ 62
  else ⌊value64 q / fmt64.one⌋

/-- R134, R156: what a delay line of `N` places holds after `n` samples of the stream `x` of `len` have been put in from
place `cur` on: the newest sample stands one place behind the new cursor. Where a filter command stopped early
(`n < len`), the sample it stopped at stands at the cursor itself (R135). -/
def LineAfter (N cur : Nat) (old new : Mem 32) (x : Nat → F32) (n len : Nat) : Prop :=
  (∀ j, N ≤ j → new.read j = old.read j) ∧
    ∀ k, k < N → new.read ((cur + n + N - 1 - k) % N) =
      if n < len ∧ k = N - 1 then x n
      else if k < n then x (n - 1 - k) else old.read ((cur + n + N - 1 - k) % N)

/-- R134, R156: what an output array holds after `cnt` outputs `y` have been appended from index `base` on. -/
def Appended (old new : Mem 32) (base cnt : Nat) (y : Nat → F32) : Prop :=
  ∀ idx, new.read idx = if base ≤ idx ∧ idx < base + cnt then y (idx - base) else old.read idx

/-- R176: the numbers of cycles the length search looks at. -/
abbrev CyclesTried (rate A ml j : Nat) : Prop := 1 ≤ j ∧ (j = 1 ∨ j * rate < ml * A)

/-- R176: `len` is the table length: that of the number of cycles with the smallest error, the earliest on ties. -/
def BestLength (rate A ml len : Nat) : Prop :=
  ∃ j, CyclesTried rate A ml j ∧ len = j * rate / A ∧
    (∀ k, CyclesTried rate A ml k → j * rate % A ≤ k * rate % A) ∧
    ∀ k, CyclesTried rate A ml k → k < j → j * rate % A < k * rate % A

/-- R176: the angle of entry `t` of the table for the frequency `f` at the sample rate `rate`: the phase reduced modulo
the rate in exact integers, never negative. -/
def phaseAngle (f : Int) (rate t : Nat) : F64 :=
  div64 (mul64 twoPi64 (ofInt64 (Int.emod (f * t) rate))) (ofInt64 rate)

/-- R176: `D` is the context `C` with the table of `len` entries for the frequency `f`. -/
structure Regenerated (C : CnvCtx) (f : Int) (len : Nat) (D : CnvCtx) : Prop where
  valid : D.valid = C.valid
  lut : D.lut = C.lut
  rate : D.rate = C.rate
  center : D.center = C.center
  maxlen : D.maxlen = C.maxlen
  ncoValid : D.ncoValid = true
  ncoFreq : D.ncoFreq = BitVec.ofInt 64 f
  ncoLen : D.ncoLen.toNat = len
  cur : D.cur = 0
  cos : ∀ t, D.cos.read t = if t < len then cvt32 (cos64 (phaseAngle f C.rate.toNat t)) else C.cos.read t
  sin : ∀ t, D.sin.read t = if t < len then cvt32 (sin64 (phaseAngle f C.rate.toNat t)) else C.sin.read t

/-- R174: the cache of the context holds the table of the frequency `f`. -/
abbrev CacheHolds (C : CnvCtx) (f : Int) : Prop := C.ncoValid = true ∧ C.ncoFreq = BitVec.ofInt 64 f

/-- R178: `D` is the context `C` once its cache is up to date for the frequency `f`. -/
def UpToDate (C : CnvCtx) (f : Int) (D : CnvCtx) : Prop :=
  CacheHolds C f ∧ D = C ∨
  ¬ CacheHolds C f ∧ ∃ len, BestLength C.rate.toNat f.natAbs C.maxlen.toNat len ∧ len ≤ C.maxlen.toNat ∧ Regenerated C f len D

/-- R174, R176: a table in the cache is the one generated for the effective frequency of some channel. -/
def CnvCtx.CacheOk (C : CnvCtx) : Prop :=
  C.ncoValid = true → ∃ chan : Int, FreqInRange chan ∧ C.ncoFreq = BitVec.ofInt 64 (effectiveMix C chan) ∧
    BestLength C.rate.toNat (effectiveMix C chan).natAbs C.maxlen.toNat C.ncoLen.toNat ∧
    ∀ t, t < C.ncoLen.toNat → C.cos.read t = cvt32 (cos64 (phaseAngle (effectiveMix C chan) C.rate.toNat t)) ∧
      C.sin.read t = cvt32 (sin64 (phaseAngle (effectiveMix C chan) C.rate.toNat t))

/-- R174, R176: that for every converter context of the block. -/
def State.CacheOk (s : State) : Prop := ∀ C ∈ s.cnv, C.valid = true → C.CacheOk

end Sys2Proof.Machine
end

