-- ==== Sys2Proof/Certificates/Slice0/Obligations.lean ====
section
/-! DEFINITION. Certificates/Slice0/Obligations.lean: the statements about the model, for the provers. -/

open Sys2Proof Sys2Proof.Machine

/-! ## The command word -/

/-- R90 to R94: the word of a well-formed command decodes to that command. -/
def Obligations.EncodeThenDecode : Prop := ∀ i : Instr, i.wellFormed = true → decode (encode i) = .ok i

/-- R90 to R94, R96: a word that is a command is the word of that command, and the command is well formed. -/
def Obligations.DecodeThenEncode : Prop := ∀ (w : Word32) (i : Instr), decode w = .ok i → i.wellFormed = true ∧ encode i = w

/-- R96: a word is illegal exactly where one of the rule's conditions holds; writing it to `CMD` raises `IllegalCommand`
(code 3, R191) and changes nothing else but `CMD` itself, which holds the word (R32). Every other word is exactly one
command. The host's list of actions is the model's own (log entry 2). -/
def Obligations.IllegalWordsRaise : Prop :=
  ∀ w : Word32,
    let opcode := (w.extractLsb' 0 8).toNat
    let ctx := (w.extractLsb' 8 4).toNat
    let src := (w.extractLsb' 12 4).toNat
    let dst := (w.extractLsb' 16 4).toNat
    let mod := (w.extractLsb' 20 4).toNat
    let rsv := (w.extractLsb' 24 8).toNat
    let formatN := opcode ∈ [0x10, 0x11, 0x12, 0x13, 0x20]
    let formatC := opcode ∈ [0x30, 0x40, 0x50]
    let formatS := opcode ∈ [0x31, 0x32, 0x41, 0x51, 0x52]
    let illegal :=
      ¬ (formatN ∨ formatC ∨ formatS) ∨ rsv ≠ 0 ∨
      (formatN ∧ (ctx ≠ 0 ∨ src ≠ 0 ∨ dst ≠ 0 ∨ mod ≠ 0)) ∨
      (formatC ∧ (src ≠ 0 ∨ dst ≠ 0)) ∨ (opcode = 0x50 ∧ mod ≠ 0) ∨
      (formatS ∧ mod ≠ 0) ∨
      (opcode = 0x30 ∧ 3 ≤ mod) ∨
      (opcode = 0x40 ∧ 2 ≤ mod)
    (illegal → ∀ s : State, ∀ rest, s.host = .write .cmd (w.setWidth 64) :: rest →
      step s = .next { s with host := rest, cmd := w, status := 3 }) ∧
    (¬ illegal → ∃! i : Instr, i.wellFormed = true ∧ encode i = w)

/-- R103: a word lies in the row of a command if its masked bits are the row's match; the further condition on `FIRDES`
is `mod ≤ 2`. The rows are disjoint and select the command that the word decodes to. -/
def Obligations.RowsSelectCommands : Prop :=
  (∀ (w : Word32) (i j : Instr), w &&& rowMask i = rowMatch i → w &&& rowMask j = rowMatch j → rowMatch i = rowMatch j) ∧
  (∀ (w : Word32) (i : Instr), w &&& rowMask i = rowMatch i → (rowMatch i = 0x30#32 → (w.extractLsb' 20 4).toNat ≤ 2) →
    ∃ j, decode w = .ok j ∧ rowMatch j = rowMatch i) ∧
  (∀ (w : Word32) (i : Instr), decode w = .ok i → w &&& rowMask i = rowMatch i) ∧
  (∀ i : Instr, rowMask i =
    if rowMatch i ∈ [0x10#32, 0x11#32, 0x12#32, 0x13#32, 0x20#32] then 0xFFFFFFFF#32
    else if rowMatch i = 0x50#32 then 0xFFFFF0FF#32
    else if rowMatch i = 0x30#32 then 0xFF0FF0FF#32
    else if rowMatch i = 0x40#32 then 0xFFEFF0FF#32 else 0xFFF000FF#32) ∧
  (∀ i : Instr, rowMatch i = BitVec.setWidth 32 ((encode i).extractLsb' 0 8))

/-- The worked encodings of 30_encoding.md decode to the commands they stand for. -/
def Obligations.WorkedEncodingsDecode : Prop :=
  decode 0x00000010#32 = .ok .winblk ∧ decode 0x00000020#32 = .ok .ratapx ∧
  decode 0x00000030#32 = .ok (.firdes 0 .blackman) ∧ decode 0x00200130#32 = .ok (.firdes 1 .kaiser) ∧
  decode 0x00010031#32 = .ok (.firflt 0 0 1) ∧ decode 0x00032132#32 = .ok (.firfltr 1 2 3) ∧
  decode 0x00000040#32 = .ok (.resinit 0 false) ∧ decode 0x00100140#32 = .ok (.resinit 1 true) ∧
  decode 0x00021041#32 = .ok (.resamp 0 1 2) ∧ decode 0x00000050#32 = .ok (.cnvinit 0) ∧
  decode 0x00000051#32 = .ok (.cnvfill 0 0 0) ∧ decode 0x00031052#32 = .ok (.cnvmix 0 1 3)

/-! ## The step, the host port and reset -/

/-- R32, R6: where the host's next action writes a command word to `CMD`, the step is the command, executed to completion
on the state whose `CMD` holds the word and whose host list has moved on. That list is the model's own (log entry 2). -/
def Obligations.StepRunsDecodedCommand : Prop :=
  (∀ (s : State) (v : Word64) (rest : List HostAction) (i : Instr), s.host = .write .cmd v :: rest →
    decode (v.setWidth 32) = .ok i → step s = exec i { s with host := rest, cmd := v.setWidth 32 }) ∧
  ∀ (s : State) (w : Nat) (i : Instr), decodeTableWord 32 w = some i →
    step (s.withFetchWord 32 w) = exec i { s with cmd := BitVec.ofNat 32 w }

/-- R71: a host write replaces the whole element, truncated to its width, and nothing else; a write to an element the host
may not write, or that does not exist, is ignored; an element that does not exist reads as zero. That a slot or a register
that does not exist is treated as an index outside an array is the model's choice (log entry 7); so are the 64 bits of the
port, an element extended with zeros (log entry 12), and the host's list of actions (log entry 2). -/
def Obligations.HostPortReplacesElements : Prop :=
  (∀ (s : State) (e : Elem) (v : Word64), e.writable = true → s.hasElem e →
    hostRead (hostWrite s e v) e = (v.setWidth e.width).setWidth 64 ∧
    ∀ e', e' ≠ e → hostRead (hostWrite s e v) e' = hostRead s e') ∧
  (∀ (s : State) (e : Elem) (v : Word64), ¬ (e.writable = true ∧ s.hasElem e) → hostWrite s e v = s) ∧
  (∀ (s : State) (e : Elem), ¬ s.hasElem e → hostRead s e = 0) ∧
  ∀ (s : State) (e : Elem) (v : Word64) (rest : List HostAction), s.host = .write e v :: rest → e ≠ .cmd →
    step s = .next (hostWrite { s with host := rest } e v)

/-- R79, R204: a host read changes nothing, and between actions the block is idle and keeps all its state. The host's
list of actions is the model's own (log entry 2). -/
def Obligations.ReadsAndIdleChangeNothing : Prop :=
  ∀ s : State, (∀ e rest, s.host = .read e :: rest → step s = .next { s with host := rest }) ∧
    (s.host = [] → step s = .next s)

/-- R210, R211: a reset, whatever the state before it and whatever the element memories hold afterwards, leaves every
register, flag, counter, length and cursor at the value the rule states. The same holds of the state a run starts in. That
the host's list and the structural parameters (R7) survive a reset is the model's (log entries 9, 2 and 1). -/
def Obligations.ResetLeavesStatedValues : Prop :=
  (∀ (s : State) (m : InitMem) (rest : List HostAction), s.host = .reset m :: rest →
    ∃ t, step s = .next t ∧ t.ResetValues ∧ t.host = rest ∧ t.params = s.params) ∧
  ∀ (p : Params) (m : InitMem), (State.resetWith p m).ResetValues ∧ (State.resetWith p m).params = p

/-- The state after reset has every property the spec promises of all states, whatever the parameters within R7 and the
contents of the element memories. -/
def Obligations.ResetSatisfiesInvariant : Prop :=
  ∀ (p : Params) (m : InitMem), p.Ok → (State.resetWith p m).Inv ∧ (State.resetWith p m).CacheOk

/-! ## Invariants -/

/-- Every step keeps what the spec promises of all states: the parameters of R7, the status register of R33 and R191, the
contexts of R41, R43 and R45, and the extents and the canonical form of every element memory. -/
def Obligations.StepKeepsInvariant : Prop := ∀ s t : State, s.Inv → step s = .next t → t.Inv

/-- R41: the invariant of a FIR context holds whenever it is valid: `FIRDES` establishes it, `FIRFLT` and `FIRFLTR`
preserve it, and after reset no context is valid. -/
def Obligations.FirContextsStayLegal : Prop :=
  (∀ (p : Params) (m : InitMem), (State.resetWith p m).FirOk) ∧ ∀ s t : State, s.lim.Ok → s.FirOk → step s = .next t → t.FirOk

/-- R43: the invariant of a resampler context holds whenever it is valid: after reset, and from step to step. -/
def Obligations.ResContextsStayLegal : Prop :=
  (∀ (p : Params) (m : InitMem), (State.resetWith p m).ResOk) ∧ ∀ s t : State, s.lim.Ok → s.ResOk → step s = .next t → t.ResOk

/-- R45: the invariant of a converter context holds whenever it is valid: after reset, and from step to step. -/
def Obligations.CnvContextsStayLegal : Prop :=
  (∀ (p : Params) (m : InitMem), (State.resetWith p m).CnvOk) ∧ ∀ s t : State, s.lim.Ok → s.CnvOk → step s = .next t → t.CnvOk

/-- R174, R176: a table in the oscillator cache of a valid converter is always the one generated for the effective
frequency of some channel in range. The key is the pattern that the field holds (log entry 8). -/
def Obligations.OscillatorCacheStaysGenerated : Prop :=
  ∀ s t : State, s.lim.Ok → s.CnvOk → s.CacheOk → step s = .next t → t.CacheOk

/-- Every element memory stays in its canonical form (indices rising, no entry equal to what an unlisted index reads as),
so that equal memories are equal data. The form is the model's own. -/
def Obligations.MemoriesStayCanonical : Prop :=
  ∀ s t : State, s.MemCanonical → step s = .next t → t.MemCanonical

/-- R36: `PktOK` of every packet slot is preserved by every command; a streaming command that names a packet that fails it
raises `BadOperand` where its earlier tests pass. -/
def Obligations.PacketInvariantPreserved : Prop :=
  (∀ (i : Instr) (s t : State) (j : Nat) (P Q : Packet), exec i s = .next t → s.pkt[j]? = some P → t.pkt[j]? = some Q →
    (PktOK s.lim P → PktOK t.lim Q) ∧ Q.cap = P.cap) ∧
  (∀ (s : State) (c p q : Nat) (F : FirCtx) (inp out : Packet), s.fir[c]? = some F → F.valid = true →
    s.pkt[p]? = some inp → s.pkt[q]? = some out → ¬ (PktOK s.lim inp ∧ PktOK s.lim out) →
    exec (.firflt c p q) s = .next { s with status := 6 } ∧ exec (.firfltr c p q) s = .next { s with status := 6 }) ∧
  (∀ (s : State) (c p q : Nat) (R : ResCtx) (inp out : Packet), s.res[c]? = some R → R.valid = true →
    s.pkt[p]? = some inp → s.pkt[q]? = some out → ¬ (PktOK s.lim inp ∧ PktOK s.lim out) →
    exec (.resamp c p q) s = .next { s with status := 6 }) ∧
  ∀ (s : State) (c b q : Nat) (C : CnvCtx) (B : RawSlot) (out : Packet), s.cnv[c]? = some C → C.valid = true →
    s.raw[b]? = some B → s.pkt[q]? = some out → ¬ PktOK s.lim out →
    exec (.cnvfill c b q) s = .next { s with status := 6 } ∧ exec (.cnvmix c b q) s = .next { s with status := 6 }

/-! ## What holds of every command -/

/-- Every step from a state with the spec's invariants has a next state: no command is refused, whatever its operands, so
the three loops that run under fuel (R115, R121, R176; U5, R216) always end within it. The fuel is the model's choice (log
entry 6). -/
def Obligations.EveryStepCompletes : Prop := ∀ s : State, s.Inv → ∃ t, step s = .next t

/-- R194: what a command that raises has changed besides `STATUS`: nothing, but for the `valid` bit that a construction
command has cleared once it has passed its index test, and the `nco_valid` bit that `CNVMIX` clears with
`CapacityExceeded`. A word that is no command changes nothing but `CMD`, which the host wrote. That a failed construction
keeps the other fields of its context is the model's choice (log entry 10), and the host's list of actions is the model's
own (log entry 2). -/
def Obligations.ErrorsArePrecise : Prop :=
  (∀ (s : State) (v : Word64) (rest : List HostAction) (e : DecodeError), s.host = .write .cmd v :: rest →
    decode (v.setWidth 32) = .error e →
    step s = .next { s with host := rest, cmd := v.setWidth 32, status := 3 }) ∧
  ∀ (i : Instr) (s t : State), exec i s = .next t → t.status ≠ 0 →
    match i with
    | .firdes c _ =>
      if t.status = 4 then t = { s with status := t.status }
      else ∃ F, s.fir[c]? = some F ∧ t = { s with status := t.status, fir := s.fir.set c { F with valid := false } }
    | .resinit c _ =>
      if t.status = 4 then t = { s with status := t.status }
      else ∃ R, s.res[c]? = some R ∧ t = { s with status := t.status, res := s.res.set c { R with valid := false } }
    | .cnvinit c =>
      if t.status = 4 then t = { s with status := t.status }
      else ∃ C, s.cnv[c]? = some C ∧ t = { s with status := t.status, cnv := s.cnv.set c { C with valid := false } }
    | .cnvmix c _ _ =>
      if t.status = 7 then
        ∃ C, s.cnv[c]? = some C ∧ t = { s with status := t.status, cnv := s.cnv.set c { C with ncoValid := false } }
      else t = { s with status := t.status }
    | .winblk | .winham | .winksr | .wini0 | .ratapx | .firflt _ _ _ | .firfltr _ _ _ | .resamp _ _ _ | .cnvfill _ _ _ =>
      t = { s with status := t.status }

/-- R192, R33: a decoded command ends with one of the codes that the table of R192 gives it, the bits of `STATUS` above the
code zero. So `RESINIT` never ends with `InvalidFilterParameters` (R151, R152). -/
def Obligations.CodesOfEachCommand : Prop :=
  ∀ (i : Instr) (s t : State), s.lim.Ok → exec i s = .next t → ∃ code ∈ codesOf i, t.status = BitVec.ofNat 32 code

/-- R30, R32, R38, R39: no command writes an argument register, `CMD`, a raw slot or the tap staging buffer, nor changes how
many slots there are, the parameters (R7), or the host's list of actions (R34). The parameters and that list stand in the
state by the model's choice (log entries 1 and 2). -/
def Obligations.CommandsLeaveHostStateAlone : Prop :=
  ∀ (i : Instr) (s t : State), exec i s = .next t →
    t.a = s.a ∧ t.cmd = s.cmd ∧ t.raw = s.raw ∧ t.tbuf = s.tbuf ∧ t.host = s.host ∧ t.params = s.params

/-- R84: a command reads and writes exactly the one context slot it names, or none: whatever another context slot of any
unit holds, the command does the same and leaves it so. -/
def Obligations.ContextsAreIndependent : Prop :=
  ∀ (i : Instr) (s : State) (j : Nat),
    (firCtxOf i ≠ some j → ∀ F, exec i (s.setFir j F) = mapNext (fun t => t.setFir j F) (exec i s)) ∧
    (resCtxOf i ≠ some j → ∀ R, exec i (s.setRes j R) = mapNext (fun t => t.setRes j R) (exec i s)) ∧
    (cnvCtxOf i ≠ some j → ∀ C, exec i (s.setCnv j C) = mapNext (fun t => t.setCnv j C) (exec i s))

/-- R37, R39: a command reads and writes only the packet slots it names and reads only the raw slot it names; only `RESINIT`
with the custom flag reads the tap staging buffer. -/
def Obligations.OnlyNamedBuffersTouched : Prop :=
  ∀ (i : Instr) (s : State) (j : Nat),
    (j ∉ packetsOf i → ∀ P, exec i (s.setPkt j P) = mapNext (fun t => t.setPkt j P) (exec i s)) ∧
    (rawOf i ≠ some j → ∀ B, exec i { s with raw := s.raw.set j B } =
      mapNext (fun t => { t with raw := t.raw.set j B }) (exec i s)) ∧
    ((∀ c, i ≠ .resinit c true) → ∀ T, exec i { s with tbuf := T } = mapNext (fun t => { t with tbuf := T }) (exec i s))

/-- R99: an argument register not listed for a command is ignored by it, and a result register not listed is left
unchanged; a command that raises writes neither (R31). -/
def Obligations.RegistersListedForEachCommand : Prop :=
  ∀ (i : Instr) (s : State),
    (∀ k : Fin 8, k ∉ argumentsOf i → ∀ v, exec i { s with a := s.a.set k v } =
      mapNext (fun t => { t with a := t.a.set k v }) (exec i s)) ∧
    ∀ t, exec i s = .next t → ∀ k : Fin 2, k ∉ resultsOf i ∨ t.status ≠ 0 → t.r[k] = s.r[k]

/-! ## Window functions -/

/-- R111, R110: `WINBLK`. With `n` and `N` in the contract it writes the coefficient of the rule's formula to `r[0]` and
nothing else but code 0, and at `n = 0` the coefficient is the stated bit pattern; otherwise it raises `BadOperand`. -/
def Obligations.WinblkCoefficient : Prop :=
  encode .winblk = 0x00000010#32 ∧
  ∀ s : State,
    let n := s.ai 0
    let N := s.ai 1
    let p1 := div64 (mul64 twoPi64 (ofInt64 n)) (ofInt64 (N - 1))
    let p2 := div64 (mul64 (mul64 four64 pi64) (ofInt64 n)) (ofInt64 (N - 1))
    (2 ≤ N → N ≤ 2 ^ 31 - 1 → 0 ≤ n → n ≤ N - 1 → ∃ v,
      exec .winblk s = .next { s with r := s.r.set 0 v, status := 0 } ∧
      v = add64 (sub64 cBlkA0 (mul64 cBlkA1 (cos64 p1))) (mul64 cBlkA2 (cos64 p2)) ∧
      (n = 0 → v = 0xBC70000000000000#64)) ∧
    (¬ ((2 ≤ N ∧ N ≤ 2 ^ 31 - 1) ∧ 0 ≤ n ∧ n ≤ N - 1) → exec .winblk s = .next { s with status := 6 })

/-- R112, R110: `WINHAM`. With `n` and `N` in the contract it writes the coefficient of the rule's formula to `r[0]` and
nothing else but code 0, and at `n = 0` the coefficient is the stated bit pattern; otherwise it raises `BadOperand`. -/
def Obligations.WinhamCoefficient : Prop :=
  encode .winham = 0x00000011#32 ∧
  ∀ s : State,
    let n := s.ai 0
    let N := s.ai 1
    let p1 := div64 (mul64 twoPi64 (ofInt64 n)) (ofInt64 (N - 1))
    (2 ≤ N → N ≤ 2 ^ 31 - 1 → 0 ≤ n → n ≤ N - 1 → ∃ v,
      exec .winham s = .next { s with r := s.r.set 0 v, status := 0 } ∧
      v = sub64 cHamA0 (mul64 cHamA1 (cos64 p1)) ∧ (n = 0 → v = 0x3FB47AE147AE147C#64)) ∧
    (¬ ((2 ≤ N ∧ N ≤ 2 ^ 31 - 1) ∧ 0 ≤ n ∧ n ≤ N - 1) → exec .winham s = .next { s with status := 6 })

/-- R113, R110: `WINKSR`. With `n` and `N` in the contract and the shape parameter in the domain of I0 it writes the Kaiser
coefficient to `r[0]` and nothing else but code 0: `1 / I0(beta)` at the edges, the quotient of two values of I0 between
them, and exactly 1.0 everywhere for a shape parameter of either zero. Otherwise it raises `BadOperand`. -/
def Obligations.WinksrCoefficient : Prop :=
  encode .winksr = 0x00000012#32 ∧
  ∀ s : State,
    let n := s.ai 0
    let N := s.ai 1
    let beta := s.af 2
    let q := sub64 (div64 (mul64 two64 (ofInt64 n)) (ofInt64 (N - 1))) one64
    let g := mul64 beta (sqrt64 (sub64 one64 (mul64 q q)))
    let contract := (2 ≤ N ∧ N ≤ 2 ^ 31 - 1) ∧ 0 ≤ n ∧ n ≤ N - 1
    let domain := le64 zero64 beta = true ∧ le64 beta cI0Xmax = true
    (contract → domain → ∃ v, exec .winksr s = .next { s with r := s.r.set 0 v, status := 0 } ∧
      (n = 0 ∨ n = N - 1 → ∃ b, IsI0 beta b ∧ v = div64 one64 b) ∧
      (0 < n → n < N - 1 → ∃ x b, IsI0 g x ∧ IsI0 beta b ∧ v = div64 x b) ∧
      (eq64 beta zero64 = true → v = one64)) ∧
    (¬ contract ∨ ¬ domain → exec .winksr s = .next { s with status := 6 })

/-- R114, R115: `WINI0`. On every argument from 0.0 to the bound the series ends; its sum goes to `r[0]`, and nothing else
changes but the code, which is 0; either zero gives exactly 1.0. A NaN, a negative argument or one above the bound raises
`BadOperand`. -/
def Obligations.Wini0SumsTheSeries : Prop :=
  encode .wini0 = 0x00000013#32 ∧
  ∀ s : State,
    (le64 zero64 (s.af 0) = true → le64 (s.af 0) cI0Xmax = true → ∃ v,
      exec .wini0 s = .next { s with r := s.r.set 0 v, status := 0 } ∧ IsI0 (s.af 0) v ∧
      (eq64 (s.af 0) zero64 = true → v = one64)) ∧
    (¬ (le64 zero64 (s.af 0) = true ∧ le64 (s.af 0) cI0Xmax = true) → exec .wini0 s = .next { s with status := 6 })

/-! ## Rational approximation -/

/-- R120, R121, R122, R123: `RATAPX` writes to `r[0]` and `r[1]` the reduced fraction that is nearest to the target among
all with a denominator up to the bound, of two equally near ones the lower, and changes nothing else but the code, which
is 0; an operand outside its range raises `BadOperand`. -/
def Obligations.RatapxFindsBestFraction : Prop :=
  encode .ratapx = 0x00000020#32 ∧
  ∀ s : State,
    let num := s.ai 0
    let den := s.ai 1
    let maxd := s.ai 2
    let legal := (1 ≤ num ∧ num ≤ 2 ^ 32 - 1) ∧ (1 ≤ den ∧ den ≤ 2 ^ 32 - 1) ∧ 1 ≤ maxd ∧ maxd ≤ 2 ^ 32 - 1
    (legal → ∃ n d : Nat,
      exec .ratapx s = .next { s with r := (s.r.set 0 (BitVec.ofNat 64 n)).set 1 (BitVec.ofNat 64 d), status := 0 } ∧
      n < 2 ^ 64 ∧ 1 ≤ d ∧ (d : Int) ≤ maxd ∧ Nat.gcd n d = 1 ∧
      (∀ p q : Nat, 1 ≤ q → (q : Int) ≤ maxd →
        |(num : ℚ) / den - (n : ℚ) / d| ≤ |(num : ℚ) / den - (p : ℚ) / q| ∧
        (|(num : ℚ) / den - (n : ℚ) / d| = |(num : ℚ) / den - (p : ℚ) / q| → (n : ℚ) / d ≤ (p : ℚ) / q))) ∧
    (¬ legal → exec .ratapx s = .next { s with status := 6 })

/-! ## Filters -/

/-- R132: the tap count: the floor of the quotient, saturated at magnitude 2^62, clamped to a positive ceiling, forced odd;
it fails for a NaN quotient, for a count below 3 and for one above the limit. -/
def Obligations.TapCountRule : Prop :=
  ∀ (att fs tw : F64) (maxTaps limit : Int),
    let q := div64 (mul64 att fs) (mul64 cNtapsDiv tw)
    let clamped := if 0 < maxTaps then min (saturatedFloor q) maxTaps else saturatedFloor q
    let nt := if clamped % 2 = 0 then clamped + 1 else clamped
    tapCount att fs tw maxTaps limit =
      if isNaN64 q then .error .badOperand
      else if nt < 3 then .error .badOperand
      else if limit < nt then .error .capacityExceeded
      else .ok nt.toNat

/-- R131, R130, R133: `FIRDES` on parameters that pass the designer's tests, with the tap count `nt` of R132: it completes,
the context is valid with `nt` taps of the rule's formula, a cleared delay line and cursors at 0, `r[0]` is `nt`, and
nothing else changes but the code, which is 0. The formula is written out in `IsPrototype`. -/
def Obligations.FirdesBuildsFilter : Prop :=
  ∀ (s : State) (c : Nat) (win : WindowFn) (F : FirCtx) (nt : Nat), s.lim.Ok → s.fir[c]? = some F →
    1 ≤ s.ai 0 → s.ai 0 ≤ 2 ^ 31 - 1 →
    lt64 zero64 (s.af 2) = true → lt64 zero64 (s.af 3) = true → le64 (s.af 3) (div64 (s.af 2) two64) = true →
    lt64 zero64 (s.af 4) = true →
    (win = .kaiser → le64 zero64 (s.af 7) = true ∧ le64 (s.af 7) cI0Xmax = true) →
    tapCount (s.af 5) (s.af 2) (s.af 4) (s.ai 6) s.lim.tapMax = .ok nt →
    ∃ G : FirCtx, exec (.firdes c win) s =
        .next { s with fir := s.fir.set c G, r := s.r.set 0 (BitVec.ofNat 64 nt), status := 0 } ∧
      G.valid = true ∧ G.ntaps.toNat = nt ∧ (G.decim.toNat : Int) = s.ai 0 ∧ G.tapCur = 0 ∧ G.decCur = 0 ∧
      nt % 2 = 1 ∧ 3 ≤ nt ∧ nt ≤ s.lim.tapMax ∧
      IsPrototype nt (s.af 1) (s.af 2) (s.af 3) win (s.af 7) G.taps.read ∧
      (∀ k, k < nt → G.dre.read k = zero32 ∧ G.dim.read k = zero32) ∧
      ∀ k, nt ≤ k → G.taps.read k = F.taps.read k ∧ G.dre.read k = F.dre.read k ∧ G.dim.read k = F.dim.read k

/-- R131, R130, R193: the errors of `FIRDES` in the order of its tests. A context index out of range changes nothing but
the code; every later error leaves the context invalid and changes nothing else (its other fields: log entry 10). -/
def Obligations.FirdesErrorsInOrder : Prop :=
  ∀ (s : State) (c : Nat) (win : WindowFn),
    let valid := lt64 zero64 (s.af 2) = true ∧ (lt64 zero64 (s.af 3) = true ∧ le64 (s.af 3) (div64 (s.af 2) two64) = true) ∧
      lt64 zero64 (s.af 4) = true
    let badBeta := win = .kaiser ∧ ¬ (le64 zero64 (s.af 7) = true ∧ le64 (s.af 7) cI0Xmax = true)
    (s.fir.length ≤ c → exec (.firdes c win) s = .next { s with status := 4 }) ∧
    ∀ F, s.fir[c]? = some F →
      let s0 := { s with fir := s.fir.set c { F with valid := false } }
      (s.ai 0 ≤ 0 → exec (.firdes c win) s = .next { s0 with status := 1 }) ∧
      (2 ^ 31 - 1 < s.ai 0 → exec (.firdes c win) s = .next { s0 with status := 6 }) ∧
      (1 ≤ s.ai 0 → s.ai 0 ≤ 2 ^ 31 - 1 →
        (¬ valid → exec (.firdes c win) s = .next { s0 with status := 1 }) ∧
        (valid → badBeta → exec (.firdes c win) s = .next { s0 with status := 6 }) ∧
        (valid → ¬ badBeta → ∀ e, tapCount (s.af 5) (s.af 2) (s.af 4) (s.ai 6) s.lim.tapMax = .error e →
          exec (.firdes c win) s = .next { s0 with status := BitVec.ofNat 32 e.number }))

/-- R134, R135, R137, R138: `FIRFLT` on a valid context and legal operands completes with code 0. It consumes the samples
before the first that is due and finds no room; it appends, for each consumed sample that is due, the dot product of the
taps with the latest samples of the stream, on both channels; it moves both cursors on, writes the size and the rate of
the output packet and the count in `r[0]`, and changes nothing else. -/
def Obligations.FirfltStreams : Prop :=
  ∀ (s : State) (c p q : Nat) (F : FirCtx) (inp out : Packet),
    s.fir[c]? = some F → s.pkt[p]? = some inp → s.pkt[q]? = some out → F.valid = true → F.Ok s.lim →
    StreamOperands s.lim p q inp out (s.ai 0) (s.ai 1) →
    let off := (s.ai 0).toNat
    let len := (s.ai 1).toNat
    let room := out.cap.toNat - out.size.toNat
    let n := F.consumed room len
    let xr := fun j => inp.re.read (off + j)
    let xi := fun j => inp.im.read (off + j)
    ∃ (G : FirCtx) (P : Packet), exec (.firflt c p q) s = .next
        { s with fir := s.fir.set c G, pkt := s.pkt.set q P, r := s.r.set 0 (BitVec.ofNat 64 n), status := 0 } ∧
      (n < len → (F.decCur.toNat + n) % F.decim.toNat = 0 ∧ F.produced n = room) ∧
      G.valid = true ∧ G.ntaps = F.ntaps ∧ G.decim = F.decim ∧ G.taps = F.taps ∧
      G.tapCur.toNat = (F.tapCur.toNat + n) % F.ntaps.toNat ∧ G.decCur.toNat = (F.decCur.toNat + n) % F.decim.toNat ∧
      LineAfter F.ntaps.toNat F.tapCur.toNat F.dre G.dre xr n len ∧
      LineAfter F.ntaps.toNat F.tapCur.toNat F.dim G.dim xi n len ∧
      P.cap = out.cap ∧ P.freq = out.freq ∧ P.freqValid = out.freqValid ∧
      P.size.toNat = out.size.toNat + F.produced n ∧ F.produced n ≤ room ∧
      P.rate.toNat = inp.rate.toNat / F.decim.toNat ∧
      Appended out.re P.re out.size.toNat (F.produced n) (fun j => F.outputAt F.dre xr (F.firstDue + j * F.decim.toNat)) ∧
      Appended out.im P.im out.size.toNat (F.produced n) (fun j => F.outputAt F.dim xi (F.firstDue + j * F.decim.toNat))

/-- R136, R135, R137, R138: `FIRFLTR` does on the real channel what `FIRFLT` does, and leaves the imaginary delay line and
the imaginary parts of the output packet as they were; it never reads the imaginary parts of its input. -/
def Obligations.FirfltrStreamsRealChannel : Prop :=
  ∀ (s : State) (c p q : Nat) (F : FirCtx) (inp out : Packet),
    s.fir[c]? = some F → s.pkt[p]? = some inp → s.pkt[q]? = some out → F.valid = true → F.Ok s.lim →
    StreamOperands s.lim p q inp out (s.ai 0) (s.ai 1) →
    let off := (s.ai 0).toNat
    let len := (s.ai 1).toNat
    let room := out.cap.toNat - out.size.toNat
    let n := F.consumed room len
    let xr := fun j => inp.re.read (off + j)
    (∃ (G : FirCtx) (P : Packet), exec (.firfltr c p q) s = .next
        { s with fir := s.fir.set c G, pkt := s.pkt.set q P, r := s.r.set 0 (BitVec.ofNat 64 n), status := 0 } ∧
      (n < len → (F.decCur.toNat + n) % F.decim.toNat = 0 ∧ F.produced n = room) ∧
      G.valid = true ∧ G.ntaps = F.ntaps ∧ G.decim = F.decim ∧ G.taps = F.taps ∧
      G.tapCur.toNat = (F.tapCur.toNat + n) % F.ntaps.toNat ∧ G.decCur.toNat = (F.decCur.toNat + n) % F.decim.toNat ∧
      LineAfter F.ntaps.toNat F.tapCur.toNat F.dre G.dre xr n len ∧ G.dim = F.dim ∧
      P.cap = out.cap ∧ P.freq = out.freq ∧ P.freqValid = out.freqValid ∧
      P.size.toNat = out.size.toNat + F.produced n ∧ F.produced n ≤ room ∧
      P.rate.toNat = inp.rate.toNat / F.decim.toNat ∧
      Appended out.re P.re out.size.toNat (F.produced n) (fun j => F.outputAt F.dre xr (F.firstDue + j * F.decim.toNat)) ∧
      P.im = out.im) ∧
    ∀ m : Mem 32, exec (.firfltr c p q) (s.setPkt p { inp with im := m }) =
      mapNext (fun t => t.setPkt p { inp with im := m }) (exec (.firfltr c p q) s)

/-- R134, R136, R156, R173, R178, R193: the errors of the streaming commands in the order of their tests; none of them
changes anything but the code. An index out of range comes before an unconstructed context, and that before a bad
operand. -/
def Obligations.StreamErrorsInOrder : Prop :=
  ∀ (s : State) (c p q : Nat),
    ((s.fir.length ≤ c ∨ s.pkt.length ≤ p ∨ s.pkt.length ≤ q) →
      exec (.firflt c p q) s = .next { s with status := 4 } ∧ exec (.firfltr c p q) s = .next { s with status := 4 }) ∧
    ((s.res.length ≤ c ∨ s.pkt.length ≤ p ∨ s.pkt.length ≤ q) → exec (.resamp c p q) s = .next { s with status := 4 }) ∧
    ((s.cnv.length ≤ c ∨ s.raw.length ≤ p ∨ s.pkt.length ≤ q) →
      exec (.cnvfill c p q) s = .next { s with status := 4 } ∧ exec (.cnvmix c p q) s = .next { s with status := 4 }) ∧
    (∀ F inp out, s.fir[c]? = some F → s.pkt[p]? = some inp → s.pkt[q]? = some out →
      (F.valid = false →
        exec (.firflt c p q) s = .next { s with status := 5 } ∧ exec (.firfltr c p q) s = .next { s with status := 5 }) ∧
      (F.valid = true → ¬ StreamOperands s.lim p q inp out (s.ai 0) (s.ai 1) →
        exec (.firflt c p q) s = .next { s with status := 6 } ∧ exec (.firfltr c p q) s = .next { s with status := 6 })) ∧
    (∀ R inp out, s.res[c]? = some R → s.pkt[p]? = some inp → s.pkt[q]? = some out →
      (R.valid = false → exec (.resamp c p q) s = .next { s with status := 5 }) ∧
      (R.valid = true → ¬ StreamOperands s.lim p q inp out (s.ai 0) (s.ai 1) ∨
        2 ^ 32 - 1 < (2 * inp.rate.toNat * R.facL.toNat + R.facM.toNat) / (2 * R.facM.toNat) →
        exec (.resamp c p q) s = .next { s with status := 6 })) ∧
    ∀ C B out, s.cnv[c]? = some C → s.raw[p]? = some B → s.pkt[q]? = some out →
      (C.valid = false →
        exec (.cnvfill c p q) s = .next { s with status := 5 } ∧ exec (.cnvmix c p q) s = .next { s with status := 5 }) ∧
      (C.valid = true → ¬ (RawOK s.lim B ∧ PktOK s.lim out) →
        exec (.cnvfill c p q) s = .next { s with status := 6 } ∧ exec (.cnvmix c p q) s = .next { s with status := 6 }) ∧
      (C.valid = true → RawOK s.lim B → PktOK s.lim out → ¬ FreqInRange (s.ai 0) →
        exec (.cnvmix c p q) s = .next { s with status := 6 })

/-- R139: `FIRFLT`, `FIRFLTR` and `RESAMP` with length 0 and legal other operands complete with code 0 and `r[0]` = 0. The
context does not change; of the output packet only the rate, and for `RESAMP` the frequency fields, are rewritten. For
`RESAMP` no owed samples can be drained either. -/
def Obligations.ZeroLengthCompletes : Prop :=
  ∀ (s : State) (c p q : Nat) (inp out : Packet), s.pkt[p]? = some inp → s.pkt[q]? = some out →
    StreamOperands s.lim p q inp out (s.ai 0) (s.ai 1) → s.ai 1 = 0 →
    (∀ F, s.fir[c]? = some F → F.valid = true →
      exec (.firflt c p q) s = .next { s with
        pkt := s.pkt.set q { out with rate := BitVec.ofNat 32 (inp.rate.toNat / F.decim.toNat) }
        r := s.r.set 0 0, status := 0 } ∧
      exec (.firfltr c p q) s = .next { s with
        pkt := s.pkt.set q { out with rate := BitVec.ofNat 32 (inp.rate.toNat / F.decim.toNat) }
        r := s.r.set 0 0, status := 0 }) ∧
    ∀ R, s.res[c]? = some R → R.valid = true →
      (2 * inp.rate.toNat * R.facL.toNat + R.facM.toNat) / (2 * R.facM.toNat) ≤ 2 ^ 32 - 1 →
      exec (.resamp c p q) s = .next { s with
        pkt := s.pkt.set q { out with
          rate := BitVec.ofNat 32 ((2 * inp.rate.toNat * R.facL.toNat + R.facM.toNat) / (2 * R.facM.toNat))
          freq := inp.freq, freqValid := inp.freqValid }
        r := s.r.set 0 0, status := 0 }

/-- R141: a `FIRFLT` or a `FIRFLTR` over `n` samples that consumes them all has the same effect on the contexts and on the
packets as the same command over the first `k` of them followed by it over the others. The payloads of NaNs agree too,
being functions of the operands (log entry 4). -/
def Obligations.FilterCallsSplit : Prop :=
  ∀ (i : Instr) (c p q : Nat), i = .firflt c p q ∨ i = .firfltr c p q →
    ∀ (s t : State) (f k n : Int), 0 ≤ f → f < 2 ^ 63 → 0 ≤ k → k ≤ n → n < 2 ^ 63 →
      exec i (s.withArgs f n) = .next t → t.status = 0 → t.r[0] = BitVec.ofInt 64 n →
      ∃ u v, exec i (s.withArgs f k) = .next u ∧ u.status = 0 ∧ u.r[0] = BitVec.ofInt 64 k ∧
        exec i (u.withArgs (f + k) (n - k)) = .next v ∧ v.status = 0 ∧ v.r[0] = BitVec.ofInt 64 (n - k) ∧
        v.fir = t.fir ∧ v.pkt = t.pkt

/-! ## Resamplers -/

/-- R151, R153, R155: `RESINIT` with the custom flag, on legal factors and staged taps that fit: it completes, the context is
valid with the reduced factors, the staged taps split into its phases, a cleared delay line and cursors at 0, `r[0]` and
`r[1]` are the reduced factors, and nothing else changes but the code, which is 0. -/
def Obligations.ResinitSplitsCustomTaps : Prop :=
  ∀ (s : State) (c : Nat) (R : ResCtx), s.lim.Ok → s.res[c]? = some R →
    1 ≤ s.ai 0 → s.ai 0 ≤ 2 ^ 31 - 1 → 1 ≤ s.ai 1 → s.ai 1 ≤ 2 ^ 31 - 1 →
    let g := Nat.gcd (s.ai 0).toNat (s.ai 1).toNat
    let L := (s.ai 0).toNat / g
    let M := (s.ai 1).toNat / g
    let n := s.tbuf.tlen.toNat
    let K := (n + L - 1) / L
    L ≤ s.lim.resLMax → 1 ≤ n → n ≤ s.lim.tbufDepth → K ≤ s.lim.resKMax →
    ∃ S : ResCtx, exec (.resinit c true) s = .next
        { s with res := s.res.set c S, r := (s.r.set 0 (BitVec.ofNat 64 L)).set 1 (BitVec.ofNat 64 M), status := 0 } ∧
      S.valid = true ∧ S.facL.toNat = L ∧ S.facM.toNat = M ∧ Nat.gcd L M = 1 ∧ S.subLen.toNat = K ∧
      n ≤ K * L ∧ K * L < n + L ∧ S.pos = 0 ∧ S.ctr = 0 ∧
      (∀ p k, k < s.lim.resKMax → S.ph.read (phIndex s.lim p k) =
        if p < L ∧ k < K then (if p + k * L < n then s.tbuf.t.read (p + k * L) else zero32)
        else R.ph.read (phIndex s.lim p k)) ∧
      ∀ k, S.dre.read k = (if k < K then zero32 else R.dre.read k) ∧ S.dim.read k = if k < K then zero32 else R.dim.read k

/-- R151, R152, R153: `RESINIT` without the custom flag, on legal factors, a bandwidth that is a number, and a tap count
`nt` of R132 that fits: it completes as with custom taps, the coefficients being those of the Kaiser prototype designed
for the clamped bandwidth. The designer's validation of R130 always passes here. -/
def Obligations.ResinitDesignsPrototype : Prop :=
  ∀ (s : State) (c : Nat) (R : ResCtx) (nt : Nat), s.lim.Ok → s.res[c]? = some R →
    1 ≤ s.ai 0 → s.ai 0 ≤ 2 ^ 31 - 1 → 1 ≤ s.ai 1 → s.ai 1 ≤ 2 ^ 31 - 1 → isNaN64 (s.af 2) = false →
    let g := Nat.gcd (s.ai 0).toNat (s.ai 1).toNat
    let L := (s.ai 0).toNat / g
    let M := (s.ai 1).toNat / g
    let fbLow := if lt64 (s.af 2) cFbwLo then cFbwLo else s.af 2
    let fb := if lt64 cFbwHi fbLow then cFbwHi else fbLow
    let rate := div64 (ofInt64 L) (ofInt64 M)
    let tw := if M ≤ L then sub64 cHalfband fb else mul64 rate (sub64 cHalfband fb)
    let mid := if M ≤ L then sub64 cHalfband (div64 tw two64) else sub64 (mul64 rate cHalfband) (div64 tw two64)
    let mt : Int := if 0 < s.ai 3 then s.ai 3 * L else 0
    let K := (nt + L - 1) / L
    L ≤ s.lim.resLMax → tapCount cResAtten (ofInt64 L) tw mt (L * s.lim.resKMax : Nat) = .ok nt → K ≤ s.lim.resKMax →
    ∃ (S : ResCtx) (P : Nat → F32), exec (.resinit c false) s = .next
        { s with res := s.res.set c S, r := (s.r.set 0 (BitVec.ofNat 64 L)).set 1 (BitVec.ofNat 64 M), status := 0 } ∧
      S.valid = true ∧ S.facL.toNat = L ∧ S.facM.toNat = M ∧ Nat.gcd L M = 1 ∧ S.subLen.toNat = K ∧ S.pos = 0 ∧ S.ctr = 0 ∧
      IsPrototype nt (ofInt64 L) (ofInt64 L) mid .kaiser cResBeta P ∧
      (∀ p k, k < s.lim.resKMax → S.ph.read (phIndex s.lim p k) =
        if p < L ∧ k < K then (if p + k * L < nt then P (p + k * L) else zero32) else R.ph.read (phIndex s.lim p k)) ∧
      ∀ k, S.dre.read k = (if k < K then zero32 else R.dre.read k) ∧ S.dim.read k = if k < K then zero32 else R.dim.read k

/-- R151, R152, R155, R193: the errors of `RESINIT` in the order of its tests; the designer's validation is none of them, so
past the test for a NaN only the tap count can fail (R132). A context index out of range changes nothing
but the code; every later error leaves the context invalid and changes nothing else (its other fields: log entry 10). -/
def Obligations.ResinitErrorsInOrder : Prop :=
  ∀ (s : State) (c : Nat) (custom : Bool),
    (s.res.length ≤ c → exec (.resinit c custom) s = .next { s with status := 4 }) ∧
    ∀ R, s.res[c]? = some R →
      let s0 := { s with res := s.res.set c { R with valid := false } }
      let g := Nat.gcd (s.ai 0).toNat (s.ai 1).toNat
      let L := (s.ai 0).toNat / g
      let M := (s.ai 1).toNat / g
      let fbLow := if lt64 (s.af 2) cFbwLo then cFbwLo else s.af 2
      let fb := if lt64 cFbwHi fbLow then cFbwHi else fbLow
      let tw := if M ≤ L then sub64 cHalfband fb else mul64 (div64 (ofInt64 L) (ofInt64 M)) (sub64 cHalfband fb)
      (s.ai 0 ≤ 0 ∨ s.ai 1 ≤ 0 → exec (.resinit c custom) s = .next { s0 with status := 2 }) ∧
      (1 ≤ s.ai 0 → 1 ≤ s.ai 1 →
        (2 ^ 31 - 1 < s.ai 0 ∨ 2 ^ 31 - 1 < s.ai 1 → exec (.resinit c custom) s = .next { s0 with status := 6 }) ∧
        (s.ai 0 ≤ 2 ^ 31 - 1 → s.ai 1 ≤ 2 ^ 31 - 1 →
          (s.lim.resLMax < L → exec (.resinit c custom) s = .next { s0 with status := 7 }) ∧
          (L ≤ s.lim.resLMax → custom = false → isNaN64 (s.af 2) = true →
            exec (.resinit c custom) s = .next { s0 with status := 6 }) ∧
          (L ≤ s.lim.resLMax → custom = false → isNaN64 (s.af 2) = false → ∀ e,
            tapCount cResAtten (ofInt64 L) tw (if 0 < s.ai 3 then s.ai 3 * L else 0) (L * s.lim.resKMax : Nat) = .error e →
            exec (.resinit c custom) s = .next { s0 with status := BitVec.ofNat 32 e.number }) ∧
          (L ≤ s.lim.resLMax → custom = true → (s.tbuf.tlen.toNat < 1 ∨ s.lim.tbufDepth < s.tbuf.tlen.toNat) →
            exec (.resinit c custom) s = .next { s0 with status := 6 }) ∧
          (L ≤ s.lim.resLMax → custom = true → 1 ≤ s.tbuf.tlen.toNat → s.tbuf.tlen.toNat ≤ s.lim.tbufDepth →
            s.lim.resKMax < (s.tbuf.tlen.toNat + L - 1) / L → exec (.resinit c custom) s = .next { s0 with status := 7 })))

/-- R156, R157, R158, R159: `RESAMP` on a valid context and legal operands completes with code 0. It computes one output for
each phase reached while room and samples last, each the dot product of its sub-filter with the latest samples consumed;
it consumes the samples the phase counter owes, as far as they go; it writes the size, the rate (ties rounded up) and the
frequency of the output packet and the count in `r[0]`, and changes nothing else. -/
def Obligations.ResampStreams : Prop :=
  ∀ (s : State) (c p q : Nat) (R : ResCtx) (inp out : Packet), s.lim.Ok →
    s.res[c]? = some R → s.pkt[p]? = some inp → s.pkt[q]? = some out → R.valid = true → R.Ok s.lim →
    StreamOperands s.lim p q inp out (s.ai 0) (s.ai 1) →
    (2 * inp.rate.toNat * R.facL.toNat + R.facM.toNat) / (2 * R.facM.toNat) ≤ 2 ^ 32 - 1 →
    let off := (s.ai 0).toNat
    let len := (s.ai 1).toNat
    let room := out.cap.toNat - out.size.toNat
    let j := R.outputs room len
    let n := R.consumed room len
    let xr := fun i => inp.re.read (off + i)
    let xi := fun i => inp.im.read (off + i)
    ∃ (S : ResCtx) (P : Packet), exec (.resamp c p q) s = .next
        { s with res := s.res.set c S, pkt := s.pkt.set q P, r := s.r.set 0 (BitVec.ofNat 64 n), status := 0 } ∧
      (n < len → j = room ∧ S.ctr.toNat < R.facL.toNat) ∧
      S.valid = true ∧ S.facL = R.facL ∧ S.facM = R.facM ∧ S.subLen = R.subLen ∧ S.ph = R.ph ∧
      S.pos.toNat = (R.pos.toNat + n) % R.subLen.toNat ∧
      S.ctr.toNat + n * R.facL.toNat = R.ctr.toNat + j * R.facM.toNat ∧
      LineAfter R.subLen.toNat R.pos.toNat R.dre S.dre xr n n ∧ LineAfter R.subLen.toNat R.pos.toNat R.dim S.dim xi n n ∧
      P.cap = out.cap ∧ P.freq = inp.freq ∧ P.freqValid = inp.freqValid ∧
      P.size.toNat = out.size.toNat + j ∧ j ≤ room ∧
      P.rate.toNat = (2 * inp.rate.toNat * R.facL.toNat + R.facM.toNat) / (2 * R.facM.toNat) ∧
      Appended out.re P.re out.size.toNat j (R.outputAt s.lim R.dre xr) ∧
      Appended out.im P.im out.size.toNat j (R.outputAt s.lim R.dim xi)

/-- R157 (d): a `RESAMP` over `n` samples that consumes them all has the same effect on the contexts and on the packets as a
`RESAMP` over the first `k` of them followed by one over the others. The payloads of NaNs agree too, being functions of the
operands (log entry 4). -/
def Obligations.ResamplerCallsSplit : Prop :=
  ∀ (c p q : Nat) (s t : State) (f k n : Int), 0 ≤ f → f < 2 ^ 63 → 0 ≤ k → k ≤ n → n < 2 ^ 63 →
    exec (.resamp c p q) (s.withArgs f n) = .next t → t.status = 0 → t.r[0] = BitVec.ofInt 64 n →
    ∃ u v, exec (.resamp c p q) (s.withArgs f k) = .next u ∧ u.status = 0 ∧ u.r[0] = BitVec.ofInt 64 k ∧
      exec (.resamp c p q) (u.withArgs (f + k) (n - k)) = .next v ∧ v.status = 0 ∧ v.r[0] = BitVec.ofInt 64 (n - k) ∧
      v.res = t.res ∧ v.pkt = t.pkt

/-! ## Converters -/

/-- R172: every entry of the normalization table is the signed value of its pattern over 32768, exactly. -/
def Obligations.NormalizationIsExact : Prop :=
  (∀ u, u < 65536 → Finite32 (normEntry u) ∧
    value32 (normEntry u) * 32768 = (if u < 32768 then (u : ℝ) else (u : ℝ) - 65536) * fmt32.one) ∧
  normEntry 0x0000 = 0x00000000#32 ∧ normEntry 0x0001 = 0x38000000#32 ∧ normEntry 0x4000 = 0x3F000000#32 ∧ normEntry 0x7FFF = 0x3F7FFE00#32 ∧
  normEntry 0x8000 = 0xBF800000#32 ∧ normEntry 0x8001 = 0xBF7FFE00#32 ∧ normEntry 0xC000 = 0xBF000000#32 ∧ normEntry 0xFFFF = 0xB8000000#32 ∧
  ∀ u, u < 65536 → normEntry u =
    cvt32 (div64 (ofInt64 (if u < 32768 then (u : Int) else (u : Int) - 65536)) cNorm)

/-- R171: `CNVINIT`. On operands in range it completes: the context is valid, its table holds the rule's values, its
configuration is as given, its oscillator cache empty, and nothing else changes but the code, which is 0. A context index
out of range changes nothing but the code; an operand out of range leaves the context invalid and its other fields as they
were (log entry 10). -/
def Obligations.CnvinitBuildsConverter : Prop :=
  ∀ (s : State) (c : Nat), s.lim.Ok →
    let legal := (1 ≤ s.ai 0 ∧ s.ai 0 ≤ 2 ^ 32 - 1) ∧ (-2 ^ 62 ≤ s.ai 1 ∧ s.ai 1 ≤ 2 ^ 62) ∧ 1 ≤ s.ai 2 ∧ s.ai 2 ≤ s.lim.ncoMax
    (s.cnv.length ≤ c → exec (.cnvinit c) s = .next { s with status := 4 }) ∧
    ∀ C, s.cnv[c]? = some C →
      (¬ legal → exec (.cnvinit c) s = .next { s with cnv := s.cnv.set c { C with valid := false }, status := 6 }) ∧
      (legal → ∃ D : CnvCtx, exec (.cnvinit c) s = .next { s with cnv := s.cnv.set c D, status := 0 } ∧
        D.valid = true ∧ (D.rate.toNat : Int) = s.ai 0 ∧ D.center.toInt = s.ai 1 ∧ (D.maxlen.toNat : Int) = s.ai 2 ∧
        D.ncoValid = false ∧ D.ncoFreq = 0 ∧ D.ncoLen = 0 ∧ D.cur = 0 ∧ D.cos = C.cos ∧ D.sin = C.sin ∧
        (∀ u, u < 65536 → D.lut.read u = normEntry u) ∧ ∀ u, 65536 ≤ u → D.lut.read u = C.lut.read u)

/-- R173, R74, R76: `CNVFILL` on a valid context and legal operands completes with code 0 and the count in `r[0]`. It appends
the normalized samples of as many whole groups of four bytes as there is room for, writes the size, the rate and the
frequency of the packet, and changes nothing else; where none fits, the packet is left as it was. -/
def Obligations.CnvfillConverts : Prop :=
  ∀ (s : State) (c b q : Nat) (C : CnvCtx) (B : RawSlot) (out : Packet),
    s.cnv[c]? = some C → s.raw[b]? = some B → s.pkt[q]? = some out → C.valid = true → C.Ok s.lim →
    B.len.toNat ≤ s.lim.rawDepth → PktOK s.lim out →
    let n := min (B.len.toNat / 4) (out.cap.toNat - out.size.toNat)
    let uI := fun j => (B.byte.read (4 * j)).toNat + 256 * (B.byte.read (4 * j + 1)).toNat
    let uQ := fun j => (B.byte.read (4 * j + 2)).toNat + 256 * (B.byte.read (4 * j + 3)).toNat
    (n = 0 → exec (.cnvfill c b q) s = .next { s with r := s.r.set 0 0, status := 0 }) ∧
    (1 ≤ n → ∃ P : Packet, exec (.cnvfill c b q) s = .next
        { s with pkt := s.pkt.set q P, r := s.r.set 0 (BitVec.ofNat 64 n), status := 0 } ∧
      P.cap = out.cap ∧ P.size.toNat = out.size.toNat + n ∧ P.rate = C.rate ∧ P.freq = C.center ∧ P.freqValid = true ∧
      Appended out.re P.re out.size.toNat n (fun j => normEntry (uI j)) ∧
      Appended out.im P.im out.size.toNat n (fun j => normEntry (uQ j)))

/-- R175: the effective mixing frequency: the difference of centre and channel, the sample rate added once where it is zero
or its period is longer than the table may be. It is never zero; an unfolded one has a period within the table; a folded
one lies within one part in the table length of the sample rate. With both frequencies in range it lies between -2^63 and
2^63, and reaches 2^63 only for centre 2^62 and channel -2^62 (log entry 8). -/
def Obligations.EffectiveMixFrequency : Prop :=
  ∀ (C : CnvCtx) (chan : Int), 1 ≤ C.rate.toNat → 1 ≤ C.maxlen.toNat → FreqInRange C.center.toInt → FreqInRange chan →
    let mf := C.center.toInt - chan
    let f := effectiveMix C chan
    let folded := mf = 0 ∨ C.maxlen.toNat * mf.natAbs < C.rate.toNat
    (folded → f = mf + C.rate.toNat ∧ 0 < f ∧ C.maxlen.toNat * (f - C.rate.toNat).natAbs < C.rate.toNat) ∧
    (¬ folded → f = mf ∧ C.rate.toNat ≤ C.maxlen.toNat * f.natAbs) ∧
    f ≠ 0 ∧ -2 ^ 63 ≤ f ∧ f ≤ 2 ^ 63 ∧ (f = 2 ^ 63 → C.center.toInt = 2 ^ 62 ∧ chan = -2 ^ 62)

/-- R176: the length search finds the length of the number of cycles with the smallest error, the earliest on ties; the
length fits the maximum, and is at least 1, whenever the maximum is 2 or more and the frequency is one of R175. -/
def Obligations.TableLengthSearch : Prop :=
  (∀ rate A ml : Nat, 1 ≤ rate → 1 ≤ A → ∃ b, tableLength rate A ml = some b ∧ BestLength rate A ml b.len ∧
    ∀ len, BestLength rate A ml len → len = b.len) ∧
  ∀ (C : CnvCtx) (chan : Int) (len : Nat), 1 ≤ C.rate.toNat → 2 ≤ C.maxlen.toNat →
    BestLength C.rate.toNat (effectiveMix C chan).natAbs C.maxlen.toNat len → 1 ≤ len ∧ len ≤ C.maxlen.toNat

/-- R178, R177, R176, R179, R180: `CNVMIX` on a valid context and legal operands whose table fits completes with code 0. The
cache is brought up to date, the table generated anew only where it is not the one of the effective frequency; where the
table is empty or no sample fits, `r[0]` is 0 and the packet is left as it was; otherwise sample `j` is the product with
the conjugate of the table entry `j` places after the cursor, around the table, the cursor moves on by the count, the
packet gets its size, rate and frequency, `r[0]` the count, and nothing else changes. The cache's key is compared as it is
stored (log entry 8). -/
def Obligations.CnvmixMixes : Prop :=
  ∀ (s : State) (c b q : Nat) (C : CnvCtx) (B : RawSlot) (out : Packet),
    s.cnv[c]? = some C → s.raw[b]? = some B → s.pkt[q]? = some out → C.valid = true → C.Ok s.lim →
    B.len.toNat ≤ s.lim.rawDepth → PktOK s.lim out → -2 ^ 62 ≤ s.ai 0 → s.ai 0 ≤ 2 ^ 62 →
    let f := effectiveMix C (s.ai 0)
    let n := min (B.len.toNat / 4) (out.cap.toNat - out.size.toNat)
    (CacheHolds C f ∨ ∃ len, BestLength C.rate.toNat f.natAbs C.maxlen.toNat len ∧ len ≤ C.maxlen.toNat) →
    ∃ D : CnvCtx, UpToDate C f D ∧
      (D.ncoLen = 0 ∨ n = 0 → exec (.cnvmix c b q) s = .next
        { s with cnv := s.cnv.set c D, r := s.r.set 0 0, status := 0 }) ∧
      (D.ncoLen ≠ 0 → 1 ≤ n → ∃ P : Packet, exec (.cnvmix c b q) s = .next
          { s with
            cnv := s.cnv.set c { D with cur := BitVec.ofNat 32 ((D.cur.toNat + n) % D.ncoLen.toNat) }
            pkt := s.pkt.set q P, r := s.r.set 0 (BitVec.ofNat 64 n), status := 0 } ∧
        P.cap = out.cap ∧ P.size.toNat = out.size.toNat + n ∧ P.rate = C.rate ∧ P.freq.toInt = s.ai 0 ∧ P.freqValid = true ∧
        Appended out.re P.re out.size.toNat n (fun j => (D.mixAt B D.cur.toNat j).1) ∧
        Appended out.im P.im out.size.toNat n (fun j => (D.mixAt B D.cur.toNat j).2))

/-- R177: the mixer's formula, the operands in the order written. -/
def Obligations.MixerFormula : Prop :=
  ∀ (C : CnvCtx) (B : RawSlot) (cur j : Nat),
    let I := C.lut.read ((B.byte.read (4 * j)).toNat + 256 * (B.byte.read (4 * j + 1)).toNat)
    let Q := C.lut.read ((B.byte.read (4 * j + 2)).toNat + 256 * (B.byte.read (4 * j + 3)).toNat)
    let cs := C.cos.read ((cur + j) % C.ncoLen.toNat)
    let sn := C.sin.read ((cur + j) % C.ncoLen.toNat)
    C.mixAt B cur j = (add32 (mul32 I cs) (mul32 Q sn), sub32 (mul32 Q cs) (mul32 I sn))

/-- R176, R178, R194: `CNVMIX` whose table would be longer than the maximum raises `CapacityExceeded`: the cache is emptied
and nothing else changes. The cache's key is compared as it is stored (log entry 8). -/
def Obligations.CnvmixTableTooLong : Prop :=
  ∀ (s : State) (c b q : Nat) (C : CnvCtx) (B : RawSlot) (out : Packet) (len : Nat),
    s.cnv[c]? = some C → s.raw[b]? = some B → s.pkt[q]? = some out → C.valid = true → 1 ≤ C.rate.toNat →
    B.len.toNat ≤ s.lim.rawDepth → PktOK s.lim out → -2 ^ 62 ≤ s.ai 0 → s.ai 0 ≤ 2 ^ 62 →
    ¬ CacheHolds C (effectiveMix C (s.ai 0)) →
    BestLength C.rate.toNat (effectiveMix C (s.ai 0)).natAbs C.maxlen.toNat len → C.maxlen.toNat < len →
    exec (.cnvmix c b q) s = .next { s with cnv := s.cnv.set c { C with ncoValid := false }, status := 7 }

/-- R181: (a) with the channel at the centre `CNVMIX` writes the same samples and the same metadata as `CNVFILL`: it differs
from it only in the oscillator cache of its context, whose table has one entry, (1.0, +0.0), and whose key is the sample
rate. (b) Entry 0 of every table is (1.0, +0.0), so the first sample after a regeneration passes unchanged. The cache's key
is compared as it is stored (log entry 8). -/
def Obligations.CentreChannelPassesUnchanged : Prop :=
  (∀ (s t u : State) (c b q : Nat) (C : CnvCtx), s.cnv[c]? = some C → C.valid = true → C.Ok s.lim → C.CacheOk →
    s.ai 0 = C.center.toInt → exec (.cnvfill c b q) s = .next t → exec (.cnvmix c b q) s = .next u →
    u = { t with cnv := u.cnv, pkt := u.pkt } ∧
    u.pkt.length = t.pkt.length ∧ (∀ j, j ≠ q → u.pkt[j]? = t.pkt[j]?) ∧
    (∀ P Q : Packet, t.pkt[q]? = some P → u.pkt[q]? = some Q →
      Q.cap = P.cap ∧ Q.size = P.size ∧ Q.rate = P.rate ∧ Q.freq = P.freq ∧ Q.freqValid = P.freqValid ∧
      ∀ i, Q.re.read i = P.re.read i ∧ Q.im.read i = P.im.read i) ∧
    u.cnv.length = t.cnv.length ∧ (∀ j, j ≠ c → u.cnv[j]? = t.cnv[j]?) ∧
    (∀ D E : CnvCtx, t.cnv[c]? = some D → u.cnv[c]? = some E →
      D = C ∧ E.valid = D.valid ∧ E.lut = D.lut ∧ E.rate = D.rate ∧ E.center = D.center ∧ E.maxlen = D.maxlen) ∧
    (u.status = 0 → ∃ D, u.cnv[c]? = some D ∧ D.ncoValid = true ∧ D.ncoFreq.toInt = C.rate.toNat ∧ D.ncoLen = 1 ∧
      D.cos.read 0 = 0x3F800000#32 ∧ D.sin.read 0 = 0#32)) ∧
  (∀ (C D : CnvCtx) (f : Int) (len : Nat), 1 ≤ C.rate.toNat → 1 ≤ len → Regenerated C f len D →
    D.cos.read 0 = 0x3F800000#32 ∧ D.sin.read 0 = 0#32) ∧
  ∀ u v, u < 65536 → v < 65536 →
    let I := normEntry u
    let Q := normEntry v
    add32 (mul32 I 0x3F800000#32) (mul32 Q 0#32) = I ∧ sub32 (mul32 Q 0x3F800000#32) (mul32 I 0#32) = Q ∧
    mixSample I Q 0x3F800000#32 0#32 = (I, Q)

/-! ## Arithmetic -/

/-- R13: rounding gives the nearest number of the format, of two equally near ones the even one, for both formats. -/
def Obligations.RoundingIsNearestEven : Prop :=
  ∀ f, f = fmt32 ∨ f = fmt64 → ∀ num den : Nat, 0 < den → f.IsNearest ((num : ℝ) / den) (f.round num den)

/-- R13: on finite operands each binary64 operation gives the exact result rounded once. -/
def Obligations.Arithmetic64RoundsOnce : Prop :=
  ∀ x y : F64, Finite64 x → Finite64 y →
    Rounded64 (add64 x y) (value64 x + value64 y) (neg64 x && neg64 y) ∧
    Rounded64 (sub64 x y) (value64 x - value64 y) (neg64 x && !neg64 y) ∧
    Rounded64 (mul64 x y) (value64 x * value64 y / fmt64.one) (neg64 x != neg64 y) ∧
    (value64 y ≠ 0 → Rounded64 (div64 x y) (value64 x * fmt64.one / value64 y) (neg64 x != neg64 y)) ∧
    (0 ≤ value64 x → Rounded64 (sqrt64 x) (Real.sqrt (value64 x * fmt64.one)) (neg64 x))

/-- R13: on finite operands each binary32 operation gives the exact result rounded once. -/
def Obligations.Arithmetic32RoundsOnce : Prop :=
  ∀ x y : F32, Finite32 x → Finite32 y →
    Rounded32 (add32 x y) (value32 x + value32 y) (neg32 x && neg32 y) ∧
    Rounded32 (sub32 x y) (value32 x - value32 y) (neg32 x && !neg32 y) ∧
    Rounded32 (mul32 x y) (value32 x * value32 y / fmt32.one) (neg32 x != neg32 y)

/-- R13, R199: on the operands that are not finite, and where there is no number to round, the operations follow IEEE 754:
a NaN for a NaN operand, for the difference of infinities, for zero times infinity, for zero over zero and infinity over
infinity and for the root of a negative number; infinities and signed zeros otherwise. -/
def Obligations.SpecialOperands64 : Prop :=
  ∀ x y : F64,
    let inf := fun x : F64 => mag64 x = fmt64.infMag
    let nul := fun x : F64 => mag64 x = 0
    let quiet := fun z : F64 => isNaN64 z = true ∧ z.getLsbD 51 = true
    let isInf := fun (z : F64) (neg : Bool) => inf z ∧ neg64 z = neg
    ((isNaN64 x = true ∨ isNaN64 y = true) →
      quiet (add64 x y) ∧ quiet (sub64 x y) ∧ quiet (mul64 x y) ∧ quiet (div64 x y)) ∧
    (isNaN64 x = true → quiet (sqrt64 x)) ∧
    (inf x → inf y → neg64 x ≠ neg64 y → quiet (add64 x y)) ∧ (inf x → inf y → neg64 x = neg64 y → quiet (sub64 x y)) ∧
    (inf x → inf y → neg64 x = neg64 y → isInf (add64 x y) (neg64 x)) ∧
    (inf x → inf y → neg64 x ≠ neg64 y → isInf (sub64 x y) (neg64 x)) ∧
    (inf x → Finite64 y → isInf (add64 x y) (neg64 x) ∧ isInf (sub64 x y) (neg64 x) ∧ isInf (add64 y x) (neg64 x) ∧
      isInf (sub64 y x) (!neg64 x)) ∧
    (inf x → nul y → quiet (mul64 x y) ∧ quiet (mul64 y x)) ∧
    (inf x → ¬ nul y → isNaN64 y = false →
      isInf (mul64 x y) (neg64 x != neg64 y) ∧ isInf (mul64 y x) (neg64 x != neg64 y)) ∧
    (inf x → inf y → quiet (div64 x y)) ∧ (nul x → nul y → quiet (div64 x y)) ∧
    (Finite64 x → ¬ nul x → nul y → isInf (div64 x y) (neg64 x != neg64 y)) ∧
    (inf x → Finite64 y → isInf (div64 x y) (neg64 x != neg64 y)) ∧
    (Finite64 x → inf y → nul (div64 x y) ∧ neg64 (div64 x y) = (neg64 x != neg64 y)) ∧
    (isNaN64 x = false → ¬ nul x → neg64 x = true → quiet (sqrt64 x)) ∧ (nul x → sqrt64 x = x) ∧
    (inf x → neg64 x = false → sqrt64 x = x)

/-- R14: the comparisons are those of the numbers, the two zeros equal, and false on a NaN. -/
def Obligations.ComparisonsAreNumeric : Prop :=
  (∀ x y : F64, isNaN64 x = false → isNaN64 y = false →
    (lt64 x y = true ↔ value64 x < value64 y) ∧ (le64 x y = true ↔ value64 x ≤ value64 y) ∧
    (eq64 x y = true ↔ value64 x = value64 y)) ∧
  (∀ x y : F32, isNaN32 x = false → isNaN32 y = false →
    (lt32 x y = true ↔ value32 x < value32 y) ∧ (le32 x y = true ↔ value32 x ≤ value32 y) ∧
    (eq32 x y = true ↔ value32 x = value32 y)) ∧
  (∀ x y : F64, isNaN64 x = true ∨ isNaN64 y = true → lt64 x y = false ∧ le64 x y = false ∧ eq64 x y = false) ∧
  (∀ x y : F32, isNaN32 x = true ∨ isNaN32 y = true → lt32 x y = false ∧ le32 x y = false ∧ eq32 x y = false) ∧
  eq64 0x8000000000000000#64 zero64 = true ∧ eq32 0x80000000#32 zero32 = true

/-- R15: the conversions. A whole number is rounded to the nearest binary64 number, and is exact up to magnitude 2^53; a
finite binary64 number is rounded to the nearest binary32 number; widening is exact; the floor is the largest whole number
not above. A NaN gives a quiet NaN, an infinity an infinity of its sign; that widening too gives a quiet NaN is the model's
(log entry 4), since R15 says it of `cvt32` only. -/
def Obligations.ConversionsRoundOnce : Prop :=
  (∀ n : Int, Rounded64 (ofInt64 n) (n * fmt64.one) false ∧
    (n.natAbs ≤ 2 ^ 53 → value64 (ofInt64 n) = n * fmt64.one)) ∧
  (∀ x : F64, Finite64 x → Rounded32 (cvt32 x) (value64 x * fmt32.one / fmt64.one) (neg64 x)) ∧
  (∀ x : F32, Finite32 x → Finite64 (cvt64 x) ∧ neg64 (cvt64 x) = neg32 x ∧
    value64 (cvt64 x) * fmt32.one = value32 x * fmt64.one) ∧
  (∀ x : F64, Finite64 x → floorInt x = ⌊value64 x / fmt64.one⌋) ∧
  (∀ x : F64, isNaN64 x = true → isNaN32 (cvt32 x) = true ∧ (cvt32 x).getLsbD 22 = true) ∧
  (∀ x : F32, isNaN32 x = true → isNaN64 (cvt64 x) = true ∧ (cvt64 x).getLsbD 51 = true) ∧
  (∀ x : F64, mag64 x = fmt64.infMag → mag32 (cvt32 x) = fmt32.infMag ∧ neg32 (cvt32 x) = neg64 x) ∧
  ∀ x : F32, mag32 x = fmt32.infMag → mag64 (cvt64 x) = fmt64.infMag ∧ neg64 (cvt64 x) = neg32 x

/-- R16: the fixed properties of `cos64` and `sin64`. Nothing else is known of them. -/
def Obligations.ElementaryFunctionsFixedPart : Prop :=
  cos64 0#64 = one64 ∧ sin64 0#64 = 0#64 ∧
  ∀ x : F64,
    (Finite64 x → (le64 minusOne64 (cos64 x) = true ∧ le64 (cos64 x) one64 = true) ∧
      le64 minusOne64 (sin64 x) = true ∧ le64 (sin64 x) one64 = true) ∧
    (¬ Finite64 x → isNaN64 (cos64 x) = true ∧ isNaN64 (sin64 x) = true)

/-- R17: the constant 2 pi is the exact double of pi, with the stated bits. -/
def Obligations.TwoPiIsExactDouble : Prop :=
  mul64 0x4000000000000000#64 0x400921FB54442D18#64 = 0x401921FB54442D18#64 ∧ twoPi64 = 0x401921FB54442D18#64 ∧
  value64 twoPi64 = 2 * value64 pi64

/-- R13, R199, R221: the same as `SpecialOperands64` for binary32, the arithmetic of the sample streams: a NaN for a NaN
operand, for the difference of infinities and for zero times infinity; infinities otherwise. -/
def Obligations.SpecialOperands32 : Prop :=
  ∀ x y : F32,
    let inf := fun x : F32 => mag32 x = fmt32.infMag
    let nul := fun x : F32 => mag32 x = 0
    let quiet := fun z : F32 => isNaN32 z = true ∧ z.getLsbD 22 = true
    let isInf := fun (z : F32) (neg : Bool) => inf z ∧ neg32 z = neg
    ((isNaN32 x = true ∨ isNaN32 y = true) → quiet (add32 x y) ∧ quiet (sub32 x y) ∧ quiet (mul32 x y)) ∧
    (inf x → inf y → neg32 x ≠ neg32 y → quiet (add32 x y)) ∧ (inf x → inf y → neg32 x = neg32 y → quiet (sub32 x y)) ∧
    (inf x → inf y → neg32 x = neg32 y → isInf (add32 x y) (neg32 x)) ∧
    (inf x → inf y → neg32 x ≠ neg32 y → isInf (sub32 x y) (neg32 x)) ∧
    (inf x → Finite32 y → isInf (add32 x y) (neg32 x) ∧ isInf (sub32 x y) (neg32 x) ∧ isInf (add32 y x) (neg32 x) ∧
      isInf (sub32 y x) (!neg32 x)) ∧
    (inf x → nul y → quiet (mul32 x y) ∧ quiet (mul32 y x)) ∧
    (inf x → ¬ nul y → isNaN32 y = false →
      isInf (mul32 x y) (neg32 x != neg32 y) ∧ isInf (mul32 y x) (neg32 x != neg32 y))
end

