-- ==== Sys2Proof/Laws/Fp.lean ====
section
/-! SUPPORT. Laws/Fp.lean: what the floating-point operations do: rounding is monotone and exact on representable values, a
NaN made is a NaN, and the operations on non-negative numbers in terms of magnitude patterns. -/

namespace Sys2Proof.Machine

/-- Rounding to a whole number lands on the floor or one above it. -/
theorem roundHalfEven_bounds (num den : Nat) : num / den ≤ roundHalfEven num den ∧ roundHalfEven num den ≤ num / den + 1 := by
  unfold roundHalfEven
  dsimp only
  split
  · omega
  · split <;> omega

/-- Rounding to a whole number is monotone. -/
theorem roundHalfEven_mono {a b c d : Nat} (hb : 0 < b) (hd : 0 < d) (h : a * d ≤ c * b) :
    roundHalfEven a b ≤ roundHalfEven c d := by
  have hq : a / b ≤ c / d := by
    rw [Nat.le_div_iff_mul_le hd]
    have h1 : a / b * b ≤ a := Nat.div_mul_le_self a b
    have h2 : a / b * d * b ≤ c * b := by
      calc a / b * d * b = a / b * b * d := by ring
        _ ≤ a * d := Nat.mul_le_mul_right _ h1
        _ ≤ c * b := h
    exact Nat.le_of_mul_le_mul_right h2 hb
  have ha := roundHalfEven_bounds a b
  have hc := roundHalfEven_bounds c d
  rcases Nat.lt_or_ge (a / b) (c / d) with hlt | hge
  · omega
  · have heq : a / b = c / d := le_antisymm hq hge
    have e1 : b * (a / b) + a % b = a := Nat.div_add_mod a b
    have e2 : d * (a / b) + c % d = c := by rw [heq]; exact Nat.div_add_mod c d
    have hr : a % b * d ≤ c % d * b := by
      have h3 : (b * (a / b) + a % b) * d ≤ (d * (a / b) + c % d) * b := by rw [e1, e2]; exact h
      have h4 : (b * (a / b) + a % b) * d = b * d * (a / b) + a % b * d := by ring
      have h5 : (d * (a / b) + c % d) * b = b * d * (a / b) + c % d * b := by ring
      omega
    unfold roundHalfEven
    dsimp only
    rw [heq]
    split
    · rename_i h1
      have : d < 2 * (c % d) := by
        have h6 : b * d < 2 * (c % d) * b := by nlinarith
        have : d * b < 2 * (c % d) * b := by linarith [Nat.mul_comm b d]
        exact Nat.lt_of_mul_lt_mul_right this
      rw [if_pos this]
    · split
      · rename_i h1 h2
        have h6 : d ≤ 2 * (c % d) := by
          have h7 : d * b ≤ 2 * (c % d) * b := by nlinarith
          exact Nat.le_of_mul_le_mul_right h7 hb
        split
        · omega
        · split
          · exact le_rfl
          · omega
      · split
        · omega
        · split <;> omega

/-- A whole number of quanta is rounded to itself. -/
theorem roundHalfEven_exact (n : Nat) {d : Nat} (hd : 0 < d) : roundHalfEven (n * d) d = n := by
  unfold roundHalfEven
  simp only [Nat.mul_div_cancel n hd, Nat.mul_mod_left, Nat.mul_zero]
  rw [if_neg (by omega), if_neg (by omega)]

/-- Rounding never goes past the infinity. -/
theorem Fmt.round_le (f : Fmt) (num den : Nat) : f.round num den ≤ f.infMag := min_le_right _ _

/-- R13: rounding to a format is monotone. -/
theorem Fmt.round_mono (f : Fmt) {a b c d : Nat} (hb : 0 < b) (hd : 0 < d) (h : a * d ≤ c * b) :
    f.round a b ≤ f.round c d := by
  have hq : a / b ≤ c / d := by
    have := Nat.div_le_div_right (c := b * d) h
    rwa [Nat.mul_div_mul_right a b hd, Nat.mul_comm b d, Nat.mul_div_mul_right c d hb] at this
  unfold Fmt.round
  dsimp only
  refine min_le_min_right _ ?_
  set sa := Nat.log2 (a / b) - f.mbits with hsa
  set sc := Nat.log2 (c / d) - f.mbits with hsc
  have hlog : Nat.log2 (a / b) ≤ Nat.log2 (c / d) := by
    rw [Nat.log2_eq_log_two, Nat.log2_eq_log_two]; exact Nat.log_mono_right hq
  rcases Nat.lt_or_ge sa sc with hlt | hge
  · have hup : roundHalfEven a (b * 2 ^ sa) ≤ 2 ^ (f.mbits + 1) := by
      have h1 : a / b < 2 ^ (Nat.log2 (a / b) + 1) := Nat.lt_log2_self
      have h2 : a / b < 2 ^ (f.mbits + 1 + sa) :=
        lt_of_lt_of_le h1 (Nat.pow_le_pow_right (by norm_num) (by omega))
      have h3 : a / (b * 2 ^ sa) < 2 ^ (f.mbits + 1) := by
        rw [← Nat.div_div_eq_div_mul]
        exact Nat.div_lt_of_lt_mul (by rwa [← pow_add, Nat.add_comm sa])
      have := (roundHalfEven_bounds a (b * 2 ^ sa)).2
      omega
    have hdn : 2 ^ f.mbits ≤ roundHalfEven c (d * 2 ^ sc) := by
      have hne : c / d ≠ 0 := by
        intro h0; rw [h0] at hsc; simp at hsc; omega
      have h1 : 2 ^ Nat.log2 (c / d) ≤ c / d := Nat.log2_self_le hne
      have h2 : 2 ^ f.mbits * 2 ^ sc ≤ c / d := by
        rw [← pow_add]; exact le_trans (Nat.pow_le_pow_right (by norm_num) (by omega)) h1
      have h3 : 2 ^ f.mbits ≤ c / (d * 2 ^ sc) := by
        rw [← Nat.div_div_eq_div_mul]
        exact (Nat.le_div_iff_mul_le (by positivity)).2 h2
      exact le_trans h3 (roundHalfEven_bounds _ _).1
    have h4 : (sa + 1) * 2 ^ f.mbits ≤ sc * 2 ^ f.mbits := Nat.mul_le_mul_right _ hlt
    have h5 : 2 ^ (f.mbits + 1) = 2 ^ f.mbits + 2 ^ f.mbits := by ring
    have h6 : (sa + 1) * 2 ^ f.mbits = sa * 2 ^ f.mbits + 2 ^ f.mbits := by ring
    omega
  · have hs : sa = sc := by omega
    rw [hs]
    refine Nat.add_le_add_right (roundHalfEven_mono (by positivity) (by positivity) ?_) _
    calc a * (d * 2 ^ sc) = a * d * 2 ^ sc := by ring
      _ ≤ c * b * 2 ^ sc := Nat.mul_le_mul_right _ h
      _ = c * (b * 2 ^ sc) := by ring

/-- R13: a representable value is rounded to itself. -/
theorem Fmt.round_units (f : Fmt) {m k : Nat} (hm : m < f.infMag) (hk : 0 < k) : f.round (f.units m * k) k = m := by
  unfold Fmt.round
  dsimp only
  rw [Nat.mul_div_cancel _ hk]
  have hpow : 0 < 2 ^ f.mbits := by positivity
  have hdm := Nat.div_add_mod m (2 ^ f.mbits)
  have hmod := Nat.mod_lt m hpow
  by_cases he : m / 2 ^ f.mbits = 0
  · have hu : f.units m = m := by simp [Fmt.units, he]
    have hlt : m < 2 ^ f.mbits := (Nat.div_eq_zero_iff_lt hpow).1 he
    have hs : Nat.log2 m - f.mbits = 0 := by
      rcases Nat.eq_zero_or_pos m with rfl | h0
      · simp
      · have := (Nat.log2_lt h0.ne').2 hlt; omega
    rw [hu, hs]
    simp only [pow_zero, Nat.mul_one, Nat.zero_mul, Nat.add_zero]
    rw [roundHalfEven_exact m hk]
    exact min_eq_left hm.le
  · have hu : f.units m = (m % 2 ^ f.mbits + 2 ^ f.mbits) * 2 ^ (m / 2 ^ f.mbits - 1) := by
      simp only [Fmt.units]; rw [if_neg he]
    set e := m / 2 ^ f.mbits with hedef
    have hlog : Nat.log2 (f.units m) = f.mbits + (e - 1) := by
      rw [hu, Nat.log2_eq_log_two]
      refine Nat.log_eq_of_pow_le_of_lt_pow ?_ ?_
      · rw [pow_add]; exact Nat.mul_le_mul_right _ (by omega)
      · rw [show f.mbits + (e - 1) + 1 = (f.mbits + 1) + (e - 1) by omega, pow_add _ (f.mbits + 1)]
        exact Nat.mul_lt_mul_of_pos_right (by rw [pow_succ]; omega) (by positivity)
    rw [hlog, show f.mbits + (e - 1) - f.mbits = e - 1 by omega, hu]
    rw [show (m % 2 ^ f.mbits + 2 ^ f.mbits) * 2 ^ (e - 1) * k
        = (m % 2 ^ f.mbits + 2 ^ f.mbits) * (k * 2 ^ (e - 1)) by ring]
    rw [roundHalfEven_exact _ (by positivity)]
    have h1 : (e - 1) * 2 ^ f.mbits + 2 ^ f.mbits = e * 2 ^ f.mbits := by
      obtain ⟨n, hn⟩ := Nat.exists_eq_succ_of_ne_zero he
      rw [hn]; simp [Nat.succ_mul]
    have h2 : m % 2 ^ f.mbits + 2 ^ f.mbits + (e - 1) * 2 ^ f.mbits = m := by
      rw [Nat.mul_comm] at hdm; omega
    rw [h2]
    exact min_eq_left hm.le

/-- The value of a magnitude pattern rises with the pattern. -/
theorem Fmt.units_mono (f : Fmt) {a b : Nat} (h : a ≤ b) : f.units a ≤ f.units b := by
  have hpow : 0 < 2 ^ f.mbits := by positivity
  have hdiv : a / 2 ^ f.mbits ≤ b / 2 ^ f.mbits := Nat.div_le_div_right h
  have ha := Nat.div_add_mod a (2 ^ f.mbits)
  have hb := Nat.div_add_mod b (2 ^ f.mbits)
  have hma := Nat.mod_lt a hpow
  unfold Fmt.units
  dsimp only
  by_cases h0 : a / 2 ^ f.mbits = 0
  · rw [if_pos h0]
    split
    · exact h
    · have : a < 2 ^ f.mbits := (Nat.div_eq_zero_iff_lt hpow).1 h0
      have h1 : 1 ≤ 2 ^ (b / 2 ^ f.mbits - 1) := Nat.one_le_two_pow
      exact le_trans (by omega) (Nat.mul_le_mul_left (b % 2 ^ f.mbits + 2 ^ f.mbits) h1)
  · have hb0 : ¬ b / 2 ^ f.mbits = 0 := fun h => h0 (Nat.le_zero.1 (h ▸ hdiv))
    rw [if_neg h0, if_neg hb0]
    rcases Nat.lt_or_ge (a / 2 ^ f.mbits) (b / 2 ^ f.mbits) with hlt | hge
    · obtain ⟨n, hn⟩ := Nat.exists_eq_add_of_lt hlt
      obtain ⟨k, hk⟩ := Nat.exists_eq_succ_of_ne_zero h0
      rw [hn, hk, show k.succ - 1 = k by simp, show k.succ + n + 1 - 1 = k + 1 + n by omega, pow_add, pow_succ]
      have h1 : 1 ≤ 2 ^ n := Nat.one_le_two_pow
      have h2 : 0 < 2 ^ k := by positivity
      calc (a % 2 ^ f.mbits + 2 ^ f.mbits) * 2 ^ k ≤ (2 ^ f.mbits * 2) * 2 ^ k := Nat.mul_le_mul_right _ (by omega)
        _ = 2 ^ f.mbits * (2 ^ k * 2 * 1) := by ring
        _ ≤ (b % 2 ^ f.mbits + 2 ^ f.mbits) * (2 ^ k * 2 * 2 ^ n) :=
          Nat.mul_le_mul (by omega) (Nat.mul_le_mul_left _ h1)
    · have heq : a / 2 ^ f.mbits = b / 2 ^ f.mbits := le_antisymm hdiv hge
      rw [← heq] at hb ⊢
      exact Nat.mul_le_mul_right _ (by omega)

theorem Fmt.one_pos (f : Fmt) : 0 < f.one := by unfold Fmt.one; positivity

theorem fmt64_infMag : fmt64.infMag = 0x7FF0000000000000 := by decide

theorem fmt32_infMag : fmt32.infMag = 0x7F800000 := by decide

theorem pack64_false_toNat {m : Nat} (h : m < 2 ^ 64) : (pack64 false m).toNat = m := by
  simp only [pack64, BitVec.toNat_ofNat, Bool.false_eq_true, if_false]
  exact Nat.mod_eq_of_lt h

/-- A pattern below the sign bit is its own magnitude. -/
theorem mag64_of_lt {x : F64} (h : x.toNat < 2 ^ 63) : mag64 x = x.toNat := Nat.mod_eq_of_lt h

theorem neg64_of_lt {x : F64} (h : x.toNat < 2 ^ 63) : neg64 x = false := by
  rw [neg64, BitVec.msb_eq_decide]; simp; omega

/-- The datum of a non-negative finite pattern. -/
theorem val64_of_lt {x : F64} (h : x.toNat < fmt64.infMag) : val64 x = .fin false (fmt64.units x.toNat) := by
  have hi := fmt64_infMag
  have h63 : x.toNat < 2 ^ 63 := by omega
  rw [val64, mag64_of_lt h63, neg64_of_lt h63, Fmt.classify, if_neg (by omega), if_neg (by omega)]

theorem order64_of_lt {x : F64} (h : x.toNat < 2 ^ 63) : order64 x = x.toNat := by
  rw [order64, neg64_of_lt h, mag64_of_lt h]; rfl

theorem isNaN64_of_le {x : F64} (h : x.toNat ≤ fmt64.infMag) : isNaN64 x = false := by
  have hi := fmt64_infMag
  rw [isNaN64, mag64_of_lt (by omega)]; simp; omega

/-- R14 on non-negative numbers: the order of the patterns. -/
theorem lt64_of_le {x y : F64} (hx : x.toNat ≤ fmt64.infMag) (hy : y.toNat ≤ fmt64.infMag) :
    lt64 x y = decide (x.toNat < y.toNat) := by
  have hi := fmt64_infMag
  rw [lt64, isNaN64_of_le hx, isNaN64_of_le hy, order64_of_lt (by omega), order64_of_lt (by omega)]
  simp

/-- R14 on non-negative numbers: the order of the patterns. -/
theorem le64_of_le {x y : F64} (hx : x.toNat ≤ fmt64.infMag) (hy : y.toNat ≤ fmt64.infMag) :
    le64 x y = decide (x.toNat ≤ y.toNat) := by
  have hi := fmt64_infMag
  rw [le64, isNaN64_of_le hx, isNaN64_of_le hy, order64_of_lt (by omega), order64_of_lt (by omega)]
  simp

/-- R13: the product of two non-negative numbers. -/
theorem mul64_toNat {x y : F64} (hx : x.toNat < fmt64.infMag) (hy : y.toNat < fmt64.infMag) :
    (mul64 x y).toNat = fmt64.round (fmt64.units x.toNat * fmt64.units y.toNat) fmt64.one := by
  have hi := fmt64_infMag
  have hr := fmt64.round_le (fmt64.units x.toNat * fmt64.units y.toNat) fmt64.one
  simp only [mul64, val64_of_lt hx, val64_of_lt hy, Exact.mul, result64, Fmt.roundExact, bne_self_eq_false]
  exact pack64_false_toNat (by omega)

/-- R13: the quotient of two non-negative numbers, the second not zero. -/
theorem div64_toNat {x y : F64} (hx : x.toNat < fmt64.infMag) (hy : y.toNat < fmt64.infMag)
    (h0 : fmt64.units y.toNat ≠ 0) :
    (div64 x y).toNat = fmt64.round (fmt64.units x.toNat * fmt64.one) (fmt64.units y.toNat) := by
  have hi := fmt64_infMag
  have hr := fmt64.round_le (fmt64.units x.toNat * fmt64.one) (fmt64.units y.toNat)
  simp only [div64, val64_of_lt hx, val64_of_lt hy, Exact.div, result64, Fmt.roundExact, bne_self_eq_false, if_neg h0]
  exact pack64_false_toNat (by omega)

/-- R13: the sum of two non-negative numbers. -/
theorem add64_toNat {x y : F64} (hx : x.toNat < fmt64.infMag) (hy : y.toNat < fmt64.infMag) :
    (add64 x y).toNat = fmt64.round (fmt64.units x.toNat + fmt64.units y.toNat) 1 := by
  have hi := fmt64_infMag
  have hr := fmt64.round_le (fmt64.units x.toNat + fmt64.units y.toNat) 1
  simp only [add64, val64_of_lt hx, val64_of_lt hy, Exact.add, result64, Fmt.roundExact, if_true]
  exact pack64_false_toNat (by omega)

/-- R15: the binary64 value nearest a natural number. -/
theorem ofInt64_toNat (n : Nat) : (ofInt64 n).toNat = fmt64.round (n * fmt64.one) 1 := by
  have hi := fmt64_infMag
  have hr := fmt64.round_le (n * fmt64.one) 1
  have : decide ((n : Int) < 0) = false := by simp
  rw [ofInt64, this, Int.natAbs_natCast]
  exact pack64_false_toNat (by omega)

/-- R13, U3: a quiet NaN is a NaN, whatever its source. -/
@[simp] theorem isNaN64_quietNaN64 (x : F64) : isNaN64 (quietNaN64 x) = true := by
  have h1 : (quietNaN64 x).toNat % 2 ^ 63 = (x.toNat % 2 ^ 63) ||| 0x7FF8000000000000 := by
    rw [quietNaN64, BitVec.toNat_or, Nat.or_mod_two_pow]; rfl
  have h2 : 0x7FF8000000000000 ≤ (x.toNat % 2 ^ 63) ||| 0x7FF8000000000000 := Nat.right_le_or
  rw [isNaN64, mag64, h1, fmt64_infMag]
  exact decide_eq_true (by omega)

/-- R13, U3: a quiet NaN is a NaN, whatever its source. -/
@[simp] theorem isNaN32_quietNaN32 (x : F32) : isNaN32 (quietNaN32 x) = true := by
  have h1 : (quietNaN32 x).toNat % 2 ^ 31 = (x.toNat % 2 ^ 31) ||| 0x7FC00000 := by
    rw [quietNaN32, BitVec.toNat_or, Nat.or_mod_two_pow]; rfl
  have h2 : 0x7FC00000 ≤ (x.toNat % 2 ^ 31) ||| 0x7FC00000 := Nat.right_le_or
  rw [isNaN32, mag32, h1, fmt32_infMag]
  exact decide_eq_true (by omega)

end Sys2Proof.Machine
end

