-- ==== Sys2Proof/Laws/Series.lean ====
section
/-! SUPPORT. Laws/Series.lean: the I0 series ends within its fuel on every operand the commands accept (R115, U5), because
its terms are no larger than those of the largest accepted operand, which the kernel computes here once, and the Kaiser
window takes I0 inside that range (R113). -/

namespace Sys2Proof.Machine

theorem fmt64_one : fmt64.one = 2 ^ fmt64.unitExp := rfl

theorem fmt64_mbits : fmt64.mbits = 52 := rfl

/-- R13: two representations of one rational number are rounded alike. -/
theorem roundHalfEven_congr {a b c d : Nat} (hb : 0 < b) (hd : 0 < d) (h : a * d = c * b) :
    roundHalfEven a b = roundHalfEven c d :=
  le_antisymm (roundHalfEven_mono hb hd h.le) (roundHalfEven_mono hd hb h.ge)

/-- R13: the rounding of a number whose binade is known. -/
theorem round64_window {num den sh : Nat} (hden : 0 < den) (h1 : 2 ^ 52 * 2 ^ sh * den ≤ num)
    (h2 : num < 2 ^ 53 * 2 ^ sh * den) :
    fmt64.round num den = min (roundHalfEven num (den * 2 ^ sh) + sh * 2 ^ 52) fmt64.infMag := by
  have hlog : Nat.log2 (num / den) = 52 + sh := by
    rw [Nat.log2_eq_log_two]
    refine Nat.log_eq_of_pow_le_of_lt_pow ?_ ?_
    · rw [pow_add]; exact (Nat.le_div_iff_mul_le hden).2 h1
    · rw [show 52 + sh + 1 = 53 + sh by omega, pow_add]
      exact (Nat.div_lt_iff_lt_mul hden).2 h2
  unfold Fmt.round
  dsimp only
  rw [hlog, fmt64_mbits, show 52 + sh - 52 = sh by omega]

/-- A value handed on evaluated. -/
def strict {α : Type} (n : Nat) (f : Nat → α) : α :=
  match n with
  | 0 => f 0
  | m + 1 => f (m + 1)

theorem strict_eq {α : Type} (n : Nat) (f : Nat → α) : strict n f = f n := by cases n <;> rfl

/-- `roundHalfEven` by tests that the kernel decides fast. -/
def nearestB (n d : Nat) : Nat :=
  match Nat.ble (2 * (n % d)) d with
  | false => n / d + 1
  | true =>
    match Nat.beq (2 * (n % d)) d with
    | true => n / d + n / d % 2
    | false => n / d

theorem nearestB_eq (n d : Nat) : nearestB n d = roundHalfEven n d := by
  unfold nearestB roundHalfEven
  dsimp only
  cases h1 : Nat.ble (2 * (n % d)) d
  · have : ¬ 2 * (n % d) ≤ d := fun h => by rw [Nat.ble_eq_true_of_le h] at h1; exact Bool.noConfusion h1
    rw [if_pos (by omega)]
  · have : 2 * (n % d) ≤ d := Nat.le_of_ble_eq_true h1
    rw [if_neg (by omega)]
    cases h2 : Nat.beq (2 * (n % d)) d
    · rw [if_neg (Nat.ne_of_beq_eq_false h2)]
    · rw [if_pos (Nat.eq_of_beq_eq_true h2)]

/-- The significand of a normal pattern. -/
def man (p : Nat) : Nat := p % 2 ^ 52 + 2 ^ 52

/-- The weight of the significand of a normal pattern is two to this power units. -/
def ex (p : Nat) : Nat := p / 2 ^ 52 - 1

theorem units64_normal {p : Nat} (h : 2 ^ 52 ≤ p) : fmt64.units p = man p * 2 ^ ex p := by
  have : ¬ p / 2 ^ fmt64.mbits = 0 := by rw [fmt64_mbits]; omega
  unfold Fmt.units
  dsimp only
  rw [if_neg this]
  rfl

theorem man_bounds (p : Nat) : 2 ^ 52 ≤ man p ∧ man p < 2 ^ 53 := by
  have := Nat.mod_lt p (show 0 < 2 ^ 52 by norm_num)
  unfold man
  omega

/-- The pattern of `n / d` times two to the power `x - E` units, the infinity where its binade is not the one of a
normal number with that weight. -/
def packN (E n d x : Nat) : Nat :=
  cond (Nat.ble (2 ^ 52 * d) n && Nat.blt n (2 ^ 53 * d) && Nat.ble E x) (nearestB n d + (x - E) * 2 ^ 52) 0x7FF0000000000000

theorem packN_le {E n d x : Nat} (h : packN E n d x < fmt64.infMag) : E ≤ x ∧ 2 ^ 52 * d ≤ n ∧ n < 2 ^ 53 * d := by
  rw [packN] at h
  cases hc : Nat.ble (2 ^ 52 * d) n && Nat.blt n (2 ^ 53 * d) && Nat.ble E x
  · rw [hc, cond_false, fmt64_infMag] at h; exact absurd h (lt_irrefl _)
  · rw [Bool.and_eq_true, Bool.and_eq_true] at hc
    exact ⟨Nat.le_of_ble_eq_true hc.2, Nat.le_of_ble_eq_true hc.1.1, Nat.le_of_ble_eq_true hc.1.2⟩

theorem packN_eq {E n d x : Nat} (h : packN E n d x < fmt64.infMag) (hd : 0 < d) {num den : Nat} (hden : 0 < den)
    (he : num * d = n * 2 ^ (x - E) * den) : packN E n d x = fmt64.round num den := by
  obtain ⟨b3, b1, b2⟩ := packN_le h
  have hv : packN E n d x = nearestB n d + (x - E) * 2 ^ 52 := by
    have hc : (Nat.ble (2 ^ 52 * d) n && Nat.blt n (2 ^ 53 * d) && Nat.ble E x) = true := by
      rw [Bool.and_eq_true, Bool.and_eq_true]
      exact ⟨⟨Nat.ble_eq_true_of_le b1, Nat.ble_eq_true_of_le b2⟩, Nat.ble_eq_true_of_le b3⟩
    rw [packN, hc, cond_true]
  rw [hv] at h ⊢
  have hp : 0 < 2 ^ (x - E) := Nat.two_pow_pos _
  have hdp : 0 < den * 2 ^ (x - E) := Nat.mul_pos hden hp
  rw [nearestB_eq] at h ⊢
  have hr : roundHalfEven num (den * 2 ^ (x - E)) = roundHalfEven n d :=
    roundHalfEven_congr hdp hd (by rw [he]; ring)
  rw [round64_window (sh := x - E) hden, hr, min_eq_left h.le]
  · refine Nat.le_of_mul_le_mul_right ?_ hd
    calc 2 ^ 52 * 2 ^ (x - E) * den * d = 2 ^ 52 * d * 2 ^ (x - E) * den := by ring
      _ ≤ n * 2 ^ (x - E) * den := Nat.mul_le_mul_right _ (Nat.mul_le_mul_right _ b1)
      _ = num * d := he.symm
  · refine Nat.lt_of_mul_lt_mul_right (a := d) ?_
    calc num * d = n * 2 ^ (x - E) * den := he
      _ < 2 ^ 53 * d * 2 ^ (x - E) * den :=
        Nat.mul_lt_mul_of_pos_right (Nat.mul_lt_mul_of_pos_right b2 hp) hden
      _ = 2 ^ 53 * 2 ^ (x - E) * den * d := by ring

/-- The pattern of a product of normal patterns, the infinity where the product is no normal number. -/
def mulN (E a b : Nat) : Nat :=
  cond (Nat.ble (2 ^ 52) a && Nat.ble (2 ^ 52) b)
    (strict (man a * man b) fun n =>
      cond (Nat.ble (2 ^ 105) n) (packN E n (2 ^ 53) (ex a + ex b + 53)) (packN E n (2 ^ 52) (ex a + ex b + 52)))
    0x7FF0000000000000

theorem mul_weight {x y E t : Nat} (h : E ≤ x + y + t) (m n : Nat) :
    m * 2 ^ x * (n * 2 ^ y) * 2 ^ t = m * n * 2 ^ (x + y + t - E) * 2 ^ E := by
  calc m * 2 ^ x * (n * 2 ^ y) * 2 ^ t = m * n * 2 ^ (x + y + t) := by ring
    _ = m * n * 2 ^ (x + y + t - E + E) := by rw [Nat.sub_add_cancel h]
    _ = m * n * 2 ^ (x + y + t - E) * 2 ^ E := by rw [pow_add]; ring

theorem mulN_eq {one E a b : Nat} (hE : one = 2 ^ E) (h : mulN E a b < fmt64.infMag) :
    mulN E a b = fmt64.round (fmt64.units a * fmt64.units b) one := by
  subst hE
  rw [mulN] at h ⊢
  cases hc : Nat.ble (2 ^ 52) a && Nat.ble (2 ^ 52) b
  · rw [hc, cond_false, fmt64_infMag] at h; exact absurd h (lt_irrefl _)
  · rw [hc, cond_true, strict_eq] at h
    rw [cond_true, strict_eq]
    rw [Bool.and_eq_true] at hc
    rw [units64_normal (Nat.le_of_ble_eq_true hc.1), units64_normal (Nat.le_of_ble_eq_true hc.2)]
    cases h3 : Nat.ble (2 ^ 105) (man a * man b)
    · rw [h3, cond_false] at h
      rw [cond_false]
      exact packN_eq h (Nat.two_pow_pos _) (Nat.two_pow_pos _) (mul_weight (packN_le h).1 _ _)
    · rw [h3, cond_true] at h
      rw [cond_true]
      exact packN_eq h (Nat.two_pow_pos _) (Nat.two_pow_pos _) (mul_weight (packN_le h).1 _ _)

/-- The pattern of a quotient of normal patterns, the infinity where the quotient is no normal number. -/
def divN (E a k : Nat) : Nat :=
  cond (Nat.ble (2 ^ 52) a && Nat.ble (2 ^ 52) k && Nat.ble (ex k + 53) (ex a + E))
    (cond (Nat.ble (man k) (man a)) (packN E (man a * 2 ^ 52) (man k) (ex a + E + E - 52 - ex k))
      (packN E (man a * 2 ^ 53) (man k) (ex a + E + E - 53 - ex k)))
    0x7FF0000000000000

theorem div_weight {x y E t : Nat} (ht : t ≤ 53) (h : y + 53 ≤ x + E) (m n : Nat) :
    m * 2 ^ x * 2 ^ E * n = m * 2 ^ t * 2 ^ (x + E + E - t - y - E) * (n * 2 ^ y) := by
  have e : x + E = t + (x + E + E - t - y - E) + y := by omega
  calc m * 2 ^ x * 2 ^ E * n = m * n * 2 ^ (x + E) := by ring
    _ = m * n * 2 ^ (t + (x + E + E - t - y - E) + y) := by rw [← e]
    _ = m * 2 ^ t * 2 ^ (x + E + E - t - y - E) * (n * 2 ^ y) := by rw [pow_add, pow_add]; ring

theorem divN_eq {one E a k : Nat} (hE : one = 2 ^ E) (h : divN E a k < fmt64.infMag) :
    divN E a k = fmt64.round (fmt64.units a * one) (fmt64.units k) := by
  subst hE
  rw [divN] at h ⊢
  cases hc : Nat.ble (2 ^ 52) a && Nat.ble (2 ^ 52) k && Nat.ble (ex k + 53) (ex a + E)
  · rw [hc, cond_false, fmt64_infMag] at h; exact absurd h (lt_irrefl _)
  · rw [hc, cond_true] at h
    rw [cond_true]
    rw [Bool.and_eq_true, Bool.and_eq_true] at hc
    have h3 := Nat.le_of_ble_eq_true hc.2
    have hk : 0 < man k := lt_of_lt_of_le (Nat.two_pow_pos _) (man_bounds k).1
    rw [units64_normal (Nat.le_of_ble_eq_true hc.1.1), units64_normal (Nat.le_of_ble_eq_true hc.1.2)]
    cases h4 : Nat.ble (man k) (man a)
    · rw [h4, cond_false] at h
      rw [cond_false]
      exact packN_eq h hk (Nat.mul_pos hk (Nat.two_pow_pos _)) (div_weight (by norm_num) h3 _ _)
    · rw [h4, cond_true] at h
      rw [cond_true]
      exact packN_eq h hk (Nat.mul_pos hk (Nat.two_pow_pos _)) (div_weight (by norm_num) h3 _ _)

/-- The pattern of a whole number. -/
def natN (E k : Nat) : Nat := packN E (k * 2 ^ (52 - Nat.log2 k)) 1 (E + E + Nat.log2 k - 52)

theorem natN_eq {one E k : Nat} (hE : one = 2 ^ E) (h2 : 52 ≤ E) (h : natN E k < fmt64.infMag) (hk : Nat.log2 k ≤ 52) :
    natN E k = fmt64.round (k * one) 1 := by
  subst hE
  refine packN_eq h one_pos one_pos ?_
  have e : E = 52 - Nat.log2 k + (E + E + Nat.log2 k - 52 - E) := by omega
  rw [mul_one, mul_one, mul_assoc, ← pow_add, ← e]

/-- The terms of the series for half the operand `H`, from the term `U` before index `k` on, fall below the threshold
within `fuel` terms, every number on the way a normal one. All of them are given as patterns, and 1.0 is `2 ^ E` units. -/
def fallsBelow (E : Nat) : Nat → Nat → Nat → Nat → Bool
  | 0, _, _, _ => false
  | fuel + 1, H, U, k =>
    strict (natN E k) fun n =>
    strict (divN E H n) fun q =>
    strict (mulN E q q) fun qq =>
    strict (mulN E U qq) fun u =>
      cond (Nat.blt u 0x7FF0000000000000 && Nat.blt q 0x7FF0000000000000 && Nat.blt qq 0x7FF0000000000000 &&
          Nat.blt n 0x7FF0000000000000 && Nat.ble (2 ^ 52) n && Nat.ble (Nat.log2 k) 52)
        (cond (Nat.blt u 0x3D719799812DEA11) true (fallsBelow E fuel H u (k + 1))) false

theorem fallsBelow_max : fallsBelow 1074 961 0x4075E00000000000 0x3FF0000000000000 1 = true := by decide +kernel

/-- A finite pattern with the sign bit clear. -/
abbrev NonNeg (x : F64) : Prop := x.toNat < fmt64.infMag

/-- R13: products of non-negative numbers are monotone. -/
theorem mul64_mono {x X y Y : F64} (hX : NonNeg X) (hY : NonNeg Y) (hx : x.toNat ≤ X.toNat) (hy : y.toNat ≤ Y.toNat) :
    (mul64 x y).toNat ≤ (mul64 X Y).toNat := by
  rw [mul64_toNat (lt_of_le_of_lt hx hX) (lt_of_le_of_lt hy hY), mul64_toNat hX hY]
  exact fmt64.round_mono fmt64.one_pos fmt64.one_pos
    (Nat.mul_le_mul_right _ (Nat.mul_le_mul (fmt64.units_mono hx) (fmt64.units_mono hy)))

/-- R13: quotients of non-negative numbers are monotone in the dividend. -/
theorem div64_mono {x X y : F64} (hX : NonNeg X) (hy : NonNeg y) (h0 : fmt64.units y.toNat ≠ 0) (hx : x.toNat ≤ X.toNat) :
    (div64 x y).toNat ≤ (div64 X y).toNat := by
  rw [div64_toNat (lt_of_le_of_lt hx hX) hy h0, div64_toNat hX hy h0]
  exact fmt64.round_mono (Nat.pos_of_ne_zero h0) (Nat.pos_of_ne_zero h0)
    (Nat.mul_le_mul_right _ (Nat.mul_le_mul_right _ (fmt64.units_mono hx)))

/-- R115: the series ends where a larger one does. -/
theorem i0Loop_isSome {fuel : Nat} : ∀ {H U k : Nat}, fallsBelow fmt64.unitExp fuel H U k = true → H < fmt64.infMag →
    U < fmt64.infMag → ∀ {fuel' : Nat} {h s u : F64}, fuel ≤ fuel' → h.toNat ≤ H → u.toNat ≤ U →
    (i0Loop fuel' h s u k).isSome = true := by
  induction fuel with
  | zero => intro H U k hf; exact Bool.noConfusion hf
  | succ fuel ih =>
    intro H U k hf hH hU fuel' h s u hle hh hu
    obtain ⟨fuel', rfl⟩ : ∃ m, fuel' = m + 1 := ⟨fuel' - 1, by omega⟩
    rw [fallsBelow, strict_eq, strict_eq, strict_eq, strict_eq] at hf
    generalize hn : natN fmt64.unitExp k = n at hf
    generalize hq : divN fmt64.unitExp H n = q at hf
    generalize hqq : mulN fmt64.unitExp q q = qq at hf
    generalize hu' : mulN fmt64.unitExp U qq = v at hf
    cases hb : Nat.blt v 0x7FF0000000000000 && Nat.blt q 0x7FF0000000000000 && Nat.blt qq 0x7FF0000000000000 &&
          Nat.blt n 0x7FF0000000000000 && Nat.ble (2 ^ 52) n && Nat.ble (Nat.log2 k) 52
    · rw [hb] at hf; exact Bool.noConfusion hf
    · rw [hb, cond_true] at hf
      simp only [Bool.and_eq_true] at hb
      have b6 := Nat.le_of_ble_eq_true hb.2
      have b5 := Nat.le_of_ble_eq_true hb.1.2
      have b1 : n < 0x7FF0000000000000 := Nat.le_of_ble_eq_true hb.1.1.2
      have b3 : qq < 0x7FF0000000000000 := Nat.le_of_ble_eq_true hb.1.1.1.2
      have b2 : q < 0x7FF0000000000000 := Nat.le_of_ble_eq_true hb.1.1.1.1.2
      have b4 : v < 0x7FF0000000000000 := Nat.le_of_ble_eq_true hb.1.1.1.1.1
      have hi := fmt64_infMag
      have ek : (ofInt64 k).toNat = n := by
        rw [ofInt64_toNat, ← hn, natN_eq fmt64_one (by decide) (by rw [hn, hi]; exact b1) b6]
      have hkn : NonNeg (ofInt64 k) := by rw [NonNeg, ek]; omega
      have hk0 : fmt64.units (ofInt64 k).toNat ≠ 0 := by
        rw [ek, units64_normal b5]
        exact (Nat.mul_pos (lt_of_lt_of_le (Nat.two_pow_pos _) (man_bounds n).1) (Nat.two_pow_pos _)).ne'
      have e1 : (div64 h (ofInt64 k)).toNat ≤ q := by
        have hr := divN_eq fmt64_one (show divN fmt64.unitExp H n < fmt64.infMag by rw [hq, hi]; exact b2)
        rw [div64_toNat (lt_of_le_of_lt hh hH) hkn hk0, ← hq, hr, ← ek]
        exact fmt64.round_mono (Nat.pos_of_ne_zero hk0) (Nat.pos_of_ne_zero hk0)
          (Nat.mul_le_mul_right _ (Nat.mul_le_mul_right _ (fmt64.units_mono hh)))
      have e2 : (mul64 (div64 h (ofInt64 k)) (div64 h (ofInt64 k))).toNat ≤ qq := by
        have f := e1
        rw [mul64_toNat (by omega) (by omega), ← hqq, mulN_eq fmt64_one (by rw [hqq, hi]; exact b3)]
        exact fmt64.round_mono fmt64.one_pos fmt64.one_pos
          (Nat.mul_le_mul_right _ (Nat.mul_le_mul (fmt64.units_mono e1) (fmt64.units_mono e1)))
      have e3 : (mul64 u (mul64 (div64 h (ofInt64 k)) (div64 h (ofInt64 k)))).toNat ≤ v := by
        rw [mul64_toNat (lt_of_le_of_lt hu hU) (by omega), ← hu', mulN_eq fmt64_one (by rw [hu', hi]; exact b4)]
        exact fmt64.round_mono fmt64.one_pos fmt64.one_pos
          (Nat.mul_le_mul_right _ (Nat.mul_le_mul (fmt64.units_mono hu) (fmt64.units_mono e2)))
      simp only [i0Loop]
      by_cases hl : lt64 (mul64 u (mul64 (div64 h (ofInt64 k)) (div64 h (ofInt64 k)))) cI0Eps = true
      · rw [if_pos hl]; rfl
      · rw [if_neg hl]
        cases b7 : Nat.blt v 0x3D719799812DEA11
        · rw [b7, cond_false] at hf
          exact ih hf hH (by omega) (by omega) hh e3
        · have b7 : v < 0x3D719799812DEA11 := Nat.le_of_ble_eq_true b7
          rw [lt64_of_le (by omega) (by rw [fmt64_infMag]; decide)] at hl
          exact absurd (by rw [decide_eq_true_iff, show cI0Eps.toNat = 0x3D719799812DEA11 by decide]; omega) hl

theorem negZero_of_mag {x : F64} (h : neg64 x = true) (h0 : mag64 x = 0) : x = 0x8000000000000000#64 := by
  have hlt := x.isLt
  rw [neg64, BitVec.msb_eq_decide] at h
  rw [mag64] at h0
  have h := of_decide_eq_true h
  apply BitVec.eq_of_toNat_eq
  rw [show (0x8000000000000000#64).toNat = 2 ^ 63 by decide]
  omega

/-- R113, R114: an operand in the domain of I0 is -0.0 or a pattern from that of +0.0 to that of 700.0. -/
theorem seriesDomain_cases {x : F64} (h : seriesDomain x = true) :
    x = 0x8000000000000000#64 ∨ x.toNat ≤ 0x4085E00000000000 := by
  rw [seriesDomain, Bool.and_eq_true] at h
  have h1 := h.1
  have h2 := h.2
  simp only [le64, Bool.and_eq_true, decide_eq_true_iff] at h1 h2
  have o0 : order64 zero64 = 0 := by decide
  have o1 : order64 cI0Xmax = 0x4085E00000000000 := by decide
  rw [o0] at h1
  rw [o1] at h2
  by_cases hn : neg64 x = true
  · left
    refine negZero_of_mag hn ?_
    have := h1.2
    rw [order64, if_pos hn] at this
    omega
  · right
    have h3 := h2.2
    rw [order64, if_neg hn, mag64] at h3
    rw [neg64, BitVec.msb_eq_decide] at hn
    have hn : ¬ 2 ^ (64 - 1) ≤ x.toNat := fun hc => hn (decide_eq_true hc)
    omega

theorem seriesDomain_of_le {x : F64} (h : x.toNat ≤ 0x4085E00000000000) : seriesDomain x = true := by
  have hi := fmt64_infMag
  rw [seriesDomain, le64_of_le (by rw [hi]; decide) (by omega), le64_of_le (by omega) (by rw [hi]; decide)]
  rw [Bool.and_eq_true, decide_eq_true_iff, decide_eq_true_iff, show cI0Xmax.toNat = 0x4085E00000000000 by decide]
  exact ⟨Nat.zero_le _, h⟩

/-- R115, U5: the I0 series ends within its fuel on every operand the commands accept. -/
theorem i0_isSome {x : F64} (h : seriesDomain x = true) : ∃ v, i0 x = some v := by
  rcases seriesDomain_cases h with rfl | h
  · exact Option.isSome_iff_exists.1 (by decide +kernel)
  · refine Option.isSome_iff_exists.1 (i0Loop_isSome fallsBelow_max ?_ ?_ (by decide) ?_ ?_)
    · rw [fmt64_infMag]; omega
    · rw [fmt64_infMag]; omega
    · have hm : (div64 cI0Xmax two64).toNat = 0x4075E00000000000 := by decide +kernel
      rw [← hm]
      refine div64_mono ?_ ?_ ?_ ?_
      · rw [NonNeg, fmt64_infMag]; decide
      · rw [NonNeg, fmt64_infMag]; decide
      · decide +kernel
      · rw [show cI0Xmax.toNat = 0x4085E00000000000 by decide]; exact h
    · rw [show one64.toNat = 0x3FF0000000000000 by decide]

/-! ## The Kaiser window takes I0 inside its domain -/

/-- The pattern of 1.0. -/
abbrev onePat : Nat := 0x3FF0000000000000

/-- The pattern of 2.0. -/
abbrev twoPat : Nat := 0x4000000000000000

theorem onePat_lt : onePat < fmt64.infMag := by rw [fmt64_infMag]; norm_num

theorem pack64_le_one {m : Nat} (h : m ≤ onePat) : (pack64 false m).toNat = m :=
  pack64_false_toNat (lt_of_le_of_lt h (by norm_num))

theorem one64_toNat : one64.toNat = onePat := by decide

theorem two64_toNat : two64.toNat = twoPat := by decide

theorem units_onePat : fmt64.units onePat = fmt64.one := by decide +kernel

theorem units_twoPat : fmt64.units twoPat = 2 * fmt64.one := by decide +kernel

theorem round64_le_one {num den : Nat} (hd : 0 < den) (h : num ≤ fmt64.one * den) : fmt64.round num den ≤ onePat := by
  have := fmt64.round_units (m := onePat) (k := den) (by rw [fmt64_infMag]; norm_num) hd
  rw [units_onePat] at this
  rw [← this]
  exact fmt64.round_mono hd hd (Nat.mul_le_mul_right _ h)

theorem val64_pack64 {neg : Bool} {m : Nat} (h : m < fmt64.infMag) : val64 (pack64 neg m) = .fin neg (fmt64.units m) := by
  have hi := fmt64_infMag
  cases neg
  · have := pack64_false_toNat (m := m) (by omega)
    rw [val64_of_lt (by omega), this]
  · have ht : (pack64 true m).toNat = 2 ^ 63 + m := by
      simp only [pack64, BitVec.toNat_ofNat, if_true]
      exact Nat.mod_eq_of_lt (by omega)
    have hn : neg64 (pack64 true m) = true := by
      rw [neg64, BitVec.msb_eq_decide, ht]
      exact decide_eq_true (by omega)
    have hm : mag64 (pack64 true m) = m := by
      rw [mag64, ht]; omega
    rw [val64, hn, hm, Fmt.classify, if_neg (by omega), if_neg (by omega)]

/-- The whole part of the square root is no larger than the square root. -/
theorem isqrtFrom_sq_le (n : Nat) : ∀ k r, r * r ≤ n → isqrtFrom n k r * isqrtFrom n k r ≤ n := by
  intro k
  induction k with
  | zero => intro r h; rw [isqrtFrom]; split <;> assumption
  | succ k ih => intro r h; rw [isqrtFrom]; apply ih; split <;> assumption

theorem isqrt_sq_le (n : Nat) : isqrt n * isqrt n ≤ n := isqrtFrom_sq_le n _ 0 (Nat.zero_le _)

/-- R13: the square root of a number up to 1.0. -/
theorem sqrt64_le_one {x : F64} (h : x.toNat ≤ onePat) : (sqrt64 x).toNat ≤ onePat := by
  have hi := fmt64_infMag
  have hu : fmt64.units x.toNat ≤ fmt64.one := units_onePat ▸ fmt64.units_mono h
  have hp := fmt64.one_pos
  have key : ∀ num den, 0 < den → num ≤ fmt64.one * den →
      (match fmt64.roundExact (.rat false num den) with
        | none => quietNaN64 (Config.nanSource64 .sqrt x x)
        | some (s, m) => pack64 s m).toNat ≤ onePat := by
    intro num den hd hn
    have := round64_le_one hd hn
    simp only [Fmt.roundExact]
    rw [pack64_le_one this]
    exact this
  rw [sqrt64, val64_of_lt (lt_of_le_of_lt h onePat_lt), Exact.sqrt]
  dsimp only
  split
  · exact key 0 1 one_pos (Nat.zero_le _)
  · rw [if_neg (by decide)]
    have hsq := isqrt_sq_le (fmt64.units x.toNat * fmt64.one)
    have hle : fmt64.units x.toNat * fmt64.one ≤ fmt64.one * fmt64.one := Nat.mul_le_mul_right _ hu
    split
    · refine key _ 1 one_pos ?_
      rw [Nat.mul_one]
      exact Nat.mul_self_le_mul_self_iff.1 (le_trans hsq hle)
    · rename_i hne
      refine key _ 2 two_pos ?_
      have : isqrt (fmt64.units x.toNat * fmt64.one) < fmt64.one :=
        Nat.mul_self_lt_mul_self_iff.1 (lt_of_lt_of_le (lt_of_le_of_ne hsq hne) hle)
      omega

/-- R15: a whole number from 1 to 2^31 is a number from 1.0 on. -/
theorem ofInt64_bounds {n : Nat} (h1 : 1 ≤ n) (h2 : n ≤ 2 ^ 31) :
    onePat ≤ (ofInt64 n).toNat ∧ (ofInt64 n).toNat ≤ 0x41E0000000000000 := by
  rw [ofInt64_toNat]
  constructor
  · have e : fmt64.round (1 * fmt64.one) 1 = onePat := by decide +kernel
    rw [← e]
    exact fmt64.round_mono one_pos one_pos (Nat.mul_le_mul_right _ (Nat.mul_le_mul_right _ h1))
  · have e : fmt64.round (2 ^ 31 * fmt64.one) 1 = 0x41E0000000000000 := by decide +kernel
    rw [← e]
    exact fmt64.round_mono one_pos one_pos (Nat.mul_le_mul_right _ (Nat.mul_le_mul_right _ h2))

/-- R15: the same up to 2^62. -/
theorem ofInt64_bounds62 {n : Nat} (h1 : 1 ≤ n) (h2 : n ≤ 2 ^ 62) :
    onePat ≤ (ofInt64 n).toNat ∧ (ofInt64 n).toNat ≤ 0x43D0000000000000 := by
  rw [ofInt64_toNat]
  constructor
  · have e : fmt64.round (1 * fmt64.one) 1 = onePat := by decide +kernel
    rw [← e]
    exact fmt64.round_mono one_pos one_pos (Nat.mul_le_mul_right _ (Nat.mul_le_mul_right _ h1))
  · have e : fmt64.round (2 ^ 62 * fmt64.one) 1 = 0x43D0000000000000 := by decide +kernel
    rw [← e]
    exact fmt64.round_mono one_pos one_pos (Nat.mul_le_mul_right _ (Nat.mul_le_mul_right _ h2))

/-- R15: whole numbers are converted in order. -/
theorem ofInt64_mono {m n : Nat} (h : m ≤ n) : (ofInt64 m).toNat ≤ (ofInt64 n).toNat := by
  rw [ofInt64_toNat, ofInt64_toNat]
  exact fmt64.round_mono one_pos one_pos (Nat.mul_le_mul_right _ (Nat.mul_le_mul_right _ h))

theorem units64_double {p : Nat} (h : 2 ^ 52 ≤ p) : fmt64.units (p + 2 ^ 52) = 2 * fmt64.units p := by
  rw [units64_normal h, units64_normal (Nat.le_add_left _ _)]
  have h1 : man (p + 2 ^ 52) = man p := by unfold man; omega
  have h2 : ex (p + 2 ^ 52) = ex p + 1 := by unfold ex; omega
  rw [h1, h2, pow_succ]
  ring

/-- R113: `2n / (N - 1)` is at most 2.0. -/
theorem kaiser_ratio_le {n d : Nat} (h1 : 1 ≤ d) (h2 : d ≤ 2 ^ 62) (h : n ≤ d) :
    (div64 (mul64 two64 (ofInt64 n)) (ofInt64 d)).toNat ≤ twoPat := by
  have hi := fmt64_infMag
  obtain ⟨b1, b2⟩ := ofInt64_bounds62 h1 h2
  have hnd := ofInt64_mono h
  generalize hD : (ofInt64 d).toNat = D at b1 b2 hnd
  have hD1 : 2 ^ 52 ≤ D := le_trans (by norm_num) b1
  have hD2 : D + 2 ^ 52 < fmt64.infMag := by rw [hi]; omega
  have hD3 : D < fmt64.infMag := by rw [hi]; omega
  have hpos : 0 < fmt64.units D := by
    rw [units64_normal hD1]
    exact Nat.mul_pos (lt_of_lt_of_le (Nat.two_pow_pos _) (man_bounds D).1) (Nat.two_pow_pos _)
  have m1 : (mul64 two64 (ofInt64 n)).toNat ≤ D + 2 ^ 52 := by
    rw [mul64_toNat (by rw [two64_toNat, hi]; norm_num) (lt_of_le_of_lt hnd hD3)]
    refine le_trans ?_ (fmt64.round_units hD2 fmt64.one_pos).le
    refine fmt64.round_mono fmt64.one_pos fmt64.one_pos (Nat.mul_le_mul_right _ ?_)
    rw [two64_toNat, units_twoPat, units64_double hD1]
    calc 2 * fmt64.one * fmt64.units (ofInt64 n).toNat = 2 * fmt64.units (ofInt64 n).toNat * fmt64.one := by ring
      _ ≤ 2 * fmt64.units D * fmt64.one := Nat.mul_le_mul_right _ (Nat.mul_le_mul_left _ (fmt64.units_mono hnd))
  rw [div64_toNat (lt_of_le_of_lt m1 hD2) (by rw [hD]; exact hD3) (by rw [hD]; exact hpos.ne'), hD]
  refine le_trans ?_ (fmt64.round_units (m := twoPat) (by rw [hi]; norm_num) hpos).le
  refine fmt64.round_mono hpos hpos (Nat.mul_le_mul_right _ ?_)
  calc fmt64.units (mul64 two64 (ofInt64 n)).toNat * fmt64.one ≤ fmt64.units (D + 2 ^ 52) * fmt64.one :=
        Nat.mul_le_mul_right _ (fmt64.units_mono m1)
    _ = fmt64.units twoPat * fmt64.units D := by rw [units64_double hD1, units_twoPat]; ring

/-- R113: a number from 0.0 to 2.0 less 1.0 has a magnitude up to 1.0. -/
theorem kaiser_offset_le {t : F64} (h : t.toNat ≤ twoPat) :
    ∃ neg a, val64 (sub64 t one64) = .fin neg a ∧ a ≤ fmt64.one := by
  have hi := fmt64_infMag
  have ht : fmt64.units t.toNat ≤ 2 * fmt64.one := units_twoPat ▸ fmt64.units_mono h
  have key : ∀ neg num, num ≤ fmt64.one → ∃ neg' a, val64 (result64 (Config.nanSource64 .sub t one64) (.rat neg num 1)) =
      .fin neg' a ∧ a ≤ fmt64.one := by
    intro neg num hn
    have hr := round64_le_one one_pos (num := num) (by rwa [Nat.mul_one])
    refine ⟨neg, fmt64.units (fmt64.round num 1), ?_, units_onePat ▸ fmt64.units_mono hr⟩
    exact val64_pack64 (lt_of_le_of_lt hr (by rw [hi]; norm_num))
  have v1 : val64 one64 = .fin false fmt64.one := by
    rw [val64_of_lt (by rw [one64_toNat]; exact onePat_lt), one64_toNat, units_onePat]
  have v2 : val64 t = .fin false (fmt64.units t.toNat) := val64_of_lt (lt_of_le_of_lt h (by rw [hi]; norm_num))
  rw [sub64, v1, v2, FpVal.negate, Exact.add, if_neg (by decide)]
  split
  · exact key _ _ (Nat.zero_le _)
  · split
    · exact key _ _ (Nat.sub_le _ _)
    · exact key _ _ (by omega)

/-- R113: the operand of the square root lies between 0.0 and 1.0. -/
theorem kaiser_radicand_le {q : F64} {neg : Bool} {a : Nat} (hq : val64 q = .fin neg a) (ha : a ≤ fmt64.one) :
    (sub64 one64 (mul64 q q)).toNat ≤ onePat := by
  have hi := fmt64_infMag
  have h2 : (mul64 q q).toNat ≤ onePat := by
    have hr := round64_le_one fmt64.one_pos (Nat.mul_le_mul ha ha)
    simp only [mul64, hq, Exact.mul, result64, Fmt.roundExact, bne_self_eq_false]
    rw [pack64_le_one hr]
    exact hr
  have hb : fmt64.units (mul64 q q).toNat ≤ fmt64.one := units_onePat ▸ fmt64.units_mono h2
  have key : ∀ num, num ≤ fmt64.one →
      (result64 (Config.nanSource64 .sub one64 (mul64 q q)) (.rat false num 1)).toNat ≤ onePat := by
    intro num hn
    have hr := round64_le_one one_pos (num := num) (by rwa [Nat.mul_one])
    simp only [result64, Fmt.roundExact]
    rw [pack64_le_one hr]
    exact hr
  have v1 : val64 one64 = .fin false fmt64.one := by
    rw [val64_of_lt (by rw [one64_toNat]; exact onePat_lt), one64_toNat, units_onePat]
  rw [sub64, v1, val64_of_lt (lt_of_le_of_lt h2 onePat_lt), FpVal.negate, Exact.add, if_neg (by decide)]
  split
  · exact key _ (Nat.zero_le _)
  · rw [if_neg (not_lt.2 hb)]
    exact key _ (Nat.sub_le _ _)

theorem seriesDomain_mul {beta g : F64} (hb : seriesDomain beta = true) (hg : g.toNat ≤ onePat) :
    seriesDomain (mul64 beta g) = true := by
  have hi := fmt64_infMag
  have hg' : g.toNat < fmt64.infMag := lt_of_le_of_lt hg (by rw [hi]; norm_num)
  rcases seriesDomain_cases hb with rfl | hb
  · have hv : val64 0x8000000000000000#64 = .fin true 0 := by decide
    have : mul64 0x8000000000000000#64 g = 0x8000000000000000#64 := by
      have h0 : fmt64.round 0 fmt64.one = 0 := by decide +kernel
      simp only [mul64, hv, val64_of_lt hg', Exact.mul, Nat.zero_mul, result64, Fmt.roundExact, h0]
      decide
    rw [this]
    decide
  · refine seriesDomain_of_le (le_trans ?_ hb)
    have hb' : beta.toNat < fmt64.infMag := by rw [hi]; omega
    rw [mul64_toNat hb' hg']
    refine le_trans ?_ (fmt64.round_units hb' fmt64.one_pos).le
    exact fmt64.round_mono fmt64.one_pos fmt64.one_pos
      (Nat.mul_le_mul_right _ (Nat.mul_le_mul_left _ (units_onePat ▸ fmt64.units_mono hg)))

/-- R113: within the contract the numerator of the Kaiser coefficient takes I0 inside its domain. -/
theorem kaiserArg_domain {n N : Int} {beta : F64} (h0 : 0 ≤ n) (h1 : n ≤ N - 1) (h2 : 2 ≤ N) (h3 : N ≤ 2 ^ 62)
    (hb : seriesDomain beta = true) : seriesDomain (kaiserArg n N beta) = true := by
  obtain ⟨m, rfl⟩ := Int.eq_ofNat_of_zero_le h0
  obtain ⟨d, hd⟩ := Int.eq_ofNat_of_zero_le (show 0 ≤ N - 1 by omega)
  unfold kaiserArg
  dsimp only
  rw [hd]
  have hr := kaiser_ratio_le (n := m) (d := d) (by omega) (by omega) (by omega)
  obtain ⟨neg, a, hv, ha⟩ := kaiser_offset_le hr
  exact seriesDomain_mul hb (sqrt64_le_one (kaiser_radicand_le hv ha))

/-- R113: the Kaiser coefficient has a value within the contract. -/
theorem kaiser_isSome {n N : Int} {beta : F64} (h0 : 0 ≤ n) (h1 : n ≤ N - 1) (h2 : 2 ≤ N) (h3 : N ≤ 2 ^ 62)
    (hb : seriesDomain beta = true) : ∃ v, kaiser n N beta = some v := by
  obtain ⟨b, eb⟩ := i0_isSome hb
  obtain ⟨g, eg⟩ := i0_isSome (kaiserArg_domain h0 h1 h2 h3 hb)
  unfold kaiser
  split
  · rw [eb]; exact ⟨_, rfl⟩
  · rw [eg, eb]; exact ⟨_, rfl⟩

/-- R110: a window has a value within its contract. -/
theorem window_isSome {win : WindowFn} {n N : Int} {beta : F64} (h0 : 0 ≤ n) (h1 : n ≤ N - 1) (h2 : 2 ≤ N)
    (h3 : N ≤ 2 ^ 62) (hb : win = .kaiser → seriesDomain beta = true) : ∃ v, window win n N beta = some v := by
  cases win
  · exact ⟨_, rfl⟩
  · exact ⟨_, rfl⟩
  · exact kaiser_isSome h0 h1 h2 h3 (hb rfl)

/-! ## What the procedures compute, in the words of the statements -/

/-- R115: where the loop stands before the term of index `k + 1`, and what it ends in. -/
theorem i0Loop_spec {x v : F64} : ∀ fuel k, (∀ j, 1 ≤ j → j ≤ k → lt64 (seriesTerm x j) cI0Eps = false) →
    i0Loop fuel (div64 x two64) (seriesSum x k) (seriesTerm x k) (k + 1) = some v → IsI0 x v := by
  intro fuel
  induction fuel with
  | zero => intro k _ h; cases h
  | succ fuel ih =>
    intro k hk h
    change (if lt64 (seriesTerm x (k + 1)) cI0Eps then some (seriesSum x (k + 1))
      else i0Loop fuel (div64 x two64) (seriesSum x (k + 1)) (seriesTerm x (k + 1)) (k + 1 + 1)) = some v at h
    by_cases ht : lt64 (seriesTerm x (k + 1)) cI0Eps = true
    · rw [if_pos ht] at h
      exact ⟨k + 1, by omega, (Option.some.inj h).symm, ht, fun j h1 h2 => hk j h1 (by omega)⟩
    · rw [if_neg ht] at h
      refine ih (k + 1) (fun j h1 h2 => ?_) h
      rcases Nat.lt_or_ge k j with hj | hj
      · rw [show j = k + 1 by omega]; exact Bool.not_eq_true _ ▸ ht
      · exact hk j h1 hj

/-- R115: a value that the series gives is the value the rule names. -/
theorem i0_isI0 {x v : F64} (h : i0 x = some v) : IsI0 x v := i0Loop_spec i0Fuel 0 (fun _ h1 h2 => by omega) h

/-- R113: a Kaiser coefficient that is given is the one the rule names. -/
theorem kaiser_isKaiser {n N : Int} {beta v : F64} (h : kaiser n N beta = some v) : IsKaiser n N beta v := by
  unfold kaiser at h
  unfold IsKaiser
  dsimp only
  split at h <;> rename_i hn
  · rw [if_pos hn]
    split at h
    · rename_i b hb; exact ⟨b, i0_isI0 hb, (Option.some.inj h).symm⟩
    · cases h
  · rw [if_neg hn]
    split at h
    · rename_i g b hg hb; exact ⟨g, b, i0_isI0 hg, i0_isI0 hb, (Option.some.inj h).symm⟩
    · cases h

/-- R110: a window value that is given is the one the rule names. -/
theorem window_isWindow {win : WindowFn} {n N : Int} {beta v : F64} (h : window win n N beta = some v) :
    IsWindow win n N beta v := by
  cases win with
  | blackman => exact (Option.some.inj h).symm
  | hamming => exact (Option.some.inj h).symm
  | kaiser => exact kaiser_isKaiser h

/-- R133: the response is the ideal low-pass response. -/
theorem sincAt_isLowPass (w0 : F64) (n : Int) : IsLowPass w0 n (sincAt w0 n) := by
  constructor <;> intro h <;> simp [sincAt, h]

end Sys2Proof.Machine
end

