-- ==== Sys2Proof/Laws/Band.lean ====
section
/-! SUPPORT. Laws/Band.lean: the default prototype of the resampler always passes the designer's validation (R152). -/

namespace Sys2Proof.Machine

theorem half_lt : 0x3FE0000000000000 < fmt64.infMag := by rw [fmt64_infMag]; norm_num

theorem cHalfband_toNat : cHalfband.toNat = 0x3FE0000000000000 := by decide

theorem order64_of_not_nan {x y : F64} (hx : isNaN64 x = false) (hy : isNaN64 y = false) (h : lt64 x y = false) :
    order64 y ≤ order64 x := by
  rw [lt64, hx, hy] at h
  simp only [Bool.not_false, Bool.true_and, decide_eq_false_iff_not] at h
  omega

/-- A datum placed at a positive number of the order is its own pattern. -/
theorem toNat_of_order_pos {x : F64} {n : Nat} (h0 : 0 < n) (h : (n : Int) ≤ order64 x) :
    neg64 x = false ∧ order64 x = x.toNat ∧ n ≤ x.toNat := by
  have hn : neg64 x = false := by
    cases hn : neg64 x
    · rfl
    · rw [order64, hn, if_pos rfl] at h; omega
  have hlt : x.toNat < 2 ^ 63 := by
    rw [neg64, BitVec.msb_eq_decide, decide_eq_false_iff_not] at hn
    omega
  have ho := order64_of_lt hlt
  exact ⟨hn, ho, by omega⟩

/-- R152: the clamped bandwidth lies between the two bounds, whatever number it is taken from. -/
theorem clampFbw_bounds {fbw : F64} (h : isNaN64 fbw = false) :
    0x3F50624DD2F1A9FC ≤ (clampFbw fbw).toNat ∧ (clampFbw fbw).toNat ≤ 0x3FDFEF9DB22D0E56 := by
  have n1 : isNaN64 cFbwLo = false := by decide
  have n2 : isNaN64 cFbwHi = false := by decide
  have o1 : order64 cFbwLo = (0x3F50624DD2F1A9FC : Nat) := by decide
  have o2 : order64 cFbwHi = (0x3FDFEF9DB22D0E56 : Nat) := by decide
  unfold clampFbw
  dsimp only
  cases h1 : lt64 fbw cFbwLo
  · have hlo := order64_of_not_nan h n1 h1
    rw [o1] at hlo
    obtain ⟨-, ho, hle⟩ := toNat_of_order_pos (by norm_num) hlo
    simp only [Bool.false_eq_true, if_false]
    cases h2 : lt64 cFbwHi fbw
    · have hhi := order64_of_not_nan n2 h h2
      rw [o2, ho] at hhi
      simp only [Bool.false_eq_true, if_false]
      exact ⟨hle, by exact_mod_cast hhi⟩
    · simp only [if_true]
      decide
  · simp only [if_true]
    have h2 : lt64 cFbwHi cFbwLo = false := by decide
    rw [h2]
    simp only [Bool.false_eq_true, if_false]
    decide

/-- R13: the difference of two non-negative numbers, the second no larger. -/
theorem sub64_toNat {x y : F64} (hx : x.toNat < fmt64.infMag) (h : y.toNat ≤ x.toNat) :
    (sub64 x y).toNat = fmt64.round (fmt64.units x.toNat - fmt64.units y.toNat) 1 := by
  have hi := fmt64_infMag
  have hu := fmt64.units_mono h
  have hr : ∀ a, (result64 (Config.nanSource64 .sub x y) (.rat false a 1)).toNat = fmt64.round a 1 := by
    intro a
    have := fmt64.round_le a 1
    simp only [result64, Fmt.roundExact]
    exact pack64_false_toNat (by omega)
  rw [sub64, val64_of_lt hx, val64_of_lt (lt_of_le_of_lt h hx), FpVal.negate, Exact.add, if_neg (by decide)]
  split
  · rename_i e
    rw [hr, e, Nat.sub_self]
  · rw [if_neg (not_lt.2 hu), hr]

theorem round64_self {m : Nat} (h : m < fmt64.infMag) : fmt64.round (fmt64.units m) 1 = m := by
  have := fmt64.round_units h one_pos
  rwa [Nat.mul_one] at this

theorem round64_sub_le {m : Nat} (h : m < fmt64.infMag) (b : Nat) : fmt64.round (fmt64.units m - b) 1 ≤ m :=
  le_trans (fmt64.round_mono one_pos one_pos (Nat.mul_le_mul_right _ (Nat.sub_le _ _))) (round64_self h).le

/-- R13: half of a number that is not too small is exact. -/
theorem div64_two {x : F64} (hx : x.toNat < fmt64.infMag) (h : 2 ^ 53 ≤ x.toNat) :
    (div64 x two64).toNat = x.toNat - 2 ^ 52 ∧ fmt64.units x.toNat = 2 * fmt64.units (x.toNat - 2 ^ 52) := by
  have hi := fmt64_infMag
  have hp : 2 ^ 52 ≤ x.toNat - 2 ^ 52 := by omega
  have hd := units64_double hp
  rw [Nat.sub_add_cancel (by omega)] at hd
  refine ⟨?_, hd⟩
  have h2 : fmt64.units two64.toNat = 2 * fmt64.one := by rw [two64_toNat, units_twoPat]
  have hpos : 0 < 2 * fmt64.one := by have := fmt64.one_pos; omega
  rw [div64_toNat hx (by rw [two64_toNat, hi]; norm_num) (by rw [h2]; exact hpos.ne'), h2, hd]
  have := fmt64.round_units (m := x.toNat - 2 ^ 52) (by omega) hpos
  generalize fmt64.units (x.toNat - 2 ^ 52) = u at this ⊢
  generalize fmt64.one = w at this ⊢
  rw [show 2 * u * w = u * (2 * w) by ring]
  exact this

/-- The transition width before scaling, and its bounds. -/
theorem halfband_sub {fb : F64} (h1 : 0x3F50624DD2F1A9FC ≤ fb.toNat) (h2 : fb.toNat ≤ 0x3FDFEF9DB22D0E56) :
    0x3F50000000000000 ≤ (sub64 cHalfband fb).toNat ∧ (sub64 cHalfband fb).toNat ≤ 0x3FE0000000000000 := by
  have hi := fmt64_infMag
  rw [sub64_toNat (by rw [cHalfband_toNat]; exact half_lt) (by rw [cHalfband_toNat]; omega), cHalfband_toNat]
  constructor
  · have e : 0x3F50000000000000 ≤ fmt64.round (fmt64.units 0x3FE0000000000000 - fmt64.units 0x3FDFEF9DB22D0E56) 1 := by decide +kernel
    refine le_trans e (fmt64.round_mono one_pos one_pos (Nat.mul_le_mul_right _ ?_))
    exact Nat.sub_le_sub_left (fmt64.units_mono h2) _
  · exact round64_sub_le half_lt _

theorem lt64_zero {x : F64} (h0 : 0 < x.toNat) (h : x.toNat ≤ fmt64.infMag) : lt64 zero64 x = true := by
  rw [lt64_of_le (by rw [fmt64_infMag]; decide) h]
  exact decide_eq_true h0

/-- R152: the validation of the designer passes for the default prototype. -/
theorem protoBand_valid {L M : Nat} {fbw : F64} (hL : 1 ≤ L) (hL2 : L ≤ 2 ^ 31) (hM : 1 ≤ M) (hM2 : M ≤ 2 ^ 31)
    (h : isNaN64 fbw = false) :
    designValid (ofInt64 L) (protoBand L M (clampFbw fbw)).2 (protoBand L M (clampFbw fbw)).1 = true := by
  have hi := fmt64_infMag
  have hop : onePat = 0x3FF0000000000000 := rfl
  obtain ⟨c1, c2⟩ := clampFbw_bounds h
  obtain ⟨t1, t2⟩ := halfband_sub c1 c2
  obtain ⟨l1, l2⟩ := ofInt64_bounds hL hL2
  obtain ⟨m1, m2⟩ := ofInt64_bounds hM hM2
  have hhalf : 0x3FE0000000000000 ≤ (div64 (ofInt64 L) two64).toNat ∧ (div64 (ofInt64 L) two64).toNat < fmt64.infMag := by
    obtain ⟨e, -⟩ := div64_two (x := ofInt64 L) (by rw [hi]; omega) (by omega)
    rw [e]; omega
  have finish : ∀ tw fc : F64, 0 < tw.toNat → tw.toNat ≤ fmt64.infMag → 0 < fc.toNat → fc.toNat ≤ 0x3FE0000000000000 →
      designValid (ofInt64 L) fc tw = true := by
    intro tw fc a1 a2 b1 b2
    have hp := half_lt
    rw [designValid, lt64_zero (by omega) (by omega), lt64_zero b1 (by omega), lt64_zero a1 a2,
      le64_of_le (by omega) hhalf.2.le, decide_eq_true (show fc.toNat ≤ (div64 (ofInt64 L) two64).toNat by omega)]
    rfl
  unfold protoBand
  split
  · dsimp only
    generalize sub64 cHalfband (clampFbw fbw) = tw at t1 t2
    obtain ⟨d1, d2⟩ := div64_two (x := tw) (by rw [hi]; omega) (by omega)
    refine finish _ _ (by omega) (by omega) ?_ ?_
    · rw [sub64_toNat (by rw [cHalfband_toNat]; exact half_lt) (by rw [cHalfband_toNat, d1]; omega), cHalfband_toNat, d1]
      have e : 1 ≤ fmt64.round (fmt64.units 0x3FE0000000000000 - fmt64.units (0x3FE0000000000000 - 2 ^ 52)) 1 := by decide +kernel
      refine lt_of_lt_of_le (lt_of_lt_of_le Nat.zero_lt_one e)
        (fmt64.round_mono one_pos one_pos (Nat.mul_le_mul_right _ ?_))
      exact Nat.sub_le_sub_left (fmt64.units_mono (by omega)) _
    · rw [sub64_toNat (by rw [cHalfband_toNat]; exact half_lt) (by rw [cHalfband_toNat, d1]; omega), cHalfband_toNat]
      exact round64_sub_le half_lt _
  · rename_i hlt
    dsimp only
    generalize sub64 cHalfband (clampFbw fbw) = t at t1 t2
    have hLM := ofInt64_mono (show L ≤ M by omega)
    have hMu : 0 < fmt64.units (ofInt64 M).toNat := lt_of_lt_of_le fmt64.one_pos (units_onePat ▸ fmt64.units_mono m1)
    have r1 : (div64 (ofInt64 L) (ofInt64 M)).toNat ≤ onePat := by
      rw [div64_toNat (by omega) (by omega) hMu.ne']
      refine round64_le_one hMu ?_
      rw [Nat.mul_comm]
      exact Nat.mul_le_mul_left _ (fmt64.units_mono hLM)
    have r2 : 0x3E00000000000000 ≤ (div64 (ofInt64 L) (ofInt64 M)).toNat := by
      rw [div64_toNat (by omega) (by omega) hMu.ne']
      have e : 0x3E00000000000000 ≤ fmt64.round (fmt64.one * fmt64.one) (fmt64.units 0x41E0000000000000) := by
        decide +kernel
      have e0 : 0 < fmt64.units 0x41E0000000000000 := by decide +kernel
      refine le_trans e (fmt64.round_mono e0 hMu ?_)
      exact Nat.mul_le_mul (Nat.mul_le_mul_right _ (units_onePat ▸ fmt64.units_mono l1)) (fmt64.units_mono m2)
    generalize div64 (ofInt64 L) (ofInt64 M) = r at r1 r2
    have hone := onePat_lt
    have hhp := half_lt
    have uh : fmt64.units 0x3FE0000000000000 ≤ fmt64.one := units_onePat ▸ fmt64.units_mono (by norm_num)
    have a1 : (mul64 r t).toNat ≤ (mul64 r cHalfband).toNat :=
      mul64_mono (by rw [NonNeg]; omega) (by rw [NonNeg, cHalfband_toNat]; exact half_lt) le_rfl
        (by rw [cHalfband_toNat]; exact t2)
    have a2 : (mul64 r cHalfband).toNat ≤ 0x3FE0000000000000 := by
      rw [mul64_toNat (by omega) (by rw [cHalfband_toNat]; exact half_lt), cHalfband_toNat]
      refine le_trans (fmt64.round_mono fmt64.one_pos fmt64.one_pos (Nat.mul_le_mul_right _ ?_))
        (fmt64.round_units half_lt fmt64.one_pos).le
      rw [Nat.mul_comm]
      exact Nat.mul_le_mul_left _ (units_onePat ▸ fmt64.units_mono r1)
    have a3 : 2 ^ 53 ≤ (mul64 r t).toNat := by
      rw [mul64_toNat (by omega) (by omega)]
      have e : 2 ^ 53 ≤ fmt64.round (fmt64.units 0x3E00000000000000 * fmt64.units 0x3F50000000000000) fmt64.one := by
        decide +kernel
      refine le_trans e (fmt64.round_mono fmt64.one_pos fmt64.one_pos (Nat.mul_le_mul_right _ ?_))
      exact Nat.mul_le_mul (fmt64.units_mono r2) (fmt64.units_mono t1)
    generalize mul64 r t = tw at a1 a3
    generalize mul64 r cHalfband = A at a1 a2
    obtain ⟨d1, -⟩ := div64_two (x := tw) (by omega) a3
    obtain ⟨-, d4⟩ := div64_two (x := A) (by omega) (by omega)
    refine finish _ _ (by omega) (by omega) ?_ ?_
    · rw [sub64_toNat (by omega) (by rw [d1]; omega), d1]
      have h5 := fmt64.units_mono (show tw.toNat - 2 ^ 52 ≤ A.toNat - 2 ^ 52 by omega)
      have h6 : fmt64.units (A.toNat - 2 ^ 52) ≤ fmt64.units A.toNat - fmt64.units (tw.toNat - 2 ^ 52) := by
        rw [d4, two_mul]
        exact Nat.le_sub_of_add_le (Nat.add_le_add_left h5 _)
      have h7 := round64_self (m := A.toNat - 2 ^ 52) (by omega)
      have h8 := fmt64.round_mono one_pos one_pos (Nat.mul_le_mul_right 1 h6)
      have h9 : 0 < A.toNat - 2 ^ 52 := by omega
      exact lt_of_lt_of_le h9 (le_trans h7.ge h8)
    · rw [sub64_toNat (by omega) (by rw [d1]; omega)]
      exact le_trans (round64_sub_le (by omega) _) a2

end Sys2Proof.Machine
end

