-- ==== Sys2Proof/Laws/Memory.lean ====
section
/-! SUPPORT. Laws/Memory.lean: what the operations on element memories do, and that they keep the canonical form. -/

namespace Sys2Proof.Machine

variable {w : Nat}

@[simp] theorem Mem.read_nil (i : Nat) : Mem.read ([] : Mem w) i = 0#w := rfl

theorem Mem.read_cons (c : Nat × BitVec w) (m : Mem w) (i : Nat) :
    Mem.read (c :: m) i = if i = c.1 then c.2 else Mem.read m i := rfl

/-- An index listed nowhere reads as an unlisted one. -/
theorem Mem.read_of_unlisted {m : Mem w} {i : Nat} (h : ∀ c ∈ m, c.1 ≠ i) : m.read i = 0#w := by
  induction m with
  | nil => rfl
  | cons c m ih =>
    have hc : i ≠ c.1 := fun e => h c (by simp) e.symm
    rw [Mem.read_cons, if_neg hc]
    exact ih fun d hd => h d (by simp [hd])

/-- Reading a memory put together of two: the first one where it lists the index. -/
theorem Mem.read_append_left {m n : Mem w} {i : Nat} (h : ∀ c ∈ m, c.1 ≠ i) : Mem.read (m ++ n) i = n.read i := by
  induction m with
  | nil => rfl
  | cons c m ih =>
    have hc : i ≠ c.1 := fun e => h c (by simp) e.symm
    rw [List.cons_append, Mem.read_cons, if_neg hc]
    exact ih fun d hd => h d (by simp [hd])

theorem Mem.read_append_right {m n : Mem w} {i : Nat} (h : ∀ c ∈ n, c.1 ≠ i) : Mem.read (m ++ n) i = m.read i := by
  induction m with
  | nil => exact Mem.read_of_unlisted h
  | cons c m ih => rw [List.cons_append, Mem.read_cons, Mem.read_cons, ih]

/-- A part of a memory reads as the whole at the indices it takes. -/
theorem Mem.read_filter {m : Mem w} {p : Nat → Bool} {i : Nat} (h : p i = true) :
    Mem.read (m.filter fun c => p c.1) i = m.read i := by
  induction m with
  | nil => rfl
  | cons c m ih =>
    by_cases hc : i = c.1
    · subst hc; simp [h, Mem.read_cons]
    · by_cases hp : p c.1 = true
      · simp [hp, Mem.read_cons, ih]
      · simp [hp, Mem.read_cons, hc, ih]

theorem Mem.read_push_self {m : Mem w} {i : Nat} {v : BitVec w} (h : ∀ c ∈ m, c.1 ≠ i) :
    Mem.read (Mem.push i v m) i = v := by
  unfold Mem.push
  split
  · rw [Mem.read_of_unlisted h]; simp_all [Mem.unlisted]
  · simp [Mem.read_cons]

theorem Mem.read_push_ne {m : Mem w} {i j : Nat} {v : BitVec w} (h : j ≠ i) :
    Mem.read (Mem.push i v m) j = m.read j := by
  unfold Mem.push
  split
  · rfl
  · simp [Mem.read_cons, h]

/-- R71: a write replaces the element it names and leaves every other. -/
theorem Mem.read_write (m : Mem w) (i j : Nat) (v : BitVec w) : (m.write i v).read j = if j = i then v else m.read j := by
  have hlo : ∀ c ∈ m.filter (fun c => decide (c.1 < i)), c.1 < i := by simp
  have hhi : ∀ c ∈ m.filter (fun c => decide (i < c.1)), i < c.1 := by simp
  have hpush : ∀ c ∈ Mem.push i v (m.filter fun c => decide (i < c.1)), i ≤ c.1 := by
    intro c hc
    unfold Mem.push at hc
    split at hc
    · exact (hhi c hc).le
    · rcases List.mem_cons.1 hc with rfl | hc
      · exact le_rfl
      · exact (hhi c hc).le
  unfold Mem.write
  rcases lt_trichotomy j i with h | rfl | h
  · rw [if_neg h.ne, Mem.read_append_right fun c hc => by have := hpush c hc; omega]
    exact Mem.read_filter (p := fun k => decide (k < i)) (by simpa using h)
  · rw [if_pos rfl, Mem.read_append_left fun c hc => by have := hlo c hc; omega]
    exact Mem.read_push_self fun c hc => by have := hhi c hc; omega
  · rw [if_neg h.ne', Mem.read_append_left fun c hc => by have := hlo c hc; omega, Mem.read_push_ne h.ne']
    exact Mem.read_filter (p := fun k => decide (i < k)) (by simpa using h)

@[simp] theorem Mem.read_write_self (m : Mem w) (i : Nat) (v : BitVec w) : (m.write i v).read i = v := by
  simp [Mem.read_write]

theorem Mem.read_write_ne (m : Mem w) {i j : Nat} (v : BitVec w) (h : j ≠ i) : (m.write i v).read j = m.read j := by
  simp [Mem.read_write, h]

/-- The elements of a block, and what lies above it elsewhere. -/
theorem Mem.read_block (base : Nat) (f : Nat → BitVec w) (above : Mem w) (n k i : Nat)
    (h : ∀ c ∈ above, base + k + n ≤ c.1) :
    (Mem.block base f above n k).read i =
      if base + k ≤ i ∧ i < base + k + n then f (i - base) else above.read i := by
  induction n generalizing k with
  | zero =>
    rw [if_neg (by omega)]; rfl
  | succ n ih =>
    have h' : ∀ c ∈ above, base + (k + 1) + n ≤ c.1 := fun c hc => by have := h c hc; omega
    have hblk : ∀ c ∈ Mem.block base f above n (k + 1), c.1 ≠ base + k := by
      have : ∀ n k, (∀ c ∈ above, base + k + n ≤ c.1) → ∀ c ∈ Mem.block base f above n k, base + k ≤ c.1 := by
        intro n
        induction n with
        | zero => intro k h c hc; have := h c hc; omega
        | succ n ih =>
          intro k h c hc
          have hrec := ih (k + 1) (fun c hc => by have := h c hc; omega) c
          simp only [Mem.block, Mem.push] at hc
          split at hc
          · have := hrec hc; omega
          · rcases List.mem_cons.1 hc with rfl | hc
            · simp
            · have := hrec hc; omega
      intro c hc
      have := this n (k + 1) h' c hc
      omega
    rw [Mem.block]
    by_cases hi : i = base + k
    · subst hi
      rw [Mem.read_push_self hblk, if_pos (by omega)]
      congr 1; omega
    · rw [Mem.read_push_ne hi, ih (k + 1) h']
      congr 1
      simp only [eq_iff_iff]; omega

/-- The elements a fill replaces, and every other as before. -/
theorem Mem.read_fill (m : Mem w) (base n : Nat) (f : Nat → BitVec w) (i : Nat) :
    (m.fill base n f).read i = if base ≤ i ∧ i < base + n then f (i - base) else m.read i := by
  have hlo : ∀ c ∈ m.filter (fun c => decide (c.1 < base)), c.1 < base := by simp
  have hhi : ∀ c ∈ m.filter (fun c => decide (base + n ≤ c.1)), base + 0 + n ≤ c.1 := by simp
  have hb := fun i => Mem.read_block base f (m.filter fun c => decide (base + n ≤ c.1)) n 0 i hhi
  unfold Mem.fill
  by_cases h1 : i < base
  · rw [Mem.read_append_right, if_neg (by omega)]
    · exact Mem.read_filter (p := fun k => decide (k < base)) (by simpa using h1)
    · have key : ∀ n k (above : Mem w), (∀ c ∈ above, base ≤ c.1) →
          ∀ c ∈ Mem.block base f above n k, base ≤ c.1 := by
        intro n
        induction n with
        | zero => intro k above h c hc; exact h c hc
        | succ n ih =>
          intro k above h c hc
          simp only [Mem.block, Mem.push] at hc
          split at hc
          · exact ih _ _ h c hc
          · rcases List.mem_cons.1 hc with rfl | hc
            · simp
            · exact ih _ _ h c hc
      intro c hc
      have := key n 0 _ (fun c hc => by have := hhi c hc; omega) c hc
      omega
  · rw [Mem.read_append_left fun c hc => by have := hlo c hc; omega, hb]
    by_cases h2 : i < base + n
    · rw [if_pos (by omega), if_pos (by omega)]
    · rw [if_neg (by omega), if_neg (by omega)]
      exact Mem.read_filter (p := fun k => decide (base + n ≤ k)) (by simpa using h2)

theorem Mem.wf_nil : Mem.wf ([] : Mem w) := by simp [Mem.wf]

/-- What a push lists: the pair, unless it holds what an unlisted index reads as, and the rest. -/
theorem Mem.mem_push {m : Mem w} {i : Nat} {v : BitVec w} {c : Nat × BitVec w} (h : c ∈ Mem.push i v m) :
    c = (i, v) ∧ v ≠ Mem.unlisted w ∨ c ∈ m := by
  unfold Mem.push at h
  split at h
  · exact .inr h
  · rcases List.mem_cons.1 h with rfl | h
    · exact .inl ⟨rfl, ‹_›⟩
    · exact .inr h

theorem Mem.wf_push {m : Mem w} {i : Nat} {v : BitVec w} (hm : m.wf) (h : ∀ c ∈ m, i < c.1) : (Mem.push i v m).wf := by
  unfold Mem.push
  split
  · exact hm
  · exact ⟨List.pairwise_cons.2 ⟨h, hm.1⟩, by
      intro c hc
      rcases List.mem_cons.1 hc with rfl | hc
      · assumption
      · exact hm.2 c hc⟩

theorem Mem.wf_filter {m : Mem w} (hm : m.wf) (p : Nat × BitVec w → Bool) : Mem.wf (m.filter p) :=
  ⟨hm.1.filter _, fun c hc => hm.2 c (List.mem_filter.1 hc).1⟩

theorem Mem.wf_append {m n : Mem w} (hm : m.wf) (hn : n.wf) (h : ∀ c ∈ m, ∀ d ∈ n, c.1 < d.1) : Mem.wf (m ++ n) :=
  ⟨List.pairwise_append.2 ⟨hm.1, hn.1, h⟩, fun c hc => (List.mem_append.1 hc).elim (hm.2 c) (hn.2 c)⟩

/-- A write keeps the canonical form. -/
theorem Mem.wf_write {m : Mem w} (hm : m.wf) (i : Nat) (v : BitVec w) : (m.write i v).wf := by
  refine Mem.wf_append (Mem.wf_filter hm _) (Mem.wf_push (Mem.wf_filter hm _) (by simp)) fun c hc d hd => ?_
  have hc : c.1 < i := by simpa using (List.mem_filter.1 hc).2
  rcases Mem.mem_push hd with ⟨rfl, -⟩ | hd
  · exact hc
  · have : i < d.1 := by simpa using (List.mem_filter.1 hd).2
    omega

/-- Where the pairs of a block come from. -/
theorem Mem.mem_block {base : Nat} {f : Nat → BitVec w} {above : Mem w} {n k : Nat} {c : Nat × BitVec w}
    (h : c ∈ Mem.block base f above n k) :
    base + k ≤ c.1 ∧ c.1 < base + k + n ∧ c.2 ≠ Mem.unlisted w ∨ c ∈ above := by
  induction n generalizing k with
  | zero => exact .inr h
  | succ n ih =>
    rcases Mem.mem_push h with ⟨rfl, hv⟩ | h
    · exact .inl ⟨le_rfl, by simp, hv⟩
    · rcases ih h with ⟨h1, h2, h3⟩ | h
      · exact .inl ⟨by omega, by omega, h3⟩
      · exact .inr h

theorem Mem.wf_block {base : Nat} {f : Nat → BitVec w} {above : Mem w} (ha : above.wf) :
    ∀ n k, (∀ c ∈ above, base + k + n ≤ c.1) → (Mem.block base f above n k).wf := by
  intro n
  induction n with
  | zero => exact fun _ _ => ha
  | succ n ih =>
    intro k h
    refine Mem.wf_push (ih (k + 1) fun c hc => by have := h c hc; omega) fun c hc => ?_
    rcases Mem.mem_block hc with ⟨h1, -⟩ | hc
    · omega
    · have := h c hc; omega

/-- A fill keeps the canonical form. -/
theorem Mem.wf_fill {m : Mem w} (hm : m.wf) (base n : Nat) (f : Nat → BitVec w) : (m.fill base n f).wf := by
  refine Mem.wf_append (Mem.wf_filter hm _) (Mem.wf_block (Mem.wf_filter hm _) n 0 (by simp)) fun c hc d hd => ?_
  have hc : c.1 < base := by simpa using (List.mem_filter.1 hc).2
  rcases Mem.mem_block hd with ⟨h1, -⟩ | hd
  · omega
  · have : base + n ≤ d.1 := by simpa using (List.mem_filter.1 hd).2
    omega

/-- A write inside an extent keeps a memory inside it. -/
theorem Mem.within_write {m : Mem w} {e i : Nat} (hm : m.within e) (hi : i < e) (v : BitVec w) :
    (m.write i v).within e := by
  intro c hc
  rcases List.mem_append.1 hc with hc | hc
  · exact hm c (List.mem_filter.1 hc).1
  · rcases Mem.mem_push hc with ⟨rfl, -⟩ | hc
    · exact hi
    · exact hm c (List.mem_filter.1 hc).1

/-- A fill inside an extent keeps a memory inside it. -/
theorem Mem.within_fill {m : Mem w} {e base n : Nat} (hm : m.within e) (h : base + n ≤ e) (f : Nat → BitVec w) :
    (m.fill base n f).within e := by
  intro c hc
  rcases List.mem_append.1 hc with hc | hc
  · exact hm c (List.mem_filter.1 hc).1
  · rcases Mem.mem_block hc with ⟨-, h2, -⟩ | hc
    · omega
    · exact hm c (List.mem_filter.1 hc).1

/-- A loaded memory is canonical and inside its extent. -/
theorem Mem.load_wf_within (e : Nat) (l : List (Nat × BitVec w)) : (Mem.load e l).wf ∧ (Mem.load e l).within e := by
  have : ∀ (l : List (Nat × BitVec w)) (m : Mem w), m.wf ∧ m.within e →
      (l.foldl (fun m c => if c.1 < e then m.write c.1 c.2 else m) m).wf ∧
      (l.foldl (fun m c => if c.1 < e then m.write c.1 c.2 else m) m).within e := by
    intro l
    induction l with
    | nil => exact fun _ h => h
    | cons c l ih =>
      intro m h
      refine ih _ ?_
      dsimp only
      split
      · exact ⟨Mem.wf_write h.1 _ _, Mem.within_write h.2 ‹_› _⟩
      · exact h
  exact this l [] ⟨Mem.wf_nil, by simp [Mem.within]⟩

/-- Canonical memories that read alike are equal. -/
theorem Mem.ext_of_wf {m n : Mem w} (hm : m.wf) (hn : n.wf) (h : ∀ i, m.read i = n.read i) : m = n := by
  induction m generalizing n with
  | nil =>
    cases n with
    | nil => rfl
    | cons d n =>
      have := h d.1
      rw [Mem.read_cons, if_pos rfl, Mem.read_nil] at this
      exact absurd this.symm (hn.2 d (by simp))
  | cons c m ih =>
    cases n with
    | nil =>
      have := h c.1
      rw [Mem.read_cons, if_pos rfl, Mem.read_nil] at this
      exact absurd this (hm.2 c (by simp))
    | cons d n =>
      have hm' := List.pairwise_cons.1 hm.1
      have hn' := List.pairwise_cons.1 hn.1
      have hc := h c.1
      have hd := h d.1
      rw [Mem.read_cons, Mem.read_cons, if_pos rfl] at hc
      rw [Mem.read_cons, Mem.read_cons, if_pos rfl] at hd
      have hcm : Mem.read m c.1 = 0#w := Mem.read_of_unlisted fun x hx => by have := hm'.1 x hx; omega
      have hdn : Mem.read n d.1 = 0#w := Mem.read_of_unlisted fun x hx => by have := hn'.1 x hx; omega
      have heq : c.1 = d.1 := by
        rcases lt_trichotomy c.1 d.1 with hlt | heq | hlt
        · rw [if_neg hlt.ne, Mem.read_of_unlisted (m := n) fun x hx => by have := hn'.1 x hx; omega] at hc
          exact absurd hc (hm.2 c (by simp))
        · exact heq
        · rw [if_neg hlt.ne, Mem.read_of_unlisted (m := m) fun x hx => by have := hm'.1 x hx; omega] at hd
          exact absurd hd.symm (hn.2 d (by simp))
      have hval : c.2 = d.2 := by rw [if_pos heq] at hc; exact hc
      have hrest : m = n := by
        refine ih ⟨hm'.2, fun x hx => hm.2 x (by simp [hx])⟩ ⟨hn'.2, fun x hx => hn.2 x (by simp [hx])⟩ fun i => ?_
        have hi := h i
        rw [Mem.read_cons, Mem.read_cons] at hi
        by_cases hic : i = c.1
        · subst hic; rw [hcm]; rw [heq]; exact hdn.symm
        · rwa [if_neg hic, if_neg (by rwa [← heq])] at hi
      rw [hrest, Prod.ext heq hval]

end Sys2Proof.Machine
end

