-- ==== Sys2Proof/Laws/Fir.lean ====
section
/-! SUPPORT. Laws/Fir.lean: what a low-pass design ends in (R130 to R133) and what a filter command does to its context and
its output packet (R134 to R138), each said once. -/

namespace Sys2Proof.Machine

/-! ## The design -/

/-- R133: the windowed response of the first `i` taps. -/
theorem windowed_spec {nt : Nat} {w0 : F64} {win : WindowFn} {beta : F64} (h2 : 2 ≤ nt) (h3 : nt ≤ 2 ^ 62)
    (hb : win = .kaiser → seriesDomain beta = true) : ∀ i, i ≤ nt → ∃ h, windowed nt w0 win beta i = some h ∧ h.length = i ∧
      ∀ k : Nat, k < i → ∃ w, window win k nt beta = some w ∧
        h.getD k zero64 = mul64 (sincAt w0 ((k : Int) - ((nt - 1) / 2 : Nat))) w := by
  intro i
  induction i with
  | zero => exact fun _ => ⟨[], rfl, rfl, fun k hk => absurd hk (Nat.not_lt_zero k)⟩
  | succ i ih =>
    intro hi
    obtain ⟨h, e, hl, hv⟩ := ih (by omega)
    obtain ⟨w, ew⟩ := window_isSome (n := (i : Int)) (N := (nt : Int)) (by omega) (by omega) (by omega) (by omega) hb
    refine ⟨h ++ [mul64 (sincAt w0 ((i : Int) - ((nt - 1) / 2 : Nat))) w], by rw [windowed, e, ew], by simp [hl], ?_⟩
    intro k hk
    rcases Nat.lt_or_ge k i with hki | hki
    · obtain ⟨w', e1, e2⟩ := hv k hki
      exact ⟨w', e1, by rw [List.getD_append _ _ _ _ (by omega), e2]⟩
    · obtain rfl : k = i := by omega
      exact ⟨w, ew, by rw [List.getD_append_right _ _ _ _ (by omega), hl]; simp⟩

/-- R133: the prototype exists and has as many taps as asked for. -/
theorem prototype_spec {nt : Nat} {gain fs fc : F64} {win : WindowFn} {beta : F64} (h2 : 2 ≤ nt) (h3 : nt ≤ 2 ^ 62)
    (hb : win = .kaiser → seriesDomain beta = true) : ∃ h, h.length = nt ∧
      prototype nt gain fs fc win beta = some (scaleTaps gain h ((nt - 1) / 2)) ∧
      ∀ k : Nat, k < nt → ∃ w, window win k nt beta = some w ∧
        h.getD k zero64 = mul64 (sincAt (div64 (mul64 twoPi64 fc) fs) ((k : Int) - ((nt - 1) / 2 : Nat))) w := by
  obtain ⟨h, e, hl, hv⟩ := windowed_spec (w0 := div64 (mul64 twoPi64 fc) fs) h2 h3 hb nt le_rfl
  exact ⟨h, hl, by rw [prototype, e], hv⟩

@[simp] theorem scaleTaps_length (gain : F64) (h : List F64) (m : Nat) : (scaleTaps gain h m).length = h.length := by
  simp [scaleTaps]

/-- R132: a tap count is odd, at least 3 and within its limit. -/
theorem tapCount_ok {att fs tw : F64} {maxTaps limit : Int} {nt : Nat} (h : tapCount att fs tw maxTaps limit = .ok nt) :
    nt % 2 = 1 ∧ 3 ≤ nt ∧ (nt : Int) ≤ limit := by
  unfold tapCount at h
  dsimp only at h
  split at h
  · exact absurd h (by simp)
  · split at h
    · exact absurd h (by simp)
    · split at h
      · exact absurd h (by simp)
      · have h : (tapClamp (tapFloor (tapQuotient att fs tw)) maxTaps).toNat = nt := by simpa using h
        have hodd : tapClamp (tapFloor (tapQuotient att fs tw)) maxTaps % 2 = 1 := by
          generalize tapFloor (tapQuotient att fs tw) = v
          unfold tapClamp
          dsimp only
          generalize (if 0 < maxTaps then min v maxTaps else v) = u
          split <;> omega
        omega

/-- R132: a tap count fails with one of two codes. -/
theorem tapCount_error {att fs tw : F64} {maxTaps limit : Int} {e : ErrCode} (h : tapCount att fs tw maxTaps limit = .error e) :
    e = .badOperand ∨ e = .capacityExceeded := by
  unfold tapCount at h
  dsimp only at h
  split at h
  · left; simpa using h.symm
  · split at h
    · left; simpa using h.symm
    · split at h
      · right; simpa using h.symm
      · exact absurd h (by simp)

/-- R130: what a design ends in: taps of an odd count within the limit, or one of three codes; never an I0 series out of
fuel. -/
theorem designLowPass_cases {gain fs fc tw att : F64} {win : WindowFn} {beta : F64} {maxTaps : Int} {limit : Int}
    (hl : limit ≤ 2 ^ 62) :
    (∃ ts : List F32, designLowPass gain fs fc tw att win beta maxTaps limit = .taps ts ∧
      ts.length % 2 = 1 ∧ 3 ≤ ts.length ∧ (ts.length : Int) ≤ limit) ∨
    (∃ e, designLowPass gain fs fc tw att win beta maxTaps limit = .fail e ∧
      (e = .invalidFilterParameters ∨ e = .badOperand ∨ e = .capacityExceeded)) := by
  unfold designLowPass
  split
  · exact .inr ⟨_, rfl, .inl rfl⟩
  · split
    · exact .inr ⟨_, rfl, .inr (.inl rfl)⟩
    · rename_i hb
      cases ht : tapCount att fs tw maxTaps limit with
      | error e => exact .inr ⟨e, rfl, .inr (tapCount_error ht)⟩
      | ok nt =>
        obtain ⟨h1, h2, h3⟩ := tapCount_ok ht
        obtain ⟨h, hlen, e, -⟩ := prototype_spec (nt := nt) (gain := gain) (fs := fs) (fc := fc) (win := win) (beta := beta)
          (by omega) (by omega) (fun hw => by
            by_contra hc
            exact hb ⟨hw, hc⟩)
        left
        dsimp only
        rw [e]
        exact ⟨_, rfl, by simp [hlen, h1], by simp [hlen, h2], by simp [hlen, h3]⟩

/-! ## The delay line -/

theorem mod_sub_ne {a N k : Nat} (h1 : 1 ≤ k) (h2 : k < N) : (a + N - k) % N ≠ a % N := by
  intro h
  have e : (a + N - k) + k = a + N := by omega
  have h3 : (a + N - k) + k ≡ (a + N - k) + 0 [MOD N] := by
    rw [e, Nat.add_zero]
    exact (Nat.add_modEq_right).trans (Eq.symm h)
  have := Nat.ModEq.add_left_cancel' _ h3
  rw [Nat.ModEq, Nat.zero_mod, Nat.mod_eq_of_lt h2] at this
  omega

/-- A delay line of `n` places after `m` samples of the stream `x`, the first one put at place `at_`. -/
def pushSamples (line : Mem 32) (x : Nat → F32) (at_ n : Nat) : Nat → Mem 32
  | 0 => line
  | m + 1 => (pushSamples line x at_ n m).write ((at_ + m) % n) (x m)

/-- What a delay line holds, `k` places behind the newest sample. -/
theorem read_pushSamples (line : Mem 32) (x : Nat → F32) (at_ n : Nat) : ∀ m k, k < n →
    (pushSamples line x at_ n (m + 1)).read ((at_ + m + n - k) % n) =
      if k ≤ m then x (m - k) else line.read ((at_ + m + n - k) % n) := by
  intro m
  induction m with
  | zero =>
    intro k hk
    rw [pushSamples, pushSamples, Mem.read_write]
    rcases Nat.eq_zero_or_pos k with rfl | h0
    · simp
    · rw [if_neg (mod_sub_ne h0 hk), if_neg (by omega)]
  | succ m ih =>
    intro k hk
    rw [pushSamples, Mem.read_write]
    rcases Nat.eq_zero_or_pos k with rfl | h0
    · simp
    · rw [if_neg (mod_sub_ne h0 hk)]
      have e : at_ + (m + 1) + n - k = at_ + m + n - (k - 1) := by omega
      rw [e, ih (k - 1) (by omega)]
      by_cases hle : k ≤ m + 1
      · rw [if_pos (by omega), if_pos hle]; congr 1; omega
      · rw [if_neg (by omega), if_neg hle]

theorem pushSamples_wf {line : Mem 32} (h : line.wf) (x : Nat → F32) (at_ n m : Nat) : (pushSamples line x at_ n m).wf := by
  induction m with
  | zero => exact h
  | succ m ih => exact Mem.wf_write ih _ _

theorem pushSamples_within {line : Mem 32} {e : Nat} (h : line.within e) (x : Nat → F32) (at_ : Nat) {n : Nat}
    (h0 : 0 < n) (hn : n ≤ e) (m : Nat) : (pushSamples line x at_ n m).within e := by
  induction m with
  | zero => exact h
  | succ m ih => exact Mem.within_write ih (lt_of_lt_of_le (Nat.mod_lt _ h0) hn) _

/-- R138: a delay line read backwards from the newest sample. -/
theorem firAcc_eq (taps line : Mem 32) {t n : Nat} (ht : t < n) : ∀ count k, k + count ≤ n →
    firAcc taps line n count k ((t + n - k) % n) (dotProduct taps.read (fun j => line.read ((t + n - j) % n)) k) =
      dotProduct taps.read (fun j => line.read ((t + n - j) % n)) (k + count) := by
  intro count
  induction count with
  | zero => intro k _; rfl
  | succ count ih =>
    intro k hk
    have hidx : (if (t + n - k) % n = 0 then n - 1 else (t + n - k) % n - 1) = (t + n - (k + 1)) % n := by
      rcases Nat.lt_or_ge t k with h | h
      · rw [Nat.mod_eq_of_lt (show t + n - k < n by omega), Nat.mod_eq_of_lt (show t + n - (k + 1) < n by omega)]
        rw [if_neg (by omega)]; omega
      · rw [show t + n - k = t - k + n by omega, Nat.add_mod_right, Nat.mod_eq_of_lt (show t - k < n by omega)]
        rcases Nat.eq_or_lt_of_le h with rfl | h'
        · rw [if_pos (by omega), Nat.mod_eq_of_lt (by omega)]; omega
        · rw [if_neg (by omega), show t + n - (k + 1) = t - k - 1 + n by omega, Nat.add_mod_right,
            Nat.mod_eq_of_lt (by omega)]
    rw [firAcc, hidx]
    have := ih (k + 1) (by omega)
    rw [dotProduct] at this
    rw [this, show k + 1 + count = k + (count + 1) by omega]

/-- R138: `FirDot` is the dot product of the taps with the samples behind the cursor. -/
theorem firDot_eq {F : FirCtx} {line : Mem 32} (h : F.tapCur.toNat < F.ntaps.toNat) :
    firDot F line = dotProduct F.taps.read (fun k => line.read ((F.tapCur.toNat + F.ntaps.toNat - k) % F.ntaps.toNat))
      F.ntaps.toNat := by
  have := firAcc_eq F.taps line h F.ntaps.toNat 0 (by omega)
  rw [Nat.zero_add, Nat.sub_zero, Nat.add_mod_right, Nat.mod_eq_of_lt h, dotProduct] at this
  exact this

theorem dotProduct_congr {c s s' : Nat → F32} : ∀ n, (∀ k, k < n → s k = s' k) → dotProduct c s n = dotProduct c s' n := by
  intro n
  induction n with
  | zero => intro _; rfl
  | succ n ih =>
    intro h
    rw [dotProduct, dotProduct, ih fun k hk => h k (by omega), h n (by omega)]

/-! ## The samples that are due -/

theorem dueAt {D dc : Nat} (hdc : dc < D) (m : Nat) :
    (dc + m) % D = 0 ↔ ∃ q, m = (D - dc) % D + q * D := by
  have hD : 0 < D := by omega
  rcases Nat.eq_zero_or_pos dc with rfl | h0
  · rw [Nat.sub_zero, Nat.mod_self, Nat.zero_add]
    constructor
    · intro h; exact ⟨m / D, by have := Nat.div_add_mod m D; rw [h] at this; rw [Nat.mul_comm]; omega⟩
    · rintro ⟨q, rfl⟩; simp
  · rw [Nat.mod_eq_of_lt (show D - dc < D by omega)]
    constructor
    · intro h
      have h1 := Nat.div_add_mod (dc + m) D
      rw [h] at h1
      obtain ⟨q, hq⟩ : ∃ q, (dc + m) / D = q + 1 := by
        refine Nat.exists_eq_add_one.2 (Nat.pos_of_ne_zero fun hz => ?_)
        rw [hz] at h1; omega
      refine ⟨q, ?_⟩
      rw [hq, Nat.mul_add, Nat.mul_one, Nat.mul_comm] at h1
      omega
    · rintro ⟨q, rfl⟩
      rw [show dc + (D - dc + q * D) = D + q * D by omega, Nat.add_mul_mod_self_right, Nat.mod_self]

theorem producedStep {D m0 m : Nat} {due : Prop} [Decidable due] (hD : 0 < D) (h0 : m0 < D)
    (hdue : due ↔ ∃ q, m = m0 + q * D) :
    (m + 1 - m0 + D - 1) / D = (m - m0 + D - 1) / D + (if due then 1 else 0) ∧
    (due → m = m0 + (m - m0 + D - 1) / D * D) := by
  rcases Nat.lt_or_ge m m0 with h | h
  · have hn : ¬ due := by rw [hdue]; rintro ⟨q, rfl⟩; omega
    rw [if_neg hn, show m + 1 - m0 = 0 by omega, show m - m0 = 0 by omega]
    exact ⟨rfl, fun h => absurd h hn⟩
  · obtain ⟨k, rfl⟩ := Nat.exists_eq_add_of_le h
    have hdm := Nat.div_add_mod k D
    have hmod := Nat.mod_lt k hD
    have e1 : m0 + k + 1 - m0 + D - 1 = k + D := by omega
    have e2 : m0 + k - m0 + D - 1 = k + (D - 1) := by omega
    rw [e1, e2, Nat.add_div_right _ hD]
    have hiff : due ↔ k % D = 0 := by
      rw [hdue]
      constructor
      · rintro ⟨q, hq⟩
        rw [show k = q * D by omega]; exact Nat.mul_mod_left _ _
      · intro hz; exact ⟨k / D, by rw [hz] at hdm; rw [Nat.mul_comm]; omega⟩
    by_cases hz : k % D = 0
    · have e3 : (k + (D - 1)) / D = k / D := by
        rw [show k + (D - 1) = D * (k / D) + (D - 1) by omega, Nat.mul_add_div hD, Nat.div_eq_of_lt (by omega : D - 1 < D)]
        exact Nat.add_zero _
      rw [if_pos (hiff.2 hz), e3]
      refine ⟨rfl, fun _ => ?_⟩
      rw [hz, Nat.add_zero] at hdm
      rw [Nat.mul_comm, hdm]
    · have e3 : (k + (D - 1)) / D = k / D + 1 := by
        rw [show k + (D - 1) = D * (k / D + 1) + (k % D - 1) by rw [Nat.mul_add]; omega]
        rw [Nat.mul_add_div hD, Nat.div_eq_of_lt (show k % D - 1 < D by omega), Nat.add_zero]
      rw [if_neg (fun h => hz (hiff.1 h)), e3]
      exact ⟨rfl, fun h => absurd (hiff.1 h) hz⟩

/-- R134: a sample is due where the decimation cursor has come round to 0. -/
theorem FirCtx.due_step {F : FirCtx} (h : F.decCur.toNat < F.decim.toNat) (m : Nat) :
    F.produced (m + 1) = F.produced m + (if (F.decCur.toNat + m) % F.decim.toNat = 0 then 1 else 0) ∧
    ((F.decCur.toNat + m) % F.decim.toNat = 0 → m = F.firstDue + F.produced m * F.decim.toNat) := by
  have hD : 0 < F.decim.toNat := by omega
  exact producedStep hD (Nat.mod_lt (F.decim.toNat - F.decCur.toNat) hD) (dueAt h m)

theorem FirCtx.produced_zero (F : FirCtx) (h : 0 < F.decim.toNat) : F.produced 0 = 0 := by
  unfold FirCtx.produced
  rw [Nat.zero_sub, Nat.zero_add]
  exact Nat.div_eq_of_lt (by omega)

/-! ## The loop -/

/-- A context after a filter command has counted `m` samples of a stream and put `p` of them into the delay line. -/
def FirCtx.after (F : FirCtx) (ch : Channels) (xr xi : Nat → F32) (m p : Nat) : FirCtx :=
  { F with
    dre := pushSamples F.dre xr F.tapCur.toNat F.ntaps.toNat p
    dim := match ch with
      | .both => pushSamples F.dim xi F.tapCur.toNat F.ntaps.toNat p
      | .realOnly => F.dim
    tapCur := BitVec.ofNat 32 ((F.tapCur.toNat + m) % F.ntaps.toNat)
    decCur := BitVec.ofNat 32 ((F.decCur.toNat + m) % F.decim.toNat) }

/-- What stands at an index of an output array of a filter command that has appended `cnt` outputs from index `base` on. -/
def FirCtx.outputMem (F : FirCtx) (line : Mem 32) (x : Nat → F32) (old : Mem 32) (base cnt idx : Nat) : F32 :=
  if base ≤ idx ∧ idx < base + cnt then F.outputAt line x (F.firstDue + (idx - base) * F.decim.toNat) else old.read idx

/-- Where a filter command stands that has counted `m` samples and put `p` into the delay line. -/
structure FirAt (ch : Channels) (F : FirCtx) (inp out : Packet) (off m p : Nat) (x : FirRun) : Prop where
  i : x.i = m
  ctx : x.ctx = F.after ch (fun j => inp.re.read (off + j)) (fun j => inp.im.read (off + j)) m p
  o : x.o = out.size.toNat + F.produced m
  re : ∀ idx, x.re.read idx =
    F.outputMem F.dre (fun j => inp.re.read (off + j)) out.re out.size.toNat (F.produced m) idx
  im : ∀ idx, x.im.read idx = if ch = .both then
    F.outputMem F.dim (fun j => inp.im.read (off + j)) out.im out.size.toNat (F.produced m) idx else out.im.read idx
  wf : (out.re.wf → x.re.wf) ∧ (out.im.wf → x.im.wf)
  within : ∀ e, out.cap.toNat ≤ e → (out.re.within e → x.re.within e) ∧ (out.im.within e → x.im.within e)

variable {ch : Channels} {F : FirCtx} {inp out : Packet} {off : Nat}

theorem FirCtx.after_zero (ht : F.tapCur.toNat < F.ntaps.toNat) (hd : F.decCur.toNat < F.decim.toNat) (xr xi : Nat → F32) :
    F.after ch xr xi 0 0 = F := by
  unfold FirCtx.after
  rw [Nat.add_zero, Nat.add_zero, Nat.mod_eq_of_lt ht, Nat.mod_eq_of_lt hd, BitVec.ofNat_toNat, BitVec.ofNat_toNat]
  cases ch <;> simp [pushSamples]

theorem FirCtx.after_tapCur (ht : F.tapCur.toNat < F.ntaps.toNat) (xr xi : Nat → F32) (m p : Nat) :
    (F.after ch xr xi m p).tapCur.toNat = (F.tapCur.toNat + m) % F.ntaps.toNat := by
  have := Nat.mod_lt (F.tapCur.toNat + m) (show 0 < F.ntaps.toNat by omega)
  have := F.ntaps.isLt
  exact Nat.mod_eq_of_lt (by omega)

theorem FirCtx.after_decCur (hd : F.decCur.toNat < F.decim.toNat) (xr xi : Nat → F32) (m p : Nat) :
    (F.after ch xr xi m p).decCur.toNat = (F.decCur.toNat + m) % F.decim.toNat := by
  have := Nat.mod_lt (F.decCur.toNat + m) (show 0 < F.decim.toNat by omega)
  have := F.decim.isLt
  exact Nat.mod_eq_of_lt (by omega)

theorem FirCtx.after_advance (ht : F.tapCur.toNat < F.ntaps.toNat) (hd : F.decCur.toNat < F.decim.toNat) {xr xi : Nat → F32}
    {m p : Nat} {y : FirRun} (h : y.ctx = F.after ch xr xi m p) : y.advance.ctx = F.after ch xr xi (m + 1) p := by
  have hc := FirCtx.after_tapCur (ch := ch) ht xr xi m p
  have hc' := FirCtx.after_decCur (ch := ch) hd xr xi m p
  simp only [FirRun.advance, h, hc, hc']
  simp only [FirCtx.after, Nat.mod_add_mod, Nat.add_assoc]

theorem FirAt.insert {m : Nat} {x : FirRun} (h : FirAt ch F inp out off m m x)
    (ht : F.tapCur.toNat < F.ntaps.toNat) : FirAt ch F inp out off m (m + 1) (x.insert ch inp off) := by
  obtain ⟨h1, h2, h3, h4, h5, h6, h7⟩ := h
  have e : (x.insert ch inp off).ctx =
      F.after ch (fun j => inp.re.read (off + j)) (fun j => inp.im.read (off + j)) m (m + 1) := by
    have hc := FirCtx.after_tapCur (ch := ch) ht (fun j => inp.re.read (off + j)) (fun j => inp.im.read (off + j)) m m
    cases ch <;> simp only [FirRun.insert, h2, hc, h1] <;> simp only [FirCtx.after, pushSamples]
  cases ch
  · exact ⟨h1, e, h3, h4, h5, h6, h7⟩
  · exact ⟨h1, e, h3, h4, h5, h6, h7⟩

theorem mod_add_sub {a n k : Nat} (h : k ≤ n) : (a % n + n - k) % n = (a + n - k) % n := by
  rw [Nat.add_sub_assoc h, Nat.add_sub_assoc h, Nat.mod_add_mod]

/-- R138: the output for the sample just put into the delay line. -/
theorem firDot_after (ht : F.tapCur.toNat < F.ntaps.toNat) (xr xi : Nat → F32) (m : Nat) :
    firDot (F.after ch xr xi m (m + 1)) (F.after ch xr xi m (m + 1)).dre = F.outputAt F.dre xr m ∧
    (ch = .both → firDot (F.after ch xr xi m (m + 1)) (F.after ch xr xi m (m + 1)).dim = F.outputAt F.dim xi m) := by
  have hN : 0 < F.ntaps.toNat := by omega
  have hc := FirCtx.after_tapCur (ch := ch) ht xr xi m (m + 1)
  have hlt : (F.after ch xr xi m (m + 1)).tapCur.toNat < (F.after ch xr xi m (m + 1)).ntaps.toNat := by
    rw [hc]; exact Nat.mod_lt _ hN
  rw [firDot_eq hlt, firDot_eq hlt, hc]
  have key : ∀ (line : Mem 32) (x : Nat → F32),
      dotProduct F.taps.read (fun k => (pushSamples line x F.tapCur.toNat F.ntaps.toNat (m + 1)).read
        (((F.tapCur.toNat + m) % F.ntaps.toNat + F.ntaps.toNat - k) % F.ntaps.toNat)) F.ntaps.toNat =
      F.outputAt line x m := by
    intro line x
    refine dotProduct_congr _ fun k hk => ?_
    rw [mod_add_sub hk.le, read_pushSamples _ _ _ _ _ _ hk]
    rfl
  refine ⟨key F.dre xr, ?_⟩
  rintro rfl
  exact key F.dim xi

theorem FirCtx.outputMem_step {line : Mem 32} {x : Nat → F32} {old : Mem 32} {base m : Nat}
    (hd : F.decCur.toNat < F.decim.toNat) (hdue : (F.decCur.toNat + m) % F.decim.toNat = 0) (idx : Nat) :
    F.outputMem line x old base (F.produced (m + 1)) idx =
      if idx = base + F.produced m then F.outputAt line x m else F.outputMem line x old base (F.produced m) idx := by
  obtain ⟨h1, h2⟩ := FirCtx.due_step hd m
  have h2 := h2 hdue
  rw [if_pos hdue] at h1
  unfold FirCtx.outputMem
  rw [h1]
  by_cases hi : idx = base + F.produced m
  · rw [if_pos hi, if_pos (by omega), hi, Nat.add_sub_cancel_left, ← h2]
  · rw [if_neg hi]
    congr 1
    simp only [eq_iff_iff]
    omega

theorem FirAt.emit {m : Nat} {x : FirRun} (h : FirAt ch F inp out off m (m + 1) x)
    (ht : F.tapCur.toNat < F.ntaps.toNat) (hd : F.decCur.toNat < F.decim.toNat)
    (hdue : (F.decCur.toNat + m) % F.decim.toNat = 0) (hroom : x.o < out.cap.toNat) :
    FirAt ch F inp out off (m + 1) (m + 1) (x.emit ch).advance := by
  obtain ⟨h1, h2, h3, h4, h5, h6, h7⟩ := h
  have hs := (FirCtx.due_step hd m).1
  rw [if_pos hdue] at hs
  obtain ⟨d1, d2⟩ := firDot_after (ch := ch) ht (fun j => inp.re.read (off + j)) (fun j => inp.im.read (off + j)) m
  have hctx : (x.emit ch).advance.ctx =
      F.after ch (fun j => inp.re.read (off + j)) (fun j => inp.im.read (off + j)) (m + 1) (m + 1) := by
    exact FirCtx.after_advance ht hd (by rw [← h2]; cases ch <;> rfl)
  have hre : ∀ idx, (x.emit ch).advance.re.read idx =
      F.outputMem F.dre (fun j => inp.re.read (off + j)) out.re out.size.toNat (F.produced (m + 1)) idx := by
    intro idx
    have : (x.emit ch).advance.re = x.re.write x.o (firDot x.ctx x.ctx.dre) := by cases ch <;> rfl
    rw [this, Mem.read_write, h4, h2, d1, h3, FirCtx.outputMem_step hd hdue]
  cases ch
  · refine ⟨congrArg (· + 1) h1, hctx, ?_, hre, ?_, ?_, ?_⟩
    · show x.o + 1 = _
      rw [h3, hs, Nat.add_assoc]
    · intro idx
      have : (x.emit .both).advance.im = x.im.write x.o (firDot x.ctx x.ctx.dim) := rfl
      rw [this, Mem.read_write, h5, h2, d2 rfl, h3, if_pos rfl, if_pos rfl, FirCtx.outputMem_step hd hdue]
    · exact ⟨fun h => Mem.wf_write (h6.1 h) _ _, fun h => Mem.wf_write (h6.2 h) _ _⟩
    · exact fun e he => ⟨fun h => Mem.within_write ((h7 e he).1 h) (by omega) _,
        fun h => Mem.within_write ((h7 e he).2 h) (by omega) _⟩
  · refine ⟨congrArg (· + 1) h1, hctx, ?_, hre, ?_, ?_, ?_⟩
    · show x.o + 1 = _
      rw [h3, hs, Nat.add_assoc]
    · intro idx
      have : (x.emit .realOnly).advance.im = x.im := rfl
      rw [this, h5, if_neg (by decide), if_neg (by decide)]
    · exact ⟨fun h => Mem.wf_write (h6.1 h) _ _, h6.2⟩
    · exact fun e he => ⟨fun h => Mem.within_write ((h7 e he).1 h) (by omega) _, (h7 e he).2⟩

theorem FirAt.skip {m : Nat} {x : FirRun} (h : FirAt ch F inp out off m (m + 1) x)
    (ht : F.tapCur.toNat < F.ntaps.toNat) (hd : F.decCur.toNat < F.decim.toNat)
    (hdue : ¬ (F.decCur.toNat + m) % F.decim.toNat = 0) : FirAt ch F inp out off (m + 1) (m + 1) x.advance := by
  obtain ⟨h1, h2, h3, h4, h5, h6, h7⟩ := h
  have hs := (FirCtx.due_step hd m).1
  rw [if_neg hdue, Nat.add_zero] at hs
  have hctx : x.advance.ctx =
      F.after ch (fun j => inp.re.read (off + j)) (fun j => inp.im.read (off + j)) (m + 1) (m + 1) := by
    exact FirCtx.after_advance ht hd h2
  refine ⟨congrArg (· + 1) h1, hctx, ?_, ?_, ?_, h6, h7⟩
  · rw [hs]; exact h3
  · rw [hs]; exact h4
  · rw [hs]; exact h5

/-- R134, R135: the loop of a filter command, from the sample it stands at. -/
theorem firLoop_spec (ht : F.tapCur.toNat < F.ntaps.toNat) (hd : F.decCur.toNat < F.decim.toNat)
    (hcap : out.size.toNat ≤ out.cap.toNat) : ∀ (n m : Nat) (x : FirRun), FirAt ch F inp out off m m x →
    m ≤ F.firstDue + (out.cap.toNat - out.size.toNat) * F.decim.toNat →
    F.produced m ≤ out.cap.toNat - out.size.toNat →
    ∃ c, c = F.consumed (out.cap.toNat - out.size.toNat) (m + n) ∧
      F.produced c ≤ out.cap.toNat - out.size.toNat ∧
      FirAt ch F inp out off c (if c < m + n then c + 1 else c) (firLoop ch inp off out.cap.toNat n x) := by
  intro n
  induction n with
  | zero =>
    intro m x h hm hp
    refine ⟨m, ?_, hp, ?_⟩
    · unfold FirCtx.consumed; omega
    · rw [if_neg (by omega), firLoop]; exact h
  | succ n ih =>
    intro m x h hm hp
    have hins := h.insert ht
    obtain ⟨hs, hpos⟩ := FirCtx.due_step hd m
    have hdc : (x.insert ch inp off).ctx.decCur = 0 ↔ (F.decCur.toNat + m) % F.decim.toNat = 0 := by
      rw [← BitVec.toNat_inj, hins.ctx, FirCtx.after_decCur hd]
      rfl
    have hD : 0 < F.decim.toNat := by omega
    rw [firLoop]
    by_cases hdue : (F.decCur.toNat + m) % F.decim.toNat = 0
    · rw [if_pos hdue] at hs
      rw [if_pos (hdc.2 hdue)]
      have ho := hins.o
      by_cases hfull : (x.insert ch inp off).o = out.cap.toNat
      · rw [if_pos hfull]
        have hroom : F.produced m = out.cap.toNat - out.size.toNat := by omega
        have hstop := hpos hdue
        rw [hroom] at hstop
        refine ⟨m, ?_, hp, ?_⟩
        · unfold FirCtx.consumed; omega
        · rw [if_pos (by omega)]; exact hins
      · rw [if_neg hfull]
        have hlt : F.produced m < out.cap.toNat - out.size.toNat := by omega
        have hmul : (F.produced m + 1) * F.decim.toNat ≤ (out.cap.toNat - out.size.toNat) * F.decim.toNat :=
          Nat.mul_le_mul_right _ hlt
        rw [Nat.add_mul, Nat.one_mul] at hmul
        have := hpos hdue
        obtain ⟨c, e, h1, h2⟩ := ih (m + 1) _ (hins.emit ht hd hdue (by omega)) (by omega) (by omega)
        rw [show m + 1 + n = m + (n + 1) by omega] at e h2
        exact ⟨c, e, h1, h2⟩
    · rw [if_neg hdue, Nat.add_zero] at hs
      rw [if_neg (fun hc => hdue (hdc.1 hc))]
      have hne : m ≠ F.firstDue + (out.cap.toNat - out.size.toNat) * F.decim.toNat :=
        fun hc => hdue ((dueAt hd m).2 ⟨_, hc⟩)
      obtain ⟨c, e, h1, h2⟩ := ih (m + 1) _ (hins.skip ht hd hdue) (by omega) (by omega)
      rw [show m + 1 + n = m + (n + 1) by omega] at e h2
      exact ⟨c, e, h1, h2⟩

/-- R134 to R138: what a filter command does, said once. -/
theorem firRun_spec (ht : F.tapCur.toNat < F.ntaps.toNat) (hd : F.decCur.toNat < F.decim.toNat)
    (hcap : out.size.toNat ≤ out.cap.toNat) (len : Nat) :
    ∃ c, c = F.consumed (out.cap.toNat - out.size.toNat) len ∧ F.produced c ≤ out.cap.toNat - out.size.toNat ∧
      FirAt ch F inp out off c (if c < len then c + 1 else c) (firRun ch F inp out off len) := by
  have hD : 0 < F.decim.toNat := by omega
  have h0 := F.produced_zero hD
  have start : FirAt ch F inp out off 0 0 { ctx := F, re := out.re, im := out.im, o := out.size.toNat, i := 0 } := by
    refine ⟨rfl, (FirCtx.after_zero ht hd _ _).symm, by rw [h0]; rfl, ?_, ?_, ⟨id, id⟩, fun _ _ => ⟨id, id⟩⟩
    · intro idx; rw [h0, FirCtx.outputMem, if_neg (by omega)]
    · intro idx; rw [h0, FirCtx.outputMem, if_neg (show ¬ (out.size.toNat ≤ idx ∧ idx < out.size.toNat + 0) by omega), ite_self]
  obtain ⟨c, e, h1, h2⟩ := firLoop_spec (ch := ch) ht hd hcap len 0 _ start (Nat.zero_le _) (by omega)
  rw [Nat.zero_add] at e h2
  exact ⟨c, e, h1, h2⟩

end Sys2Proof.Machine
end

