-- ==== Sys2Proof/Laws/Construct.lean ====
section
/-! SUPPORT. Laws/Construct.lean: what the construction commands for filters and resamplers build (R131, R151 to R155),
said once. -/

namespace Sys2Proof.Machine

/-! ## Filters -/

/-- R130 to R133: a design whose tests all pass gives as many taps as the tap count says. -/
theorem designLowPass_ok {gain fs fc tw att : F64} {win : WindowFn} {beta : F64} {maxTaps limit : Int} {nt : Nat}
    (hl : limit ≤ 2 ^ 62) (hv : designValid fs fc tw = true) (hb : win = .kaiser → seriesDomain beta = true)
    (ht : tapCount att fs tw maxTaps limit = .ok nt) :
    ∃ h, h.length = nt ∧
      designLowPass gain fs fc tw att win beta maxTaps limit = .taps (scaleTaps gain h ((nt - 1) / 2)) ∧
      ∀ k : Nat, k < nt → ∃ w, window win k nt beta = some w ∧
        h.getD k zero64 = mul64 (sincAt (div64 (mul64 twoPi64 fc) fs) ((k : Int) - ((nt - 1) / 2 : Nat))) w := by
  obtain ⟨h1, h2, h3⟩ := tapCount_ok ht
  obtain ⟨h, hlen, e, hw⟩ := prototype_spec (nt := nt) (gain := gain) (fs := fs) (fc := fc) (win := win) (beta := beta)
    (by omega) (by omega) hb
  refine ⟨h, hlen, ?_, hw⟩
  rw [designLowPass, if_neg (by simp [hv]), if_neg (fun hc => hc.2 (hb hc.1)), ht]
  dsimp only
  rw [e]

variable {F : FirCtx} {ts : List F32} {decim : Int}

/-- R131: the fields of a built filter context. -/
theorem FirCtx.built_ntaps (h : ts.length ≤ 2 ^ 31 - 1) : (F.built decim ts).ntaps.toNat = ts.length :=
  Nat.mod_eq_of_lt (by omega)

theorem FirCtx.built_decim (h0 : 1 ≤ decim) (h1 : decim ≤ 2 ^ 31 - 1) : ((F.built decim ts).decim.toNat : Int) = decim := by
  show ((BitVec.ofInt 32 decim).toNat : Int) = decim
  rw [BitVec.toNat_ofInt, Int.toNat_of_nonneg (Int.emod_nonneg _ (by norm_num))]
  exact Int.emod_eq_of_lt (by omega) (by norm_num; omega)

/-- R131: the elements of a built filter context. -/
theorem FirCtx.built_read (k : Nat) :
    (F.built decim ts).taps.read k = (if k < ts.length then ts.getD k zero32 else F.taps.read k) ∧
    (F.built decim ts).dre.read k = (if k < ts.length then zero32 else F.dre.read k) ∧
    (F.built decim ts).dim.read k = (if k < ts.length then zero32 else F.dim.read k) := by
  simp [FirCtx.built, Mem.read_fill]

theorem FirCtx.built_wf (h : F.taps.wf ∧ F.dre.wf ∧ F.dim.wf) :
    (F.built decim ts).taps.wf ∧ (F.built decim ts).dre.wf ∧ (F.built decim ts).dim.wf :=
  ⟨Mem.wf_fill h.1 _ _ _, Mem.wf_fill h.2.1 _ _ _, Mem.wf_fill h.2.2 _ _ _⟩

theorem FirCtx.built_within {e : Nat} (hl : ts.length ≤ e) (h : F.taps.within e ∧ F.dre.within e ∧ F.dim.within e) :
    (F.built decim ts).taps.within e ∧ (F.built decim ts).dre.within e ∧ (F.built decim ts).dim.within e :=
  ⟨Mem.within_fill h.1 (by omega) _, Mem.within_fill h.2.1 (by omega) _, Mem.within_fill h.2.2 (by omega) _⟩

/-- R41: `FIRDES` establishes the invariant of its context. -/
theorem FirCtx.built_ok {l : Limits} (hl : l.tapMax ≤ 2 ^ 31 - 1) (h0 : 1 ≤ decim) (h1 : decim ≤ 2 ^ 31 - 1)
    (hodd : ts.length % 2 = 1) (h3 : 3 ≤ ts.length) (hmax : ts.length ≤ l.tapMax) : (F.built decim ts).Ok l := by
  have e1 := FirCtx.built_ntaps (F := F) (ts := ts) (decim := decim) (by omega)
  have e2 := FirCtx.built_decim (F := F) (ts := ts) h0 h1
  refine ⟨by omega, by omega, by omega, by omega, by omega, ?_, ?_⟩
  · show (0 : Nat) < _; omega
  · show (0 : Nat) < _; omega

/-! ## Resamplers -/

/-- R153: a memory with the phases below `p` split into it: coefficient `k` of a phase below `p` is coefficient `q + k L`
of the prototype or zero, all else as it was. -/
theorem splitPhases_read {lim : Limits} {ph : Mem 32} {L K : Nat} {P : List F32} (hK : K ≤ lim.resKMax) :
    ∀ p q k, k < lim.resKMax → (splitPhases lim ph L K P p).read (phIndex lim q k) =
      if q < p ∧ k < K then (if q + k * L < P.length then P.getD (q + k * L) zero32 else zero32)
      else ph.read (phIndex lim q k) := by
  intro p
  induction p with
  | zero => intro q k _; rw [if_neg (by omega)]; rfl
  | succ p ih =>
    intro q k hk
    rw [splitPhases, Mem.read_fill, ih q k hk]
    have hi : ∀ a, phIndex lim a 0 = a * lim.resKMax := fun a => Nat.add_zero _
    have hik : phIndex lim q k = q * lim.resKMax + k := rfl
    rw [hi, hik]
    rcases Nat.lt_trichotomy q p with h | rfl | h
    · have : (q + 1) * lim.resKMax ≤ p * lim.resKMax := Nat.mul_le_mul_right _ h
      rw [Nat.add_mul, Nat.one_mul] at this
      rw [if_neg (by omega)]
      simp [h, show q < p + 1 by omega]
    · by_cases hkK : k < K
      · rw [if_pos (by omega), if_pos (show q < q + 1 ∧ k < K by omega), Nat.add_sub_cancel_left]
      · rw [if_neg (by omega), if_neg (show ¬ (q < q ∧ k < K) by omega), if_neg (show ¬ (q < q + 1 ∧ k < K) by omega)]
    · have : (p + 1) * lim.resKMax ≤ q * lim.resKMax := Nat.mul_le_mul_right _ h
      rw [Nat.add_mul, Nat.one_mul] at this
      rw [if_neg (by omega), if_neg (show ¬ (q < p ∧ k < K) by omega), if_neg (show ¬ (q < p + 1 ∧ k < K) by omega)]

theorem splitPhases_wf {lim : Limits} {ph : Mem 32} {L K : Nat} {P : List F32} (h : ph.wf) :
    ∀ p, (splitPhases lim ph L K P p).wf := by
  intro p
  induction p with
  | zero => exact h
  | succ p ih => exact Mem.wf_fill ih _ _ _

theorem splitPhases_within {lim : Limits} {ph : Mem 32} {L K : Nat} {P : List F32} (hL : L ≤ lim.resLMax)
    (hK : K ≤ lim.resKMax) (h : ph.within (lim.resLMax * lim.resKMax)) :
    ∀ p, p ≤ L → (splitPhases lim ph L K P p).within (lim.resLMax * lim.resKMax) := by
  intro p
  induction p with
  | zero => exact fun _ => h
  | succ p ih =>
    intro hp
    refine Mem.within_fill (ih (by omega)) ?_ _
    have : (p + 1) * lim.resKMax ≤ lim.resLMax * lim.resKMax := Nat.mul_le_mul_right _ (by omega)
    rw [Nat.add_mul, Nat.one_mul] at this
    have hi : phIndex lim p 0 = p * lim.resKMax := Nat.add_zero _
    rw [hi]
    omega

variable {R : ResCtx} {lim : Limits} {L M K : Nat} {P : List F32}

theorem ResCtx.built_wf (h : R.ph.wf ∧ R.dre.wf ∧ R.dim.wf) :
    (R.built lim L M K P).ph.wf ∧ (R.built lim L M K P).dre.wf ∧ (R.built lim L M K P).dim.wf :=
  ⟨splitPhases_wf h.1 _, Mem.wf_fill h.2.1 _ _ _, Mem.wf_fill h.2.2 _ _ _⟩

theorem ResCtx.built_within (hL : L ≤ lim.resLMax) (hK : K ≤ lim.resKMax)
    (h : R.ph.within (lim.resLMax * lim.resKMax) ∧ R.dre.within lim.resKMax ∧ R.dim.within lim.resKMax) :
    (R.built lim L M K P).ph.within (lim.resLMax * lim.resKMax) ∧ (R.built lim L M K P).dre.within lim.resKMax ∧
      (R.built lim L M K P).dim.within lim.resKMax :=
  ⟨splitPhases_within hL hK h.1 _ le_rfl, Mem.within_fill h.2.1 (by omega) _, Mem.within_fill h.2.2 (by omega) _⟩

/-- R151: the length fields of a built resampler context. -/
theorem ResCtx.built_sizes (hL : L < 2 ^ 32) (hM : M < 2 ^ 32) (hK : K < 2 ^ 32) :
    (R.built lim L M K P).facL.toNat = L ∧ (R.built lim L M K P).facM.toNat = M ∧ (R.built lim L M K P).subLen.toNat = K :=
  ⟨Nat.mod_eq_of_lt hL, Nat.mod_eq_of_lt hM, Nat.mod_eq_of_lt hK⟩

/-- R43: `RESINIT` establishes the invariant of its context. -/
theorem ResCtx.built_ok (hl : lim.Ok) (h1 : 1 ≤ L) (h2 : L ≤ lim.resLMax) (h3 : 1 ≤ M) (h4 : M ≤ 2 ^ 31 - 1)
    (h5 : Nat.gcd L M = 1) (h6 : 1 ≤ K) (h7 : K ≤ lim.resKMax) : (R.built lim L M K P).Ok lim := by
  have a := hl.2.2.2.2.1.2
  have b := hl.2.2.2.2.2.1.2
  obtain ⟨e1, e2, e3⟩ := ResCtx.built_sizes (R := R) (lim := lim) (P := P) (show L < 2 ^ 32 by omega)
    (show M < 2 ^ 32 by omega) (show K < 2 ^ 32 by omega)
  refine ⟨by omega, by omega, by omega, by omega, by rw [e1, e2]; exact h5, by omega, by omega, ?_, Nat.zero_le _⟩
  show (0 : Nat) < _
  omega

/-- R151: the sub-filter length is the smallest that holds the prototype. -/
theorem subFilterLen_spec {n L : Nat} (hL : 1 ≤ L) :
    n ≤ subFilterLen n L * L ∧ subFilterLen n L * L < n + L ∧ (1 ≤ n → 1 ≤ subFilterLen n L) := by
  have h1 := Nat.div_add_mod (n + L - 1) L
  have h2 := Nat.mod_lt (n + L - 1) hL
  unfold subFilterLen
  rw [Nat.mul_comm] at h1
  refine ⟨by omega, by omega, fun hn => ?_⟩
  exact (Nat.one_le_div_iff hL).2 (by omega)

/-- R152: the default prototype fails only with two codes, or gives at least three coefficients. -/
theorem defaultPrototype_cases {fbw : F64} {mtpp : Int} (hl : lim.Ok) (hL : 1 ≤ L) (hL2 : L ≤ 2 ^ 31 - 1) (hM : 1 ≤ M)
    (hM2 : M ≤ 2 ^ 31 - 1) :
    (∃ P, defaultPrototype lim L M fbw mtpp = .taps P ∧ P.length % 2 = 1 ∧ 3 ≤ P.length ∧
      P.length ≤ L * lim.resKMax) ∨
    (∃ e, defaultPrototype lim L M fbw mtpp = .fail e ∧ (e = .badOperand ∨ e = .capacityExceeded)) := by
  unfold defaultPrototype
  split
  · exact .inr ⟨_, rfl, .inl rfl⟩
  · rename_i hn
    have hn : isNaN64 fbw = false := by simpa using hn
    have hv := protoBand_valid hL (by omega) hM (by omega) hn
    have hb : seriesDomain cResBeta = true := by decide
    have hlim : ((L * lim.resKMax : Nat) : Int) ≤ 2 ^ 62 := by
      have := hl.2.2.2.2.2.1.2
      have h2 : L * lim.resKMax ≤ (2 ^ 31 - 1) * (2 ^ 31 - 1) := Nat.mul_le_mul hL2 this
      omega
    dsimp only
    generalize (if 0 < mtpp then mtpp * (L : Int) else 0) = mt
    cases ht : tapCount cResAtten (ofInt64 L) (protoBand L M (clampFbw fbw)).1 mt (L * lim.resKMax : Nat) with
    | error e =>
      refine .inr ⟨e, ?_, tapCount_error ht⟩
      rw [designLowPass, if_neg (by simp [hv]), if_neg (fun hc => hc.2 hb), ht]
    | ok nt =>
      obtain ⟨h1, h2, h3⟩ := tapCount_ok ht
      obtain ⟨h, hlen, e, -⟩ := designLowPass_ok (gain := ofInt64 L) (win := .kaiser) (beta := cResBeta) hlim hv
        (fun _ => hb) ht
      exact .inl ⟨_, e, by simp [hlen, h1], by simp [hlen, h2], by simp only [scaleTaps_length, hlen]; omega⟩

/-- R155: the custom prototype is the staged taps, or fails where their count is out of range. -/
theorem customPrototype_cases {b : TapBuffer} :
    (1 ≤ b.tlen.toNat ∧ b.tlen.toNat ≤ lim.tbufDepth ∧
      customPrototype lim b = .taps ((List.range b.tlen.toNat).map b.t.read)) ∨
    (¬ (1 ≤ b.tlen.toNat ∧ b.tlen.toNat ≤ lim.tbufDepth) ∧ customPrototype lim b = .fail .badOperand) := by
  unfold customPrototype
  by_cases h : b.tlen.toNat < 1 ∨ lim.tbufDepth < b.tlen.toNat
  · exact .inr ⟨by omega, if_pos h⟩
  · exact .inl ⟨by omega, by omega, if_neg h⟩

end Sys2Proof.Machine
end

