-- ==== Sys2Proof/Laws/Length.lean ====
section
/-! SUPPORT. Laws/Length.lean: the effective mixing frequency (R175) and the oscillator length search (R176). -/

namespace Sys2Proof.Machine

/-- What holds of the best length before the candidate of `i` cycles: it is that of some `j` cycles, earliest on ties. -/
def LengthBest.Upto (rate A ml i j : Nat) (b : LengthBest) : Prop :=
  1 ≤ j ∧ (j = 1 ∨ j < i ∧ j * rate < ml * A) ∧ b = { len := j * rate / A, err := j * rate % A } ∧
  (∀ k, 1 ≤ k → k < i → b.err ≤ k * rate % A) ∧ (∀ k, 1 ≤ k → k < j → b.err < k * rate % A)

theorem LengthBest.consider_upto {rate A ml i j : Nat} {b : LengthBest} (hb : b.Upto rate A ml i j) (hi : 1 ≤ i)
    (hlt : i * rate < ml * A) : ∃ j', (b.consider rate A i).Upto rate A ml (i + 1) j' := by
  obtain ⟨h1, h2, rfl, h4, h5⟩ := hb
  unfold LengthBest.consider
  dsimp only at h4 h5 ⊢
  split
  · rename_i hc
    refine ⟨i, hi, .inr ⟨Nat.lt_succ_self i, hlt⟩, rfl, fun k hk1 hk2 => ?_, fun k hk1 hk2 => ?_⟩
    · rcases Nat.lt_or_ge k i with hk | hk
      · exact (lt_of_lt_of_le hc (h4 k hk1 hk)).le
      · rw [show k = i by omega]
    · exact lt_of_lt_of_le hc (h4 k hk1 hk2)
  · rename_i hc
    refine ⟨j, h1, h2.imp id fun h => ⟨by omega, h.2⟩, rfl, fun k hk1 hk2 => ?_, h5⟩
    rcases Nat.lt_or_ge k i with hk | hk
    · exact h4 k hk1 hk
    · rw [show k = i by omega]; exact not_lt.1 hc

/-- R176, U5: the search ends within its fuel. -/
theorem lengthSearch_spec {rate A ml : Nat} (hr : 1 ≤ rate) : ∀ (fuel i : Nat) (b : LengthBest) (j : Nat), 1 ≤ i →
    ml * A / rate + 2 ≤ fuel + i → (i = 1 ∨ (i - 1) * rate < ml * A) → b.Upto rate A ml i j →
    ∃ b' i' j', lengthSearch rate A ml fuel i b = some b' ∧ ml * A ≤ i' * rate ∧ b'.Upto rate A ml i' j' := by
  intro fuel
  induction fuel with
  | zero =>
    intro i b j hi hf hp hb
    exfalso
    have h1 : ml * A < rate * (ml * A / rate + 1) := Nat.lt_mul_div_succ _ hr
    generalize ml * A / rate = q at *
    rcases hp with hp | hp
    · omega
    · have h2 : (q + 1) * rate ≤ (i - 1) * rate := Nat.mul_le_mul_right _ (by omega)
      rw [Nat.mul_comm] at h2
      omega
  | succ fuel ih =>
    intro i b j hi hf _ hb
    rw [lengthSearch]
    by_cases hlt : i * rate < ml * A
    · rw [if_pos hlt]
      obtain ⟨j', hb'⟩ := LengthBest.consider_upto hb hi hlt
      exact ih (i + 1) _ j' (by omega) (by omega) (.inr hlt) hb'
    · rw [if_neg hlt]
      exact ⟨b, i, j, rfl, not_lt.1 hlt, hb⟩

/-- R176, U5: the table length is found: it is that of the number of cycles, among 1 and those below the maximum, whose
fractional part is the smallest, the earliest on ties. -/
theorem tableLength_spec {rate A ml : Nat} (hr : 1 ≤ rate) :
    ∃ b j, tableLength rate A ml = some b ∧ 1 ≤ j ∧ (j = 1 ∨ j * rate < ml * A) ∧
      b = { len := j * rate / A, err := j * rate % A } ∧
      (∀ k, 1 ≤ k → (k = 1 ∨ k * rate < ml * A) → b.err ≤ k * rate % A) ∧
      (∀ k, 1 ≤ k → k < j → b.err < k * rate % A) := by
  have hstart : LengthBest.Upto rate A ml 1 1 { len := rate / A, err := rate % A } :=
    ⟨le_rfl, .inl rfl, by simp, fun k h1 h2 => by omega, fun k h1 h2 => by omega⟩
  obtain ⟨b, i, j, e, hi, h1, h2, rfl, h4, h5⟩ :=
    lengthSearch_spec hr (lengthFuel rate A ml) 1 _ 1 le_rfl (by unfold lengthFuel; omega) (.inl rfl) hstart
  refine ⟨_, j, e, h1, h2.imp id And.right, rfl, fun k hk hlt => ?_, h5⟩
  rcases Nat.lt_or_ge k i with hki | hki
  · exact h4 k hk hki
  · have h6 : i * rate ≤ k * rate := Nat.mul_le_mul_right _ hki
    rcases hlt with rfl | hlt
    · rcases Nat.eq_or_lt_of_le h1 with hj | hj
      · rw [← hj]
      · exact (h5 1 le_rfl hj).le
    · omega

/-- R176: a table length found below a maximum of 2 or more lies within it, wherever the single cycle does. -/
theorem tableLength_le {rate A ml : Nat} {b : LengthBest} (hr : 1 ≤ rate) (hA : 1 ≤ A)
    (h : tableLength rate A ml = some b) : b.len < ml ∨ b.len = rate / A := by
  obtain ⟨b', j, e, h1, h2, rfl, -, -⟩ := tableLength_spec (A := A) (ml := ml) hr
  rw [e] at h
  obtain rfl := Option.some.inj h
  rcases h2 with rfl | h2
  · right; simp
  · left; exact (Nat.div_lt_iff_lt_mul hA).2 h2

/-- R176: below a maximum of 2 or more the table is never empty. -/
theorem tableLength_pos {rate A ml : Nat} {b : LengthBest} (hr : 1 ≤ rate) (hA : 1 ≤ A) (hml : 2 ≤ ml)
    (h : tableLength rate A ml = some b) : 1 ≤ b.len := by
  obtain ⟨b', j, e, h1, h2, rfl, h4, -⟩ := tableLength_spec (A := A) (ml := ml) hr
  rw [e] at h
  obtain rfl := Option.some.inj h
  dsimp only at h4 ⊢
  by_contra hc
  have hlt : j * rate < A := by
    by_contra hn
    exact hc ((Nat.le_div_iff_mul_le hA).2 (by omega))
  have hj : rate ≤ j * rate := Nat.le_mul_of_pos_left _ h1
  rw [Nat.mod_eq_of_lt hlt] at h4
  have hk1 : A < rate * (A / rate + 1) := Nat.lt_mul_div_succ _ hr
  have hk2 : rate * (A / rate) ≤ A := Nat.mul_div_le _ _
  have hm2 : 2 * A ≤ ml * A := Nat.mul_le_mul_right _ hml
  generalize A / rate = q at *
  have e1 : (q + 1) * rate = rate * q + rate := by ring
  rw [Nat.mul_add, Nat.mul_one] at hk1
  rcases Nat.eq_or_lt_of_le hk2 with hq | hq
  · have hq1 : 1 ≤ q := by
      refine Nat.pos_of_ne_zero fun h0 => ?_
      rw [h0, Nat.mul_zero] at hq
      omega
    have := h4 q hq1 (.inr (by rw [Nat.mul_comm]; omega))
    rw [Nat.mul_comm q rate, hq, Nat.mod_self] at this
    omega
  · have := h4 (q + 1) (by omega) (.inr (by omega))
    rw [e1, Nat.mod_eq_sub_mod (by omega)] at this
    have := Nat.mod_le (rate * q + rate - A) A
    omega

/-- R175: the effective mixing frequency is never 0, and its single cycle fits a maximum table length of 2 or more. -/
theorem effectiveMix_facts {C : CnvCtx} {chan : Int} (hr : 1 ≤ C.rate.toNat) (hml : 1 ≤ C.maxlen.toNat) :
    effectiveMix C chan ≠ 0 ∧
      (2 ≤ C.maxlen.toNat → C.rate.toNat / (effectiveMix C chan).natAbs ≤ C.maxlen.toNat) := by
  unfold effectiveMix
  dsimp only
  generalize C.center.toInt - chan = mf
  generalize C.rate.toNat = rate at *
  generalize C.maxlen.toNat = ml at *
  split
  · rename_i h
    have hlt : mf.natAbs < rate := by
      rcases h with rfl | h
      · exact hr
      · exact lt_of_le_of_lt (Nat.le_mul_of_pos_left _ hml) h
    refine ⟨by omega, fun h2 => ?_⟩
    have h3 : 2 * mf.natAbs ≤ rate := by
      rcases h with rfl | h
      · simp
      · exact le_trans (Nat.mul_le_mul_right _ h2) h.le
    have h4 : rate ≤ 2 * (mf + rate).natAbs := by omega
    exact le_trans (Nat.div_le_of_le_mul (by omega)) h2
  · rename_i h
    refine ⟨fun h0 => h (.inl h0), fun _ => Nat.div_le_of_le_mul (not_lt.1 fun hc => h (.inr ?_))⟩
    rwa [Nat.mul_comm] at hc

end Sys2Proof.Machine
end

