-- ==== Sys2Proof/Laws/Converter.lean ====
section
/-! SUPPORT. Laws/Converter.lean: what the converter's construction, its oscillator cache and its mixing loop do (R171 to
R178), each said once. -/

namespace Sys2Proof.Machine

variable {C : CnvCtx}

/-- R171: the table of a built converter. -/
theorem CnvCtx.built_table (fs fcen ml : Int) {u : Nat} (hu : u < 65536) : (C.built fs fcen ml).lut.read u = normEntry u := by
  show (C.lut.fill 0 65536 normEntry).read u = _
  rw [Mem.read_fill, if_pos (by omega), Nat.sub_zero]

/-- R171: the configuration of a built converter. -/
theorem CnvCtx.built_config {fs fcen ml : Int} (h1 : 1 ≤ fs) (h2 : fs ≤ 2 ^ 32 - 1) (h3 : FreqInRange fcen) (h4 : 1 ≤ ml)
    (h5 : ml ≤ 2 ^ 32 - 1) : ((C.built fs fcen ml).rate.toNat : Int) = fs ∧ (C.built fs fcen ml).center.toInt = fcen ∧
      ((C.built fs fcen ml).maxlen.toNat : Int) = ml := by
  have key : ∀ v : Int, 1 ≤ v → v ≤ 2 ^ 32 - 1 → ((BitVec.ofInt 32 v).toNat : Int) = v := by
    intro v a b
    rw [BitVec.toNat_ofInt, Int.toNat_of_nonneg (Int.emod_nonneg _ (by norm_num))]
    exact Int.emod_eq_of_lt (by omega) (by norm_num; omega)
  refine ⟨key _ h1 h2, ?_, key _ h4 h5⟩
  show (BitVec.ofInt 64 fcen).toInt = fcen
  rw [BitVec.toInt_ofInt]
  obtain ⟨a, b⟩ := h3
  have := Int.bmod_eq_of_le (n := fcen) (m := 2 ^ 64) (by norm_num; omega) (by norm_num; omega)
  exact this

/-- R45: `CNVINIT` establishes the invariant of its context. -/
theorem CnvCtx.built_ok {l : Limits} {fs fcen ml : Int} (hl : l.ncoMax ≤ 2 ^ 31 - 1) (h1 : 1 ≤ fs) (h2 : fs ≤ 2 ^ 32 - 1)
    (h3 : FreqInRange fcen) (h4 : 1 ≤ ml) (h5 : ml ≤ l.ncoMax) : (C.built fs fcen ml).Ok l := by
  obtain ⟨a, b, c⟩ := CnvCtx.built_config (C := C) h1 h2 h3 h4 (by omega)
  exact ⟨fun u hu => CnvCtx.built_table fs fcen ml hu, by omega, by rw [b]; exact h3, by omega, by omega,
    fun h => Bool.noConfusion h⟩

theorem CnvCtx.built_wf {fs fcen ml : Int} (h : C.lut.wf ∧ C.cos.wf ∧ C.sin.wf) :
    (C.built fs fcen ml).lut.wf ∧ (C.built fs fcen ml).cos.wf ∧ (C.built fs fcen ml).sin.wf :=
  ⟨Mem.wf_fill h.1 _ _ _, h.2⟩

theorem CnvCtx.built_within {e : Nat} {fs fcen ml : Int} (h : C.lut.within 65536 ∧ C.cos.within e ∧ C.sin.within e) :
    (C.built fs fcen ml).lut.within 65536 ∧ (C.built fs fcen ml).cos.within e ∧ (C.built fs fcen ml).sin.within e :=
  ⟨Mem.within_fill h.1 le_rfl _, h.2⟩

/-! ## The oscillator cache -/

/-- R176: the entries of a regenerated table. -/
theorem CnvCtx.regenerated_read (f : Int) (len t : Nat) :
    (C.regenerated f len).cos.read t = (if t < len then cvt32 (cos64 (tableAngle f C.rate.toNat t)) else C.cos.read t) ∧
    (C.regenerated f len).sin.read t = (if t < len then cvt32 (sin64 (tableAngle f C.rate.toNat t)) else C.sin.read t) := by
  simp [CnvCtx.regenerated, Mem.read_fill]

theorem CnvCtx.regenerated_wf {f : Int} {len : Nat} (h : C.lut.wf ∧ C.cos.wf ∧ C.sin.wf) :
    (C.regenerated f len).lut.wf ∧ (C.regenerated f len).cos.wf ∧ (C.regenerated f len).sin.wf :=
  ⟨h.1, Mem.wf_fill h.2.1 _ _ _, Mem.wf_fill h.2.2 _ _ _⟩

theorem CnvCtx.regenerated_within {e : Nat} {f : Int} {len : Nat} (hl : len ≤ e)
    (h : C.lut.within 65536 ∧ C.cos.within e ∧ C.sin.within e) :
    (C.regenerated f len).lut.within 65536 ∧ (C.regenerated f len).cos.within e ∧ (C.regenerated f len).sin.within e :=
  ⟨h.1, Mem.within_fill h.2.1 (by omega) _, Mem.within_fill h.2.2 (by omega) _⟩

/-- R45: a regenerated table keeps the invariant of the context. -/
theorem CnvCtx.Ok.regenerated {l : Limits} (h : C.Ok l) {f : Int} {len : Nat} (hlen : len ≤ C.maxlen.toNat) :
    (C.regenerated f len).Ok l := by
  have hlt := C.maxlen.isLt
  have e : (C.regenerated f len).ncoLen.toNat = len := Nat.mod_eq_of_lt (by omega)
  refine ⟨h.table, h.rate_pos, h.center, h.maxlen_pos, h.maxlen_le, fun _ => ⟨by rw [e]; exact hlen, ?_⟩⟩
  rcases Nat.eq_zero_or_pos len with h0 | h0
  · exact .inr ⟨by omega, rfl⟩
  · left; rw [e]; exact h0

/-- R176: the angle of a table entry. -/
theorem tableAngle_eq_phaseAngle (f : Int) (rate t : Nat) : tableAngle f rate t = phaseAngle f rate t := rfl

/-- R176: the regenerated context is the one the rule names. -/
theorem CnvCtx.regenerated_isRegenerated (f : Int) {len : Nat} (hlen : len < 2 ^ 32) :
    Regenerated C f len (C.regenerated f len) :=
  ⟨rfl, rfl, rfl, rfl, rfl, rfl, rfl, Nat.mod_eq_of_lt hlen, rfl, fun t => (CnvCtx.regenerated_read f len t).1,
    fun t => (CnvCtx.regenerated_read f len t).2⟩

/-- R176, R178: what bringing the cache up to date ends in: the context as it was where the cache already holds `f`, the
table of the best length, or no room for it; never a search out of fuel. -/
theorem updateCache_cases (f : Int) (hr : 1 ≤ C.rate.toNat) :
    (C.ncoValid = true ∧ C.ncoFreq = BitVec.ofInt 64 f ∧ updateCache C f = .ready C) ∨
    (¬ (C.ncoValid = true ∧ C.ncoFreq = BitVec.ofInt 64 f) ∧
      ∃ b, tableLength C.rate.toNat f.natAbs C.maxlen.toNat = some b ∧
        ((b.len ≤ C.maxlen.toNat ∧ updateCache C f = .ready (C.regenerated f b.len)) ∨
         (C.maxlen.toNat < b.len ∧ updateCache C f = .tooLong))) := by
  unfold updateCache
  by_cases h : C.ncoValid = false ∨ C.ncoFreq ≠ BitVec.ofInt 64 f
  · right
    rw [if_pos h]
    refine ⟨fun hc => h.elim (fun h => by simp [h] at hc) (fun h => h hc.2), ?_⟩
    obtain ⟨b, -, e, -⟩ := tableLength_spec (A := f.natAbs) (ml := C.maxlen.toNat) hr
    refine ⟨b, e, ?_⟩
    rw [regenerate, e]
    dsimp only
    by_cases hb : C.maxlen.toNat < b.len
    · exact .inr ⟨hb, if_pos hb⟩
    · exact .inl ⟨by omega, if_neg hb⟩
  · left
    rw [if_neg h]
    simp only [not_or, Bool.not_eq_false, ne_eq, not_not] at h
    exact ⟨h.1, h.2, rfl⟩

/-! ## The mixing loop -/

/-- R178: where a mixing fill stands after `n` samples. -/
theorem mixLoop_spec {b : RawSlot} {at_ : Nat} {x : MixRun} (hc : x.cur < C.ncoLen.toNat) : ∀ n,
    (mixLoop C b at_ n x).cur = (x.cur + n) % C.ncoLen.toNat ∧
    (∀ idx, (mixLoop C b at_ n x).re.read idx =
      if at_ ≤ idx ∧ idx < at_ + n then (C.mixAt b x.cur (idx - at_)).1 else x.re.read idx) ∧
    (∀ idx, (mixLoop C b at_ n x).im.read idx =
      if at_ ≤ idx ∧ idx < at_ + n then (C.mixAt b x.cur (idx - at_)).2 else x.im.read idx) ∧
    ((x.re.wf → (mixLoop C b at_ n x).re.wf) ∧ (x.im.wf → (mixLoop C b at_ n x).im.wf)) ∧
    (∀ e, at_ + n ≤ e → (x.re.within e → (mixLoop C b at_ n x).re.within e) ∧
      (x.im.within e → (mixLoop C b at_ n x).im.within e)) := by
  intro n
  induction n with
  | zero =>
    refine ⟨(Nat.mod_eq_of_lt hc).symm, fun idx => ?_, fun idx => ?_, ⟨id, id⟩, fun _ _ => ⟨id, id⟩⟩
    · rw [if_neg (by omega)]; rfl
    · rw [if_neg (by omega)]; rfl
  | succ n ih =>
    obtain ⟨h1, h2, h3, h4, h5⟩ := ih
    have hidx : ∀ (idx : Nat) (v : F32) (f : Nat → F32) (old : F32), v = f n →
        (if idx = at_ + n then v else if at_ ≤ idx ∧ idx < at_ + n then f (idx - at_) else old) =
          if at_ ≤ idx ∧ idx < at_ + (n + 1) then f (idx - at_) else old := by
      intro idx v f old hv
      by_cases hi : idx = at_ + n
      · rw [if_pos hi, if_pos (by omega), hi, Nat.add_sub_cancel_left, hv]
      · rw [if_neg hi]
        congr 1
        simp only [eq_iff_iff]
        omega
    refine ⟨?_, fun idx => ?_, fun idx => ?_, ?_, fun e he => ?_⟩
    · show ((mixLoop C b at_ n x).cur + 1) % _ = _
      rw [h1, Nat.mod_add_mod, Nat.add_assoc]
    · show ((mixLoop C b at_ n x).re.write _ _).read idx = _
      rw [Mem.read_write, h2, h1]
      exact hidx idx _ (fun j => (C.mixAt b x.cur j).1) _ rfl
    · show ((mixLoop C b at_ n x).im.write _ _).read idx = _
      rw [Mem.read_write, h3, h1]
      exact hidx idx _ (fun j => (C.mixAt b x.cur j).2) _ rfl
    · exact ⟨fun h => Mem.wf_write (h4.1 h) _ _, fun h => Mem.wf_write (h4.2 h) _ _⟩
    · exact ⟨fun h => Mem.within_write ((h5 e (by omega)).1 h) (by omega) _,
        fun h => Mem.within_write ((h5 e (by omega)).2 h) (by omega) _⟩

/-- R173: the output arrays of a straight fill. -/
theorem fillOutput_read (C : CnvCtx) (b : RawSlot) (out : Packet) (n idx : Nat) :
    (fillOutput C b out n).re.read idx = (if out.size.toNat ≤ idx ∧ idx < out.size.toNat + n then
      C.lut.read (rawI b (idx - out.size.toNat)) else out.re.read idx) ∧
    (fillOutput C b out n).im.read idx = (if out.size.toNat ≤ idx ∧ idx < out.size.toNat + n then
      C.lut.read (rawQ b (idx - out.size.toNat)) else out.im.read idx) :=
  ⟨Mem.read_fill _ _ _ _ _, Mem.read_fill _ _ _ _ _⟩

end Sys2Proof.Machine
end

