-- ==== Sys2Proof/Laws/PerInstr.lean ====
section
/-! SUPPORT. Laws/PerInstr.lean: the statements made of every command, one lemma per constructor. -/

namespace Sys2Proof

/-- R103: the word of a well-formed command is in the row of its mnemonic. -/
def Laws.MatchMask.Statement (i : Instr) : Prop := i.wellFormed = true → encode i &&& rowMask i = rowMatch i

theorem Laws.MatchMask.winblk : Laws.MatchMask.Statement .winblk := fun _ => by decide

theorem Laws.MatchMask.winham : Laws.MatchMask.Statement .winham := fun _ => by decide

theorem Laws.MatchMask.winksr : Laws.MatchMask.Statement .winksr := fun _ => by decide

theorem Laws.MatchMask.wini0 : Laws.MatchMask.Statement .wini0 := fun _ => by decide

theorem Laws.MatchMask.ratapx : Laws.MatchMask.Statement .ratapx := fun _ => by decide

theorem Laws.MatchMask.firdes (ctx : Nat) (win : WindowFn) : Laws.MatchMask.Statement (.firdes ctx win) := fun h => by
  have key : ∀ c : Fin 16, encode (.firdes c win) &&& rowMask (.firdes c win) = rowMatch (.firdes c win) := by
    cases win <;> decide +kernel
  exact key ⟨ctx, of_decide_eq_true h⟩

theorem Laws.MatchMask.firflt (ctx src dst : Nat) : Laws.MatchMask.Statement (.firflt ctx src dst) := fun h => by
  have key : ∀ c s d : Fin 16, encode (.firflt c s d) &&& rowMask (.firflt c s d) = rowMatch (.firflt c s d) := by
    decide +kernel
  obtain ⟨h1, h2, h3⟩ := of_decide_eq_true h
  exact key ⟨ctx, h1⟩ ⟨src, h2⟩ ⟨dst, h3⟩

theorem Laws.MatchMask.firfltr (ctx src dst : Nat) : Laws.MatchMask.Statement (.firfltr ctx src dst) := fun h => by
  have key : ∀ c s d : Fin 16, encode (.firfltr c s d) &&& rowMask (.firfltr c s d) = rowMatch (.firfltr c s d) := by
    decide +kernel
  obtain ⟨h1, h2, h3⟩ := of_decide_eq_true h
  exact key ⟨ctx, h1⟩ ⟨src, h2⟩ ⟨dst, h3⟩

theorem Laws.MatchMask.resinit (ctx : Nat) (custom : Bool) : Laws.MatchMask.Statement (.resinit ctx custom) := fun h => by
  have key : ∀ c : Fin 16, encode (.resinit c custom) &&& rowMask (.resinit c custom) = rowMatch (.resinit c custom) := by
    cases custom <;> decide +kernel
  exact key ⟨ctx, of_decide_eq_true h⟩

theorem Laws.MatchMask.resamp (ctx src dst : Nat) : Laws.MatchMask.Statement (.resamp ctx src dst) := fun h => by
  have key : ∀ c s d : Fin 16, encode (.resamp c s d) &&& rowMask (.resamp c s d) = rowMatch (.resamp c s d) := by
    decide +kernel
  obtain ⟨h1, h2, h3⟩ := of_decide_eq_true h
  exact key ⟨ctx, h1⟩ ⟨src, h2⟩ ⟨dst, h3⟩

theorem Laws.MatchMask.cnvinit (ctx : Nat) : Laws.MatchMask.Statement (.cnvinit ctx) := fun h => by
  have key : ∀ c : Fin 16, encode (.cnvinit c) &&& rowMask (.cnvinit c) = rowMatch (.cnvinit c) := by decide +kernel
  exact key ⟨ctx, of_decide_eq_true h⟩

theorem Laws.MatchMask.cnvfill (ctx src dst : Nat) : Laws.MatchMask.Statement (.cnvfill ctx src dst) := fun h => by
  have key : ∀ c s d : Fin 16, encode (.cnvfill c s d) &&& rowMask (.cnvfill c s d) = rowMatch (.cnvfill c s d) := by
    decide +kernel
  obtain ⟨h1, h2, h3⟩ := of_decide_eq_true h
  exact key ⟨ctx, h1⟩ ⟨src, h2⟩ ⟨dst, h3⟩

theorem Laws.MatchMask.cnvmix (ctx src dst : Nat) : Laws.MatchMask.Statement (.cnvmix ctx src dst) := fun h => by
  have key : ∀ c s d : Fin 16, encode (.cnvmix c s d) &&& rowMask (.cnvmix c s d) = rowMatch (.cnvmix c s d) := by
    decide +kernel
  obtain ⟨h1, h2, h3⟩ := of_decide_eq_true h
  exact key ⟨ctx, h1⟩ ⟨src, h2⟩ ⟨dst, h3⟩

end Sys2Proof
end

