-- ==== Sys2Proof/Laws/Rational.lean ====
section
/-! SUPPORT. Laws/Rational.lean: the mediant search ends within its fuel, and what it ends with (R120 to R123). -/

namespace Sys2Proof.Machine

/-- What holds of the bounds of the search throughout: they are neighbours around the target, within the bound. -/
structure Bounds.Around (n d maxd : Nat) (b : Bounds) : Prop where
  neighbours : b.un * b.ld = b.ln * b.ud + 1
  below : b.ln * d < n * b.ld
  above : n * b.ud < b.un * d
  ld_pos : 1 ≤ b.ld
  ld_le : b.ld ≤ maxd
  ud_le : b.ud ≤ maxd
  infinite : b.ud = 0 → b.ld = 1 ∧ b.un = 1

theorem Bounds.start_around {n d maxd : Nat} (hn : 1 ≤ n) (hd : 1 ≤ d) (hm : 1 ≤ maxd) :
    Bounds.start.Around n d maxd := by
  constructor <;> simp [Bounds.start] <;> omega

/-- R122 (a): a mediant with a denominator below the target's is not the target. -/
theorem mediant_ne {n d m k : Nat} (hg : Nat.gcd n d = 1) (hk : 1 ≤ k) (hlt : k < d) : m * d ≠ n * k := by
  intro h
  have : d ∣ n * k := ⟨m, by rw [← h, Nat.mul_comm]⟩
  have : d ∣ k := (Nat.Coprime.symm hg).dvd_of_dvd_mul_left this
  exact absurd (Nat.le_of_dvd hk this) (by omega)

theorem Bounds.narrow_around {n d maxd : Nat} {b : Bounds} (hb : b.Around n d maxd) (hg : Nat.gcd n d = 1)
    (hd : maxd < d) (hle : b.ld + b.ud ≤ maxd) : (b.narrow n d).Around n d maxd := by
  have hne := mediant_ne (m := b.ln + b.un) hg (show 1 ≤ b.ld + b.ud by have := hb.ld_pos; omega) (by omega)
  have e := hb.neighbours
  unfold Bounds.narrow
  split
  · rename_i h
    refine ⟨?_, h, hb.above, le_trans hb.ld_pos (Nat.le_add_right _ _), hle, hb.ud_le, fun h0 => ?_⟩
    · dsimp only; linear_combination e
    · dsimp only at h0 ⊢
      exact ⟨by rw [(hb.infinite h0).1, h0], (hb.infinite h0).2⟩
  · rename_i h
    refine ⟨?_, hb.below, lt_of_le_of_ne (not_lt.1 h) hne.symm, hb.ld_pos, hb.ld_le, hle, fun h0 => ?_⟩
    · dsimp only; linear_combination e
    · dsimp only at h0; have := hb.ld_pos; omega

/-- How many mediants are left. -/
def Bounds.left (n d maxd : Nat) (b : Bounds) : Nat :=
  if b.ud = 0 then n / d - b.ln + maxd + 1 else maxd + 1 - (b.ld + b.ud)

theorem Bounds.narrow_left {n d maxd : Nat} {b : Bounds} (hb : b.Around n d maxd) (hd : maxd < d)
    (hle : b.ld + b.ud ≤ maxd) : (b.narrow n d).left n d maxd < b.left n d maxd := by
  have hp := hb.ld_pos
  unfold Bounds.narrow
  split
  · rename_i h
    unfold Bounds.left
    dsimp only
    by_cases h0 : b.ud = 0
    · rw [if_pos h0, if_pos h0]
      obtain ⟨h1, h2⟩ := hb.infinite h0
      rw [h0, h1, h2, Nat.add_zero, Nat.mul_one] at h
      have : b.ln + 1 ≤ n / d := (Nat.le_div_iff_mul_le (by omega)).2 h.le
      omega
    · rw [if_neg h0, if_neg h0]
      omega
  · unfold Bounds.left
    dsimp only
    rw [if_neg (by omega)]
    split <;> omega

/-- R121, U5: the search ends within its fuel, with bounds whose mediant is out of range. -/
theorem mediantSearch_spec {n d maxd : Nat} (hg : Nat.gcd n d = 1) (hd : maxd < d) :
    ∀ (fuel : Nat) (b : Bounds), b.Around n d maxd → b.left n d maxd < fuel →
      ∃ b', mediantSearch n d maxd fuel b = some b' ∧ b'.Around n d maxd ∧ maxd < b'.ld + b'.ud := by
  intro fuel
  induction fuel with
  | zero => intro b _ h; omega
  | succ fuel ih =>
    intro b hb h
    rw [mediantSearch]
    by_cases hle : maxd < b.ld + b.ud
    · rw [if_pos hle]; exact ⟨b, rfl, hb, hle⟩
    · rw [if_neg hle]
      have := Bounds.narrow_left hb hd (by omega)
      exact ih _ (Bounds.narrow_around hb hg hd (by omega)) (by omega)

/-- R122 (b): the search ends with a finite upper bound. -/
theorem Bounds.Around.ud_pos {n d maxd : Nat} {b : Bounds} (hb : b.Around n d maxd) (hm : 1 ≤ maxd)
    (h : maxd < b.ld + b.ud) : 1 ≤ b.ud := by
  by_contra h0
  have := hb.infinite (by omega)
  omega

/-- Every fraction with a denominator in range lies outside the final bounds. -/
theorem Bounds.Around.outside {n d maxd : Nat} {b : Bounds} (hb : b.Around n d maxd) (h : maxd < b.ld + b.ud)
    {p q : Nat} (hq : q ≤ maxd) : p * b.ld ≤ b.ln * q ∨ b.un * q ≤ p * b.ud := by
  by_contra hc
  push Not at hc
  obtain ⟨h1, h2⟩ := hc
  have e := hb.neighbours
  have h3 : b.ld * (b.un * q) = b.ud * (b.ln * q) + q := by
    calc b.ld * (b.un * q) = b.un * b.ld * q := by ring
      _ = (b.ln * b.ud + 1) * q := by rw [e]
      _ = b.ud * (b.ln * q) + q := by ring
  have h4 : b.ld * (p * b.ud + 1) ≤ b.ld * (b.un * q) := Nat.mul_le_mul_left _ h2
  have h5 : b.ud * (b.ln * q + 1) ≤ b.ud * (p * b.ld) := Nat.mul_le_mul_left _ h1
  have h6 : b.ld * (p * b.ud + 1) = b.ud * (p * b.ld) + b.ld := by ring
  rw [Nat.mul_add, Nat.mul_one] at h5
  omega

/-- R122 (e): the bounds are in lowest terms. -/
theorem Bounds.Around.coprime {n d maxd : Nat} {b : Bounds} (hb : b.Around n d maxd) :
    Nat.gcd b.ln b.ld = 1 ∧ Nat.gcd b.un b.ud = 1 := by
  have e := hb.neighbours
  constructor
  · refine Nat.dvd_one.1 ((Nat.dvd_add_right (Nat.dvd_mul_right_of_dvd (Nat.gcd_dvd_left b.ln b.ld) b.ud)).1 ?_)
    rw [← e]
    exact Nat.dvd_mul_left_of_dvd (Nat.gcd_dvd_right b.ln b.ld) b.un
  · refine Nat.dvd_one.1 ((Nat.dvd_add_right (Nat.dvd_mul_left_of_dvd (Nat.gcd_dvd_right b.un b.ud) b.ln)).1 ?_)
    rw [← e]
    exact Nat.dvd_mul_right_of_dvd (Nat.gcd_dvd_left b.un b.ud) b.ld

/-- The distance of the fraction `p/q` from the fraction `n/d`, multiplied by `q * d`. -/
def fracError (n d p q : Nat) : Nat := ((p : Int) * d - n * q).natAbs

theorem fracError_below {n d p q : Nat} (h : p * d ≤ n * q) : (fracError n d p q : Int) = n * q - p * d := by
  unfold fracError
  have : (p : Int) * d ≤ n * q := by exact_mod_cast h
  omega

theorem fracError_above {n d p q : Nat} (h : n * q ≤ p * d) : (fracError n d p q : Int) = p * d - n * q := by
  unfold fracError
  have : (n : Int) * q ≤ p * d := by exact_mod_cast h
  omega

/-- R121: the fraction chosen at the end is in lowest terms, in range, and as near to the target as any in range. -/
theorem Bounds.nearest_spec {n d maxd : Nat} {b : Bounds} (hb : b.Around n d maxd) (hm : 1 ≤ maxd)
    (h : maxd < b.ld + b.ud) :
    1 ≤ (b.nearest n d).2 ∧ (b.nearest n d).2 ≤ maxd ∧ Nat.gcd (b.nearest n d).1 (b.nearest n d).2 = 1 ∧
    ∀ p q, 1 ≤ q → q ≤ maxd →
      fracError n d (b.nearest n d).1 (b.nearest n d).2 * q ≤ fracError n d p q * (b.nearest n d).2 := by
  have hud := hb.ud_pos hm h
  have e := hb.neighbours
  have hl := fracError_below hb.below.le
  have hu := fracError_above hb.above.le
  have low : ∀ p q, p * b.ld ≤ b.ln * q → fracError n d b.ln b.ld * q ≤ fracError n d p q * b.ld := by
    intro p q hpq
    have h1 : p * d ≤ n * q := by
      refine Nat.le_of_mul_le_mul_right ?_ hb.ld_pos
      calc p * d * b.ld = p * b.ld * d := by ring
        _ ≤ b.ln * q * d := Nat.mul_le_mul_right _ hpq
        _ = b.ln * d * q := by ring
        _ ≤ n * b.ld * q := Nat.mul_le_mul_right _ hb.below.le
        _ = n * q * b.ld := by ring
    zify
    rw [hl, fracError_below h1]
    have : (p : Int) * b.ld * d ≤ b.ln * q * d := by exact_mod_cast Nat.mul_le_mul_right d hpq
    linarith
  have high : ∀ p q, b.un * q ≤ p * b.ud → fracError n d b.un b.ud * q ≤ fracError n d p q * b.ud := by
    intro p q hpq
    have h1 : n * q ≤ p * d := by
      refine Nat.le_of_mul_le_mul_right ?_ hud
      calc n * q * b.ud = n * b.ud * q := by ring
        _ ≤ b.un * d * q := Nat.mul_le_mul_right _ hb.above.le
        _ = b.un * q * d := by ring
        _ ≤ p * b.ud * d := Nat.mul_le_mul_right _ hpq
        _ = p * d * b.ud := by ring
    zify
    rw [hu, fracError_above h1]
    have : (b.un : Int) * q * d ≤ p * b.ud * d := by exact_mod_cast Nat.mul_le_mul_right d hpq
    linarith
  have hel : ((b.ln : Int) * d - n * b.ld).natAbs = fracError n d b.ln b.ld := rfl
  have heu : ((b.un : Int) * d - n * b.ud).natAbs = fracError n d b.un b.ud := rfl
  unfold Bounds.nearest
  simp only [hel, heu]
  split
  · rename_i hc
    refine ⟨hud, hb.ud_le, ?_, fun p q h1 h2 => ?_⟩
    · exact hb.coprime.2
    · rcases hb.outside h (p := p) h2 with ho | ho
      · have := low p q ho
        refine Nat.le_of_mul_le_mul_right ?_ hb.ld_pos
        calc fracError n d b.un b.ud * q * b.ld = fracError n d b.un b.ud * b.ld * q := by ring
          _ ≤ fracError n d b.ln b.ld * b.ud * q := Nat.mul_le_mul_right _ hc.2.le
          _ = fracError n d b.ln b.ld * q * b.ud := by ring
          _ ≤ fracError n d p q * b.ld * b.ud := Nat.mul_le_mul_right _ this
          _ = fracError n d p q * b.ud * b.ld := by ring
      · exact high p q ho
  · rename_i hc
    have hc : fracError n d b.ln b.ld * b.ud ≤ fracError n d b.un b.ud * b.ld := by
      by_contra hn
      exact hc ⟨by omega, by omega⟩
    refine ⟨hb.ld_pos, hb.ld_le, ?_, fun p q h1 h2 => ?_⟩
    · exact hb.coprime.1
    · rcases hb.outside h (p := p) h2 with ho | ho
      · exact low p q ho
      · have := high p q ho
        refine Nat.le_of_mul_le_mul_right ?_ hud
        calc fracError n d b.ln b.ld * q * b.ud = fracError n d b.ln b.ld * b.ud * q := by ring
          _ ≤ fracError n d b.un b.ud * b.ld * q := Nat.mul_le_mul_right _ hc
          _ = fracError n d b.un b.ud * q * b.ld := by ring
          _ ≤ fracError n d p q * b.ud * b.ld := Nat.mul_le_mul_right _ this
          _ = fracError n d p q * b.ld * b.ud := by ring

/-- R120 to R123: the approximation exists, is in lowest terms and in range, and no fraction in range is nearer. -/
theorem ratApprox_spec {num den maxd : Nat} (h1 : 1 ≤ num) (h2 : 1 ≤ den) (hm : 1 ≤ maxd) :
    ∃ n d, ratApprox num den maxd = some (n, d) ∧ 1 ≤ d ∧ d ≤ maxd ∧ Nat.gcd n d = 1 ∧
      ∀ p q, 1 ≤ q → q ≤ maxd → fracError num den n d * q ≤ fracError num den p q * d := by
  have hg : 0 < Nat.gcd num den := Nat.gcd_pos_of_pos_left _ h1
  have en : Nat.gcd num den * (num / Nat.gcd num den) = num := Nat.mul_div_cancel' (Nat.gcd_dvd_left _ _)
  have ed : Nat.gcd num den * (den / Nat.gcd num den) = den := Nat.mul_div_cancel' (Nat.gcd_dvd_right _ _)
  have hco : Nat.gcd (num / Nat.gcd num den) (den / Nat.gcd num den) = 1 :=
    Nat.coprime_div_gcd_div_gcd hg
  have hn : 1 ≤ num / Nat.gcd num den := by
    refine Nat.pos_of_ne_zero fun hc => ?_
    rw [hc, Nat.mul_zero] at en
    omega
  have hd : 1 ≤ den / Nat.gcd num den := by
    refine Nat.pos_of_ne_zero fun hc => ?_
    rw [hc, Nat.mul_zero] at ed
    omega
  unfold ratApprox
  dsimp only
  generalize Nat.gcd num den = g at *
  generalize num / g = n at *
  generalize den / g = d at *
  have scale : ∀ p q, fracError num den p q = g * fracError n d p q := by
    intro p q
    unfold fracError
    rw [← en, ← ed]
    have : (p : Int) * ((g * d : Nat) : Int) - ((g * n : Nat) : Int) * q = (g : Int) * (p * d - n * q) := by
      push_cast; ring
    rw [this, Int.natAbs_mul, Int.natAbs_natCast]
  split
  · refine ⟨n, d, rfl, hd, by assumption, hco, fun p q _ _ => ?_⟩
    have : fracError n d n d = 0 := by unfold fracError; simp
    rw [scale, this, Nat.mul_zero, Nat.zero_mul]
    exact Nat.zero_le _
  · rename_i hlt
    have hlt : maxd < d := by omega
    have h0 := Bounds.start_around (n := n) (d := d) (maxd := maxd) hn hd hm
    obtain ⟨b, e, hb, hx⟩ := mediantSearch_spec hco hlt (mediantFuel n d maxd) _ h0 (by
      unfold Bounds.left Bounds.start mediantFuel
      dsimp only
      rw [if_pos rfl]
      generalize n / d = k
      omega)
    rw [e]
    obtain ⟨b1, b2, b3, b4⟩ := Bounds.nearest_spec hb hm hx
    refine ⟨_, _, rfl, b1, b2, b3, fun p q hq1 hq2 => ?_⟩
    rw [scale, scale, Nat.mul_assoc, Nat.mul_assoc]
    exact Nat.mul_le_mul_left _ (b4 p q hq1 hq2)

/-- R122 (g): the numerator of the approximation fits a result register. -/
theorem ratApprox_lt {num den maxd n d : Nat} (h1 : num ≤ 2 ^ 32 - 1) (h2 : 1 ≤ den) (hd : d ≤ 2 ^ 32 - 1) (hm : 1 ≤ maxd)
    (h : ∀ p q, 1 ≤ q → q ≤ maxd → fracError num den n d * q ≤ fracError num den p q * d) : n < 2 ^ 64 := by
  have h0 := h (num / den) 1 le_rfl hm
  have e : fracError num den (num / den) 1 < den := by
    have h3 := Nat.div_add_mod num den
    have h4 := Nat.mod_lt num h2
    have h5 : (num / den) * den ≤ num * 1 := by rw [Nat.mul_comm]; omega
    have := fracError_below h5
    have h6 : ((num / den : Nat) : Int) * den = ((den * (num / den) : Nat) : Int) := by push_cast; ring
    omega
  have h7 : n * den ≤ num * d + fracError num den n d := by
    unfold fracError
    have : ((n * den : Nat) : Int) = n * den := by push_cast; ring
    have : ((num * d : Nat) : Int) = num * d := by push_cast; ring
    omega
  have h8 : fracError num den n d ≤ den * d := by
    rw [Nat.mul_one] at h0
    exact le_trans h0 (Nat.mul_le_mul_right _ e.le)
  have h9 : n * den ≤ (num + 1) * d * den := by
    calc n * den ≤ num * d + den * d := by omega
      _ ≤ num * d * den + den * d := Nat.add_le_add_right (Nat.le_mul_of_pos_right _ h2) _
      _ = (num + 1) * d * den := by ring
  have h10 := Nat.le_of_mul_le_mul_right h9 h2
  have h11 : (num + 1) * d ≤ 2 ^ 32 * (2 ^ 32 - 1) := Nat.mul_le_mul (by omega) hd
  omega

end Sys2Proof.Machine
end

