-- ==== Sys2Proof/Laws/Resampler.lean ====
section
/-! SUPPORT. Laws/Resampler.lean: what a `RESAMP` does to its context and its output packet (R156 to R158), said once, and
what a construction leaves (R151 to R155). -/

namespace Sys2Proof.Machine

/-- R158: the dot product of a phase, term by term. -/
theorem resAcc_eq (lim : Limits) (R : ResCtx) (line : Mem 32) (p : Nat) : ∀ count k,
    resAcc lim R line p count k (dotProduct (fun j => R.ph.read (phIndex lim p j))
      (fun j => line.read ((R.pos.toNat + R.subLen.toNat - 1 - j) % R.subLen.toNat)) k) =
      dotProduct (fun j => R.ph.read (phIndex lim p j))
        (fun j => line.read ((R.pos.toNat + R.subLen.toNat - 1 - j) % R.subLen.toNat)) (k + count) := by
  intro count
  induction count with
  | zero => intro k; rfl
  | succ count ih =>
    intro k
    rw [resAcc]
    have := ih (k + 1)
    rw [dotProduct] at this
    rw [this, show k + 1 + count = k + (count + 1) by omega]

/-- R158: `ResDot` is the dot product of a phase with the samples from the newest back. -/
theorem resDot_eq (lim : Limits) (R : ResCtx) (line : Mem 32) (p : Nat) :
    resDot lim R line p = dotProduct (fun k => R.ph.read (phIndex lim p k))
      (fun k => line.read ((R.pos.toNat + R.subLen.toNat - 1 - k) % R.subLen.toNat)) R.subLen.toNat := by
  have := resAcc_eq lim R line p R.subLen.toNat 0
  rw [Nat.zero_add, dotProduct] at this
  exact this

/-- A context after a `RESAMP` has computed `j` outputs and consumed `c` samples. -/
def ResCtx.after (R : ResCtx) (xr xi : Nat → F32) (j c : Nat) : ResCtx :=
  { R with
    dre := pushSamples R.dre xr R.pos.toNat R.subLen.toNat c
    dim := pushSamples R.dim xi R.pos.toNat R.subLen.toNat c
    pos := BitVec.ofNat 32 ((R.pos.toNat + c) % R.subLen.toNat)
    ctr := BitVec.ofNat 32 (R.phaseAt j - c * R.facL.toNat) }

/-- What stands at an index of an output array of a `RESAMP` that has appended `cnt` outputs from index `base` on. -/
def ResCtx.outputMem (l : Limits) (R : ResCtx) (line : Mem 32) (x : Nat → F32) (old : Mem 32) (base cnt idx : Nat) : F32 :=
  if base ≤ idx ∧ idx < base + cnt then R.outputAt l line x (idx - base) else old.read idx

/-- Where a `RESAMP` stands that has computed `j` outputs and consumed `c` samples. -/
structure ResAt (l : Limits) (R : ResCtx) (inp out : Packet) (off j c : Nat) (x : ResRun) : Prop where
  cnt : x.cnt = c
  ctx : x.ctx = R.after (fun i => inp.re.read (off + i)) (fun i => inp.im.read (off + i)) j c
  o : x.o = out.size.toNat + j
  owed : c ≤ R.phaseAt j / R.facL.toNat
  bound : R.phaseAt j - c * R.facL.toNat ≤ R.facL.toNat + R.facM.toNat - 1
  re : ∀ idx, x.re.read idx = R.outputMem l R.dre (fun i => inp.re.read (off + i)) out.re out.size.toNat j idx
  im : ∀ idx, x.im.read idx = R.outputMem l R.dim (fun i => inp.im.read (off + i)) out.im out.size.toNat j idx
  wf : (out.re.wf → x.re.wf) ∧ (out.im.wf → x.im.wf)
  within : ∀ e, out.cap.toNat ≤ e → (out.re.within e → x.re.within e) ∧ (out.im.within e → x.im.within e)

/-- What a `RESAMP` needs of its context (part of R43). -/
structure ResCtx.Ready (R : ResCtx) : Prop where
  facL_pos : 1 ≤ R.facL.toNat
  facM_pos : 1 ≤ R.facM.toNat
  small : R.facL.toNat + R.facM.toNat ≤ 2 ^ 32
  pos_lt : R.pos.toNat < R.subLen.toNat
  ctr_le : R.ctr.toNat ≤ R.facL.toNat + R.facM.toNat - 1

theorem ResCtx.Ok.ready {l : Limits} {R : ResCtx} (h : R.Ok l) (hl : l.Ok) : R.Ready where
  facL_pos := h.facL_pos
  facM_pos := h.facM_pos
  small := by have := h.facL_le; have := h.facM_le; have := hl.2.2.2.2.1.2; omega
  pos_lt := h.pos_lt
  ctr_le := h.ctr_le

variable {l : Limits} {R : ResCtx} {inp out : Packet} {off : Nat}

theorem ResCtx.after_zero (hR : R.Ready) (xr xi : Nat → F32) : R.after xr xi 0 0 = R := by
  unfold ResCtx.after ResCtx.phaseAt
  rw [Nat.add_zero, Nat.zero_mul, Nat.zero_mul, Nat.add_zero, Nat.sub_zero, Nat.mod_eq_of_lt hR.pos_lt,
    BitVec.ofNat_toNat, BitVec.ofNat_toNat]
  simp [pushSamples]

theorem ResCtx.after_pos (hR : R.Ready) (xr xi : Nat → F32) (j c : Nat) :
    (R.after xr xi j c).pos.toNat = (R.pos.toNat + c) % R.subLen.toNat := by
  have := hR.pos_lt
  have := Nat.mod_lt (R.pos.toNat + c) (show 0 < R.subLen.toNat by omega)
  have := R.subLen.isLt
  exact Nat.mod_eq_of_lt (by omega)

theorem ResCtx.after_ctr (hR : R.Ready) (xr xi : Nat → F32) {j c : Nat}
    (h : R.phaseAt j - c * R.facL.toNat ≤ R.facL.toNat + R.facM.toNat - 1) :
    (R.after xr xi j c).ctr.toNat = R.phaseAt j - c * R.facL.toNat := by
  have := hR.small
  have := hR.facM_pos
  exact Nat.mod_eq_of_lt (by omega)

theorem ResAt.consume {j c : Nat} {x : ResRun} (hR : R.Ready) (h : ResAt l R inp out off j c x)
    (hc : c + 1 ≤ R.phaseAt j / R.facL.toNat) : ResAt l R inp out off j (c + 1) (x.consume inp off) := by
  obtain ⟨h1, h2, h3, h4, h5, h6, h7, h8, h9⟩ := h
  have hp := ResCtx.after_pos hR (fun i => inp.re.read (off + i)) (fun i => inp.im.read (off + i)) j c
  have hx := ResCtx.after_ctr hR (fun i => inp.re.read (off + i)) (fun i => inp.im.read (off + i)) h5
  have hm : (c + 1) * R.facL.toNat = c * R.facL.toNat + R.facL.toNat := Nat.succ_mul _ _
  refine ⟨congrArg (· + 1) h1, ?_, h3, hc, by omega, h6, h7, h8, h9⟩
  simp only [ResRun.consume, h2, hp, hx, h1]
  simp only [ResCtx.after, pushSamples, Nat.mod_add_mod, hm, Nat.add_assoc, Nat.sub_sub]

/-- R156: the inner loop consumes what the phase counter owes, as far as the samples go. -/
theorem resDrain_spec (hR : R.Ready) {j : Nat} : ∀ (left c : Nat) (x : ResRun), ResAt l R inp out off j c x →
    ResAt l R inp out off j (min (c + left) (R.phaseAt j / R.facL.toNat)) (resDrain inp off left x) := by
  intro left
  induction left with
  | zero =>
    intro c x h
    rw [Nat.add_zero, min_eq_left h.owed]
    exact h
  | succ left ih =>
    intro c x h
    have hx := ResCtx.after_ctr hR (fun i => inp.re.read (off + i)) (fun i => inp.im.read (off + i)) h.bound
    have hm : (c + 1) * R.facL.toNat = c * R.facL.toNat + R.facL.toNat := Nat.succ_mul _ _
    have hL := hR.facL_pos
    have hiff : c + 1 ≤ R.phaseAt j / R.facL.toNat ↔ (c + 1) * R.facL.toNat ≤ R.phaseAt j := Nat.le_div_iff_mul_le hL
    have ho := h.owed
    rw [resDrain, h.ctx, hx]
    have hf : (R.after (fun i => inp.re.read (off + i)) (fun i => inp.im.read (off + i)) j c).facL = R.facL := rfl
    rw [hf]
    by_cases hle : R.facL.toNat ≤ R.phaseAt j - c * R.facL.toNat
    · rw [if_pos hle]
      have hc := hiff.2 (by omega)
      have := ih (c + 1) _ (h.consume hR hc)
      rwa [show c + 1 + left = c + (left + 1) by omega] at this
    · rw [if_neg hle]
      have hc : ¬ c + 1 ≤ R.phaseAt j / R.facL.toNat := fun hc => hle (by have := hiff.1 hc; omega)
      rw [show min (c + (left + 1)) (R.phaseAt j / R.facL.toNat) = c by omega]
      exact h

theorem ResCtx.outputMem_step {line : Mem 32} {x : Nat → F32} {old : Mem 32} {base j : Nat} (idx : Nat) :
    R.outputMem l line x old base (j + 1) idx =
      if idx = base + j then R.outputAt l line x j else R.outputMem l line x old base j idx := by
  unfold ResCtx.outputMem
  by_cases hi : idx = base + j
  · rw [if_pos hi, if_pos (by omega), hi, Nat.add_sub_cancel_left]
  · rw [if_neg hi]
    congr 1
    simp only [eq_iff_iff]
    omega

theorem mod_add_sub_one {a n k : Nat} (h : k < n) : (a % n + n - 1 - k) % n = (a + n - 1 - k) % n := by
  rw [show a % n + n - 1 - k = a % n + (n - 1 - k) by omega, show a + n - 1 - k = a + (n - 1 - k) by omega, Nat.mod_add_mod]

/-- R158: the output computed once all owed samples are consumed. -/
theorem resDot_after (hR : R.Ready) (xr xi : Nat → F32) {j c : Nat} (hc : c = R.phaseAt j / R.facL.toNat) :
    (R.after xr xi j c).ctr.toNat = R.phaseAt j % R.facL.toNat ∧
    resDot l (R.after xr xi j c) (R.after xr xi j c).dre (R.phaseAt j % R.facL.toNat) = R.outputAt l R.dre xr j ∧
    resDot l (R.after xr xi j c) (R.after xr xi j c).dim (R.phaseAt j % R.facL.toNat) = R.outputAt l R.dim xi j := by
  have hL := hR.facL_pos
  have hM := hR.facM_pos
  have hp := ResCtx.after_pos hR xr xi j c
  have hmod : R.phaseAt j - c * R.facL.toNat = R.phaseAt j % R.facL.toNat := by
    have := Nat.div_add_mod (R.phaseAt j) R.facL.toNat
    rw [← hc, Nat.mul_comm] at this
    omega
  have hlt := Nat.mod_lt (R.phaseAt j) (show 0 < R.facL.toNat by omega)
  refine ⟨by rw [ResCtx.after_ctr hR xr xi (by omega), hmod], ?_⟩
  rw [resDot_eq, resDot_eq, hp]
  have key : ∀ (line : Mem 32) (x : Nat → F32),
      dotProduct (fun k => R.ph.read (phIndex l (R.phaseAt j % R.facL.toNat) k))
        (fun k => (pushSamples line x R.pos.toNat R.subLen.toNat c).read
          (((R.pos.toNat + c) % R.subLen.toNat + R.subLen.toNat - 1 - k) % R.subLen.toNat)) R.subLen.toNat =
      R.outputAt l line x j := by
    intro line x
    refine dotProduct_congr _ fun k hk => ?_
    rw [mod_add_sub_one hk, ResCtx.history, ← hc]
    cases c with
    | zero => rw [if_neg (by omega)]; rfl
    | succ c =>
      have := read_pushSamples line x R.pos.toNat R.subLen.toNat c k hk
      rw [show R.pos.toNat + (c + 1) + R.subLen.toNat - 1 - k = R.pos.toNat + c + R.subLen.toNat - k by omega, this]
      by_cases hkc : k ≤ c
      · rw [if_pos hkc, if_pos (by omega)]; congr 1
      · rw [if_neg hkc, if_neg (by omega)]
  exact ⟨key R.dre xr, key R.dim xi⟩

theorem ResCtx.phaseAt_succ (j : Nat) : R.phaseAt (j + 1) = R.phaseAt j + R.facM.toNat := by
  unfold ResCtx.phaseAt; rw [Nat.succ_mul]; omega

theorem ResAt.emit {j c : Nat} {x : ResRun} (hR : R.Ready) (h : ResAt l R inp out off j c x)
    (hc : c = R.phaseAt j / R.facL.toNat) (hroom : x.o < out.cap.toNat) :
    ResAt l R inp out off (j + 1) c (x.emit l) := by
  obtain ⟨h1, h2, h3, h4, h5, h6, h7, h8, h9⟩ := h
  obtain ⟨d0, d1, d2⟩ := resDot_after (l := l) hR (fun i => inp.re.read (off + i)) (fun i => inp.im.read (off + i)) hc
  have hlt := Nat.mod_lt (R.phaseAt j) (show 0 < R.facL.toNat from hR.facL_pos)
  have hx := ResCtx.after_ctr hR (fun i => inp.re.read (off + i)) (fun i => inp.im.read (off + i)) h5
  have hs := ResCtx.phaseAt_succ (R := R) j
  have hcL : c * R.facL.toNat ≤ R.phaseAt j := by rw [hc]; exact Nat.div_mul_le_self _ _
  refine ⟨h1, ?_, ?_, ?_, by omega, ?_, ?_, ?_, ?_⟩
  · simp only [ResRun.emit, h2, hx]
    simp only [ResCtx.after, hs]
    rw [show R.phaseAt j - c * R.facL.toNat + R.facM.toNat = R.phaseAt j + R.facM.toNat - c * R.facL.toNat by omega]
  · show x.o + 1 = _
    omega
  · rw [hs]
    exact le_trans h4 (Nat.div_le_div_right (Nat.le_add_right _ _))
  · intro idx
    show (x.re.write x.o (resDot l x.ctx x.ctx.dre x.ctx.ctr.toNat)).read idx = _
    rw [Mem.read_write, h6, h2, d0, d1, h3, ResCtx.outputMem_step]
  · intro idx
    show (x.im.write x.o (resDot l x.ctx x.ctx.dim x.ctx.ctr.toNat)).read idx = _
    rw [Mem.read_write, h7, h2, d0, d2, h3, ResCtx.outputMem_step]
  · exact ⟨fun h => Mem.wf_write (h8.1 h) _ _, fun h => Mem.wf_write (h8.2 h) _ _⟩
  · exact fun e he => ⟨fun h => Mem.within_write ((h9 e he).1 h) (by omega) _,
      fun h => Mem.within_write ((h9 e he).2 h) (by omega) _⟩

/-- R156: an output is due where the samples before it are fewer than the command has. -/
theorem ResCtx.due_iff (hR : R.Ready) (len j : Nat) :
    j < (len * R.facL.toNat - R.ctr.toNat + R.facM.toNat - 1) / R.facM.toNat ↔ R.phaseAt j / R.facL.toNat < len := by
  have hL := hR.facL_pos
  have hM := hR.facM_pos
  rw [Nat.div_lt_iff_lt_mul hL, ResCtx.phaseAt]
  have : j < (len * R.facL.toNat - R.ctr.toNat + R.facM.toNat - 1) / R.facM.toNat ↔
      (j + 1) * R.facM.toNat ≤ len * R.facL.toNat - R.ctr.toNat + R.facM.toNat - 1 := Nat.le_div_iff_mul_le hM
  rw [this, Nat.succ_mul]
  omega

/-- R156: the outer loop from its head. -/
theorem resLoop_spec (hR : R.Ready) {len : Nat} (hcap : out.size.toNat ≤ out.cap.toNat) : ∀ (room j : Nat) (x : ResRun),
    room + j = out.cap.toNat - out.size.toNat →
    j ≤ (len * R.facL.toNat - R.ctr.toNat + R.facM.toNat - 1) / R.facM.toNat →
    ResAt l R inp out off j (min len (R.phaseAt j / R.facL.toNat)) x →
    ResAt l R inp out off (R.outputs (out.cap.toNat - out.size.toNat) len)
      (R.consumed (out.cap.toNat - out.size.toNat) len) (resLoop l inp off len room x) := by
  intro room
  induction room with
  | zero =>
    intro j x hrj hj h
    have : R.outputs (out.cap.toNat - out.size.toNat) len = j := by unfold ResCtx.outputs; omega
    rw [ResCtx.consumed, this]
    exact h
  | succ room ih =>
    intro j x hrj hj h
    have hdue := ResCtx.due_iff hR len j
    have hcnt := h.cnt
    rw [resLoop]
    by_cases hlt : x.cnt < len
    · rw [if_pos hlt]
      have hc : R.phaseAt j / R.facL.toNat < len := by omega
      have hmin : min len (R.phaseAt j / R.facL.toNat) = R.phaseAt j / R.facL.toNat := min_eq_right hc.le
      rw [hmin] at h hcnt
      have ho := h.o
      have he := h.emit hR rfl (by omega)
      have hj' := hdue.2 hc
      refine ih (j + 1) _ (by omega) hj' ?_
      have := resDrain_spec hR (len - (x.emit l).cnt) _ _ he
      have e : (x.emit l).cnt = R.phaseAt j / R.facL.toNat := hcnt
      rw [e] at this ⊢
      rwa [show R.phaseAt j / R.facL.toNat + (len - R.phaseAt j / R.facL.toNat) = len by omega] at this
    · rw [if_neg hlt]
      have hc : ¬ R.phaseAt j / R.facL.toNat < len := by omega
      have hj' : ¬ j < (len * R.facL.toNat - R.ctr.toNat + R.facM.toNat - 1) / R.facM.toNat := fun h => hc (hdue.1 h)
      have : R.outputs (out.cap.toNat - out.size.toNat) len = j := by unfold ResCtx.outputs; omega
      rw [ResCtx.consumed, this]
      exact h

/-- R156 to R158: what a `RESAMP` does, said once. -/
theorem resRun_spec (hR : R.Ready) (hcap : out.size.toNat ≤ out.cap.toNat) (len : Nat) :
    ResAt l R inp out off (R.outputs (out.cap.toNat - out.size.toNat) len)
      (R.consumed (out.cap.toNat - out.size.toNat) len) (resRun l R inp out off len) := by
  have start : ResAt l R inp out off 0 0 { ctx := R, re := out.re, im := out.im, o := out.size.toNat, cnt := 0 } := by
    have hb := hR.ctr_le
    refine ⟨rfl, (ResCtx.after_zero hR _ _).symm, rfl, Nat.zero_le _, ?_, ?_, ?_, ⟨id, id⟩, fun _ _ => ⟨id, id⟩⟩
    · unfold ResCtx.phaseAt; omega
    · intro idx; rw [ResCtx.outputMem, if_neg (by omega)]
    · intro idx; rw [ResCtx.outputMem, if_neg (by omega)]
  refine resLoop_spec hR hcap _ 0 _ rfl (Nat.zero_le _) ?_
  have := resDrain_spec hR len 0 _ start
  rwa [Nat.zero_add] at this

end Sys2Proof.Machine
end

