-- ==== Sys2Proof/Laws/State.lean ====
section
/-! SUPPORT. Laws/State.lean: what each update of the state leaves in each field. -/

namespace Sys2Proof.Machine

variable (s : State)

@[simp] theorem State.raise_a (e : ErrCode) : (s.raise e).a = s.a := rfl
@[simp] theorem State.raise_r (e : ErrCode) : (s.raise e).r = s.r := rfl
@[simp] theorem State.raise_cmd (e : ErrCode) : (s.raise e).cmd = s.cmd := rfl
@[simp] theorem State.raise_status (e : ErrCode) : (s.raise e).status = statusWord e.number := rfl
@[simp] theorem State.raise_pkt (e : ErrCode) : (s.raise e).pkt = s.pkt := rfl
@[simp] theorem State.raise_raw (e : ErrCode) : (s.raise e).raw = s.raw := rfl
@[simp] theorem State.raise_tbuf (e : ErrCode) : (s.raise e).tbuf = s.tbuf := rfl
@[simp] theorem State.raise_fir (e : ErrCode) : (s.raise e).fir = s.fir := rfl
@[simp] theorem State.raise_res (e : ErrCode) : (s.raise e).res = s.res := rfl
@[simp] theorem State.raise_cnv (e : ErrCode) : (s.raise e).cnv = s.cnv := rfl
@[simp] theorem State.raise_lim (e : ErrCode) : (s.raise e).lim = s.lim := rfl
@[simp] theorem State.raise_host (e : ErrCode) : (s.raise e).host = s.host := rfl

@[simp] theorem State.complete_a : s.complete.a = s.a := rfl
@[simp] theorem State.complete_r : s.complete.r = s.r := rfl
@[simp] theorem State.complete_cmd : s.complete.cmd = s.cmd := rfl
@[simp] theorem State.complete_status : s.complete.status = statusWord 0 := rfl
@[simp] theorem State.complete_pkt : s.complete.pkt = s.pkt := rfl
@[simp] theorem State.complete_raw : s.complete.raw = s.raw := rfl
@[simp] theorem State.complete_tbuf : s.complete.tbuf = s.tbuf := rfl
@[simp] theorem State.complete_fir : s.complete.fir = s.fir := rfl
@[simp] theorem State.complete_res : s.complete.res = s.res := rfl
@[simp] theorem State.complete_cnv : s.complete.cnv = s.cnv := rfl
@[simp] theorem State.complete_lim : s.complete.lim = s.lim := rfl
@[simp] theorem State.complete_host : s.complete.host = s.host := rfl

@[simp] theorem State.setR_a (i : Fin 2) (v : Word64) : (s.setR i v).a = s.a := rfl
@[simp] theorem State.setR_r (i : Fin 2) (v : Word64) : (s.setR i v).r = s.r.set i v := rfl
@[simp] theorem State.setR_cmd (i : Fin 2) (v : Word64) : (s.setR i v).cmd = s.cmd := rfl
@[simp] theorem State.setR_status (i : Fin 2) (v : Word64) : (s.setR i v).status = s.status := rfl
@[simp] theorem State.setR_pkt (i : Fin 2) (v : Word64) : (s.setR i v).pkt = s.pkt := rfl
@[simp] theorem State.setR_raw (i : Fin 2) (v : Word64) : (s.setR i v).raw = s.raw := rfl
@[simp] theorem State.setR_tbuf (i : Fin 2) (v : Word64) : (s.setR i v).tbuf = s.tbuf := rfl
@[simp] theorem State.setR_fir (i : Fin 2) (v : Word64) : (s.setR i v).fir = s.fir := rfl
@[simp] theorem State.setR_res (i : Fin 2) (v : Word64) : (s.setR i v).res = s.res := rfl
@[simp] theorem State.setR_cnv (i : Fin 2) (v : Word64) : (s.setR i v).cnv = s.cnv := rfl
@[simp] theorem State.setR_lim (i : Fin 2) (v : Word64) : (s.setR i v).lim = s.lim := rfl
@[simp] theorem State.setR_host (i : Fin 2) (v : Word64) : (s.setR i v).host = s.host := rfl

@[simp] theorem State.setPkt_a (p : Nat) (x : Packet) : (s.setPkt p x).a = s.a := rfl
@[simp] theorem State.setPkt_r (p : Nat) (x : Packet) : (s.setPkt p x).r = s.r := rfl
@[simp] theorem State.setPkt_cmd (p : Nat) (x : Packet) : (s.setPkt p x).cmd = s.cmd := rfl
@[simp] theorem State.setPkt_status (p : Nat) (x : Packet) : (s.setPkt p x).status = s.status := rfl
@[simp] theorem State.setPkt_pkt (p : Nat) (x : Packet) : (s.setPkt p x).pkt = s.pkt.set p x := rfl
@[simp] theorem State.setPkt_raw (p : Nat) (x : Packet) : (s.setPkt p x).raw = s.raw := rfl
@[simp] theorem State.setPkt_tbuf (p : Nat) (x : Packet) : (s.setPkt p x).tbuf = s.tbuf := rfl
@[simp] theorem State.setPkt_fir (p : Nat) (x : Packet) : (s.setPkt p x).fir = s.fir := rfl
@[simp] theorem State.setPkt_res (p : Nat) (x : Packet) : (s.setPkt p x).res = s.res := rfl
@[simp] theorem State.setPkt_cnv (p : Nat) (x : Packet) : (s.setPkt p x).cnv = s.cnv := rfl
@[simp] theorem State.setPkt_lim (p : Nat) (x : Packet) : (s.setPkt p x).lim = s.lim := rfl
@[simp] theorem State.setPkt_host (p : Nat) (x : Packet) : (s.setPkt p x).host = s.host := rfl

@[simp] theorem State.setFir_a (c : Nat) (x : FirCtx) : (s.setFir c x).a = s.a := rfl
@[simp] theorem State.setFir_r (c : Nat) (x : FirCtx) : (s.setFir c x).r = s.r := rfl
@[simp] theorem State.setFir_cmd (c : Nat) (x : FirCtx) : (s.setFir c x).cmd = s.cmd := rfl
@[simp] theorem State.setFir_status (c : Nat) (x : FirCtx) : (s.setFir c x).status = s.status := rfl
@[simp] theorem State.setFir_pkt (c : Nat) (x : FirCtx) : (s.setFir c x).pkt = s.pkt := rfl
@[simp] theorem State.setFir_raw (c : Nat) (x : FirCtx) : (s.setFir c x).raw = s.raw := rfl
@[simp] theorem State.setFir_tbuf (c : Nat) (x : FirCtx) : (s.setFir c x).tbuf = s.tbuf := rfl
@[simp] theorem State.setFir_fir (c : Nat) (x : FirCtx) : (s.setFir c x).fir = s.fir.set c x := rfl
@[simp] theorem State.setFir_res (c : Nat) (x : FirCtx) : (s.setFir c x).res = s.res := rfl
@[simp] theorem State.setFir_cnv (c : Nat) (x : FirCtx) : (s.setFir c x).cnv = s.cnv := rfl
@[simp] theorem State.setFir_lim (c : Nat) (x : FirCtx) : (s.setFir c x).lim = s.lim := rfl
@[simp] theorem State.setFir_host (c : Nat) (x : FirCtx) : (s.setFir c x).host = s.host := rfl

@[simp] theorem State.setRes_a (c : Nat) (x : ResCtx) : (s.setRes c x).a = s.a := rfl
@[simp] theorem State.setRes_r (c : Nat) (x : ResCtx) : (s.setRes c x).r = s.r := rfl
@[simp] theorem State.setRes_cmd (c : Nat) (x : ResCtx) : (s.setRes c x).cmd = s.cmd := rfl
@[simp] theorem State.setRes_status (c : Nat) (x : ResCtx) : (s.setRes c x).status = s.status := rfl
@[simp] theorem State.setRes_pkt (c : Nat) (x : ResCtx) : (s.setRes c x).pkt = s.pkt := rfl
@[simp] theorem State.setRes_raw (c : Nat) (x : ResCtx) : (s.setRes c x).raw = s.raw := rfl
@[simp] theorem State.setRes_tbuf (c : Nat) (x : ResCtx) : (s.setRes c x).tbuf = s.tbuf := rfl
@[simp] theorem State.setRes_fir (c : Nat) (x : ResCtx) : (s.setRes c x).fir = s.fir := rfl
@[simp] theorem State.setRes_res (c : Nat) (x : ResCtx) : (s.setRes c x).res = s.res.set c x := rfl
@[simp] theorem State.setRes_cnv (c : Nat) (x : ResCtx) : (s.setRes c x).cnv = s.cnv := rfl
@[simp] theorem State.setRes_lim (c : Nat) (x : ResCtx) : (s.setRes c x).lim = s.lim := rfl
@[simp] theorem State.setRes_host (c : Nat) (x : ResCtx) : (s.setRes c x).host = s.host := rfl

@[simp] theorem State.setCnv_a (c : Nat) (x : CnvCtx) : (s.setCnv c x).a = s.a := rfl
@[simp] theorem State.setCnv_r (c : Nat) (x : CnvCtx) : (s.setCnv c x).r = s.r := rfl
@[simp] theorem State.setCnv_cmd (c : Nat) (x : CnvCtx) : (s.setCnv c x).cmd = s.cmd := rfl
@[simp] theorem State.setCnv_status (c : Nat) (x : CnvCtx) : (s.setCnv c x).status = s.status := rfl
@[simp] theorem State.setCnv_pkt (c : Nat) (x : CnvCtx) : (s.setCnv c x).pkt = s.pkt := rfl
@[simp] theorem State.setCnv_raw (c : Nat) (x : CnvCtx) : (s.setCnv c x).raw = s.raw := rfl
@[simp] theorem State.setCnv_tbuf (c : Nat) (x : CnvCtx) : (s.setCnv c x).tbuf = s.tbuf := rfl
@[simp] theorem State.setCnv_fir (c : Nat) (x : CnvCtx) : (s.setCnv c x).fir = s.fir := rfl
@[simp] theorem State.setCnv_res (c : Nat) (x : CnvCtx) : (s.setCnv c x).res = s.res := rfl
@[simp] theorem State.setCnv_cnv (c : Nat) (x : CnvCtx) : (s.setCnv c x).cnv = s.cnv.set c x := rfl
@[simp] theorem State.setCnv_lim (c : Nat) (x : CnvCtx) : (s.setCnv c x).lim = s.lim := rfl
@[simp] theorem State.setCnv_host (c : Nat) (x : CnvCtx) : (s.setCnv c x).host = s.host := rfl

@[simp] theorem State.latch_a (w : Word32) : (s.latch w).a = s.a := rfl
@[simp] theorem State.latch_r (w : Word32) : (s.latch w).r = s.r := rfl
@[simp] theorem State.latch_cmd (w : Word32) : (s.latch w).cmd = w := rfl
@[simp] theorem State.latch_status (w : Word32) : (s.latch w).status = s.status := rfl
@[simp] theorem State.latch_pkt (w : Word32) : (s.latch w).pkt = s.pkt := rfl
@[simp] theorem State.latch_raw (w : Word32) : (s.latch w).raw = s.raw := rfl
@[simp] theorem State.latch_tbuf (w : Word32) : (s.latch w).tbuf = s.tbuf := rfl
@[simp] theorem State.latch_fir (w : Word32) : (s.latch w).fir = s.fir := rfl
@[simp] theorem State.latch_res (w : Word32) : (s.latch w).res = s.res := rfl
@[simp] theorem State.latch_cnv (w : Word32) : (s.latch w).cnv = s.cnv := rfl
@[simp] theorem State.latch_lim (w : Word32) : (s.latch w).lim = s.lim := rfl
@[simp] theorem State.latch_host (w : Word32) : (s.latch w).host = s.host := rfl

@[simp] theorem State.raise_ai (e : ErrCode) (j : Fin 8) : (s.raise e).ai j = s.ai j := rfl
@[simp] theorem State.raise_af (e : ErrCode) (j : Fin 8) : (s.raise e).af j = s.af j := rfl
@[simp] theorem State.complete_ai (j : Fin 8) : s.complete.ai j = s.ai j := rfl
@[simp] theorem State.complete_af (j : Fin 8) : s.complete.af j = s.af j := rfl
@[simp] theorem State.setR_ai (i : Fin 2) (v : Word64) (j : Fin 8) : (s.setR i v).ai j = s.ai j := rfl
@[simp] theorem State.setR_af (i : Fin 2) (v : Word64) (j : Fin 8) : (s.setR i v).af j = s.af j := rfl
@[simp] theorem State.setPkt_ai (p : Nat) (x : Packet) (j : Fin 8) : (s.setPkt p x).ai j = s.ai j := rfl
@[simp] theorem State.setPkt_af (p : Nat) (x : Packet) (j : Fin 8) : (s.setPkt p x).af j = s.af j := rfl
@[simp] theorem State.setFir_ai (c : Nat) (x : FirCtx) (j : Fin 8) : (s.setFir c x).ai j = s.ai j := rfl
@[simp] theorem State.setFir_af (c : Nat) (x : FirCtx) (j : Fin 8) : (s.setFir c x).af j = s.af j := rfl
@[simp] theorem State.setRes_ai (c : Nat) (x : ResCtx) (j : Fin 8) : (s.setRes c x).ai j = s.ai j := rfl
@[simp] theorem State.setRes_af (c : Nat) (x : ResCtx) (j : Fin 8) : (s.setRes c x).af j = s.af j := rfl
@[simp] theorem State.setCnv_ai (c : Nat) (x : CnvCtx) (j : Fin 8) : (s.setCnv c x).ai j = s.ai j := rfl
@[simp] theorem State.setCnv_af (c : Nat) (x : CnvCtx) (j : Fin 8) : (s.setCnv c x).af j = s.af j := rfl
@[simp] theorem State.latch_ai (w : Word32) (j : Fin 8) : (s.latch w).ai j = s.ai j := rfl
@[simp] theorem State.latch_af (w : Word32) (j : Fin 8) : (s.latch w).af j = s.af j := rfl

/-- Two updates of different parts can be read in either order; the last word to the status register stands. -/
@[simp] theorem State.complete_complete : s.complete.complete = s.complete := rfl

@[simp] theorem statusWord_zero : statusWord 0 = 0#32 := by decide

theorem statusWord_toNat (c : Nat) : (statusWord c).toNat = c % 256 := by
  simp only [statusWord, BitVec.toNat_setWidth, BitVec.toNat_ofNat]
  omega

theorem ErrCode.number_range (e : ErrCode) : 1 ≤ e.number ∧ e.number ≤ 7 := by cases e <;> decide

theorem ErrCode.number_inj {e f : ErrCode} (h : e.number = f.number) : e = f := by
  cases e <;> cases f <;> first | rfl | exact absurd h (by decide)

/-- R33: the code that a status word shows. -/
theorem State.code_of_status {s : State} {c : Nat} (h : s.status = statusWord c) (hc : c ≤ 7) : s.code = c := by
  unfold State.code
  rw [h]
  interval_cases c <;> decide

@[simp] theorem State.complete_code : s.complete.code = 0 := State.code_of_status rfl (by decide)

@[simp] theorem State.raise_code (e : ErrCode) : (s.raise e).code = e.number :=
  State.code_of_status rfl e.number_range.2

end Sys2Proof.Machine
end

