-- ==== Sys2Proof/Tests/Slice0.lean ====
section
/-! SUPPORT. Tests/Slice0.lean: the model's own tests. Expected values come from 30_encoding.md and 95_test_vectors.md. The
theorems named `witness_…` show states and operands that meet the hypotheses of the statements together. -/

namespace Sys2Proof.Machine.Tests

open Sys2Proof Sys2Proof.Machine

/- One theorem at a time: the kernel evaluations of many at once would each hold a thread. -/
set_option Elab.async false

/-! ## The command word -/

theorem test_wellFormed_refuses_sixteen :
    Instr.wellFormed (.firdes 16 .kaiser) = false ∧ Instr.wellFormed (.firflt 16 0 0) = false ∧
    Instr.wellFormed (.firflt 0 16 0) = false ∧ Instr.wellFormed (.firflt 0 0 16) = false ∧
    Instr.wellFormed (.firfltr 16 0 0) = false ∧ Instr.wellFormed (.firfltr 0 16 0) = false ∧
    Instr.wellFormed (.firfltr 0 0 16) = false ∧ Instr.wellFormed (.resinit 16 true) = false ∧
    Instr.wellFormed (.resamp 16 0 0) = false ∧ Instr.wellFormed (.resamp 0 16 0) = false ∧
    Instr.wellFormed (.resamp 0 0 16) = false ∧ Instr.wellFormed (.cnvinit 16) = false ∧
    Instr.wellFormed (.cnvfill 16 0 0) = false ∧ Instr.wellFormed (.cnvfill 0 16 0) = false ∧
    Instr.wellFormed (.cnvfill 0 0 16) = false ∧ Instr.wellFormed (.cnvmix 16 0 0) = false ∧
    Instr.wellFormed (.cnvmix 0 16 0) = false ∧ Instr.wellFormed (.cnvmix 0 0 16) = false := by decide

theorem test_decode_function_commands :
    decode 0x00000010#32 = .ok .winblk ∧ decode 0x00000011#32 = .ok .winham ∧ decode 0x00000012#32 = .ok .winksr ∧
    decode 0x00000013#32 = .ok .wini0 ∧ decode 0x00000020#32 = .ok .ratapx := by decide

theorem test_decode_construction_commands :
    decode 0x00000030#32 = .ok (.firdes 0 .blackman) ∧ decode 0x00100030#32 = .ok (.firdes 0 .hamming) ∧
    decode 0x00200130#32 = .ok (.firdes 1 .kaiser) ∧ decode 0x00000040#32 = .ok (.resinit 0 false) ∧
    decode 0x00100140#32 = .ok (.resinit 1 true) ∧ decode 0x00000050#32 = .ok (.cnvinit 0) := by decide

theorem test_decode_streaming_commands :
    decode 0x00010031#32 = .ok (.firflt 0 0 1) ∧ decode 0x00032132#32 = .ok (.firfltr 1 2 3) ∧
    decode 0x00021041#32 = .ok (.resamp 0 1 2) ∧ decode 0x00000051#32 = .ok (.cnvfill 0 0 0) ∧
    decode 0x00031052#32 = .ok (.cnvmix 0 1 3) ∧ decode 0x000FFF31#32 = .ok (.firflt 15 15 15) := by decide

theorem test_decode_unassigned_and_reserved :
    decode 0x00000000#32 = .error .unassignedOpcode ∧ decode 0x00000014#32 = .error .unassignedOpcode ∧
    decode 0x00000021#32 = .error .unassignedOpcode ∧ decode 0x00000033#32 = .error .unassignedOpcode ∧
    decode 0x00000042#32 = .error .unassignedOpcode ∧ decode 0x00000053#32 = .error .unassignedOpcode ∧
    decode 0x000000FF#32 = .error .unassignedOpcode ∧ decode 0x01000031#32 = .error .reservedNotZero ∧
    decode 0x80000010#32 = .error .reservedNotZero := by decide

theorem test_decode_illegal_fields :
    decode 0x00000110#32 = .error .unusedFieldNotZero ∧ decode 0x00001020#32 = .error .unusedFieldNotZero ∧
    decode 0x00010013#32 = .error .unusedFieldNotZero ∧ decode 0x00001030#32 = .error .unusedFieldNotZero ∧
    decode 0x00010040#32 = .error .unusedFieldNotZero ∧ decode 0x00011050#32 = .error .unusedFieldNotZero ∧
    decode 0x00300030#32 = .error .badWindow ∧ decode 0x00F00030#32 = .error .badWindow ∧
    decode 0x00200040#32 = .error .badCustomFlag ∧ decode 0x00800040#32 = .error .badCustomFlag ∧
    decode 0x00100050#32 = .error .unusedFieldNotZero ∧ decode 0x00100031#32 = .error .unusedFieldNotZero ∧
    decode 0x00100052#32 = .error .unusedFieldNotZero := by decide

theorem test_table_word : decodeTableWord 32 0x00200130 = some (.firdes 1 .kaiser) ∧ decodeTableWord 32 0 = none := by decide

/-! ## A small machine -/

/-- The binary32 patterns of the whole numbers 1 to 7. -/
def f32Nat : Nat → F32
  | 1 => 0x3F800000#32
  | 2 => 0x40000000#32
  | 3 => 0x40400000#32
  | 4 => 0x40800000#32
  | 5 => 0x40A00000#32
  | 6 => 0x40C00000#32
  | 7 => 0x40E00000#32
  | _ => 0#32

/-- V-FIR-1: taps (0.25, 0.5, 0.25), decimation 2, new. -/
def demoFir : FirCtx where
  valid := true
  ntaps := 3
  decim := 2
  taps := [(0, 0x3E800000#32), (1, 0x3F000000#32), (2, 0x3E800000#32)]
  dre := []
  dim := []
  tapCur := 0
  decCur := 0

/-- V-RINIT-2: phases (1, 3) and (2, 4), factors 2 and 3, new. -/
def demoRes : ResCtx where
  valid := true
  facL := 2
  facM := 3
  subLen := 2
  ph := [(0, f32Nat 1), (1, f32Nat 3), (1024, f32Nat 2), (1025, f32Nat 4)]
  dre := []
  dim := []
  pos := 0
  ctr := 0

/-- V-CINIT-1: the converter of the vectors. -/
def demoCnv : CnvCtx := (CnvCtx.afterReset [] [] []).built 1000000 100000000 500

/-- The same with the four table entries that V-FILL-1 reads, and no others. -/
def sparseCnv : CnvCtx :=
  { CnvCtx.afterReset [(0x4000, 0x3F000000#32), (0x7FFF, 0x3F7FFE00#32), (0x8000, 0xBF800000#32), (0xC000, 0xBF000000#32)]
      [] [] with valid := true, rate := 1000000, center := 100000000, maxlen := 500 }

/-- X7 of the vectors. -/
def demoInput : Packet :=
  { Packet.afterReset [(0, f32Nat 1), (1, f32Nat 2), (2, f32Nat 3), (3, f32Nat 4), (4, f32Nat 5), (5, f32Nat 6), (6, f32Nat 7)]
      [(1, 0xBF800000#32)] with cap := 7, size := 7, rate := 48000 }

/-- An empty packet with room for `cap` samples. -/
def emptyPacket (cap : Nat) : Packet := { Packet.afterReset [] [] with cap := BitVec.ofNat 32 cap }

/-- The raw bytes of V-FILL-1. -/
def demoRaw : RawSlot where
  len := 8
  byte := [(1, 0x40#8), (3, 0xC0#8), (4, 0xFF#8), (5, 0x7F#8), (7, 0x80#8)]

/-- The small machine, with the given first arguments and converter. -/
def demoWith (C : CnvCtx) (a0 a1 a2 : Int) : State :=
  { State.reset with
    a := #v[BitVec.ofInt 64 a0, BitVec.ofInt 64 a1, BitVec.ofInt 64 a2, 0, 0, 0, 0, 0]
    pkt := [demoInput, emptyPacket 16, emptyPacket 2, Packet.afterReset [] []]
    raw := [demoRaw, RawSlot.afterReset []]
    tbuf := { tlen := 4, t := [(0, f32Nat 1), (1, f32Nat 2), (2, f32Nat 3), (3, f32Nat 4)] }
    fir := [demoFir, FirCtx.afterReset [] [] []]
    res := [demoRes, ResCtx.afterReset [] [] []]
    cnv := [C] }

/-- The small machine with the converter of the vectors. -/
def demo (a0 a1 a2 : Int) : State := demoWith demoCnv a0 a1 a2

/-- What a function gives on the next state, if there is one. -/
def onNext {α : Type} (f : State → α) : Host.Outcome State Fault Refusal → Option α
  | .next s => some (f s)
  | _ => none

/-- The state after reset with the given patterns in the first arguments. -/
def withPatterns (a0 a1 a2 : Word64) : State := { State.reset with a := #v[a0, a1, a2, 0, 0, 0, 0, 0] }

/-! ## One step of every command -/

/-- The listed pairs of a memory. -/
def listed {w : Nat} (m : Mem w) : List Nat := m.flatMap fun c => [c.1, c.2.toNat]

/-- What a function gives on a slot, nothing where there is no such slot. -/
def inSlot {α : Type} (slots : List α) (i : Nat) (f : α → List Nat) : List Nat :=
  match slots[i]? with
  | some x => f x
  | none => []

/-- The code and the two results. -/
def results (t : State) : List Nat := [t.status.toNat, t.r[0].toNat, t.r[1].toNat]

/-- V-WIN-1 and V-WIN-20. -/
theorem test_winblk :
    onNext results (exec .winblk (withPatterns 0 7 0)) = some [0, 0xBC70000000000000, 0] ∧
    onNext results (exec .winblk (withPatterns 7 7 0)) = some [6, 0, 0] := by decide +kernel

/-- V-WIN-5 and V-WIN-20. -/
theorem test_winham :
    onNext results (exec .winham (withPatterns 0 7 0)) = some [0, 0x3FB47AE147AE147C, 0] ∧
    onNext results (exec .winham (withPatterns 0 0x80000000 0)) = some [6, 0, 0] := by decide +kernel

/-- V-WIN-11, V-WIN-9 and V-WIN-19. -/
theorem test_winksr :
    onNext results (exec .winksr (withPatterns 1 7 0x401C000000000000)) = some [0, 0x3FC9213A28B89F57, 0] ∧
    onNext results (exec .winksr (withPatterns 6 7 0x401C000000000000)) = some [0, 0x3F784B8964A2E10A, 0] ∧
    onNext results (exec .winksr (withPatterns 0 7 0xBFE0000000000000)) = some [6, 0, 0] := by decide +kernel

/-- V-WIN-14 and V-WIN-18, a NaN. -/
theorem test_wini0 :
    onNext results (exec .wini0 (withPatterns 0x3FF0000000000000 0 0)) = some [0, 0x3FF441CE4B386C2C, 0] ∧
    onNext results (exec .wini0 (withPatterns 0x7FF8000000000000 0 0)) = some [6, 0, 0] := by decide +kernel

/-- V-RAT-9, V-RAT-5 (a tie goes to the lower bound) and V-RAT-16. -/
theorem test_ratapx :
    onNext results (exec .ratapx (withPatterns 48000 44100 100)) = some [0, 86, 79] ∧
    onNext results (exec .ratapx (withPatterns 3 2 1)) = some [0, 1, 1] ∧
    onNext results (exec .ratapx (withPatterns 5 3 0)) = some [6, 0, 0] := by decide +kernel

/-- The arguments of V-DES-1, with decimation factor `decim`. -/
def desArgs (decim : Word64) : State :=
  { State.reset with
    a := #v[decim, 0x3FF0000000000000, 0x40E7700000000000, 0x40B7700000000000, 0x40D1940000000000, 0x404E000000000000, 0, 0] }

/-- The scalar fields of a FIR context. -/
def firFields (F : FirCtx) : List Nat :=
  [F.valid.toNat, F.ntaps.toNat, F.decim.toNat, F.tapCur.toNat, F.decCur.toNat]

/-- V-DES-1: what is exact in it. -/
theorem test_firdes : onNext (fun t => results t ++ inSlot t.fir 0 firFields) (exec (.firdes 0 .hamming) (desArgs 4)) =
    some [0, 7, 0, 1, 7, 4, 0, 0] := by decide +kernel

/-- V-DES-E1. -/
theorem test_firdes_decimation :
    onNext (fun t => results t ++ inSlot t.fir 0 firFields) (exec (.firdes 0 .hamming) (desArgs 0)) =
      some [1, 0, 0, 0, 0, 0, 0, 0] := by decide +kernel

/-- What a filter command leaves: results, output size, rate and real parts, the delay line and the cursors. -/
def filtered (q : Nat) (t : State) : List (List Nat) :=
  [results t, inSlot t.pkt q fun P => [P.size.toNat, P.rate.toNat], inSlot t.pkt q fun P => listed P.re,
    inSlot t.fir 0 fun F => listed F.dre, inSlot t.fir 0 fun F => listed F.dim, inSlot t.fir 0 firFields]

/-- V-FIR-1 on the real parts 1 to 6. -/
theorem test_firflt : onNext (filtered 1) (exec (.firflt 0 0 1) (demoWith sparseCnv 0 6 0)) =
    some [[0, 6, 0], [3, 24000], [0, 0x3E800000, 1, 0x40000000, 2, 0x40800000],
      [0, 0x40800000, 1, 0x40A00000, 2, 0x40C00000], [], [1, 3, 2, 0, 0]] := by decide +kernel

/-- V-FIR-2a: an early stop. -/
theorem test_firflt_stop : onNext (filtered 2) (exec (.firflt 0 0 2) (demoWith sparseCnv 0 6 0)) =
    some [[0, 4, 0], [2, 24000], [0, 0x3E800000, 1, 0x40000000],
      [0, 0x40800000, 1, 0x40A00000, 2, 0x40400000], [], [1, 3, 2, 1, 0]] := by decide +kernel

/-- V-FIR-R. -/
theorem test_firfltr : onNext (filtered 1) (exec (.firfltr 0 0 1) (demoWith sparseCnv 0 6 0)) =
    some [[0, 6, 0], [3, 24000], [0, 0x3E800000, 1, 0x40000000, 2, 0x40800000],
      [0, 0x40800000, 1, 0x40A00000, 2, 0x40C00000], [], [1, 3, 2, 0, 0]] := by decide +kernel

/-- What a resampler command leaves in its context. -/
def resFields (R : ResCtx) : List Nat :=
  [R.valid.toNat, R.facL.toNat, R.facM.toNat, R.subLen.toNat, R.pos.toNat, R.ctr.toNat]

/-- V-RINIT-1 with the taps (1, 2, 3, 4), so that `K` is 2. -/
theorem test_resinit_custom :
    onNext (fun t => results t ++ inSlot t.res 1 resFields ++ inSlot t.res 1 fun R => listed R.ph)
      (exec (.resinit 1 true) (demoWith sparseCnv 4 2 0)) =
    some [0, 2, 1, 1, 2, 1, 2, 0, 0, 0, 0x3F800000, 1, 0x40400000, 1024, 0x40000000, 1025, 0x40800000] := by decide +kernel

/-- V-RINIT-31: the sizes of a designed prototype of three taps; and V-RINIT-36, a bandwidth that is a NaN. -/
theorem test_resinit_designed :
    onNext (fun t => results t ++ inSlot t.res 0 resFields) (exec (.resinit 0 false)
      { State.reset with a := #v[1, 2, 0x3FD999999999999A, 2, 0, 0, 0, 0] }) = some [0, 1, 2, 1, 1, 2, 3, 0, 0] ∧
    onNext (fun t => results t ++ inSlot t.res 0 resFields)
      (exec (.resinit 0 false) (demoWith sparseCnv 1 2 0x7FF8000000000000)) = some [6, 0, 0, 0, 2, 3, 2, 0, 0] := by
  decide +kernel

/-- What a `RESAMP` leaves: results, output size, rate and real parts, the context. -/
def resampled (q : Nat) (t : State) : List (List Nat) :=
  [results t, inSlot t.pkt q fun P => [P.size.toNat, P.rate.toNat], inSlot t.pkt q fun P => listed P.re, inSlot t.res 0 resFields]

/-- V-RES-2. -/
theorem test_resamp : onNext (resampled 1) (exec (.resamp 0 0 1) (demoWith sparseCnv 0 7 0)) =
    some [[0, 7, 0], [5, 32000], [1, 0x40000000, 2, 0x41100000, 3, 0x41A00000, 4, 0x41A80000], [1, 2, 3, 2, 1, 1]] := by
  decide +kernel

/-- V-RES-4a: the output is full. -/
theorem test_resamp_full : onNext (resampled 2) (exec (.resamp 0 0 2) (demoWith sparseCnv 0 7 0)) =
    some [[0, 3, 0], [2, 32000], [1, 0x40000000], [1, 2, 3, 2, 1, 0]] := by decide +kernel

/-- The scalar fields of a converter context. -/
def cnvFields (C : CnvCtx) : List Nat :=
  [C.valid.toNat, C.rate.toNat, C.center.toNat, C.maxlen.toNat, C.ncoValid.toNat, C.ncoFreq.toNat, C.ncoLen.toNat, C.cur.toNat]

/-- V-CINIT-1. -/
theorem test_cnvinit : onNext (fun t => results t ++ inSlot t.cnv 0 cnvFields)
    (exec (.cnvinit 0) (demoWith sparseCnv 1000000 100000000 500)) =
    some [0, 0, 0, 1, 1000000, 100000000, 500, 0, 0, 0, 0] := by decide +kernel

/-- V-CINIT-1, a table length past the limit; and the entries of V-LUT. -/
theorem test_cnvinit_error_and_table :
    onNext (fun t => t.status.toNat :: inSlot t.cnv 0 fun C => [C.valid.toNat])
      (exec (.cnvinit 0) (demoWith sparseCnv 1000000 100000000 4097)) = some [6, 0] ∧
    [0, 1, 0x2000, 0x7FFF, 0x8000, 0x8001, 0xE000, 0xFFFF].map normEntry =
      [0#32, 0x38000000#32, 0x3E800000#32, 0x3F7FFE00#32, 0xBF800000#32, 0xBF7FFE00#32, 0xBE800000#32, 0xB8000000#32] := by
  decide +kernel

/-- What a fill leaves: results, the fields and the parts of the output packet. -/
def filled (t : State) : List (List Nat) :=
  [results t, inSlot t.pkt 1 fun P => [P.size.toNat, P.rate.toNat, P.freq.toNat, P.freqValid.toNat],
    inSlot t.pkt 1 fun P => listed P.re, inSlot t.pkt 1 fun P => listed P.im]

/-- V-FILL-1. -/
theorem test_cnvfill : onNext filled (exec (.cnvfill 0 0 1) (demoWith sparseCnv 0 0 0)) =
    some [[0, 2, 0], [2, 1000000, 100000000, 1], [0, 0x3F000000, 1, 0x3F7FFE00], [0, 0xBF000000, 1, 0xBF800000]] := by
  decide +kernel

/-- V-FILL-4: no whole group, nothing changed. -/
theorem test_cnvfill_nothing : onNext filled (exec (.cnvfill 0 1 1) (demoWith sparseCnv 0 0 0)) =
    some [[0, 0, 0], [0, 0, 0, 0], [], []] := by decide +kernel

/-- V-MIX-1: the channel at the centre. -/
theorem test_cnvmix_centre : onNext (fun t => filled t ++ [inSlot t.cnv 0 cnvFields])
    (exec (.cnvmix 0 0 1) (demoWith sparseCnv 100000000 0 0)) =
    some [[0, 2, 0], [2, 1000000, 100000000, 1], [0, 0x3F000000, 1, 0x3F7FFE00], [0, 0xBF000000, 1, 0xBF800000],
      [1, 1000000, 100000000, 500, 1, 1000000, 1, 0]] := by decide +kernel

/-- V-MIX-6 and V-MIX-7: the degenerate table, and a table longer than the maximum. -/
theorem test_cnvmix_degenerate :
    let C := { sparseCnv with rate := 1000, center := 0, maxlen := 1 }
    onNext (fun t => results t ++ inSlot t.cnv 0 cnvFields) (exec (.cnvmix 0 0 1) (demoWith C (-1500) 0 0)) =
      some [0, 0, 0, 1, 1000, 0, 1, 1, 1500, 0, 0] ∧
    onNext (fun t => results t ++ inSlot t.cnv 0 cnvFields) (exec (.cnvmix 0 0 1) (demoWith C 999 0 0)) =
      some [7, 0, 0, 1, 1000, 0, 1, 0, 0, 0, 0] := by decide +kernel

/-- An illegal word written to `CMD` (Program D). -/
theorem test_step_illegal : onNext (fun t => (t.cmd, t.status, t.host))
    (step { State.reset with host := [.write .cmd 0x01000031] }) = some (0x01000031#32, 3#32, []) := by decide +kernel

/-- R71: a write outside the legal range of a scalar field is stored, one outside an array ignored. -/
theorem test_host_write :
    hostRead (hostWrite State.reset (.pktCap 3) 0x100010001) (.pktCap 3) = 0x10001#64 ∧
    hostRead (hostWrite State.reset (.pktRe 3 65535) 5) (.pktRe 3 65535) = 5#64 ∧
    hostRead (hostWrite State.reset (.pktRe 3 65536) 5) (.pktRe 3 65536) = 0#64 := by decide +kernel

/-! ## Witnesses: the hypotheses of the statements are met together -/

theorem exists_next {α : Type} {f : State → α} {o : Host.Outcome State Fault Refusal} {x : α} (h : onNext f o = some x) :
    ∃ t, o = .next t ∧ f t = x := by
  cases o with
  | next t => exact ⟨t, rfl, Option.some.inj h⟩
  | fault e => cases h
  | refused e => cases h

theorem demoFir_ok : demoFir.Ok Params.reference.lim := by constructor <;> decide

theorem demoRes_ok : demoRes.Ok Params.reference.lim := by constructor <;> decide

theorem demoCnv_ok : demoCnv.Ok Params.reference.lim :=
  CnvCtx.built_ok (by decide) (by decide) (by decide) (by decide) (by decide) (by decide)

/-- The converter of the vectors with the table of V-NCO-2 in its cache. -/
def cachedCnv : CnvCtx := demoCnv.regenerated 250000 4

theorem demoCnv_maxlen : demoCnv.maxlen.toNat = 500 := by decide

theorem cachedCnv_ok : cachedCnv.Ok Params.reference.lim := demoCnv_ok.regenerated (by rw [demoCnv_maxlen]; decide)

/-- V-NCO-2, V-NCO-15 and V-NCO-18: lengths that the search finds. -/
theorem test_bestLength : BestLength 1000000 250000 500 4 ∧ BestLength 1000 1500 1 0 ∧ BestLength 1000 1 1 1000 := by
  refine ⟨⟨1, by decide, by decide, fun k _ => Nat.zero_le _, fun k hk hlt => by omega⟩,
    ⟨1, by decide, by decide, fun k hk => ?_, fun k hk hlt => by omega⟩,
    ⟨1, by decide, by decide, fun k _ => Nat.zero_le _, fun k hk hlt => by omega⟩⟩
  have : k = 1 := by omega
  rw [this]

theorem witness_encodeThenDecode : Instr.wellFormed (.firflt 15 15 15) = true ∧ Instr.wellFormed (.firdes 15 .kaiser) = true := by
  decide

theorem witness_decodeThenEncode : decode 0x000FFF31#32 = .ok (.firflt 15 15 15) := by decide

theorem witness_illegalWords :
    { State.reset with host := [.write .cmd 0x00300030] }.host = .write .cmd (BitVec.setWidth 64 0x00300030#32) :: [] ∧
    (BitVec.extractLsb' 0 8 0x00300030#32).toNat = 0x30 ∧ 3 ≤ (BitVec.extractLsb' 20 4 0x00300030#32).toNat ∧
    (BitVec.extractLsb' 0 8 0x000FFF31#32).toNat = 0x31 ∧ (BitVec.extractLsb' 20 4 0x000FFF31#32).toNat = 0 ∧
    (BitVec.extractLsb' 24 8 0x000FFF31#32).toNat = 0 ∧
    decode (BitVec.setWidth 32 0x00300030#64) = .error .badWindow := by decide

theorem witness_rowsSelect :
    0x00200130#32 &&& rowMask (.firdes 0 .blackman) = rowMatch (.firdes 0 .blackman) ∧
    (BitVec.extractLsb' 20 4 0x00200130#32).toNat ≤ 2 ∧ 0x000FFF31#32 &&& rowMask (.firflt 0 0 0) = rowMatch (.firflt 0 0 0) ∧
    decode 0x00200130#32 = .ok (.firdes 1 .kaiser) := by decide

theorem witness_stepRuns :
    { State.reset with host := [.write .cmd 0x00010031] }.host = .write .cmd 0x00010031#64 :: [] ∧
    decode (BitVec.setWidth 32 0x00010031#64) = .ok (.firflt 0 0 1) ∧ decodeTableWord 32 0x00010031 = some (.firflt 0 0 1) := by
  decide

theorem witness_hostPort :
    (Elem.writable (.pktRe 3 65535) = true ∧ State.reset.hasElem (.pktRe 3 65535)) ∧ ¬ State.reset.hasElem (.pktRe 3 65536) ∧
    ¬ State.reset.hasElem (.pktRe 4 0) ∧ ¬ (Elem.writable (.r 0) = true ∧ State.reset.hasElem (.r 0)) ∧
    { State.reset with host := [.write (.a 7) 5] }.host = .write (.a 7) 5 :: [] ∧ Elem.a 7 ≠ .cmd := by
  refine ⟨⟨rfl, ?_⟩, ?_, ?_, fun h => ?_, rfl, by decide⟩
  · show 3 < State.reset.pkt.length ∧ 65535 < State.reset.lim.pktDepth; decide
  · show ¬ (3 < State.reset.pkt.length ∧ 65536 < State.reset.lim.pktDepth); decide
  · show ¬ (4 < State.reset.pkt.length ∧ 0 < State.reset.lim.pktDepth); decide
  · exact Bool.noConfusion h.1

theorem witness_readsAndIdle : { State.reset with host := [.read .status] }.host = .read .status :: [] ∧ State.reset.host = [] :=
  ⟨rfl, rfl⟩

theorem witness_resetAction : { demo 1 2 3 with host := [.reset {}] }.host = .reset {} :: [] := rfl

theorem witness_resetInvariant : Params.reference.Ok ∧ Params.Ok ⟨1, 1, 1, 2, 1, ⟨1, 4, 1, 3, 1, 1, 1⟩⟩ ∧
    Params.Ok ⟨16, 16, 16, 16, 16, ⟨2 ^ 31 - 1, 2 ^ 31 - 1, 2 ^ 31 - 1, 2 ^ 31 - 1, 2 ^ 31 - 1, 2 ^ 31 - 1, 2 ^ 31 - 1⟩⟩ :=
  ⟨by decide, by decide, by decide⟩

theorem demoCnv_memories : (demoCnv.lut.wf ∧ demoCnv.cos.wf ∧ demoCnv.sin.wf) ∧
    demoCnv.lut.within 65536 ∧ demoCnv.cos.within 4096 ∧ demoCnv.sin.within 4096 :=
  ⟨CnvCtx.built_wf ⟨Mem.wf_nil, Mem.wf_nil, Mem.wf_nil⟩,
    CnvCtx.built_within ⟨by simp [CnvCtx.afterReset], by simp [CnvCtx.afterReset], by simp [CnvCtx.afterReset]⟩⟩

/-- The small machine keeps every promise of the spec, with a valid context of each unit. -/
theorem demo_inv (a0 a1 a2 : Int) : (demo a0 a1 a2).Inv ∧ (demo a0 a1 a2).CacheOk := by
  obtain ⟨⟨w1, w2, w3⟩, v1, v2, v3⟩ := demoCnv_memories
  refine ⟨⟨?_, ?_, ?_, ?_, ?_, ?_, ?_⟩, ?_⟩
  · show Params.Ok ⟨2, 2, 1, 4, 2, Params.reference.lim⟩; decide
  · show (0#32).toNat ≤ 7; decide
  · intro F hF hv
    rcases List.mem_pair.1 hF with rfl | rfl
    · exact demoFir_ok
    · exact Bool.noConfusion hv
  · intro R hR hv
    rcases List.mem_pair.1 hR with rfl | rfl
    · exact demoRes_ok
    · exact Bool.noConfusion hv
  · intro C hC _
    rw [List.mem_singleton.1 hC]
    exact demoCnv_ok
  · refine ⟨?_, ?_, ?_, ?_, ?_, ?_⟩
    · show ∀ p ∈ [demoInput, emptyPacket 16, emptyPacket 2, Packet.afterReset [] []], p.re.wf ∧ p.im.wf; decide
    · show ∀ b ∈ [demoRaw, RawSlot.afterReset []], b.byte.wf; decide
    · show Mem.wf [(0, f32Nat 1), (1, f32Nat 2), (2, f32Nat 3), (3, f32Nat 4)]; decide
    · show ∀ F ∈ [demoFir, FirCtx.afterReset [] [] []], F.taps.wf ∧ F.dre.wf ∧ F.dim.wf; decide
    · show ∀ R ∈ [demoRes, ResCtx.afterReset [] [] []], R.ph.wf ∧ R.dre.wf ∧ R.dim.wf; decide
    · intro C hC; rw [List.mem_singleton.1 hC]; exact ⟨w1, w2, w3⟩
  · refine ⟨?_, ?_, ?_, ?_, ?_, ?_⟩
    · show ∀ p ∈ [demoInput, emptyPacket 16, emptyPacket 2, Packet.afterReset [] []], p.re.within 65536 ∧ p.im.within 65536; decide
    · show ∀ b ∈ [demoRaw, RawSlot.afterReset []], b.byte.within 262144; decide
    · show Mem.within [(0, f32Nat 1), (1, f32Nat 2), (2, f32Nat 3), (3, f32Nat 4)] 16384; decide
    · show ∀ F ∈ [demoFir, FirCtx.afterReset [] [] []], F.taps.within 4095 ∧ F.dre.within 4095 ∧ F.dim.within 4095; decide
    · show ∀ R ∈ [demoRes, ResCtx.afterReset [] [] []], R.ph.within (10000 * 1024) ∧ R.dre.within 1024 ∧ R.dim.within 1024
      decide
    · intro C hC; rw [List.mem_singleton.1 hC]; exact ⟨v1, v2, v3⟩
  · intro C hC _ hn
    rw [List.mem_singleton.1 hC] at hn
    exact Bool.noConfusion hn

/-- The host is about to issue `FIRFLT`, `RESAMP`, `CNVFILL` or `CNVMIX` on the small machine. -/
theorem witness_stepKeeps :
    (∃ t, step { demo 0 6 0 with host := [.write .cmd 0x00010031] } = .next t ∧ t.status = 0) ∧
    (∃ t, step { demo 0 7 0 with host := [.write .cmd 0x00010041] } = .next t ∧ t.status = 0) ∧
    (∃ t, step { demo 99500000 0 0 with host := [.write .cmd 0x00031052] } = .next t ∧ t.status = 0) :=
  ⟨exists_next (f := State.status) (by decide +kernel), exists_next (f := State.status) (by decide +kernel),
    exists_next (f := State.status) (by decide +kernel)⟩

theorem witness_packetInvariant :
    (PktOK (demo 0 6 0).lim (emptyPacket 16) ∧ ∃ t, exec (.firflt 0 0 1) (demo 0 6 0) = .next t ∧ t.status = 0) ∧
    ¬ (PktOK (demo 0 6 0).lim { emptyPacket 8 with size := 9 } ∧ PktOK (demo 0 6 0).lim (emptyPacket 16)) ∧
    ¬ PktOK (demo 0 6 0).lim (emptyPacket 65537) ∧
    (demo 0 6 0).fir[0]? = some demoFir ∧ (demo 0 6 0).res[0]? = some demoRes ∧ (demo 0 6 0).raw[0]? = some demoRaw :=
  ⟨⟨by decide, exists_next (f := State.status) (by decide +kernel)⟩, by decide, by decide, rfl, rfl, rfl⟩

/-- A command of each kind that ends with a code other than 0: both kinds of error of the constructions and of `CNVMIX`. -/
theorem witness_errors :
    [exec (.firdes 2 .hamming) (demo 0 0 0), exec (.firdes 0 .hamming) (demo 0 0 0), exec (.resinit 2 true) (demo 1 1 0),
      exec (.resinit 0 true) (demo 0 1 0), exec (.cnvinit 1) (demo 1 1 1), exec (.cnvinit 0) (demo 0 1 1),
      exec (.cnvmix 0 0 1) (demoWith { sparseCnv with rate := 1000, center := 0, maxlen := 1 } 999 0 0),
      exec (.cnvmix 0 2 1) (demo 0 0 0), exec .winblk (demo 7 7 0), exec (.firflt 1 0 1) (demo 0 6 0)].map
        (onNext fun t => t.status.toNat) =
      [some 4, some 1, some 4, some 2, some 4, some 6, some 7, some 4, some 6, some 5] := by decide +kernel

theorem witness_independence :
    firCtxOf (.firflt 0 0 1) ≠ some 1 ∧ resCtxOf (.firflt 0 0 1) ≠ some 0 ∧ cnvCtxOf (.cnvmix 0 0 1) ≠ some 1 ∧
    3 ∉ packetsOf (.firflt 0 0 1) ∧ rawOf (.cnvfill 0 0 1) ≠ some 1 ∧ (∀ c, Instr.resinit 0 false ≠ .resinit c true) ∧
    7 ∉ argumentsOf (.firdes 0 .hamming) ∧ 2 ∉ argumentsOf (.resinit 0 true) ∧ 1 ∉ resultsOf .winblk := by
  refine ⟨by decide, by decide, by decide, by decide, by decide, fun c => by simp, by decide, by decide, by decide⟩

theorem witness_winblk_winham_winksr :
    (2 ≤ (withPatterns 1 2 0).ai 1 ∧ (withPatterns 1 2 0).ai 1 ≤ 2 ^ 31 - 1 ∧ 0 ≤ (withPatterns 1 2 0).ai 0 ∧
      (withPatterns 1 2 0).ai 0 ≤ (withPatterns 1 2 0).ai 1 - 1) ∧
    (0 < (withPatterns 1 0x7FFFFFFF 0).ai 0 ∧ (withPatterns 1 0x7FFFFFFF 0).ai 1 ≤ 2 ^ 31 - 1) ∧
    ¬ (2 ≤ (withPatterns 0 1 0).ai 1) ∧ ¬ ((withPatterns 7 7 0).ai 0 ≤ (withPatterns 7 7 0).ai 1 - 1) ∧
    (le64 zero64 ((withPatterns 1 2 0x8000000000000000).af 2) = true ∧
      le64 ((withPatterns 1 2 0x8000000000000000).af 2) cI0Xmax = true ∧
      eq64 ((withPatterns 1 2 0x8000000000000000).af 2) zero64 = true) ∧
    (le64 zero64 ((withPatterns 1 3 0x4085E00000000000).af 2) = true ∧
      le64 ((withPatterns 1 3 0x4085E00000000000).af 2) cI0Xmax = true) ∧
    ¬ le64 ((withPatterns 1 3 0x4085E00000000001).af 2) cI0Xmax = true := by decide +kernel

theorem witness_wini0 :
    (le64 zero64 ((withPatterns 0x4085E00000000000 0 0).af 0) = true ∧
      le64 ((withPatterns 0x4085E00000000000 0 0).af 0) cI0Xmax = true) ∧
    eq64 ((withPatterns 0 0 0).af 0) zero64 = true ∧
    ¬ (le64 zero64 ((withPatterns 0xBFF0000000000000 0 0).af 0) = true ∧
      le64 ((withPatterns 0xBFF0000000000000 0 0).af 0) cI0Xmax = true) := by decide +kernel

theorem witness_ratapx :
    ((1 ≤ (withPatterns 1 1 1).ai 0 ∧ (withPatterns 1 1 1).ai 0 ≤ 2 ^ 32 - 1) ∧
      (1 ≤ (withPatterns 1 0xFFFFFFFF 1).ai 1 ∧ (withPatterns 1 0xFFFFFFFF 1).ai 1 ≤ 2 ^ 32 - 1) ∧
      1 ≤ (withPatterns 1 1 0xFFFFFFFF).ai 2 ∧ (withPatterns 1 1 0xFFFFFFFF).ai 2 ≤ 2 ^ 32 - 1) ∧
    ¬ 1 ≤ (withPatterns 0 5 10).ai 0 ∧ ¬ (withPatterns 5 0x100000000 10).ai 1 ≤ 2 ^ 32 - 1 := by decide

/-- The arguments of V-DES-3: a Kaiser design. -/
def desKaiser : State :=
  { State.reset with
    a := #v[1, 0x4000000000000000, 0x4000000000000000, 0x3FDCCCCCCCCCCCCD, 0x3FB999999999999A, 0x40520E147AE147AE, 0,
      0x401C000000000000] }

theorem witness_firdes :
    (desArgs 4).lim.Ok ∧ (desArgs 4).fir[0]? = some (FirCtx.afterReset [] [] []) ∧ 1 ≤ (desArgs 4).ai 0 ∧
    (desArgs 0x7FFFFFFF).ai 0 ≤ 2 ^ 31 - 1 ∧ lt64 zero64 ((desArgs 4).af 2) = true ∧ lt64 zero64 ((desArgs 4).af 3) = true ∧
    le64 ((desArgs 4).af 3) (div64 ((desArgs 4).af 2) two64) = true ∧ lt64 zero64 ((desArgs 4).af 4) = true ∧
    (WindowFn.hamming = .kaiser → le64 zero64 ((desArgs 4).af 7) = true ∧ le64 ((desArgs 4).af 7) cI0Xmax = true) ∧
    tapCount ((desArgs 4).af 5) ((desArgs 4).af 2) ((desArgs 4).af 4) ((desArgs 4).ai 6) (desArgs 4).lim.tapMax = .ok 7 := by
  decide +kernel

theorem witness_firdes_kaiser :
    desKaiser.lim.Ok ∧ desKaiser.fir[1]? = some (FirCtx.afterReset [] [] []) ∧ 1 ≤ desKaiser.ai 0 ∧
    lt64 zero64 (desKaiser.af 2) = true ∧ lt64 zero64 (desKaiser.af 3) = true ∧
    le64 (desKaiser.af 3) (div64 (desKaiser.af 2) two64) = true ∧ lt64 zero64 (desKaiser.af 4) = true ∧
    le64 zero64 (desKaiser.af 7) = true ∧ le64 (desKaiser.af 7) cI0Xmax = true ∧
    tapCount (desKaiser.af 5) (desKaiser.af 2) (desKaiser.af 4) (desKaiser.ai 6) desKaiser.lim.tapMax = .ok 65 := by
  decide +kernel

theorem witness_firdes_errors :
    State.reset.fir.length ≤ 2 ∧ State.reset.fir[0]? = some (FirCtx.afterReset [] [] []) ∧ (desArgs 0).ai 0 ≤ 0 ∧
    2 ^ 31 - 1 < (desArgs 0x80000000).ai 0 ∧ ¬ lt64 zero64 (State.reset.af 2) = true ∧
    ¬ le64 ({ desKaiser with a := desKaiser.a.set 7 0x7FF8000000000000 }.af 7) cI0Xmax = true ∧
    tapCount ((desArgs 4).af 5) ((desArgs 4).af 2) ((desArgs 4).af 4) 1 4095 = .error .badOperand ∧
    tapCount ((desArgs 4).af 5) ((desArgs 4).af 2) ((desArgs 4).af 4) 0 5 = .error .capacityExceeded := by decide +kernel

/-- A run to the end of the input, an early stop, and a start in a full packet. -/
theorem witness_firflt :
    (demo 0 6 0).fir[0]? = some demoFir ∧ (demo 0 6 0).pkt[0]? = some demoInput ∧ (demo 0 6 0).pkt[1]? = some (emptyPacket 16) ∧
    demoFir.valid = true ∧ demoFir.Ok (demo 0 6 0).lim ∧
    StreamOperands (demo 0 6 0).lim 0 1 demoInput (emptyPacket 16) ((demo 0 6 0).ai 0) ((demo 0 6 0).ai 1) ∧
    StreamOperands (demo 1 6 0).lim 0 2 demoInput (emptyPacket 2) ((demo 1 6 0).ai 0) ((demo 1 6 0).ai 1) ∧
    demoFir.consumed 16 6 = 6 ∧ demoFir.consumed 2 6 = 4 ∧ demoFir.consumed 0 6 = 0 :=
  ⟨rfl, rfl, rfl, rfl, demoFir_ok, by decide, by decide, by decide, by decide, by decide⟩

theorem witness_streamErrors :
    ((demo 0 6 0).fir.length ≤ 2 ∧ (demo 0 6 0).pkt.length ≤ 4 ∧ (demo 0 6 0).raw.length ≤ 2 ∧ (demo 0 6 0).cnv.length ≤ 1) ∧
    (demo 0 6 0).fir[1]? = some (FirCtx.afterReset [] [] []) ∧ (FirCtx.afterReset [] [] []).valid = false ∧
    ¬ StreamOperands (demo 4 4 0).lim 0 1 demoInput (emptyPacket 16) ((demo 4 4 0).ai 0) ((demo 4 4 0).ai 1) ∧
    ¬ StreamOperands (demo 0 6 0).lim 0 0 demoInput demoInput ((demo 0 6 0).ai 0) ((demo 0 6 0).ai 1) ∧
    ¬ StreamOperands (demo (-1) 2 0).lim 0 1 demoInput (emptyPacket 16) ((demo (-1) 2 0).ai 0) ((demo (-1) 2 0).ai 1) ∧
    2 ^ 32 - 1 < (2 * 4294967295 * 2 + 1) / (2 * 1) ∧
    ¬ (RawOK (demo 0 0 0).lim { demoRaw with len := 262145 } ∧ PktOK (demo 0 0 0).lim (emptyPacket 16)) ∧
    ¬ FreqInRange ((demo 4611686018427387905 0 0).ai 0) := by decide

theorem witness_zeroLength :
    StreamOperands (demo 7 0 0).lim 0 1 demoInput (emptyPacket 16) ((demo 7 0 0).ai 0) ((demo 7 0 0).ai 1) ∧
    (demo 7 0 0).ai 1 = 0 ∧ demoFir.valid = true ∧ demoRes.valid = true ∧
    (2 * demoInput.rate.toNat * demoRes.facL.toNat + demoRes.facM.toNat) / (2 * demoRes.facM.toNat) ≤ 2 ^ 32 - 1 := by decide

theorem witness_filterSplit :
    (∃ t, exec (.firflt 0 0 1) ((demo 0 0 0).withArgs 0 6) = .next t ∧ (t.status, t.r[0]) = (0#32, BitVec.ofInt 64 6)) ∧
    ∃ t, exec (.firfltr 0 0 1) ((demo 0 0 0).withArgs 1 6) = .next t ∧ (t.status, t.r[0]) = (0#32, BitVec.ofInt 64 6) :=
  ⟨exists_next (f := fun t => (t.status, t.r[0])) (by decide +kernel), exists_next (f := fun t => (t.status, t.r[0])) (by decide +kernel)⟩

theorem witness_resinit_custom :
    let s := demo 4 2 0
    s.lim.Ok ∧ s.res[1]? = some (ResCtx.afterReset [] [] []) ∧ (1 ≤ s.ai 0 ∧ s.ai 0 ≤ 2 ^ 31 - 1 ∧ 1 ≤ s.ai 1 ∧ s.ai 1 ≤ 2 ^ 31 - 1) ∧
    (s.ai 0).toNat / Nat.gcd (s.ai 0).toNat (s.ai 1).toNat ≤ s.lim.resLMax ∧
    1 ≤ s.tbuf.tlen.toNat ∧ s.tbuf.tlen.toNat ≤ s.lim.tbufDepth ∧ (s.tbuf.tlen.toNat + 2 - 1) / 2 ≤ s.lim.resKMax := by
  decide +kernel

/-- V-RINIT-21 (interpolation) and V-RINIT-20 (decimation). -/
theorem witness_resinit_designed :
    isNaN64 0x3FD999999999999A#64 = false ∧ (demo 2 1 0).ai 0 = 2 ∧ (demo 1 2 0).ai 1 = 2 ∧ Nat.gcd 2 1 = 1 ∧
    lt64 0x3FD999999999999A#64 cFbwLo = false ∧ lt64 cFbwHi 0x3FD999999999999A#64 = false ∧
    tapCount cResAtten (ofInt64 2) (sub64 cHalfband 0x3FD999999999999A#64) 0 (2 * 1024 : Nat) = .ok 65 ∧
    tapCount cResAtten (ofInt64 1) (mul64 (div64 (ofInt64 1) (ofInt64 2)) (sub64 cHalfband 0x3FD999999999999A#64)) 0
      (1 * 1024 : Nat) = .ok 65 ∧ (65 + 2 - 1) / 2 ≤ 1024 := by decide +kernel

theorem witness_resinit_errors :
    (demo 0 3 0).res.length ≤ 2 ∧ (demo 0 3 0).res[0]? = some demoRes ∧ (demo 0 3 0).ai 0 ≤ 0 ∧ (demo 2 (-1) 0).ai 1 ≤ 0 ∧
    2 ^ 31 - 1 < (demo 2147483648 1 0).ai 0 ∧ (demo 10001 1 0).lim.resLMax < 10001 / Nat.gcd 10001 1 ∧
    isNaN64 ((demo 1 2 0x7FF8000000000000).af 2) = true ∧
    tapCount cResAtten (ofInt64 1) (mul64 (div64 (ofInt64 1) (ofInt64 2)) (sub64 cHalfband 0x3FD999999999999A#64)) 2
      (1 * 1 : Nat) = .error .capacityExceeded ∧
    ({ demo 2 3 0 with tbuf := { tlen := 0, t := [] } }.tbuf.tlen.toNat < 1) ∧
    ((demo 1 1 0).lim.tbufDepth < { demo 1 1 0 with tbuf := { tlen := 16385, t := [] } }.tbuf.tlen.toNat) ∧
    (demo 1 1 0).lim.resKMax < ({ demo 1 1 0 with tbuf := { tlen := 1025, t := [] } }.tbuf.tlen.toNat + 1 - 1) / 1 := by
  decide +kernel

/-- V-RES-2, and V-RES-4a, where the output is full. -/
theorem witness_resamp :
    (demo 0 7 0).lim.Ok ∧ (demo 0 7 0).res[0]? = some demoRes ∧ (demo 0 7 0).pkt[0]? = some demoInput ∧
    (demo 0 7 0).pkt[1]? = some (emptyPacket 16) ∧ demoRes.valid = true ∧ demoRes.Ok (demo 0 7 0).lim ∧
    StreamOperands (demo 0 7 0).lim 0 1 demoInput (emptyPacket 16) ((demo 0 7 0).ai 0) ((demo 0 7 0).ai 1) ∧
    (2 * demoInput.rate.toNat * demoRes.facL.toNat + demoRes.facM.toNat) / (2 * demoRes.facM.toNat) ≤ 2 ^ 32 - 1 ∧
    (demoRes.outputs 16 7, demoRes.consumed 16 7) = (5, 7) ∧ (demoRes.outputs 2 7, demoRes.consumed 2 7) = (2, 3) :=
  ⟨by decide, rfl, rfl, rfl, rfl, demoRes_ok, by decide, by decide, by decide, by decide⟩

theorem witness_resamplerSplit :
    ∃ t, exec (.resamp 0 0 1) ((demo 0 0 0).withArgs 0 7) = .next t ∧ (t.status, t.r[0]) = (0#32, BitVec.ofInt 64 7) :=
  exists_next (f := fun t => (t.status, t.r[0])) (by decide +kernel)

theorem witness_cnvinit :
    (demo 0 0 0).lim.Ok ∧ (demo 0 0 0).cnv.length ≤ 1 ∧ (demo 0 0 0).cnv[0]? = some demoCnv ∧
    ((1 ≤ (demo 1 4611686018427387904 4096).ai 0 ∧ (demo 4294967295 0 1).ai 0 ≤ 2 ^ 32 - 1) ∧
      (demo 1 4611686018427387904 4096).ai 1 ≤ 2 ^ 62 ∧ (demo 1 0 4096).ai 2 ≤ ((demo 1 0 4096).lim.ncoMax : Int)) ∧
    ¬ (demo 4294967296 0 1).ai 0 ≤ 2 ^ 32 - 1 ∧ ¬ (demo 1 0 4097).ai 2 ≤ ((demo 1 0 4097).lim.ncoMax : Int) :=
  ⟨by decide, by decide, rfl, by decide, by decide, by decide⟩

/-- A fill of two samples, and one that finds no room. -/
theorem witness_cnvfill :
    (demo 0 0 0).cnv[0]? = some demoCnv ∧ (demo 0 0 0).raw[0]? = some demoRaw ∧ (demo 0 0 0).pkt[1]? = some (emptyPacket 16) ∧
    demoCnv.valid = true ∧ demoCnv.Ok (demo 0 0 0).lim ∧ demoRaw.len.toNat ≤ (demo 0 0 0).lim.rawDepth ∧
    PktOK (demo 0 0 0).lim (emptyPacket 16) ∧ 1 ≤ min (demoRaw.len.toNat / 4) ((emptyPacket 16).cap.toNat - (emptyPacket 16).size.toNat) ∧
    min (demoRaw.len.toNat / 4) ((Packet.afterReset [] []).cap.toNat - (Packet.afterReset [] []).size.toNat) = 0 :=
  ⟨rfl, rfl, rfl, rfl, demoCnv_ok, by decide, by decide, by decide, by decide⟩

/-- Unfolded, folded and the two ends of the range. -/
theorem witness_effectiveMix :
    1 ≤ sparseCnv.rate.toNat ∧ 1 ≤ sparseCnv.maxlen.toNat ∧ FreqInRange sparseCnv.center.toInt ∧
    FreqInRange (4611686018427387904 : Int) ∧ FreqInRange (-4611686018427387904 : Int) ∧
    effectiveMix sparseCnv 99750000 = 250000 ∧ effectiveMix sparseCnv 100000000 = 1000000 ∧
    effectiveMix { sparseCnv with center := 4611686018427387904#64 } (-4611686018427387904) = 2 ^ 63 := by decide +kernel

/-- The cache is empty; it holds the table; the table is too long. -/
theorem witness_cnvmix :
    effectiveMix cachedCnv 99750000 = 250000 ∧ CacheHolds cachedCnv 250000 ∧ cachedCnv.Ok (demo 0 0 0).lim ∧
    cachedCnv.valid = true ∧ ¬ CacheHolds demoCnv 250000 ∧
    BestLength demoCnv.rate.toNat (effectiveMix demoCnv 99750000).natAbs demoCnv.maxlen.toNat 4 ∧ 4 ≤ demoCnv.maxlen.toNat ∧
    -2 ^ 62 ≤ (demo 99750000 0 0).ai 0 ∧ (demo 99750000 0 0).ai 0 ≤ 2 ^ 62 := by
  have e1 : demoCnv.rate.toNat = 1000000 := by decide
  have e2 : effectiveMix demoCnv 99750000 = 250000 := by decide
  refine ⟨by decide, by decide, cachedCnv_ok, rfl, by decide, ?_, by rw [demoCnv_maxlen]; decide, by decide, by decide⟩
  rw [e1, e2, demoCnv_maxlen]
  exact test_bestLength.1

theorem witness_cnvmix_tooLong :
    let C := { sparseCnv with rate := 1000, center := 0, maxlen := 1 }
    C.valid = true ∧ 1 ≤ C.rate.toNat ∧ ¬ CacheHolds C (effectiveMix C 999) ∧
    BestLength C.rate.toNat (effectiveMix C 999).natAbs C.maxlen.toNat 1000 ∧ C.maxlen.toNat < 1000 := by
  refine ⟨rfl, by decide, by decide, ?_, by decide⟩
  have e : effectiveMix { sparseCnv with rate := 1000, center := 0, maxlen := 1 } 999 = 1 := by decide
  rw [e]
  exact test_bestLength.2.2

theorem witness_tableLength : 1 ≤ demoCnv.rate.toNat ∧ 2 ≤ demoCnv.maxlen.toNat ∧ BestLength 1000000 250000 500 4 :=
  ⟨by decide, by rw [demoCnv_maxlen]; decide, test_bestLength.1⟩

theorem witness_centre :
    (demo 100000000 0 0).cnv[0]? = some demoCnv ∧ demoCnv.valid = true ∧ demoCnv.Ok (demo 100000000 0 0).lim ∧ demoCnv.CacheOk ∧
    (demo 100000000 0 0).ai 0 = demoCnv.center.toInt ∧
    ((exec (.cnvfill 0 1 1) (demo 100000000 0 0) matches .next _) ∧ (exec (.cnvmix 0 1 1) (demo 100000000 0 0) matches .next _)) ∧
    Regenerated demoCnv 250000 4 cachedCnv := by
  refine ⟨rfl, rfl, demoCnv_ok, fun h => Bool.noConfusion h, by decide, by decide +kernel, ?_⟩
  exact ⟨rfl, rfl, rfl, rfl, rfl, rfl, rfl, by decide, rfl, fun t => (CnvCtx.regenerated_read _ _ _).1,
    fun t => (CnvCtx.regenerated_read _ _ _).2⟩

/-- 1.0 is finite and not zero, an infinity and a NaN are neither, and the zeros are nul. -/
theorem witness_arithmetic :
    Finite64 one64 ∧ value64 one64 ≠ 0 ∧ 0 ≤ value64 one64 ∧ Finite32 0x3F800000#32 ∧ 0 ≤ value64 0x8000000000000000#64 := by
  have h1 : fmt64.units (mag64 one64) ≠ 0 := by decide +kernel
  have h2 : neg64 one64 = false := by decide
  have e : value64 one64 = (fmt64.units (mag64 one64) : ℝ) := by unfold value64; rw [h2]; rfl
  refine ⟨by decide, by rw [e]; exact_mod_cast h1, by rw [e]; exact Nat.cast_nonneg _, by decide, ?_⟩
  have h3 : fmt64.units (mag64 0x8000000000000000#64) = 0 := by decide +kernel
  unfold value64
  rw [h3]
  simp

theorem witness_special :
    mag64 0x7FF0000000000000#64 = fmt64.infMag ∧ mag64 0xFFF0000000000000#64 = fmt64.infMag ∧
    neg64 0x7FF0000000000000#64 ≠ neg64 0xFFF0000000000000#64 ∧ isNaN64 0x7FF8000000000000#64 = true ∧
    isNaN64 0x7FF0000000000001#64 = true ∧ mag64 0x8000000000000000#64 = 0 ∧ ¬ mag64 one64 = 0 ∧ isNaN64 one64 = false ∧
    neg64 minusOne64 = true ∧ ¬ Finite64 0x7FF0000000000000#64 ∧ isNaN32 0x7FC00000#32 = true ∧
    mag32 0x7F800000#32 = fmt32.infMag ∧ isNaN32 0x3F800000#32 = false := by decide

theorem witness_special32 :
    mag32 0x7F800000#32 = fmt32.infMag ∧ mag32 0xFF800000#32 = fmt32.infMag ∧ neg32 0x7F800000#32 ≠ neg32 0xFF800000#32 ∧
    isNaN32 0x7F800001#32 = true ∧ mag32 0x80000000#32 = 0 ∧ Finite32 0x80000001#32 ∧ ¬ mag32 0x80000001#32 = 0 ∧
    isNaN32 0x80000001#32 = false := by decide

/-- The places either side of the centre of a response. -/
theorem witness_lowPass : (0 : Int) - ((3 - 1) / 2 : Nat) ≠ 0 ∧ (1 : Int) - ((3 - 1) / 2 : Nat) = 0 := by decide

end Sys2Proof.Machine.Tests
end

/-! What a command can end in, said once for all thirteen (R11, R190, R194), and when a command ends at all. -/

namespace Sys2Proof.Machine

/-- R192, R194: the codes with which a command changes nothing but the status register: a construction command only where
its index test fails, `CNVMIX` wherever the oscillator table is not the reason. -/
def raisesPlainly (e : ErrCode) : Instr → Prop
  | .firdes _ _ | .resinit _ _ | .cnvinit _ => e = .badIndex
  | .cnvmix _ _ _ => e ≠ .capacityExceeded
  | .winblk | .winham | .winksr | .wini0 | .ratapx | .firflt _ _ _ | .firfltr _ _ _ | .resamp _ _ _ | .cnvfill _ _ _ => True

/-- R134, R136: the filter command on the given channels. -/
def filterInstr (ch : Channels) (c p q : Nat) : Instr :=
  match ch with
  | .both => .firflt c p q
  | .realOnly => .firfltr c p q

/-- The prototype that `RESINIT` splits into phases (R151). -/
def resinitPrototype (s : State) (custom : Bool) (L M : Nat) : Design :=
  if custom then customPrototype s.lim s.tbuf else defaultPrototype s.lim L M (s.af 2) (s.ai 3)

/-- What the command `i` can make of the state `s`. -/
inductive Ends (s : State) : Instr → State → Prop
  /-- R194: the code and nothing else. -/
  | raised {i : Instr} {e : ErrCode} (he : raisesPlainly e i) : Ends s i (s.raise e)
  /-- R194: a construction that failed after its index test. -/
  | firdesFailed {c : Nat} {win : WindowFn} {F : FirCtx} {e : ErrCode} (hF : s.fir[c]? = some F) (he : e ≠ .badIndex) :
    Ends s (.firdes c win) ((s.setFir c { F with valid := false }).raise e)
  | resinitFailed {c : Nat} {custom : Bool} {R : ResCtx} {e : ErrCode} (hR : s.res[c]? = some R) (he : e ≠ .badIndex) :
    Ends s (.resinit c custom) ((s.setRes c { R with valid := false }).raise e)
  | cnvinitFailed {c : Nat} {C : CnvCtx} {e : ErrCode} (hC : s.cnv[c]? = some C) (he : e ≠ .badIndex) :
    Ends s (.cnvinit c) ((s.setCnv c { C with valid := false }).raise e)
  /-- R176, R178: an oscillator table that does not fit. -/
  | cnvmixTooLong {c b q : Nat} {C : CnvCtx} (hC : s.cnv[c]? = some C) :
    Ends s (.cnvmix c b q) ((s.setCnv c { C with ncoValid := false }).raise .capacityExceeded)
  /-- R111 to R114, R173: a result and nothing else. -/
  | result {i : Instr} (v : Word64) : Ends s i (s.setR 0 v).complete
  /-- R121: two results and nothing else. -/
  | approximated (n d : Nat) : Ends s .ratapx ((s.setR 0 (intResult n)).setR 1 (intResult d)).complete
  /-- R131. -/
  | designed {c : Nat} {win : WindowFn} {F : FirCtx} {ts : List F32} (hF : s.fir[c]? = some F) (h0 : 1 ≤ s.ai 0)
    (h1 : s.ai 0 ≤ 2 ^ 31 - 1)
    (hts : designLowPass (s.af 1) (s.af 2) (s.af 3) (s.af 4) (s.af 5) win (s.af 7) (s.ai 6) s.lim.tapMax = .taps ts) :
    Ends s (.firdes c win) ((s.setFir c (F.built (s.ai 0) ts)).setR 0 (intResult ts.length)).complete
  /-- R134, R136. -/
  | filtered {ch : Channels} {c p q : Nat} {F : FirCtx} {inp out : Packet} {x : FirRun} (hF : s.fir[c]? = some F)
    (hout : s.pkt[q]? = some out) (hv : F.valid = true) (hok : PktOK s.lim out)
    (hx : x = firRun ch F inp out (s.ai 0).toNat (s.ai 1).toNat) :
    Ends s (filterInstr ch c p q) (((s.setFir c x.ctx).setPkt q (firOutput inp out x)).setR 0 (intResult x.i)).complete
  /-- R151. -/
  | split {c : Nat} {custom : Bool} {R : ResCtx} {L M : Nat} {P : List F32} (hR : s.res[c]? = some R)
    (h0 : 1 ≤ s.ai 0 ∧ s.ai 0 ≤ 2 ^ 31 - 1) (h1 : 1 ≤ s.ai 1 ∧ s.ai 1 ≤ 2 ^ 31 - 1)
    (hL : L = (s.ai 0).toNat / Nat.gcd (s.ai 0).toNat (s.ai 1).toNat)
    (hM : M = (s.ai 1).toNat / Nat.gcd (s.ai 0).toNat (s.ai 1).toNat) (hmax : L ≤ s.lim.resLMax)
    (hP : resinitPrototype s custom L M = .taps P) (hK : subFilterLen P.length L ≤ s.lim.resKMax) :
    Ends s (.resinit c custom) (((s.setRes c (R.built s.lim L M (subFilterLen P.length L) P)).setR 0
      (intResult L)).setR 1 (intResult M)).complete
  /-- R156. -/
  | resampled {c p q nr : Nat} {R : ResCtx} {inp out : Packet} {x : ResRun} (hR : s.res[c]? = some R)
    (hout : s.pkt[q]? = some out) (hv : R.valid = true) (hok : PktOK s.lim out)
    (hx : x = resRun s.lim R inp out (s.ai 0).toNat (s.ai 1).toNat) :
    Ends s (.resamp c p q) (((s.setRes c x.ctx).setPkt q (resOutput inp out nr x)).setR 0 (intResult x.cnt)).complete
  /-- R171. -/
  | configured {c : Nat} {C : CnvCtx} (hC : s.cnv[c]? = some C) (h0 : 1 ≤ s.ai 0 ∧ s.ai 0 ≤ 2 ^ 32 - 1)
    (h1 : FreqInRange (s.ai 1)) (h2 : 1 ≤ s.ai 2 ∧ s.ai 2 ≤ s.lim.ncoMax) :
    Ends s (.cnvinit c) (s.setCnv c (C.built (s.ai 0) (s.ai 1) (s.ai 2))).complete
  /-- R173. -/
  | filled {c b q n : Nat} {C : CnvCtx} {B : RawSlot} {out : Packet} (hout : s.pkt[q]? = some out) (hok : PktOK s.lim out)
    (hn : n = fillCount B out) :
    Ends s (.cnvfill c b q) ((s.setPkt q (fillOutput C B out n)).setR 0 (intResult n)).complete
  /-- R178. -/
  | mixed {c b q : Nat} {C D : CnvCtx} {B : RawSlot} {out : Packet} (hC : s.cnv[c]? = some C) (hout : s.pkt[q]? = some out)
    (hv : C.valid = true) (hok : PktOK s.lim out) (hD : updateCache C (effectiveMix C (s.ai 0)) = .ready D) :
    Ends s (.cnvmix c b q) (mixFill c q D B out (s.ai 0) s)

variable {s t : State}

theorem execWinblk_ends (h : execWinblk s = .next t) : Ends s .winblk t := by
  unfold execWinblk at h
  split at h <;> cases h
  · exact .result _
  · exact .raised trivial

theorem execWinham_ends (h : execWinham s = .next t) : Ends s .winham t := by
  unfold execWinham at h
  split at h <;> cases h
  · exact .result _
  · exact .raised trivial

theorem execWinksr_ends (h : execWinksr s = .next t) : Ends s .winksr t := by
  unfold execWinksr at h
  split at h
  · cases h; exact .raised trivial
  split at h
  · cases h; exact .raised trivial
  split at h <;> cases h
  exact .result _

theorem execWini0_ends (h : execWini0 s = .next t) : Ends s .wini0 t := by
  unfold execWini0 at h
  split at h
  · split at h <;> cases h
    exact .result _
  · cases h; exact .raised trivial

theorem execRatapx_ends (h : execRatapx s = .next t) : Ends s .ratapx t := by
  unfold execRatapx at h
  split at h
  · split at h <;> cases h
    exact .approximated _ _
  · cases h; exact .raised trivial

/-- R192: a design never fails with `BadIndex`, whatever its limit. -/
theorem designLowPass_fail_ne {gain fs fc tw att : F64} {win : WindowFn} {beta : F64} {maxTaps limit : Int} {e : ErrCode}
    (h : designLowPass gain fs fc tw att win beta maxTaps limit = .fail e) : e ≠ .badIndex := by
  unfold designLowPass at h
  split at h
  · cases h; decide
  split at h
  · cases h; decide
  split at h
  · rename_i e' he
    cases h
    rcases tapCount_error he with rfl | rfl <;> decide
  · split at h <;> cases h

theorem resinitPrototype_fail_ne {custom : Bool} {L M : Nat} {e : ErrCode}
    (h : resinitPrototype s custom L M = .fail e) : e ≠ .badIndex := by
  unfold resinitPrototype at h
  split at h
  · rcases customPrototype_cases (lim := s.lim) (b := s.tbuf) with ⟨-, -, e1⟩ | ⟨-, e1⟩ <;> rw [e1] at h <;> cases h
    decide
  · unfold defaultPrototype at h
    split at h
    · cases h; decide
    · exact designLowPass_fail_ne h

theorem execFirdes_ends {c : Nat} {win : WindowFn} (h : execFirdes c win s = .next t) : Ends s (.firdes c win) t := by
  unfold execFirdes at h
  split at h
  · cases h; exact .raised rfl
  rename_i F hF
  dsimp only at h
  split at h
  · cases h; exact .firdesFailed hF (by decide)
  split at h
  · cases h; exact .firdesFailed hF (by decide)
  split at h
  · cases h
  · rename_i e he
    cases h; exact .firdesFailed hF (designLowPass_fail_ne he)
  · rename_i ts hts
    cases h; exact .designed hF (by omega) (by omega) hts

theorem firFilter_ends {ch : Channels} {c p q : Nat} (h : firFilter ch c p q s = .next t) :
    Ends s (filterInstr ch c p q) t := by
  have plain : ∀ e, raisesPlainly e (filterInstr ch c p q) := fun e => by cases ch <;> exact trivial
  unfold firFilter at h
  split at h
  · rename_i F inp out hF hinp hout
    split at h
    · cases h; exact .raised (plain _)
    rename_i hv
    split at h
    · cases h; exact .raised (plain _)
    rename_i hops
    obtain ⟨-, -, hok, -⟩ := not_not.1 hops
    cases h
    exact .filtered hF hout (by simpa using hv) hok rfl
  · cases h; exact .raised (plain _)

theorem execResinit_ends {c : Nat} {custom : Bool} (h : execResinit c custom s = .next t) :
    Ends s (.resinit c custom) t := by
  unfold execResinit at h
  split at h
  · cases h; exact .raised rfl
  rename_i R hR
  dsimp only at h
  split at h
  · cases h; exact .resinitFailed hR (by decide)
  split at h
  · cases h; exact .resinitFailed hR (by decide)
  split at h
  · cases h; exact .resinitFailed hR (by decide)
  split at h
  · cases h
  · rename_i e he
    cases h; exact .resinitFailed hR (resinitPrototype_fail_ne he)
  rename_i P hP
  split at h
  · cases h; exact .resinitFailed hR (by decide)
  · cases h; exact .split hR (by omega) (by omega) rfl rfl (by omega) hP (by omega)

theorem execResamp_ends {c p q : Nat} (h : execResamp c p q s = .next t) : Ends s (.resamp c p q) t := by
  unfold execResamp at h
  split at h
  · rename_i R inp out hR hinp hout
    split at h
    · cases h; exact .raised trivial
    rename_i hv
    split at h
    · cases h; exact .raised trivial
    rename_i hops
    obtain ⟨-, -, hok, -⟩ := not_not.1 hops
    dsimp only at h
    split at h
    · cases h; exact .raised trivial
    · cases h; exact .resampled hR hout (by simpa using hv) hok rfl
  · cases h; exact .raised trivial

theorem execCnvinit_ends {c : Nat} (h : execCnvinit c s = .next t) : Ends s (.cnvinit c) t := by
  unfold execCnvinit at h
  split at h
  · cases h; exact .raised rfl
  rename_i C hC
  dsimp only at h
  split at h
  · cases h; exact .cnvinitFailed hC (by decide)
  split at h
  · cases h; exact .cnvinitFailed hC (by decide)
  rename_i hf
  split at h
  · cases h; exact .cnvinitFailed hC (by decide)
  · cases h; exact .configured hC (by omega) (not_not.1 hf) (by omega)

theorem execCnvfill_ends {c b q : Nat} (h : execCnvfill c b q s = .next t) : Ends s (.cnvfill c b q) t := by
  unfold execCnvfill at h
  split at h
  · rename_i C B out hC hB hout
    split at h
    · cases h; exact .raised trivial
    split at h
    · cases h; exact .raised trivial
    rename_i hok
    dsimp only at h
    split at h
    · cases h; exact .result _
    · cases h; exact .filled hout (not_not.1 hok).2 rfl
  · cases h; exact .raised trivial

theorem execCnvmix_ends {c b q : Nat} (h : execCnvmix c b q s = .next t) : Ends s (.cnvmix c b q) t := by
  have plain : ∀ e, e ≠ .capacityExceeded → raisesPlainly e (.cnvmix c b q) := fun _ => id
  unfold execCnvmix at h
  split at h
  · rename_i C B out hC hB hout
    split at h
    · cases h; exact .raised (plain _ (by decide))
    rename_i hv
    split at h
    · cases h; exact .raised (plain _ (by decide))
    rename_i hok
    split at h
    · cases h; exact .raised (plain _ (by decide))
    split at h
    · cases h
    · cases h; exact .cnvmixTooLong hC
    · rename_i D hD
      cases h; exact .mixed hC hout (by simpa using hv) (not_not.1 hok).2 hD
  · cases h; exact .raised (plain _ (by decide))

/-- R11, R190: the next state of a command is one of those that `Ends` lists. -/
theorem exec_ends {i : Instr} (h : exec i s = .next t) : Ends s i t := by
  cases i with
  | winblk => exact execWinblk_ends h
  | winham => exact execWinham_ends h
  | winksr => exact execWinksr_ends h
  | wini0 => exact execWini0_ends h
  | ratapx => exact execRatapx_ends h
  | firdes c win => exact execFirdes_ends h
  | firflt c p q => exact firFilter_ends (ch := .both) h
  | firfltr c p q => exact firFilter_ends (ch := .realOnly) h
  | resinit c custom => exact execResinit_ends h
  | resamp c p q => exact execResamp_ends h
  | cnvinit c => exact execCnvinit_ends h
  | cnvfill c b q => exact execCnvfill_ends h
  | cnvmix c b q => exact execCnvmix_ends h

end Sys2Proof.Machine

/-! What every command leaves alone, what it has changed where it raises, and that none is refused (R30, R38, R39, R194). -/

namespace Sys2Proof.Machine

variable {s t : State}

/-! ## The structural parameters under the updates of the state -/

@[simp] theorem State.raise_params (e : ErrCode) : (s.raise e).params = s.params := rfl

@[simp] theorem State.complete_params : s.complete.params = s.params := rfl

@[simp] theorem State.setR_params (i : Fin 2) (v : Word64) : (s.setR i v).params = s.params := rfl

@[simp] theorem State.latch_params (w : Word32) : (s.latch w).params = s.params := rfl

@[simp] theorem State.setPkt_params (p : Nat) (x : Packet) : (s.setPkt p x).params = s.params := by
  simp [State.params]

@[simp] theorem State.setFir_params (c : Nat) (x : FirCtx) : (s.setFir c x).params = s.params := by
  simp [State.params]

@[simp] theorem State.setRes_params (c : Nat) (x : ResCtx) : (s.setRes c x).params = s.params := by
  simp [State.params]

@[simp] theorem State.setCnv_params (c : Nat) (x : CnvCtx) : (s.setCnv c x).params = s.params := by
  simp [State.params]

/-! ## What the host owns -/

/-- R30, R32, R38, R39: the parts of the state that no command writes are the same in `s` and `t`. -/
structure SameHostState (s t : State) : Prop where
  a : t.a = s.a
  cmd : t.cmd = s.cmd
  raw : t.raw = s.raw
  tbuf : t.tbuf = s.tbuf
  host : t.host = s.host
  params : t.params = s.params

/-- R178: a mixing fill writes its converter, its packet, `r[0]` and the code. -/
theorem mixFill_cases (c q : Nat) (D : CnvCtx) (B : RawSlot) (out : Packet) (chan : Int) (s : State) :
    (D.ncoLen = 0 ∨ fillCount B out = 0) ∧
      mixFill c q D B out chan s = ((s.setCnv c D).setR 0 (intResult 0)).complete ∨
    ¬ (D.ncoLen = 0 ∨ fillCount B out = 0) ∧
      mixFill c q D B out chan s =
        (((s.setCnv c { D with cur := BitVec.ofNat 32 (mixRun D B out (fillCount B out)).cur }).setPkt q
          (mixOutput D out chan (fillCount B out) (mixRun D B out (fillCount B out)))).setR 0
            (intResult (fillCount B out))).complete := by
  unfold mixFill
  by_cases h : D.ncoLen = 0 ∨ fillCount B out = 0
  · exact .inl ⟨h, if_pos h⟩
  · exact .inr ⟨h, if_neg h⟩

theorem Ends.sameHostState {i : Instr} (h : Ends s i t) : SameHostState s t := by
  cases h with
  | @mixed _ _ _ _ D B out =>
    rcases mixFill_cases _ _ D B out (s.ai 0) s with ⟨-, e⟩ | ⟨-, e⟩ <;> rw [e] <;> constructor <;> simp
  | _ => constructor <;> simp

/-- Settles O21: read off from what a command can end in. -/
theorem commandsLeaveHostStateAlone : Obligations.CommandsLeaveHostStateAlone := by
  intro i s t h
  obtain ⟨ha, hcmd, hraw, htbuf, hhost, hparams⟩ := (exec_ends h).sameHostState
  exact ⟨ha, hcmd, hraw, htbuf, hhost, hparams⟩

/-! ## What an error changes -/

theorem statusWord_number_eq_four {e : ErrCode} : statusWord e.number = 4 ↔ e = .badIndex := by cases e <;> decide

theorem statusWord_number_eq_seven {e : ErrCode} : statusWord e.number = 7 ↔ e = .capacityExceeded := by cases e <;> decide

@[simp] theorem State.complete_status_zero : s.complete.status = 0 := statusWord_zero

theorem mixFill_status (c q : Nat) (D : CnvCtx) (B : RawSlot) (out : Packet) (chan : Int) (s : State) :
    (mixFill c q D B out chan s).status = 0 := by
  rcases mixFill_cases c q D B out chan s with ⟨-, e⟩ | ⟨-, e⟩ <;> rw [e] <;> exact State.complete_status_zero

/-- R194: what the state is after a command that raises, command by command (the second half of `ErrorsArePrecise`). -/
def PreciseError (i : Instr) (s t : State) : Prop :=
  match i with
  | .firdes c _ =>
    if t.status = 4 then t = { s with status := t.status }
    else ∃ F, s.fir[c]? = some F ∧ t = { s with status := t.status, fir := s.fir.set c { F with valid := false } }
  | .resinit c _ =>
    if t.status = 4 then t = { s with status := t.status }
    else ∃ R, s.res[c]? = some R ∧ t = { s with status := t.status, res := s.res.set c { R with valid := false } }
  | .cnvinit c =>
    if t.status = 4 then t = { s with status := t.status }
    else ∃ C, s.cnv[c]? = some C ∧ t = { s with status := t.status, cnv := s.cnv.set c { C with valid := false } }
  | .cnvmix c _ _ =>
    if t.status = 7 then
      ∃ C, s.cnv[c]? = some C ∧ t = { s with status := t.status, cnv := s.cnv.set c { C with ncoValid := false } }
    else t = { s with status := t.status }
  | .winblk | .winham | .winksr | .wini0 | .ratapx | .firflt _ _ _ | .firfltr _ _ _ | .resamp _ _ _ | .cnvfill _ _ _ =>
    t = { s with status := t.status }

/-- R194: a plain `raise` is precise for every command that raises the code plainly. -/
theorem preciseError_raise {i : Instr} {e : ErrCode} (he : raisesPlainly e i) : PreciseError i s (s.raise e) := by
  cases i with
  | firdes c win => exact (if_pos (statusWord_number_eq_four.2 he)).mpr rfl
  | resinit c custom => exact (if_pos (statusWord_number_eq_four.2 he)).mpr rfl
  | cnvinit c => exact (if_pos (statusWord_number_eq_four.2 he)).mpr rfl
  | cnvmix c b q => exact (if_neg (mt statusWord_number_eq_seven.1 he)).mpr rfl
  | _ => exact rfl

/-- R194: `CNVMIX` clears the cache's bit with `CapacityExceeded`. -/
theorem preciseError_cnvmix {c b q : Nat} {C : CnvCtx} {e : ErrCode} (hC : s.cnv[c]? = some C) (he : e = .capacityExceeded) :
    PreciseError (.cnvmix c b q) s ((s.setCnv c { C with ncoValid := false }).raise e) :=
  (if_pos (statusWord_number_eq_seven.2 he)).mpr ⟨C, hC, rfl⟩

theorem Ends.preciseError {i : Instr} (h : Ends s i t) (ht : t.status ≠ 0) : PreciseError i s t := by
  cases h with
  | raised he => exact preciseError_raise he
  | firdesFailed hF he => exact (if_neg (mt statusWord_number_eq_four.1 he)).mpr ⟨_, hF, rfl⟩
  | resinitFailed hR he => exact (if_neg (mt statusWord_number_eq_four.1 he)).mpr ⟨_, hR, rfl⟩
  | cnvinitFailed hC he => exact (if_neg (mt statusWord_number_eq_four.1 he)).mpr ⟨_, hC, rfl⟩
  | cnvmixTooLong hC => exact preciseError_cnvmix hC rfl
  | mixed => exact absurd (mixFill_status ..) ht
  | _ => exact absurd State.complete_status_zero ht

/-! ## The step at a write to `CMD` -/

theorem step_write_cmd {v : Word64} {rest : List HostAction} (h : s.host = .write .cmd v :: rest) :
    step s = issue { s with host := rest } (v.setWidth 32) := by
  unfold step
  rw [h]

theorem issue_of_decode {w : Word32} {i : Instr} (h : decode w = .ok i) : issue s w = exec i (s.latch w) := by
  unfold issue
  rw [h]

theorem issue_of_error {w : Word32} {e : DecodeError} (h : decode w = .error e) :
    issue s w = .next ((s.latch w).raise .illegalCommand) := by
  unfold issue
  rw [h]

/-- Settles O19: the error endings among those that a command can have. -/
theorem errorsArePrecise : Obligations.ErrorsArePrecise := by
  refine ⟨fun s v rest e hs hd => ?_, fun i s t h ht => (exec_ends h).preciseError ht⟩
  rw [step_write_cmd hs, issue_of_error hd]
  rfl

/-- R98: the command that a table row's word decodes to is the one of the word itself. -/
theorem decode_of_decodeTableWord {w : Nat} {i : Instr} (h : decodeTableWord 32 w = some i) :
    decode (BitVec.ofNat 32 w) = .ok i := by
  unfold decodeTableWord at h
  rw [show BitVec.ofNat 32 (w % 2 ^ 32) = BitVec.ofNat 32 w from BitVec.eq_of_toNat_eq (by simp)] at h
  split at h
  · rename_i j hj
    rw [hj, Option.some.inj h]
  · cases h

/-- Settles O6: the step at a write to `CMD` is the issue of its word, and the issue of a command word is the command. -/
theorem stepRunsDecodedCommand : Obligations.StepRunsDecodedCommand := by
  refine ⟨fun s v rest i hs hd => ?_, fun s w i hw => ?_⟩
  · rw [step_write_cmd hs, issue_of_decode hd]
    rfl
  · have he : (BitVec.ofNat 64 (w % 2 ^ 32)).setWidth 32 = BitVec.ofNat 32 w := by
      apply BitVec.eq_of_toNat_eq
      simp only [BitVec.toNat_setWidth, BitVec.toNat_ofNat]
      omega
    rw [step_write_cmd (s := s.withFetchWord 32 w) rfl, he, issue_of_decode (decode_of_decodeTableWord hw)]
    rfl

/-! ## No command is refused -/

theorem State.ParamsOk.lim_ok (h : s.ParamsOk) : s.lim.Ok := by
  obtain ⟨-, -, -, -, -, hl⟩ := h
  exact hl

theorem tapMax_le_of_ok {l : Limits} (h : l.Ok) : l.tapMax ≤ 2 ^ 31 - 1 := by
  obtain ⟨-, -, -, ⟨-, htap⟩, -⟩ := h
  exact htap

theorem ncoMax_le_of_ok {l : Limits} (h : l.Ok) : l.ncoMax ≤ 2 ^ 31 - 1 := by
  obtain ⟨-, -, -, -, -, -, -, hnco⟩ := h
  exact hnco

theorem execWinksr_completes (s : State) : ∃ t, execWinksr s = .next t := by
  unfold execWinksr
  split
  · exact ⟨_, rfl⟩
  rename_i hc
  split
  · exact ⟨_, rfl⟩
  rename_i hd
  obtain ⟨⟨h2, h3⟩, h0, h1⟩ := not_not.1 hc
  obtain ⟨v, e⟩ := kaiser_isSome h0 h1 h2 (by omega) (not_not.1 hd)
  rw [e]
  exact ⟨_, rfl⟩

theorem execWini0_completes (s : State) : ∃ t, execWini0 s = .next t := by
  unfold execWini0
  split
  · rename_i hd
    obtain ⟨v, e⟩ := i0_isSome hd
    rw [e]
    exact ⟨_, rfl⟩
  · exact ⟨_, rfl⟩

theorem execRatapx_completes (s : State) : ∃ t, execRatapx s = .next t := by
  unfold execRatapx
  split
  · rename_i h
    obtain ⟨⟨h1, -⟩, ⟨h2, -⟩, ⟨h3, -⟩⟩ := h
    obtain ⟨n, d, e, -⟩ := ratApprox_spec (num := (s.ai 0).toNat) (den := (s.ai 1).toNat) (maxd := (s.ai 2).toNat)
      (by omega) (by omega) (by omega)
    rw [e]
    exact ⟨_, rfl⟩
  · exact ⟨_, rfl⟩

theorem execFirdes_completes (hl : s.lim.Ok) (c : Nat) (win : WindowFn) : ∃ t, execFirdes c win s = .next t := by
  have htap := tapMax_le_of_ok hl
  unfold execFirdes
  split
  · exact ⟨_, rfl⟩
  dsimp only
  split
  · exact ⟨_, rfl⟩
  split
  · exact ⟨_, rfl⟩
  rcases designLowPass_cases (gain := s.af 1) (fs := s.af 2) (fc := s.af 3) (tw := s.af 4) (att := s.af 5) (win := win)
    (beta := s.af 7) (maxTaps := s.ai 6) (show (s.lim.tapMax : Int) ≤ 2 ^ 62 by omega) with ⟨ts, e, -⟩ | ⟨_, e, -⟩ <;>
    rw [e]
  · exact ⟨_, rfl⟩
  · exact ⟨_, rfl⟩

theorem firFilter_completes (ch : Channels) (c p q : Nat) (s : State) : ∃ t, firFilter ch c p q s = .next t := by
  unfold firFilter
  split
  · split
    · exact ⟨_, rfl⟩
    split <;> exact ⟨_, rfl⟩
  · exact ⟨_, rfl⟩

/-- R151: a factor pair divided by its greatest common divisor. -/
theorem reduced_pair {l m : Nat} (hl : 1 ≤ l) (hm : 1 ≤ m) :
    (1 ≤ l / Nat.gcd l m ∧ l / Nat.gcd l m ≤ l) ∧ (1 ≤ m / Nat.gcd l m ∧ m / Nat.gcd l m ≤ m) ∧
      Nat.gcd (l / Nat.gcd l m) (m / Nat.gcd l m) = 1 :=
  ⟨⟨Nat.div_pos (Nat.gcd_le_left _ hl) (Nat.gcd_pos_of_pos_left _ hl), Nat.div_le_self _ _⟩,
    ⟨Nat.div_pos (Nat.gcd_le_right _ hm) (Nat.gcd_pos_of_pos_left _ hl), Nat.div_le_self _ _⟩,
    Nat.coprime_div_gcd_div_gcd (Nat.gcd_pos_of_pos_left _ hl)⟩

theorem resinitPrototype_custom (s : State) (L M : Nat) : resinitPrototype s true L M = customPrototype s.lim s.tbuf :=
  if_pos rfl

theorem resinitPrototype_default (s : State) (L M : Nat) :
    resinitPrototype s false L M = defaultPrototype s.lim L M (s.af 2) (s.ai 3) :=
  if_neg Bool.false_ne_true

/-- R152, R155: a prototype has at least one coefficient, or the construction fails; the I0 series always ends. -/
theorem resinitPrototype_cases (hl : s.lim.Ok) (custom : Bool) {L M : Nat} (hL : 1 ≤ L) (hL2 : L ≤ 2 ^ 31 - 1) (hM : 1 ≤ M)
    (hM2 : M ≤ 2 ^ 31 - 1) :
    (∃ P, resinitPrototype s custom L M = .taps P ∧ 1 ≤ P.length) ∨ ∃ e, resinitPrototype s custom L M = .fail e := by
  cases custom with
  | true =>
    rw [resinitPrototype_custom]
    rcases customPrototype_cases (lim := s.lim) (b := s.tbuf) with ⟨h1, -, e⟩ | ⟨-, e⟩
    · exact .inl ⟨_, e, by simpa using h1⟩
    · exact .inr ⟨_, e⟩
  | false =>
    rw [resinitPrototype_default]
    rcases defaultPrototype_cases (fbw := s.af 2) (mtpp := s.ai 3) hl hL hL2 hM hM2 with ⟨P, e, -, h3, -⟩ | ⟨e', e, -⟩
    · exact .inl ⟨P, e, by omega⟩
    · exact .inr ⟨e', e⟩

theorem execResinit_completes (hl : s.lim.Ok) (c : Nat) (custom : Bool) : ∃ t, execResinit c custom s = .next t := by
  unfold execResinit
  split
  · exact ⟨_, rfl⟩
  dsimp only
  split
  · exact ⟨_, rfl⟩
  rename_i hpos
  split
  · exact ⟨_, rfl⟩
  rename_i hmax
  split
  · exact ⟨_, rfl⟩
  obtain ⟨⟨a1, a2⟩, ⟨b1, b2⟩, -⟩ := reduced_pair (l := (s.ai 0).toNat) (m := (s.ai 1).toNat) (by omega) (by omega)
  have hcases := resinitPrototype_cases hl custom a1 (by omega) b1 (by omega)
  unfold resinitPrototype at hcases
  rcases hcases with ⟨P, e, -⟩ | ⟨_, e⟩ <;> rw [e]
  · dsimp only
    split <;> exact ⟨_, rfl⟩
  · exact ⟨_, rfl⟩

theorem execResamp_completes (c p q : Nat) (s : State) : ∃ t, execResamp c p q s = .next t := by
  unfold execResamp
  split
  · split
    · exact ⟨_, rfl⟩
    split
    · exact ⟨_, rfl⟩
    dsimp only
    split <;> exact ⟨_, rfl⟩
  · exact ⟨_, rfl⟩

theorem execCnvinit_completes (c : Nat) (s : State) : ∃ t, execCnvinit c s = .next t := by
  unfold execCnvinit
  split
  · exact ⟨_, rfl⟩
  dsimp only
  split
  · exact ⟨_, rfl⟩
  split
  · exact ⟨_, rfl⟩
  split <;> exact ⟨_, rfl⟩

theorem execCnvfill_completes (c b q : Nat) (s : State) : ∃ t, execCnvfill c b q s = .next t := by
  unfold execCnvfill
  split
  · split
    · exact ⟨_, rfl⟩
    split
    · exact ⟨_, rfl⟩
    dsimp only
    split <;> exact ⟨_, rfl⟩
  · exact ⟨_, rfl⟩

theorem execCnvmix_completes (hs : s.CnvOk) (c b q : Nat) : ∃ t, execCnvmix c b q s = .next t := by
  unfold execCnvmix
  split
  · rename_i C B out hC hB hout
    split
    · exact ⟨_, rfl⟩
    rename_i hv
    split
    · exact ⟨_, rfl⟩
    split
    · exact ⟨_, rfl⟩
    have hr : 1 ≤ C.rate.toNat := (hs C (List.mem_of_getElem? hC) (by simpa using hv)).rate_pos
    rcases updateCache_cases (effectiveMix C (s.ai 0)) hr with ⟨-, -, e⟩ | ⟨-, _, -, ⟨-, e⟩ | ⟨-, e⟩⟩ <;>
      rw [e] <;> exact ⟨_, rfl⟩
  · exact ⟨_, rfl⟩

/-- R97, R115, R121, R176: every command ends, its loops within their fuel. -/
theorem exec_completes (hl : s.lim.Ok) (hs : s.CnvOk) (i : Instr) : ∃ t, exec i s = .next t := by
  cases i with
  | winblk => unfold exec execWinblk; dsimp only; split <;> exact ⟨_, rfl⟩
  | winham => unfold exec execWinham; dsimp only; split <;> exact ⟨_, rfl⟩
  | winksr => exact execWinksr_completes s
  | wini0 => exact execWini0_completes s
  | ratapx => exact execRatapx_completes s
  | firdes c win => exact execFirdes_completes hl c win
  | firflt c p q => exact firFilter_completes .both c p q s
  | firfltr c p q => exact firFilter_completes .realOnly c p q s
  | resinit c custom => exact execResinit_completes hl c custom
  | resamp c p q => exact execResamp_completes c p q s
  | cnvinit c => exact execCnvinit_completes c s
  | cnvfill c b q => exact execCnvfill_completes c b q s
  | cnvmix c b q => exact execCnvmix_completes hs c b q

/-- What one step can be: idling, a host access, a reset, a word that is no command, or a command. -/
theorem step_cases (s : State) :
    (s.host = [] ∧ step s = .next s) ∨
    (∃ e rest, s.host = .read e :: rest ∧ step s = .next { s with host := rest }) ∨
    (∃ e v rest, s.host = .write e v :: rest ∧ e ≠ .cmd ∧ step s = .next (hostWrite { s with host := rest } e v)) ∨
    (∃ m rest, s.host = .reset m :: rest ∧ step s = .next (State.platformReset { s with host := rest } m)) ∨
    (∃ v rest e, s.host = .write .cmd v :: rest ∧ decode (v.setWidth 32) = .error e ∧
      step s = .next (({ s with host := rest } : State).latch (v.setWidth 32) |>.raise .illegalCommand)) ∨
    (∃ v rest i, s.host = .write .cmd v :: rest ∧ decode (v.setWidth 32) = .ok i ∧
      step s = exec i (({ s with host := rest } : State).latch (v.setWidth 32))) := by
  rcases hh : s.host with _ | ⟨act, rest⟩
  · exact .inl ⟨rfl, by unfold step; rw [hh]⟩
  · cases act with
    | read e => exact .inr (.inl ⟨e, rest, rfl, by unfold step; rw [hh]⟩)
    | reset m => exact .inr (.inr (.inr (.inl ⟨m, rest, rfl, by unfold step; rw [hh]⟩)))
    | write e v =>
      by_cases he : e = .cmd
      · subst he
        rw [step_write_cmd hh]
        cases hd : decode (v.setWidth 32) with
        | error e => exact .inr (.inr (.inr (.inr (.inl ⟨v, rest, e, rfl, hd, issue_of_error hd⟩))))
        | ok i => exact .inr (.inr (.inr (.inr (.inr ⟨v, rest, i, rfl, hd, issue_of_decode hd⟩))))
      · refine .inr (.inr (.inl ⟨e, v, rest, rfl, he, ?_⟩))
        unfold step
        rw [hh]
        cases e with
        | cmd => exact absurd rfl he
        | _ => rfl

/-- Settles O18: the only steps that could be refused are commands, and every command completes. -/
theorem everyStepCompletes : Obligations.EveryStepCompletes := by
  intro s hs
  rcases step_cases s with ⟨-, h⟩ | ⟨_, _, -, h⟩ | ⟨_, _, _, -, -, h⟩ | ⟨_, _, -, h⟩ | ⟨_, _, _, -, -, h⟩ |
    ⟨v, rest, i, -, -, h⟩
  case inr.inr.inr.inr.inr =>
    rw [h]
    exact exec_completes (s := State.latch { s with host := rest } (v.setWidth 32)) hs.params.lim_ok hs.cnv i
  all_goals exact ⟨_, h⟩

end Sys2Proof.Machine

/-! The invariants of the block, slot by slot: which updates of the state keep them, that a reset establishes them, and that
every step keeps them (R7, R33, R41, R43, R45, R191, R206, R211). -/

namespace Sys2Proof.Machine

/-! ## The invariant of one slot -/

/-- What `State.Inv` says of one packet slot. -/
structure Packet.Legal (l : Limits) (P : Packet) : Prop where
  wf : P.re.wf ∧ P.im.wf
  within : P.re.within l.pktDepth ∧ P.im.within l.pktDepth

/-- What `State.Inv` says of one raw slot. -/
structure RawSlot.Legal (l : Limits) (B : RawSlot) : Prop where
  wf : B.byte.wf
  within : B.byte.within l.rawDepth

/-- What `State.Inv` says of the tap staging buffer. -/
structure TapBuffer.Legal (l : Limits) (T : TapBuffer) : Prop where
  wf : T.t.wf
  within : T.t.within l.tbufDepth

/-- What `State.Inv` says of one FIR context. -/
structure FirCtx.Legal (l : Limits) (F : FirCtx) : Prop where
  ok : F.valid = true → F.Ok l
  wf : F.taps.wf ∧ F.dre.wf ∧ F.dim.wf
  within : F.taps.within l.tapMax ∧ F.dre.within l.tapMax ∧ F.dim.within l.tapMax

/-- What `State.Inv` says of one resampler context. -/
structure ResCtx.Legal (l : Limits) (R : ResCtx) : Prop where
  ok : R.valid = true → R.Ok l
  wf : R.ph.wf ∧ R.dre.wf ∧ R.dim.wf
  within : R.ph.within (l.resLMax * l.resKMax) ∧ R.dre.within l.resKMax ∧ R.dim.within l.resKMax

/-- What `State.Inv` says of one converter context. -/
structure CnvCtx.Legal (l : Limits) (C : CnvCtx) : Prop where
  ok : C.valid = true → C.Ok l
  wf : C.lut.wf ∧ C.cos.wf ∧ C.sin.wf
  within : C.lut.within 65536 ∧ C.cos.within l.ncoMax ∧ C.sin.within l.ncoMax

/-- The invariant of every slot of the block. -/
structure State.SlotsLegal (s : State) : Prop where
  pkt : ∀ P ∈ s.pkt, P.Legal s.lim
  raw : ∀ B ∈ s.raw, B.Legal s.lim
  tbuf : s.tbuf.Legal s.lim
  fir : ∀ F ∈ s.fir, F.Legal s.lim
  res : ∀ R ∈ s.res, R.Legal s.lim
  cnv : ∀ C ∈ s.cnv, C.Legal s.lim

variable {s t : State}

/-- The invariant of the block is that of its parameters, its status register and its slots. -/
theorem State.inv_iff : s.Inv ↔ s.ParamsOk ∧ s.StatusLegal ∧ s.SlotsLegal := by
  constructor
  · intro h
    exact ⟨h.params, h.status,
      { pkt := fun P hP => ⟨h.canonical.pkt P hP, h.within.pkt P hP⟩
        raw := fun B hB => ⟨h.canonical.raw B hB, h.within.raw B hB⟩
        tbuf := ⟨h.canonical.tbuf, h.within.tbuf⟩
        fir := fun F hF => ⟨h.fir F hF, h.canonical.fir F hF, h.within.fir F hF⟩
        res := fun R hR => ⟨h.res R hR, h.canonical.res R hR, h.within.res R hR⟩
        cnv := fun C hC => ⟨h.cnv C hC, h.canonical.cnv C hC, h.within.cnv C hC⟩ }⟩
  · rintro ⟨hp, hs, h⟩
    exact
      { params := hp
        status := hs
        fir := fun F hF => (h.fir F hF).ok
        res := fun R hR => (h.res R hR).ok
        cnv := fun C hC => (h.cnv C hC).ok
        canonical := ⟨fun P hP => (h.pkt P hP).wf, fun B hB => (h.raw B hB).wf, h.tbuf.wf, fun F hF => (h.fir F hF).wf,
          fun R hR => (h.res R hR).wf, fun C hC => (h.cnv C hC).wf⟩
        within := ⟨fun P hP => (h.pkt P hP).within, fun B hB => (h.raw B hB).within, h.tbuf.within,
          fun F hF => (h.fir F hF).within, fun R hR => (h.res R hR).within, fun C hC => (h.cnv C hC).within⟩ }

theorem State.Inv.slots (h : s.Inv) : s.SlotsLegal := (State.inv_iff.1 h).2.2

theorem State.Inv.pkt_legal {q : Nat} {P : Packet} (h : s.Inv) (hP : s.pkt[q]? = some P) : P.Legal s.lim :=
  h.slots.pkt P (List.mem_of_getElem? hP)

theorem State.Inv.fir_legal {c : Nat} {F : FirCtx} (h : s.Inv) (hF : s.fir[c]? = some F) : F.Legal s.lim :=
  h.slots.fir F (List.mem_of_getElem? hF)

theorem State.Inv.res_legal {c : Nat} {R : ResCtx} (h : s.Inv) (hR : s.res[c]? = some R) : R.Legal s.lim :=
  h.slots.res R (List.mem_of_getElem? hR)

theorem State.Inv.cnv_legal {c : Nat} {C : CnvCtx} (h : s.Inv) (hC : s.cnv[c]? = some C) : C.Legal s.lim :=
  h.slots.cnv C (List.mem_of_getElem? hC)

/-! ## Updates of the state that keep the invariant -/

theorem forall_mem_set {α : Type} {P : α → Prop} {l : List α} (h : ∀ x ∈ l, P x) (i : Nat) {a : α} (ha : P a) :
    ∀ x ∈ l.set i a, P x := fun x hx =>
  (List.mem_or_eq_of_mem_set hx).elim (h x) (fun e => e ▸ ha)

theorem forall_mem_modify {α : Type} {P : α → Prop} {l : List α} (h : ∀ x ∈ l, P x) (i : Nat) {f : α → α}
    (hf : ∀ x, P x → P (f x)) : ∀ x ∈ l.modify i f, P x := by
  intro x hx
  obtain ⟨j, hj, rfl⟩ := List.mem_iff_getElem.1 hx
  rw [List.getElem_modify]
  split
  · exact hf _ (h _ (List.getElem_mem _))
  · exact h _ (List.getElem_mem _)

theorem statusWord_le {c : Nat} (hc : c ≤ 7) : (statusWord c).toNat ≤ 7 := by
  rw [statusWord_toNat]
  omega

theorem State.ParamsOk.of_eq (h : s.ParamsOk) (e : t.params = s.params) : t.ParamsOk := by
  rwa [State.ParamsOk, e]

theorem State.Inv.raise (h : s.Inv) (e : ErrCode) : (s.raise e).Inv :=
  State.inv_iff.2 ⟨h.params, statusWord_le e.number_range.2, { h.slots with }⟩

theorem State.Inv.complete (h : s.Inv) : s.complete.Inv :=
  State.inv_iff.2 ⟨h.params, statusWord_le (Nat.zero_le 7), { h.slots with }⟩

theorem State.Inv.setR (h : s.Inv) (i : Fin 2) (v : Word64) : (s.setR i v).Inv :=
  State.inv_iff.2 ⟨h.params, h.status, { h.slots with }⟩

theorem State.Inv.latch (h : s.Inv) (w : Word32) : (s.latch w).Inv :=
  State.inv_iff.2 ⟨h.params, h.status, { h.slots with }⟩

/-- R34: the host's list is in no invariant. -/
theorem State.Inv.withHost (h : s.Inv) (rest : List HostAction) : ({ s with host := rest } : State).Inv :=
  State.inv_iff.2 ⟨h.params, h.status, { h.slots with }⟩

theorem State.Inv.setPkt (h : s.Inv) (p : Nat) {P : Packet} (hP : P.Legal s.lim) : (s.setPkt p P).Inv :=
  State.inv_iff.2 ⟨h.params.of_eq (State.setPkt_params p P), h.status,
    { h.slots with pkt := forall_mem_set h.slots.pkt p hP }⟩

theorem State.Inv.setFir (h : s.Inv) (c : Nat) {F : FirCtx} (hF : F.Legal s.lim) : (s.setFir c F).Inv :=
  State.inv_iff.2 ⟨h.params.of_eq (State.setFir_params c F), h.status,
    { h.slots with fir := forall_mem_set h.slots.fir c hF }⟩

theorem State.Inv.setRes (h : s.Inv) (c : Nat) {R : ResCtx} (hR : R.Legal s.lim) : (s.setRes c R).Inv :=
  State.inv_iff.2 ⟨h.params.of_eq (State.setRes_params c R), h.status,
    { h.slots with res := forall_mem_set h.slots.res c hR }⟩

theorem State.Inv.setCnv (h : s.Inv) (c : Nat) {C : CnvCtx} (hC : C.Legal s.lim) : (s.setCnv c C).Inv :=
  State.inv_iff.2 ⟨h.params.of_eq (State.setCnv_params c C), h.status,
    { h.slots with cnv := forall_mem_set h.slots.cnv c hC }⟩

theorem State.Inv.withArguments (h : s.Inv) (a : Vector Word64 8) : ({ s with a := a } : State).Inv :=
  State.inv_iff.2 ⟨h.params, h.status, { h.slots with }⟩

theorem State.Inv.withTbuf (h : s.Inv) {T : TapBuffer} (hT : T.Legal s.lim) : ({ s with tbuf := T } : State).Inv :=
  State.inv_iff.2 ⟨h.params, h.status, { h.slots with tbuf := hT }⟩

theorem State.Inv.modifyPkt (h : s.Inv) (p : Nat) {f : Packet → Packet} (hf : ∀ P, P.Legal s.lim → (f P).Legal s.lim) :
    ({ s with pkt := s.pkt.modify p f } : State).Inv :=
  State.inv_iff.2 ⟨h.params.of_eq (by simp [State.params]), h.status,
    { h.slots with pkt := forall_mem_modify h.slots.pkt p hf }⟩

theorem State.Inv.modifyRaw (h : s.Inv) (b : Nat) {f : RawSlot → RawSlot} (hf : ∀ B, B.Legal s.lim → (f B).Legal s.lim) :
    ({ s with raw := s.raw.modify b f } : State).Inv :=
  State.inv_iff.2 ⟨h.params.of_eq (by simp [State.params]), h.status,
    { h.slots with raw := forall_mem_modify h.slots.raw b hf }⟩

/-! ## Host writes -/

theorem pokeElem_wf {w extent : Nat} {m : Mem w} (h : m.wf) (i : Nat) (v : Word64) : (pokeElem extent m i v).wf := by
  unfold pokeElem
  split
  · exact Mem.wf_write h _ _
  · exact h

theorem pokeElem_within {w extent : Nat} {m : Mem w} (h : m.within extent) (i : Nat) (v : Word64) :
    (pokeElem extent m i v).within extent := by
  unfold pokeElem
  split
  · rename_i hi
    exact Mem.within_write h hi _
  · exact h

/-- R71: a host write keeps the invariant, whatever element it names. -/
theorem State.Inv.hostWrite (h : s.Inv) (e : Elem) (v : Word64) : (hostWrite s e v).Inv := by
  cases e with
  | a i =>
    unfold Machine.hostWrite
    dsimp only
    split
    · exact h.withArguments _
    · exact h
  | pktCap p => exact h.modifyPkt p fun P hP => ⟨hP.wf, hP.within⟩
  | pktSize p => exact h.modifyPkt p fun P hP => ⟨hP.wf, hP.within⟩
  | pktRate p => exact h.modifyPkt p fun P hP => ⟨hP.wf, hP.within⟩
  | pktFreq p => exact h.modifyPkt p fun P hP => ⟨hP.wf, hP.within⟩
  | pktFreqValid p => exact h.modifyPkt p fun P hP => ⟨hP.wf, hP.within⟩
  | pktRe p i =>
    exact h.modifyPkt p fun P hP => ⟨⟨pokeElem_wf hP.wf.1 i v, hP.wf.2⟩, pokeElem_within hP.within.1 i v, hP.within.2⟩
  | pktIm p i =>
    exact h.modifyPkt p fun P hP => ⟨⟨hP.wf.1, pokeElem_wf hP.wf.2 i v⟩, hP.within.1, pokeElem_within hP.within.2 i v⟩
  | rawLen b => exact h.modifyRaw b fun B hB => ⟨hB.wf, hB.within⟩
  | rawByte b i => exact h.modifyRaw b fun B hB => ⟨pokeElem_wf hB.wf i v, pokeElem_within hB.within i v⟩
  | tbufLen => exact h.withTbuf ⟨h.slots.tbuf.wf, h.slots.tbuf.within⟩
  | tbufT i => exact h.withTbuf ⟨pokeElem_wf h.slots.tbuf.wf i v, pokeElem_within h.slots.tbuf.within i v⟩
  | _ => exact h

/-! ## Reset -/

theorem State.resetWith_params (p : Params) (m : InitMem) : (State.resetWith p m).params = p := by
  simp [State.params, State.resetWith]

theorem State.resetWith_values (p : Params) (m : InitMem) : (State.resetWith p m).ResetValues where
  registers := ⟨rfl, rfl, rfl, rfl⟩
  pkt := List.forall_mem_map.2 fun _ _ => ⟨rfl, rfl, rfl, rfl, rfl⟩
  raw := List.forall_mem_map.2 fun _ _ => rfl
  tbuf := rfl
  fir := List.forall_mem_map.2 fun _ _ => ⟨rfl, rfl, rfl, rfl, rfl⟩
  res := List.forall_mem_map.2 fun _ _ => ⟨rfl, rfl, rfl, rfl, rfl, rfl⟩
  cnv := List.forall_mem_map.2 fun _ _ => ⟨rfl, rfl, rfl, rfl, rfl, rfl, rfl, rfl⟩

/-- R62: the memories of a slot hold loaded contents after a reset, which are in canonical form and inside their extents,
and no context is valid. -/
theorem State.resetWith_slots (p : Params) (m : InitMem) : (State.resetWith p m).SlotsLegal where
  pkt := List.forall_mem_map.2 fun _ _ =>
    ⟨⟨(Mem.load_wf_within _ _).1, (Mem.load_wf_within _ _).1⟩, (Mem.load_wf_within _ _).2, (Mem.load_wf_within _ _).2⟩
  raw := List.forall_mem_map.2 fun _ _ => ⟨(Mem.load_wf_within _ _).1, (Mem.load_wf_within _ _).2⟩
  tbuf := ⟨(Mem.load_wf_within _ _).1, (Mem.load_wf_within _ _).2⟩
  fir := List.forall_mem_map.2 fun _ _ =>
    ⟨fun h => Bool.noConfusion h, ⟨(Mem.load_wf_within _ _).1, (Mem.load_wf_within _ _).1, (Mem.load_wf_within _ _).1⟩,
      (Mem.load_wf_within _ _).2, (Mem.load_wf_within _ _).2, (Mem.load_wf_within _ _).2⟩
  res := List.forall_mem_map.2 fun _ _ =>
    ⟨fun h => Bool.noConfusion h, ⟨(Mem.load_wf_within _ _).1, (Mem.load_wf_within _ _).1, (Mem.load_wf_within _ _).1⟩,
      (Mem.load_wf_within _ _).2, (Mem.load_wf_within _ _).2, (Mem.load_wf_within _ _).2⟩
  cnv := List.forall_mem_map.2 fun _ _ =>
    ⟨fun h => Bool.noConfusion h, ⟨(Mem.load_wf_within _ _).1, (Mem.load_wf_within _ _).1, (Mem.load_wf_within _ _).1⟩,
      (Mem.load_wf_within _ _).2, (Mem.load_wf_within _ _).2, (Mem.load_wf_within _ _).2⟩

theorem State.resetWith_inv {p : Params} (hp : p.Ok) (m : InitMem) : (State.resetWith p m).Inv :=
  State.inv_iff.2 ⟨by rwa [State.ParamsOk, State.resetWith_params], Nat.zero_le 7, State.resetWith_slots p m⟩

/-- R211: no converter is valid after a reset, so no cache is. -/
theorem State.resetWith_cacheOk (p : Params) (m : InitMem) : (State.resetWith p m).CacheOk :=
  List.forall_mem_map.2 fun _ _ h => Bool.noConfusion h

theorem State.Inv.platformReset (h : s.Inv) (m : InitMem) : (s.platformReset m).Inv :=
  (State.resetWith_inv h.params m).withHost s.host

theorem step_reset {m : InitMem} {rest : List HostAction} (h : s.host = .reset m :: rest) :
    step s = .next (State.platformReset { s with host := rest } m) := by
  unfold step
  rw [h]

/-- Settles O10: the invariant slot by slot, and no converter valid. -/
theorem resetSatisfiesInvariant : Obligations.ResetSatisfiesInvariant := fun p m hp =>
  ⟨State.resetWith_inv hp m, State.resetWith_cacheOk p m⟩

/-- Settles O9: a reset action leaves the reset state of the same parameters, whose fields are read off. -/
theorem resetLeavesStatedValues : Obligations.ResetLeavesStatedValues := by
  refine ⟨fun s m rest hs => ⟨_, step_reset hs, ?_, rfl, ?_⟩, fun p m => ⟨State.resetWith_values p m, State.resetWith_params p m⟩⟩
  · exact { State.resetWith_values s.params m with }
  · exact State.resetWith_params s.params m

/-! ## What the commands put into the slots -/

theorem FirCtx.Legal.invalidated {l : Limits} {F : FirCtx} (h : F.Legal l) :
    ({ F with valid := false } : FirCtx).Legal l :=
  ⟨fun hv => Bool.noConfusion hv, h.wf, h.within⟩

theorem ResCtx.Legal.invalidated {l : Limits} {R : ResCtx} (h : R.Legal l) :
    ({ R with valid := false } : ResCtx).Legal l :=
  ⟨fun hv => Bool.noConfusion hv, h.wf, h.within⟩

theorem CnvCtx.Legal.invalidated {l : Limits} {C : CnvCtx} (h : C.Legal l) :
    ({ C with valid := false } : CnvCtx).Legal l :=
  ⟨fun hv => Bool.noConfusion hv, h.wf, h.within⟩

/-- R45: an empty cache constrains nothing. -/
theorem CnvCtx.Legal.uncached {l : Limits} {C : CnvCtx} (h : C.Legal l) :
    ({ C with ncoValid := false } : CnvCtx).Legal l :=
  ⟨fun hv => { h.ok hv with cache := fun hn => Bool.noConfusion hn }, h.wf, h.within⟩

/-- R41: a filter command keeps the invariant of its context. -/
theorem FirCtx.Legal.after {l : Limits} {F : FirCtx} (h : F.Legal l) (hv : F.valid = true) (ch : Channels)
    (xr xi : Nat → F32) (m p : Nat) : (F.after ch xr xi m p).Legal l := by
  have ok := h.ok hv
  have ht := ok.tapCur_lt
  have hd := ok.decCur_lt
  have hpos : 0 < F.ntaps.toNat := by omega
  refine ⟨fun _ => ⟨ok.odd, ok.three_le, ok.le_max, ok.decim_pos, ok.decim_le, ?_, ?_⟩,
    ⟨h.wf.1, pushSamples_wf h.wf.2.1 _ _ _ _, ?_⟩,
    h.within.1, pushSamples_within h.within.2.1 _ _ hpos ok.le_max _, ?_⟩
  · rw [FirCtx.after_tapCur ht]
    exact Nat.mod_lt _ hpos
  · rw [FirCtx.after_decCur hd]
    exact Nat.mod_lt _ (show 0 < F.decim.toNat by omega)
  · cases ch with
    | both => exact pushSamples_wf h.wf.2.2 _ _ _ _
    | realOnly => exact h.wf.2.2
  · cases ch with
    | both => exact pushSamples_within h.within.2.2 _ _ hpos ok.le_max _
    | realOnly => exact h.within.2.2

/-- R43: a `RESAMP` keeps the invariant of its context, where its phase counter is bounded. -/
theorem ResCtx.Legal.after {l : Limits} {R : ResCtx} (hl : l.Ok) (h : R.Legal l) (hv : R.valid = true)
    (xr xi : Nat → F32) {j c : Nat} (hb : R.phaseAt j - c * R.facL.toNat ≤ R.facL.toNat + R.facM.toNat - 1) :
    (R.after xr xi j c).Legal l := by
  have ok := h.ok hv
  have hR := ok.ready hl
  refine ⟨fun _ => ⟨ok.facL_pos, ok.facL_le, ok.facM_pos, ok.facM_le, ok.coprime, ok.subLen_pos, ok.subLen_le, ?_, ?_⟩,
    ⟨h.wf.1, pushSamples_wf h.wf.2.1 _ _ _ _, pushSamples_wf h.wf.2.2 _ _ _ _⟩,
    h.within.1, pushSamples_within h.within.2.1 _ _ ok.subLen_pos ok.subLen_le _,
    pushSamples_within h.within.2.2 _ _ ok.subLen_pos ok.subLen_le _⟩
  · rw [ResCtx.after_pos hR]
    exact Nat.mod_lt _ ok.subLen_pos
  · rw [ResCtx.after_ctr hR xr xi hb]
    exact hb

theorem FirCtx.Legal.built {l : Limits} {F : FirCtx} (hl : l.Ok) (h : F.Legal l) {decim : Int} {ts : List F32}
    (h0 : 1 ≤ decim) (h1 : decim ≤ 2 ^ 31 - 1) (hodd : ts.length % 2 = 1) (h3 : 3 ≤ ts.length)
    (hmax : ts.length ≤ l.tapMax) : (F.built decim ts).Legal l :=
  ⟨fun _ => FirCtx.built_ok (tapMax_le_of_ok hl) h0 h1 hodd h3 hmax, FirCtx.built_wf h.wf, FirCtx.built_within hmax h.within⟩

theorem ResCtx.Legal.built {l : Limits} {R : ResCtx} (hl : l.Ok) (h : R.Legal l) {L M K : Nat} {P : List F32}
    (h1 : 1 ≤ L) (h2 : L ≤ l.resLMax) (h3 : 1 ≤ M) (h4 : M ≤ 2 ^ 31 - 1) (h5 : Nat.gcd L M = 1) (h6 : 1 ≤ K)
    (h7 : K ≤ l.resKMax) : (R.built l L M K P).Legal l :=
  ⟨fun _ => ResCtx.built_ok hl h1 h2 h3 h4 h5 h6 h7, ResCtx.built_wf h.wf, ResCtx.built_within h2 h7 h.within⟩

theorem CnvCtx.Legal.built {l : Limits} {C : CnvCtx} (hl : l.Ok) (h : C.Legal l) {fs fcen ml : Int}
    (h0 : 1 ≤ fs ∧ fs ≤ 2 ^ 32 - 1) (h1 : FreqInRange fcen) (h2 : 1 ≤ ml ∧ ml ≤ l.ncoMax) :
    (C.built fs fcen ml).Legal l :=
  ⟨fun _ => CnvCtx.built_ok (ncoMax_le_of_ok hl) h0.1 h0.2 h1 h2.1 h2.2, CnvCtx.built_wf h.wf, CnvCtx.built_within h.within⟩

/-- R45, R176: bringing the cache up to date keeps the invariant of the context, and leaves it valid with its cache valid. -/
theorem updateCache_legal {l : Limits} {C D : CnvCtx} (h : C.Legal l) (hv : C.valid = true) {f : Int}
    (hD : updateCache C f = .ready D) : D.Legal l ∧ D.valid = true ∧ D.ncoValid = true := by
  have ok := h.ok hv
  rcases updateCache_cases f ok.rate_pos with ⟨hn, -, e⟩ | ⟨-, b, -, ⟨hb, e⟩ | ⟨-, e⟩⟩ <;> rw [e] at hD <;> cases hD
  · exact ⟨h, hv, hn⟩
  · exact ⟨⟨fun _ => ok.regenerated hb, CnvCtx.regenerated_wf h.wf,
      CnvCtx.regenerated_within (le_trans hb ok.maxlen_le) h.within⟩, hv, rfl⟩

/-- R45: the cursor may stand anywhere inside the table. -/
theorem CnvCtx.Legal.withCursor {l : Limits} {D : CnvCtx} (h : D.Legal l) (hv : D.valid = true) {cur : Nat}
    (hc : cur < D.ncoLen.toNat) : ({ D with cur := BitVec.ofNat 32 cur } : CnvCtx).Legal l := by
  have ok := h.ok hv
  refine ⟨fun _ => ⟨ok.table, ok.rate_pos, ok.center, ok.maxlen_pos, ok.maxlen_le, fun hn => ⟨(ok.cache hn).1, .inl ?_⟩⟩,
    h.wf, h.within⟩
  have hlt := D.ncoLen.isLt
  have e : (BitVec.ofNat 32 cur).toNat = cur := Nat.mod_eq_of_lt (by omega)
  rw [show ({ D with cur := BitVec.ofNat 32 cur } : CnvCtx).cur.toNat = cur from e]
  exact hc

/-- R178: how many samples a fill converts never exceeds the room in a packet that is in order. -/
theorem fillCount_le {l : Limits} (B : RawSlot) {out : Packet} (hok : PktOK l out) :
    out.size.toNat + fillCount B out ≤ l.pktDepth := by
  obtain ⟨h1, h2⟩ := hok
  unfold fillCount
  omega

theorem fillOutput_legal {l : Limits} (C : CnvCtx) (B : RawSlot) {out : Packet} (h : out.Legal l) (hok : PktOK l out) :
    (fillOutput C B out (fillCount B out)).Legal l :=
  ⟨⟨Mem.wf_fill h.wf.1 _ _ _, Mem.wf_fill h.wf.2 _ _ _⟩,
    Mem.within_fill h.within.1 (fillCount_le B hok) _, Mem.within_fill h.within.2 (fillCount_le B hok) _⟩

/-- R178: the end of a mixing fill keeps the invariant. -/
theorem State.Inv.mixFill (h : s.Inv) {c q : Nat} {D : CnvCtx} {B : RawSlot} {out : Packet} {chan : Int}
    (hout : s.pkt[q]? = some out) (hok : PktOK s.lim out) (hD : D.Legal s.lim) (hv : D.valid = true)
    (hn : D.ncoValid = true) : (mixFill c q D B out chan s).Inv := by
  rcases mixFill_cases c q D B out chan s with ⟨-, e⟩ | ⟨hne, e⟩
  · rw [e]
    exact ((h.setCnv c hD).setR _ _).complete
  · have hlen : D.ncoLen.toNat ≠ 0 := fun h0 => hne (.inl (BitVec.eq_of_toNat_eq h0))
    have hcur : D.cur.toNat < D.ncoLen.toNat := ((hD.ok hv).cache hn).2.resolve_right fun h0 => hlen h0.1
    obtain ⟨hc, -, -, ⟨wr, wi⟩, hw⟩ :=
      mixLoop_spec (b := B) (at_ := out.size.toNat) (x := { re := out.re, im := out.im, cur := D.cur.toNat }) hcur
        (fillCount B out)
    obtain ⟨vr, vi⟩ := hw _ (fillCount_le B hok)
    have hP := h.pkt_legal hout
    rw [e]
    refine (((h.setCnv c (hD.withCursor hv ?_)).setPkt q ?_).setR _ _).complete
    · exact lt_of_eq_of_lt hc (Nat.mod_lt _ (Nat.pos_of_ne_zero hlen))
    · exact ⟨⟨wr hP.wf.1, wi hP.wf.2⟩, vr hP.within.1, vi hP.within.2⟩

/-! ## Every step -/

/-- R41, R43, R45: what a command ends in keeps the invariant. -/
theorem Ends.inv {i : Instr} (h : Ends s i t) (hs : s.Inv) : t.Inv := by
  have hl := hs.params.lim_ok
  cases h with
  | raised => exact hs.raise _
  | firdesFailed hF => exact (hs.setFir _ (hs.fir_legal hF).invalidated).raise _
  | resinitFailed hR => exact (hs.setRes _ (hs.res_legal hR).invalidated).raise _
  | cnvinitFailed hC => exact (hs.setCnv _ (hs.cnv_legal hC).invalidated).raise _
  | cnvmixTooLong hC => exact (hs.setCnv _ (hs.cnv_legal hC).uncached).raise _
  | result v => exact (hs.setR _ _).complete
  | approximated => exact ((hs.setR _ _).setR _ _).complete
  | designed hF h0 h1 hts =>
    have htap := tapMax_le_of_ok hl
    rcases designLowPass_cases (gain := s.af 1) (fs := s.af 2) (fc := s.af 3) (tw := s.af 4) (att := s.af 5)
      (beta := s.af 7) (maxTaps := s.ai 6) (show (s.lim.tapMax : Int) ≤ 2 ^ 62 by omega)
      with ⟨ts', e, h2, h3, h4⟩ | ⟨_, e, -⟩ <;> rw [e] at hts <;> cases hts
    exact ((hs.setFir _ ((hs.fir_legal hF).built hl h0 h1 h2 h3 (by omega))).setR _ _).complete
  | @filtered ch c p q F inp out x hF hout hv hok hx =>
    have L := hs.fir_legal hF
    have ok := L.ok hv
    have hP := hs.pkt_legal hout
    obtain ⟨m, -, -, hm⟩ := firRun_spec (ch := ch) (inp := inp) (off := (s.ai 0).toNat) ok.tapCur_lt ok.decCur_lt hok.1
      (s.ai 1).toNat
    rw [← hx] at hm
    obtain ⟨vr, vi⟩ := hm.within _ hok.2
    refine (((hs.setFir c ?_).setPkt q ⟨?_, ?_⟩).setR _ _).complete
    · exact hm.ctx ▸ L.after hv ch _ _ _ _
    · exact ⟨hm.wf.1 hP.wf.1, hm.wf.2 hP.wf.2⟩
    · exact ⟨vr hP.within.1, vi hP.within.2⟩
  | @split c custom R L M P hR h0 h1 hL hM hmax hP hK =>
    obtain ⟨⟨a1, a2⟩, ⟨b1, b2⟩, hco⟩ := reduced_pair (l := (s.ai 0).toNat) (m := (s.ai 1).toNat) (by omega) (by omega)
    rw [← hL, ← hM] at hco
    rw [← hL] at a1 a2
    rw [← hM] at b1 b2
    rcases resinitPrototype_cases hl custom (L := L) (M := M) a1 (by omega) b1 (by omega) with ⟨P', e, h3⟩ | ⟨_, e⟩ <;>
      rw [e] at hP <;> cases hP
    exact (((hs.setRes c ((hs.res_legal hR).built hl a1 hmax b1 (by omega) hco ((subFilterLen_spec a1).2.2 h3)
      hK)).setR _ _).setR _ _).complete
  | @resampled c p q nr R inp out x hR hout hv hok hx =>
    have L := hs.res_legal hR
    have hP := hs.pkt_legal hout
    have hm := resRun_spec (l := s.lim) (inp := inp) (off := (s.ai 0).toNat) ((L.ok hv).ready hl) hok.1 (s.ai 1).toNat
    rw [← hx] at hm
    obtain ⟨vr, vi⟩ := hm.within _ hok.2
    refine (((hs.setRes c ?_).setPkt q ⟨?_, ?_⟩).setR _ _).complete
    · exact hm.ctx ▸ L.after hl hv _ _ hm.bound
    · exact ⟨hm.wf.1 hP.wf.1, hm.wf.2 hP.wf.2⟩
    · exact ⟨vr hP.within.1, vi hP.within.2⟩
  | configured hC h0 h1 h2 => exact (hs.setCnv _ ((hs.cnv_legal hC).built hl h0 h1 h2)).complete
  | @filled c b q n C B out hout hok hn =>
    subst hn
    exact ((hs.setPkt q (fillOutput_legal C B (hs.pkt_legal hout) hok)).setR _ _).complete
  | mixed hC hout hv hok hD =>
    obtain ⟨L, v, n⟩ := updateCache_legal (hs.cnv_legal hC) hv hD
    exact hs.mixFill hout hok L v n

/-- Settles O11: each kind of step keeps the invariant, a command by what it can end in. -/
theorem stepKeepsInvariant : Obligations.StepKeepsInvariant := by
  intro s t hs h
  rcases step_cases s with ⟨-, e⟩ | ⟨_, rest, -, e⟩ | ⟨el, v, rest, -, -, e⟩ | ⟨m, rest, -, e⟩ | ⟨v, rest, _, -, -, e⟩ |
    ⟨v, rest, i, -, -, e⟩ <;> rw [e] at h
  · cases h
    exact hs
  · cases h
    exact hs.withHost rest
  · cases h
    exact (hs.withHost rest).hostWrite el v
  · cases h
    exact (hs.withHost rest).platformReset m
  · cases h
    exact ((hs.withHost rest).latch _).raise _
  · exact (exec_ends h).inv ((hs.withHost rest).latch _)

end Sys2Proof.Machine

/-! Rounding (R13): the value of a magnitude pattern, the two patterns around a number, and that rounding takes the nearer. -/

namespace Sys2Proof.Machine

variable {f : Fmt}

/-! ## Magnitude patterns and their values -/

/-- The pattern of a significand `r` with the quantum `2 ^ sh`. A significand of one bit more is the first of the next
binade, with the same formula. -/
theorem Fmt.units_scaled {r sh : Nat} (h : sh = 0 ∨ 2 ^ f.mbits ≤ r) (hr : r ≤ 2 * 2 ^ f.mbits) :
    f.units (r + sh * 2 ^ f.mbits) = r * 2 ^ sh := by
  have hP : 0 < 2 ^ f.mbits := by positivity
  unfold Fmt.units
  dsimp only
  rw [Nat.add_mul_div_right _ _ hP, Nat.add_mul_mod_self_right]
  generalize 2 ^ f.mbits = P at *
  rcases Nat.lt_or_ge r P with h1 | h1
  · obtain rfl : sh = 0 := by omega
    simp [Nat.div_eq_of_lt h1]
  · rcases Nat.eq_or_lt_of_le hr with rfl | h2
    · rw [Nat.mul_div_cancel _ hP, Nat.mul_mod_left, if_neg (by omega), show 2 + sh - 1 = sh + 1 by omega, pow_succ]
      ring
    · have hd : r / P = 1 := Nat.div_eq_of_lt_le (by omega) (by omega)
      have hm : r % P + P = r := by
        have := Nat.div_add_mod r P
        rw [hd] at this
        omega
      rw [hd, hm, if_neg (by omega), Nat.add_sub_cancel_left]

/-- Every pattern is that of a significand and a quantum. -/
theorem Fmt.exists_scaled (f : Fmt) (m : Nat) :
    ∃ r sh, m = r + sh * 2 ^ f.mbits ∧ r < 2 * 2 ^ f.mbits ∧ (sh = 0 ∨ 2 ^ f.mbits ≤ r) := by
  have hP : 0 < 2 ^ f.mbits := by positivity
  have hdm := Nat.div_add_mod m (2 ^ f.mbits)
  have hlt := Nat.mod_lt m hP
  rw [Nat.mul_comm] at hdm
  generalize 2 ^ f.mbits = P at *
  rcases he : m / P with _ | e
  · exact ⟨m, 0, by omega, by rw [he] at hdm; omega, .inl rfl⟩
  · refine ⟨m % P + P, e, ?_, by omega, .inr (by omega)⟩
    rw [he, Nat.succ_mul] at hdm
    omega

/-- Different patterns have different values, in the order of the patterns. -/
theorem Fmt.units_strictMono (f : Fmt) : StrictMono f.units := by
  refine strictMono_nat_of_lt_succ fun m => ?_
  obtain ⟨r, sh, rfl, hr, h⟩ := f.exists_scaled m
  rw [f.units_scaled h hr.le, show r + sh * 2 ^ f.mbits + 1 = r + 1 + sh * 2 ^ f.mbits by omega,
    f.units_scaled (h.imp_right fun h => by omega) (by omega)]
  exact Nat.mul_lt_mul_of_pos_right (Nat.lt_succ_self r) (by positivity)

@[simp] theorem Fmt.units_zero (f : Fmt) : f.units 0 = 0 := by
  unfold Fmt.units
  simp

theorem Fmt.units_eq_zero {m : Nat} : f.units m = 0 ↔ m = 0 :=
  ⟨fun h => f.units_strictMono.injective (h.trans f.units_zero.symm), fun h => h ▸ f.units_zero⟩

/-- A significand of one bit more than the fraction, times a power of two, is representable. -/
theorem Fmt.exists_units_eq {r : Nat} (hr : r ≤ 2 * 2 ^ f.mbits) : ∀ sh, ∃ m, m ≤ (sh + 2) * 2 ^ f.mbits ∧
    f.units m = r * 2 ^ sh := by
  intro sh
  induction sh generalizing r with
  | zero => exact ⟨r + 0 * 2 ^ f.mbits, by omega, f.units_scaled (.inl rfl) hr⟩
  | succ sh ih =>
    rcases Nat.lt_or_ge r (2 ^ f.mbits) with h | h
    · obtain ⟨m, h1, h2⟩ := ih (r := 2 * r) (by omega)
      refine ⟨m, le_trans h1 (Nat.mul_le_mul_right _ (by omega)), ?_⟩
      rw [h2, pow_succ]
      ring
    · refine ⟨r + (sh + 1) * 2 ^ f.mbits, ?_, f.units_scaled (.inr h) hr⟩
      have : (sh + 1 + 2) * 2 ^ f.mbits = 2 * 2 ^ f.mbits + (sh + 1) * 2 ^ f.mbits := by ring
      omega

/-! ## The nearest pattern -/

/-- A number between two neighbouring patterns, no nearer to the upper one, has the lower one as its nearest; on a tie where
that one is even. -/
theorem Fmt.isNearest_lower {q : ℝ} {m : Nat} (hm : m ≤ f.infMag) (h0 : (f.units m : ℝ) ≤ q)
    (h1 : 2 * q ≤ f.units m + f.units (m + 1)) (htie : 2 * q = f.units m + f.units (m + 1) → m % 2 = 0) :
    f.IsNearest q m := by
  refine ⟨hm, fun m' _ => ?_⟩
  rw [abs_sub_comm (f.units m : ℝ), abs_of_nonneg (sub_nonneg.2 h0)]
  rcases Nat.lt_trichotomy m' m with hlt | rfl | hgt
  · have hu : (f.units m' : ℝ) < f.units m := by exact_mod_cast f.units_strictMono hlt
    rw [abs_of_nonpos (by linarith)]
    exact ⟨by linarith, fun h => absurd h (by linarith)⟩
  · rw [abs_sub_comm, abs_of_nonneg (sub_nonneg.2 h0)]
    exact ⟨le_rfl, fun _ => .inl rfl⟩
  · have hu : (f.units (m + 1) : ℝ) ≤ f.units m' := by exact_mod_cast f.units_mono hgt
    rw [abs_of_nonneg (by linarith)]
    exact ⟨by linarith, fun h => .inr (htie (by linarith))⟩

/-- A number between two neighbouring patterns, no nearer to the lower one, has the upper one as its nearest; on a tie where
that one is even. -/
theorem Fmt.isNearest_upper {q : ℝ} {m : Nat} (hm : m + 1 ≤ f.infMag) (h0 : q ≤ f.units (m + 1))
    (h1 : (f.units m + f.units (m + 1) : ℝ) ≤ 2 * q) (htie : 2 * q = f.units m + f.units (m + 1) → (m + 1) % 2 = 0) :
    f.IsNearest q (m + 1) := by
  refine ⟨hm, fun m' _ => ?_⟩
  rw [abs_of_nonneg (sub_nonneg.2 h0)]
  rcases Nat.lt_trichotomy m' (m + 1) with hlt | rfl | hgt
  · have hu : (f.units m' : ℝ) ≤ f.units m := by exact_mod_cast f.units_mono (Nat.lt_succ_iff.1 hlt)
    rw [abs_of_nonpos (by linarith)]
    exact ⟨by linarith, fun h => .inr (htie (by linarith))⟩
  · rw [abs_of_nonneg (sub_nonneg.2 h0)]
    exact ⟨le_rfl, fun _ => .inl rfl⟩
  · have hu : (f.units (m + 1) : ℝ) < f.units m' := by exact_mod_cast f.units_strictMono hgt
    rw [abs_of_nonneg (by linarith)]
    exact ⟨by linarith, fun h => absurd h (by linarith)⟩

/-- A number from the place of the infinity on is nearest to it. -/
theorem Fmt.isNearest_infMag {q : ℝ} (h : (f.units f.infMag : ℝ) ≤ q) : f.IsNearest q f.infMag := by
  refine ⟨le_rfl, fun m' hm' => ?_⟩
  have hu : (f.units m' : ℝ) ≤ f.units f.infMag := by exact_mod_cast f.units_mono hm'
  rw [abs_of_nonpos (by linarith), abs_of_nonpos (by linarith)]
  refine ⟨by linarith, fun he => .inl ?_⟩
  have : f.units f.infMag = f.units m' := by exact_mod_cast (show (f.units f.infMag : ℝ) = f.units m' by linarith)
  exact f.units_strictMono.injective this

/-- Where a number lies in its binade: between the significands `r` and `r + 1` with the quantum `2 ^ sh`. -/
structure Fmt.Between (f : Fmt) (q : ℝ) (r sh : Nat) : Prop where
  normal : sh = 0 ∨ 2 ^ f.mbits ≤ r
  lt : r < 2 * 2 ^ f.mbits
  lower : (r * 2 ^ sh : ℝ) ≤ q
  upper : q ≤ (r + 1) * 2 ^ sh

/-- The significand `k` is the one of `r` and `r + 1` that is nearer to `q`, the even one on a tie. -/
def NearerSignificand (q : ℝ) (r sh k : Nat) : Prop :=
  k = r ∧ 2 * q ≤ (2 * r + 1) * 2 ^ sh ∧ (2 * q = (2 * r + 1) * 2 ^ sh → r % 2 = 0) ∨
  k = r + 1 ∧ (2 * r + 1) * 2 ^ sh ≤ 2 * q ∧ (2 * q = (2 * r + 1) * 2 ^ sh → (r + 1) % 2 = 0)

/-- The parity of a pattern is that of its significand. -/
theorem Fmt.scaled_parity (hf : 1 ≤ f.mbits) (k sh : Nat) : (k + sh * 2 ^ f.mbits) % 2 = k % 2 := by
  obtain ⟨n, hn⟩ := Nat.exists_eq_add_of_le hf
  rw [hn, show sh * 2 ^ (1 + n) = 2 * (sh * 2 ^ n) by ring, Nat.add_mul_mod_self_left]

/-- R13: the pattern of the nearer significand, cut off at the infinity, is the nearest pattern. -/
theorem Fmt.Between.isNearest {q : ℝ} {r sh k : Nat} (hf : 1 ≤ f.mbits) (h : f.Between q r sh)
    (hk : NearerSignificand q r sh k) : f.IsNearest q (min (k + sh * 2 ^ f.mbits) f.infMag) := by
  have u0 := f.units_scaled h.normal h.lt.le
  have u1 := f.units_scaled (r := r + 1) (h.normal.imp_right fun h => by omega) h.lt
  have hsucc : r + 1 + sh * 2 ^ f.mbits = r + sh * 2 ^ f.mbits + 1 := by omega
  have e0 : (f.units (r + sh * 2 ^ f.mbits) : ℝ) = r * 2 ^ sh := by rw [u0]; push_cast; ring
  have e1 : (f.units (r + sh * 2 ^ f.mbits + 1) : ℝ) = (r + 1) * 2 ^ sh := by rw [← hsucc, u1]; push_cast; ring
  have hmid : ((2 * r + 1) * 2 ^ sh : ℝ) = f.units (r + sh * 2 ^ f.mbits) + f.units (r + sh * 2 ^ f.mbits + 1) := by
    rw [e0, e1]; ring
  have par := f.scaled_parity hf
  rcases Nat.lt_or_ge (r + sh * 2 ^ f.mbits) f.infMag with hlt | hge
  · rcases hk with ⟨rfl, h1, h2⟩ | ⟨rfl, h1, h2⟩
    · rw [min_eq_left hlt.le]
      exact f.isNearest_lower hlt.le (e0 ▸ h.lower) (hmid ▸ h1) fun ht => (par k sh).trans (h2 (hmid ▸ ht))
    · rw [hsucc, min_eq_left hlt]
      refine f.isNearest_upper hlt (e1 ▸ h.upper) (hmid ▸ h1) fun ht => ?_
      rw [← hsucc]
      exact (par (r + 1) sh).trans (h2 (hmid ▸ ht))
  · have hkr : r ≤ k := by rcases hk with ⟨rfl, -⟩ | ⟨rfl, -⟩ <;> omega
    rw [min_eq_right (by omega)]
    refine f.isNearest_infMag (le_trans ?_ h.lower)
    rw [← e0]
    exact_mod_cast f.units_mono hge

/-- R13: `roundHalfEven` takes the nearer whole number of quanta, the even one on a tie. -/
theorem roundHalfEven_cases (num : Nat) {den : Nat} :
    roundHalfEven num den = num / den ∧ 2 * num ≤ (2 * (num / den) + 1) * den ∧
      (2 * num = (2 * (num / den) + 1) * den → num / den % 2 = 0) ∨
    roundHalfEven num den = num / den + 1 ∧ (2 * (num / den) + 1) * den ≤ 2 * num ∧
      (2 * num = (2 * (num / den) + 1) * den → (num / den + 1) % 2 = 0) := by
  have hdm := Nat.div_add_mod num den
  unfold roundHalfEven
  dsimp only
  generalize num / den = d at *
  have e : (2 * d + 1) * den = 2 * (den * d) + den := by ring
  rw [e]
  generalize den * d = x at *
  split
  · exact .inr ⟨rfl, by omega, by omega⟩
  · split
    · rcases Nat.mod_two_eq_zero_or_one d with h | h
      · exact .inl ⟨by omega, by omega, fun _ => h⟩
      · exact .inr ⟨by omega, by omega, by omega⟩
    · exact .inl ⟨rfl, by omega, by omega⟩

/-- R13: the binade that `Fmt.round` finds for a quotient. -/
theorem Fmt.round_binade (f : Fmt) (num den : Nat) : ∃ sh, (sh = 0 ∨ 2 ^ f.mbits ≤ num / (den * 2 ^ sh)) ∧
    num / (den * 2 ^ sh) < 2 * 2 ^ f.mbits ∧
    f.round num den = min (roundHalfEven num (den * 2 ^ sh) + sh * 2 ^ f.mbits) f.infMag := by
  refine ⟨Nat.log2 (num / den) - f.mbits, ?_, ?_, rfl⟩
  · rw [← Nat.div_div_eq_div_mul]
    rcases Nat.lt_or_ge f.mbits (Nat.log2 (num / den)) with h | h
    · right
      have hne : num / den ≠ 0 := by
        intro h0
        rw [h0] at h
        simp at h
      rw [Nat.le_div_iff_mul_le (by positivity), ← pow_add, Nat.add_sub_cancel' h.le]
      exact Nat.log2_self_le hne
    · exact .inl (Nat.sub_eq_zero_of_le h)
  · rw [← Nat.div_div_eq_div_mul, ← pow_succ', Nat.div_lt_iff_lt_mul (by positivity), ← pow_add]
    exact lt_of_lt_of_le Nat.lt_log2_self (Nat.pow_le_pow_right two_pos (by omega))

/-- R13: a quotient lies between the whole numbers of quanta around it. -/
theorem Fmt.between_div {num den sh : Nat} (hden : 0 < den) (h : sh = 0 ∨ 2 ^ f.mbits ≤ num / (den * 2 ^ sh))
    (hlt : num / (den * 2 ^ sh) < 2 * 2 ^ f.mbits) : f.Between ((num : ℝ) / den) (num / (den * 2 ^ sh)) sh := by
  have hd : (0 : ℝ) < den := by exact_mod_cast hden
  have hD : 0 < den * 2 ^ sh := by positivity
  refine ⟨h, hlt, ?_, ?_⟩
  · rw [le_div_iff₀ hd]
    have : num / (den * 2 ^ sh) * (den * 2 ^ sh) ≤ num := Nat.div_mul_le_self _ _
    calc ((num / (den * 2 ^ sh) : Nat) : ℝ) * 2 ^ sh * den = ((num / (den * 2 ^ sh) * (den * 2 ^ sh) : Nat) : ℝ) := by
          push_cast; ring
      _ ≤ num := by exact_mod_cast this
  · rw [div_le_iff₀ hd]
    have : num < den * 2 ^ sh * (num / (den * 2 ^ sh) + 1) := Nat.lt_mul_div_succ _ hD
    calc (num : ℝ) ≤ ((den * 2 ^ sh * (num / (den * 2 ^ sh) + 1) : Nat) : ℝ) := by exact_mod_cast this.le
      _ = _ := by push_cast; ring

/-- R13: `roundHalfEven` of a quotient takes the nearer significand. -/
theorem nearerSignificand_roundHalfEven {num den sh : Nat} (hden : 0 < den) :
    NearerSignificand ((num : ℝ) / den) (num / (den * 2 ^ sh)) sh (roundHalfEven num (den * 2 ^ sh)) := by
  have hd : (0 : ℝ) < den := by exact_mod_cast hden
  have hcase := roundHalfEven_cases num (den := den * 2 ^ sh)
  unfold NearerSignificand
  generalize num / (den * 2 ^ sh) = r at *
  have e1 : (2 * ((num : ℝ) / den) ≤ (2 * r + 1) * 2 ^ sh) ↔ 2 * num ≤ (2 * r + 1) * (den * 2 ^ sh) := by
    rw [← mul_div_assoc, div_le_iff₀ hd]
    constructor <;> intro h
    · have : ((2 * num : Nat) : ℝ) ≤ ((2 * r + 1) * (den * 2 ^ sh) : Nat) := by push_cast; linarith
      exact_mod_cast this
    · have : ((2 * num : Nat) : ℝ) ≤ ((2 * r + 1) * (den * 2 ^ sh) : Nat) := by exact_mod_cast h
      push_cast at this; linarith
  have e2 : ((2 * r + 1) * 2 ^ sh ≤ 2 * ((num : ℝ) / den)) ↔ (2 * r + 1) * (den * 2 ^ sh) ≤ 2 * num := by
    rw [← mul_div_assoc, le_div_iff₀ hd]
    constructor <;> intro h
    · have : (((2 * r + 1) * (den * 2 ^ sh) : Nat) : ℝ) ≤ (2 * num : Nat) := by push_cast; linarith
      exact_mod_cast this
    · have : (((2 * r + 1) * (den * 2 ^ sh) : Nat) : ℝ) ≤ (2 * num : Nat) := by exact_mod_cast h
      push_cast at this; linarith
  have e3 : 2 * ((num : ℝ) / den) = (2 * r + 1) * 2 ^ sh ↔ 2 * num = (2 * r + 1) * (den * 2 ^ sh) := by
    rw [le_antisymm_iff, le_antisymm_iff, e1, e2]
  rw [e1, e2, e3]
  exact hcase

/-- R13: rounding a quotient gives its nearest pattern, in every format with a fraction. -/
theorem Fmt.round_isNearest (hf : 1 ≤ f.mbits) (num : Nat) {den : Nat} (hden : 0 < den) :
    f.IsNearest ((num : ℝ) / den) (f.round num den) := by
  obtain ⟨sh, h1, h2, e⟩ := f.round_binade num den
  rw [e]
  exact (f.between_div hden h1 h2).isNearest hf (nearerSignificand_roundHalfEven hden)

/-- Settles O52: both formats have a fraction. -/
theorem roundingIsNearestEven : Obligations.RoundingIsNearestEven := by
  rintro f (rfl | rfl) num den hden
  · exact Fmt.round_isNearest (by decide) num hden
  · exact Fmt.round_isNearest (by decide) num hden

end Sys2Proof.Machine

/-! The operations (R13, R14, R199): exact results by kind of operand, and what their patterns are after rounding. -/

namespace Sys2Proof.Machine

/-! ## Sign and magnitude -/

section SignMagnitude

variable {w m : Nat}

theorem toNat_signMagnitude (neg : Bool) (h : m < 2 ^ w) :
    (BitVec.ofNat (w + 1) (if neg then 2 ^ w + m else m)).toNat = if neg then 2 ^ w + m else m := by
  rw [BitVec.toNat_ofNat]
  apply Nat.mod_eq_of_lt
  rw [pow_succ]
  split <;> omega

theorem magnitude_signMagnitude (neg : Bool) (h : m < 2 ^ w) :
    (BitVec.ofNat (w + 1) (if neg then 2 ^ w + m else m)).toNat % 2 ^ w = m := by
  rw [toNat_signMagnitude neg h]
  cases neg
  · exact Nat.mod_eq_of_lt h
  · rw [if_pos rfl, Nat.add_mod_left, Nat.mod_eq_of_lt h]

theorem msb_signMagnitude (neg : Bool) (h : m < 2 ^ w) :
    (BitVec.ofNat (w + 1) (if neg then 2 ^ w + m else m)).msb = neg := by
  rw [BitVec.msb_eq_decide, toNat_signMagnitude neg h, Nat.add_sub_cancel]
  cases neg
  · exact decide_eq_false (by rw [if_neg Bool.false_ne_true]; omega)
  · exact decide_eq_true (by rw [if_pos rfl]; omega)

theorem signMagnitude_self (x : BitVec (w + 1)) :
    BitVec.ofNat (w + 1) (if x.msb then 2 ^ w + x.toNat % 2 ^ w else x.toNat % 2 ^ w) = x := by
  have hlt := x.isLt
  rw [pow_succ] at hlt
  apply BitVec.eq_of_toNat_eq
  rw [toNat_signMagnitude _ (Nat.mod_lt _ (by positivity)), BitVec.msb_eq_decide, Nat.add_sub_cancel]
  by_cases h : 2 ^ w ≤ x.toNat
  · rw [if_pos (decide_eq_true h), Nat.mod_eq_sub_mod h, Nat.mod_eq_of_lt (by omega)]
    omega
  · rw [if_neg (by simpa using h), Nat.mod_eq_of_lt (by omega)]

end SignMagnitude

theorem mag64_pack64 (neg : Bool) {m : Nat} (h : m ≤ fmt64.infMag) : mag64 (pack64 neg m) = m :=
  magnitude_signMagnitude (w := 63) neg (lt_of_le_of_lt h (by rw [fmt64_infMag]; norm_num))

theorem neg64_pack64 (neg : Bool) {m : Nat} (h : m ≤ fmt64.infMag) : neg64 (pack64 neg m) = neg :=
  msb_signMagnitude (w := 63) neg (lt_of_le_of_lt h (by rw [fmt64_infMag]; norm_num))

theorem pack64_neg64_mag64 (x : F64) : pack64 (neg64 x) (mag64 x) = x := signMagnitude_self (w := 63) x

theorem mag32_pack32 (neg : Bool) {m : Nat} (h : m ≤ fmt32.infMag) : mag32 (pack32 neg m) = m :=
  magnitude_signMagnitude (w := 31) neg (lt_of_le_of_lt h (by rw [fmt32_infMag]; norm_num))

theorem neg32_pack32 (neg : Bool) {m : Nat} (h : m ≤ fmt32.infMag) : neg32 (pack32 neg m) = neg :=
  msb_signMagnitude (w := 31) neg (lt_of_le_of_lt h (by rw [fmt32_infMag]; norm_num))

/-! ## The datum of a pattern -/

theorem Fmt.classify_nan (f : Fmt) {neg : Bool} {mag : Nat} (h : f.infMag < mag) : f.classify neg mag = .nan := if_pos h

theorem Fmt.classify_inf (f : Fmt) {neg : Bool} {mag : Nat} (h : mag = f.infMag) : f.classify neg mag = .inf neg := by
  rw [Fmt.classify, if_neg (by omega), if_pos h]

theorem Fmt.classify_fin (f : Fmt) {neg : Bool} {mag : Nat} (h : mag < f.infMag) :
    f.classify neg mag = .fin neg (f.units mag) := by
  rw [Fmt.classify, if_neg (by omega), if_neg (by omega)]

theorem val64_of_nan {x : F64} (h : isNaN64 x = true) : val64 x = .nan := fmt64.classify_nan (of_decide_eq_true h)

theorem val64_of_inf {x : F64} (h : mag64 x = fmt64.infMag) : val64 x = .inf (neg64 x) := fmt64.classify_inf h

theorem val64_of_finite {x : F64} (h : Finite64 x) : val64 x = .fin (neg64 x) (fmt64.units (mag64 x)) :=
  fmt64.classify_fin h

theorem val32_of_nan {x : F32} (h : isNaN32 x = true) : val32 x = .nan := fmt32.classify_nan (of_decide_eq_true h)

theorem val32_of_inf {x : F32} (h : mag32 x = fmt32.infMag) : val32 x = .inf (neg32 x) := fmt32.classify_inf h

theorem val32_of_finite {x : F32} (h : Finite32 x) : val32 x = .fin (neg32 x) (fmt32.units (mag32 x)) :=
  fmt32.classify_fin h

/-- A number, or an infinity, of the given sign and not zero. -/
def FpVal.NonZero (v : FpVal) (neg : Bool) : Prop := v = .inf neg ∨ ∃ a, a ≠ 0 ∧ v = .fin neg a

theorem Fmt.classify_nonZero (f : Fmt) {neg : Bool} {mag : Nat} (h : ¬ f.infMag < mag) (h0 : ¬ mag = 0) :
    (f.classify neg mag).NonZero neg := by
  rcases Nat.eq_or_lt_of_le (not_lt.1 h) with h | h
  · exact .inl (f.classify_inf h)
  · exact .inr ⟨_, mt Fmt.units_eq_zero.1 h0, f.classify_fin h⟩

theorem val64_nonZero {x : F64} (h : isNaN64 x = false) (h0 : ¬ mag64 x = 0) : (val64 x).NonZero (neg64 x) :=
  fmt64.classify_nonZero (of_decide_eq_false h) h0

theorem val32_nonZero {x : F32} (h : isNaN32 x = false) (h0 : ¬ mag32 x = 0) : (val32 x).NonZero (neg32 x) :=
  fmt32.classify_nonZero (of_decide_eq_false h) h0

theorem Fmt.classify_zero (f : Fmt) (hf : 0 < f.infMag) (neg : Bool) : f.classify neg 0 = .fin neg 0 := by
  rw [f.classify_fin hf, f.units_zero]

theorem val64_of_zero {x : F64} (h : mag64 x = 0) : val64 x = .fin (neg64 x) 0 := by
  rw [val64, h, fmt64.classify_zero (by decide)]

theorem val32_of_zero {x : F32} (h : mag32 x = 0) : val32 x = .fin (neg32 x) 0 := by
  rw [val32, h, fmt32.classify_zero (by decide)]

/-! ## Exact results that are no numbers -/

section ExactSpecial

variable {u v : FpVal} {one : Nat} {s t : Bool}

theorem Exact.add_nan (h : u = .nan ∨ v = .nan) : Exact.add u v = .invalid := by
  rcases h with rfl | rfl
  · rfl
  · cases u <;> rfl

theorem Exact.mul_nan (h : u = .nan ∨ v = .nan) : Exact.mul one u v = .invalid := by
  rcases h with rfl | rfl
  · rfl
  · cases u <;> rfl

theorem Exact.div_nan (h : u = .nan ∨ v = .nan) : Exact.div one u v = .invalid := by
  rcases h with rfl | rfl
  · rfl
  · cases u <;> rfl

theorem FpVal.negate_nan (h : v = .nan) : v.negate = .nan := by rw [h]; rfl

theorem Exact.mul_inf_nonZero (h : v.NonZero t) : Exact.mul one (.inf s) v = .inf (s != t) := by
  rcases h with rfl | ⟨a, h0, rfl⟩
  · rfl
  · exact if_neg h0

theorem Exact.mul_nonZero_inf (h : v.NonZero t) : Exact.mul one v (.inf s) = .inf (s != t) := by
  rw [bne_comm]
  rcases h with rfl | ⟨a, h0, rfl⟩
  · rfl
  · exact if_neg h0

theorem Exact.sqrt_neg (h : v.NonZero true) : Exact.sqrt one v = .invalid := by
  rcases h with rfl | ⟨a, h0, rfl⟩
  · rfl
  · exact if_neg h0

end ExactSpecial

/-! ## Their patterns -/

/-- R13: a quiet NaN of binary64. -/
def Quiet64 (z : F64) : Prop := isNaN64 z = true ∧ z.getLsbD 51 = true

/-- R13: a quiet NaN of binary32. -/
def Quiet32 (z : F32) : Prop := isNaN32 z = true ∧ z.getLsbD 22 = true

theorem quiet64_quietNaN64 (x : F64) : Quiet64 (quietNaN64 x) := by
  refine ⟨isNaN64_quietNaN64 x, ?_⟩
  rw [quietNaN64, BitVec.getLsbD_or, Bool.or_eq_true]
  exact .inr (by decide)

theorem quiet32_quietNaN32 (x : F32) : Quiet32 (quietNaN32 x) := by
  refine ⟨isNaN32_quietNaN32 x, ?_⟩
  rw [quietNaN32, BitVec.getLsbD_or, Bool.or_eq_true]
  exact .inr (by decide)

/-- An infinity of binary64 with the given sign. -/
def IsInf64 (z : F64) (neg : Bool) : Prop := mag64 z = fmt64.infMag ∧ neg64 z = neg

/-- An infinity of binary32 with the given sign. -/
def IsInf32 (z : F32) (neg : Bool) : Prop := mag32 z = fmt32.infMag ∧ neg32 z = neg

theorem isInf64_pack64 (neg : Bool) : IsInf64 (pack64 neg fmt64.infMag) neg :=
  ⟨mag64_pack64 neg le_rfl, neg64_pack64 neg le_rfl⟩

theorem isInf32_pack32 (neg : Bool) : IsInf32 (pack32 neg fmt32.infMag) neg :=
  ⟨mag32_pack32 neg le_rfl, neg32_pack32 neg le_rfl⟩

section Results

variable {r : Exact} {neg : Bool}

theorem quiet64_result {nan : F64} (h : r = .invalid) : Quiet64 (result64 nan r) := h ▸ quiet64_quietNaN64 nan

theorem quiet32_result {nan : F32} (h : r = .invalid) : Quiet32 (result32 nan r) := h ▸ quiet32_quietNaN32 nan

theorem isInf64_result {nan : F64} (h : r = .inf neg) : IsInf64 (result64 nan r) neg := h ▸ isInf64_pack64 neg

theorem isInf32_result {nan : F32} (h : r = .inf neg) : IsInf32 (result32 nan r) neg := h ▸ isInf32_pack32 neg

theorem Fmt.round_zero (f : Fmt) (hf : 0 < f.infMag) : f.round 0 1 = 0 := by
  have := f.round_units hf Nat.one_pos
  rwa [f.units_zero, Nat.zero_mul] at this

/-- An exact zero keeps its sign. -/
theorem result64_zero {nan : F64} (h : r = .rat neg 0 1) : result64 nan r = pack64 neg 0 := by
  subst h
  show pack64 neg (fmt64.round 0 1) = _
  rw [fmt64.round_zero (by decide)]

end Results

/-- Settles O55: operand kind by operand kind, the exact result is no number, an infinity or a zero. -/
theorem specialOperands64 : Obligations.SpecialOperands64 := by
  intro x y inf nul quiet isInf
  refine ⟨fun h => ?_, fun hx => ?_, fun hx hy hn => ?_, fun hx hy he => ?_, fun hx hy he => ?_, fun hx hy hn => ?_,
    fun hx hy => ?_, fun hx hy => ?_, fun hx h0 hn => ?_, fun hx hy => ?_, fun hx hy => ?_, fun hx h0 hy => ?_,
    fun hx hy => ?_, fun hx hy => ?_, fun hn h0 hs => ?_, fun hx => ?_, fun hx hs => ?_⟩
  · have hv : val64 x = .nan ∨ val64 y = .nan := h.imp val64_of_nan val64_of_nan
    exact ⟨quiet64_result (Exact.add_nan hv), quiet64_result (Exact.add_nan (hv.imp_right FpVal.negate_nan)),
      quiet64_result (Exact.mul_nan hv), quiet64_result (Exact.div_nan hv)⟩
  · exact quiet64_result (by rw [val64_of_nan hx]; rfl)
  · exact quiet64_result (by rw [val64_of_inf hx, val64_of_inf hy]; exact if_neg hn)
  · exact quiet64_result (by rw [val64_of_inf hx, val64_of_inf hy, he]; exact if_neg (Bool.self_ne_not _))
  · exact isInf64_result (by rw [val64_of_inf hx, val64_of_inf hy]; exact if_pos he)
  · exact isInf64_result (by
      rw [val64_of_inf hx, val64_of_inf hy]; exact if_pos (Bool.eq_not.2 hn))
  · exact ⟨isInf64_result (by rw [val64_of_inf hx, val64_of_finite hy]; rfl),
      isInf64_result (by rw [val64_of_inf hx, val64_of_finite hy]; rfl),
      isInf64_result (by rw [val64_of_inf hx, val64_of_finite hy]; rfl),
      isInf64_result (by rw [val64_of_inf hx, val64_of_finite hy]; rfl)⟩
  · exact ⟨quiet64_result (by rw [val64_of_inf hx, val64_of_zero hy]; rfl),
      quiet64_result (by rw [val64_of_inf hx, val64_of_zero hy]; rfl)⟩
  · have hy := val64_nonZero hn h0
    exact ⟨isInf64_result (by rw [val64_of_inf hx, Exact.mul_inf_nonZero hy]),
      isInf64_result (by rw [val64_of_inf hx, Exact.mul_nonZero_inf hy])⟩
  · exact quiet64_result (by rw [val64_of_inf hx, val64_of_inf hy]; rfl)
  · exact quiet64_result (by rw [val64_of_zero hx, val64_of_zero hy]; rfl)
  · exact isInf64_result (by
      rw [val64_of_finite hx, val64_of_zero hy]; exact if_neg (mt Fmt.units_eq_zero.1 h0))
  · exact isInf64_result (by rw [val64_of_inf hx, val64_of_finite hy]; rfl)
  · have e : div64 x y = pack64 (neg64 x != neg64 y) 0 :=
      result64_zero (by rw [val64_of_finite hx, val64_of_inf hy]; rfl)
    rw [e]
    exact ⟨mag64_pack64 _ (Nat.zero_le _), neg64_pack64 _ (Nat.zero_le _)⟩
  · exact quiet64_result (Exact.sqrt_neg (hs ▸ val64_nonZero hn h0))
  · have e : sqrt64 x = pack64 (neg64 x) 0 := result64_zero (by rw [val64_of_zero hx]; rfl)
    rw [e]
    have h := pack64_neg64_mag64 x
    rwa [hx] at h
  · have e : sqrt64 x = pack64 false fmt64.infMag := by rw [sqrt64, val64_of_inf hx, hs]; rfl
    rw [e]
    have h := pack64_neg64_mag64 x
    rwa [hx, hs] at h

/-- Settles O60: as for binary64. -/
theorem specialOperands32 : Obligations.SpecialOperands32 := by
  intro x y inf nul quiet isInf
  refine ⟨fun h => ?_, fun hx hy hn => ?_, fun hx hy he => ?_, fun hx hy he => ?_, fun hx hy hn => ?_, fun hx hy => ?_,
    fun hx hy => ?_, fun hx h0 hn => ?_⟩
  · have hv : val32 x = .nan ∨ val32 y = .nan := h.imp val32_of_nan val32_of_nan
    exact ⟨quiet32_result (Exact.add_nan hv), quiet32_result (Exact.add_nan (hv.imp_right FpVal.negate_nan)),
      quiet32_result (Exact.mul_nan hv)⟩
  · exact quiet32_result (by rw [val32_of_inf hx, val32_of_inf hy]; exact if_neg hn)
  · exact quiet32_result (by rw [val32_of_inf hx, val32_of_inf hy, he]; exact if_neg (Bool.self_ne_not _))
  · exact isInf32_result (by rw [val32_of_inf hx, val32_of_inf hy]; exact if_pos he)
  · exact isInf32_result (by rw [val32_of_inf hx, val32_of_inf hy]; exact if_pos (Bool.eq_not.2 hn))
  · exact ⟨isInf32_result (by rw [val32_of_inf hx, val32_of_finite hy]; rfl),
      isInf32_result (by rw [val32_of_inf hx, val32_of_finite hy]; rfl),
      isInf32_result (by rw [val32_of_inf hx, val32_of_finite hy]; rfl),
      isInf32_result (by rw [val32_of_inf hx, val32_of_finite hy]; rfl)⟩
  · exact ⟨quiet32_result (by rw [val32_of_inf hx, val32_of_zero hy]; rfl),
      quiet32_result (by rw [val32_of_inf hx, val32_of_zero hy]; rfl)⟩
  · have hy := val32_nonZero hn h0
    exact ⟨isInf32_result (by rw [val32_of_inf hx, Exact.mul_inf_nonZero hy]),
      isInf32_result (by rw [val32_of_inf hx, Exact.mul_nonZero_inf hy])⟩

end Sys2Proof.Machine

/-! Each operation on finite operands rounds the exact result once (R13). The square root is rounded from the middle of the
two whole numbers around it, which the format cannot tell from the root. -/

namespace Sys2Proof.Machine

variable {f : Fmt}

/-- The number of the given sign and magnitude. -/
noncomputable def signed (neg : Bool) (v : ℝ) : ℝ := if neg then -v else v

theorem value64_eq_signed (x : F64) : value64 x = signed (neg64 x) (fmt64.units (mag64 x)) := rfl

theorem value32_eq_signed (x : F32) : value32 x = signed (neg32 x) (fmt32.units (mag32 x)) := rfl

@[simp] theorem signed_false (v : ℝ) : signed false v = v := if_neg Bool.false_ne_true

@[simp] theorem signed_true (v : ℝ) : signed true v = -v := if_pos rfl

@[simp] theorem signed_zero (s : Bool) : signed s 0 = 0 := by cases s <;> simp

theorem signed_not (s : Bool) (v : ℝ) : signed (!s) v = -signed s v := by cases s <;> simp

theorem signed_mul_signed (s t : Bool) (a b : ℝ) : signed s a * signed t b = signed (s != t) (a * b) := by
  cases s <;> cases t <;> simp

theorem signed_mul (s : Bool) (a b : ℝ) : signed s a * b = signed s (a * b) := by cases s <;> simp

theorem signed_div (s : Bool) (a b : ℝ) : signed s a / b = signed s (a / b) := by cases s <;> simp [neg_div]

theorem signed_div_signed (s t : Bool) (a b : ℝ) : signed s a / signed t b = signed (s != t) (a / b) := by
  cases s <;> cases t <;> simp [neg_div, div_neg]

theorem signed_eq_zero {s : Bool} {a : ℝ} : signed s a = 0 ↔ a = 0 := by cases s <;> simp

/-- R13: an exact result whose pattern is the number `q` rounded once, an exact zero having the given sign. -/
def Fmt.RoundsTo (f : Fmt) (r : Exact) (q : ℝ) (zeroNeg : Bool) : Prop :=
  ∃ s num den, r = .rat s num den ∧ f.IsNearest |q| (f.round num den) ∧ s = if q = 0 then zeroNeg else decide (q < 0)

theorem rounded64_result {nan : F64} {r : Exact} {q : ℝ} {z : Bool} (h : fmt64.RoundsTo r q z) :
    Rounded64 (result64 nan r) q z := by
  obtain ⟨s, num, den, rfl, h1, h2⟩ := h
  have hle := fmt64.round_le num den
  show Rounded64 (pack64 s (fmt64.round num den)) q z
  unfold Rounded64
  rw [mag64_pack64 s hle, neg64_pack64 s hle]
  exact ⟨h1, h2⟩

theorem rounded32_result {nan : F32} {r : Exact} {q : ℝ} {z : Bool} (h : fmt32.RoundsTo r q z) :
    Rounded32 (result32 nan r) q z := by
  obtain ⟨s, num, den, rfl, h1, h2⟩ := h
  have hle := fmt32.round_le num den
  show Rounded32 (pack32 s (fmt32.round num den)) q z
  unfold Rounded32
  rw [mag32_pack32 s hle, neg32_pack32 s hle]
  exact ⟨h1, h2⟩

/-- The sign of a number made of a sign and a magnitude. -/
theorem sign_signed {s z : Bool} {v : ℝ} (hv : 0 ≤ v) (hz : v = 0 → s = z) :
    s = if signed s v = 0 then z else decide (signed s v < 0) := by
  by_cases h : v = 0
  · rw [if_pos (signed_eq_zero.2 h)]
    exact hz h
  · have hpos : 0 < v := lt_of_le_of_ne hv (Ne.symm h)
    rw [if_neg (mt signed_eq_zero.1 h)]
    cases s
    · simp [hv]
    · simp [hpos]

theorem abs_signed (s : Bool) {v : ℝ} (hv : 0 ≤ v) : |signed s v| = v := by
  cases s <;> simp [abs_of_nonneg hv]

/-- R13: an exact quotient is rounded once. -/
theorem Fmt.roundsTo_rat (hf : 1 ≤ f.mbits) {s z : Bool} {num den : Nat} {q : ℝ} (hden : 0 < den)
    (hq : q = signed s ((num : ℝ) / den)) (hz : num = 0 → s = z) : f.RoundsTo (.rat s num den) q z := by
  subst hq
  have hd : (0 : ℝ) < den := by exact_mod_cast hden
  have hnn : 0 ≤ (num : ℝ) / den := by positivity
  refine ⟨s, num, den, rfl, ?_, sign_signed hnn fun h => hz ?_⟩
  · rw [abs_signed s hnn]
    exact f.round_isNearest hf num hden
  · exact_mod_cast (div_eq_zero_iff.1 h).resolve_right hd.ne'

/-! ## Sum, product, quotient -/

theorem Exact.add_fin (s t : Bool) (a b : Nat) : Exact.add (.fin s a) (.fin t b) =
    if s = t then .rat s (a + b) 1 else if a = b then .rat false 0 1
    else if a < b then .rat t (b - a) 1 else .rat s (a - b) 1 := rfl

theorem Exact.div_fin {one b : Nat} (s t : Bool) (a : Nat) (hb : b ≠ 0) :
    Exact.div one (.fin s a) (.fin t b) = .rat (s != t) (a * one) b := if_neg hb

theorem Exact.sqrt_fin_zero (one : Nat) (s : Bool) : Exact.sqrt one (.fin s 0) = .rat s 0 1 := rfl

theorem Exact.sqrt_fin_pos (one : Nat) {a : Nat} (ha : a ≠ 0) : Exact.sqrt one (.fin false a) =
    if isqrt (a * one) * isqrt (a * one) = a * one then .rat false (isqrt (a * one)) 1
    else .rat false (2 * isqrt (a * one) + 1) 2 := if_neg ha

section Operations

variable (hf : 1 ≤ f.mbits) (s t : Bool) (a b : Nat)
include hf

theorem Fmt.roundsTo_add : f.RoundsTo (.add (.fin s a) (.fin t b)) (signed s a + signed t b) (s && t) := by
  rw [Exact.add_fin]
  by_cases hst : s = t
  · subst hst
    rw [if_pos rfl, Bool.and_self]
    refine f.roundsTo_rat hf Nat.one_pos ?_ fun _ => rfl
    cases s <;> simp [add_comm]
  obtain rfl : t = !s := Bool.eq_not.2 (Ne.symm hst)
  rw [if_neg hst, signed_not, Bool.and_not_self]
  rcases Nat.lt_trichotomy a b with h | rfl | h
  · rw [if_neg h.ne, if_pos h]
    refine f.roundsTo_rat hf Nat.one_pos ?_ fun h0 => by omega
    rw [signed_not, Nat.cast_sub h.le]
    cases s <;> simp <;> ring
  · rw [if_pos rfl]
    exact f.roundsTo_rat hf Nat.one_pos (by simp) fun _ => rfl
  · rw [if_neg h.ne', if_neg (by omega)]
    refine f.roundsTo_rat hf Nat.one_pos ?_ fun h0 => by omega
    rw [Nat.cast_sub h.le]
    cases s <;> simp <;> ring

theorem Fmt.roundsTo_sub :
    f.RoundsTo (.add (.fin s a) (FpVal.negate (.fin t b))) (signed s a - signed t b) (s && !t) := by
  rw [sub_eq_add_neg, ← signed_not]
  exact f.roundsTo_add hf s (!t) a b

theorem Fmt.roundsTo_mul {one : Nat} (h1 : 0 < one) :
    f.RoundsTo (.mul one (.fin s a) (.fin t b)) (signed s a * signed t b / one) (s != t) := by
  refine f.roundsTo_rat hf h1 ?_ fun _ => rfl
  rw [signed_mul_signed, signed_div, Nat.cast_mul]

theorem Fmt.roundsTo_div {one : Nat} (hb : b ≠ 0) :
    f.RoundsTo (.div one (.fin s a) (.fin t b)) (signed s a * one / signed t b) (s != t) := by
  rw [Exact.div_fin s t a hb]
  refine f.roundsTo_rat hf (Nat.pos_of_ne_zero hb) ?_ fun _ => rfl
  rw [signed_mul, signed_div_signed, Nat.cast_mul]

end Operations

/-! ## Square root -/

theorem isqrtFrom_lt_sq (n : Nat) : ∀ k r, n < (r + 2 ^ (k + 1)) * (r + 2 ^ (k + 1)) →
    n < (isqrtFrom n k r + 1) * (isqrtFrom n k r + 1) := by
  intro k
  induction k with
  | zero =>
    intro r h
    rw [isqrtFrom]
    split
    · exact h
    · rename_i h1
      exact not_le.1 h1
  | succ k ih =>
    intro r h
    rw [isqrtFrom]
    apply ih
    split
    · rwa [Nat.add_assoc, ← two_mul, ← pow_succ']
    · rename_i h1
      exact not_le.1 h1

/-- The bit-by-bit square root is the square root. -/
theorem isqrt_eq_sqrt (n : Nat) : isqrt n = Nat.sqrt n := by
  refine Nat.eq_sqrt.2 ⟨isqrt_sq_le n, isqrtFrom_lt_sq n _ 0 ?_⟩
  rw [Nat.zero_add, ← pow_add]
  exact lt_of_lt_of_le Nat.lt_log2_self (Nat.pow_le_pow_right two_pos (by omega))

/-- R13: a root that is not whole rounds as the middle of the whole numbers around it, where the quantum is at least 2. -/
theorem Fmt.round_sqrt (hf : 1 ≤ f.mbits) {n : Nat} (hbig : 2 * 2 ^ f.mbits ≤ isqrt n) (hne : isqrt n * isqrt n ≠ n) :
    f.IsNearest √(n : ℝ) (f.round (2 * isqrt n + 1) 2) := by
  have lo : (isqrt n : ℝ) ≤ √(n : ℝ) := by rw [isqrt_eq_sqrt]; exact Real.nat_sqrt_le_real_sqrt
  have hi : √(n : ℝ) < isqrt n + 1 := by rw [isqrt_eq_sqrt]; exact Real.real_sqrt_lt_nat_sqrt_succ
  have lo' : (isqrt n : ℝ) < √(n : ℝ) := by
    refine lt_of_le_of_ne lo fun h => hne ?_
    have : (isqrt n : ℝ) * isqrt n = n := by rw [h]; exact Real.mul_self_sqrt (Nat.cast_nonneg n)
    exact_mod_cast this
  generalize isqrt n = r at *
  generalize √(n : ℝ) = q at *
  obtain ⟨sh, h1, h2, e⟩ := f.round_binade (2 * r + 1) 2
  rw [e]
  obtain ⟨k, rfl⟩ : ∃ k, sh = k + 1 := by
    refine Nat.exists_eq_succ_of_ne_zero fun h0 => ?_
    rw [h0, pow_zero, Nat.mul_one] at h2
    omega
  have hcase := roundHalfEven_cases (2 * r + 1) (den := 2 * 2 ^ (k + 1))
  have hfl : (2 * r + 1) / (2 * 2 ^ (k + 1)) = r / 2 ^ (k + 1) := by
    rw [← Nat.div_div_eq_div_mul]
    congr 1
    omega
  rw [hfl] at h1 h2 hcase
  have d1 : r / 2 ^ (k + 1) * 2 ^ (k + 1) ≤ r := Nat.div_mul_le_self _ _
  have d2 : r + 1 ≤ (r / 2 ^ (k + 1) + 1) * 2 ^ (k + 1) := by
    rw [Nat.mul_comm]
    exact Nat.lt_mul_div_succ r (by positivity)
  generalize r / 2 ^ (k + 1) = c at *
  have d1' : (c : ℝ) * 2 ^ (k + 1) ≤ r := by exact_mod_cast d1
  have d2' : (r : ℝ) + 1 ≤ (c + 1) * 2 ^ (k + 1) := by exact_mod_cast d2
  have hmid : (2 * c + 1) * (2 * 2 ^ (k + 1)) = 2 * (2 * ((2 * c + 1) * 2 ^ k)) := by ring
  have hmid' : ((2 * c + 1 : ℝ)) * 2 ^ (k + 1) = 2 * (((2 * c + 1) * 2 ^ k : Nat) : ℝ) := by push_cast; ring
  rw [hmid] at hcase
  refine Fmt.Between.isNearest hf ⟨h1, h2, by linarith, by linarith⟩ ?_
  unfold NearerSignificand
  rw [hmid']
  generalize (2 * c + 1) * 2 ^ k = g at *
  rcases hcase with ⟨e1, h3, -⟩ | ⟨e1, h3, -⟩
  · have h4 : (r : ℝ) + 1 ≤ g := by exact_mod_cast (show r + 1 ≤ g by omega)
    exact .inl ⟨e1, by linarith, fun h => absurd h (by linarith)⟩
  · have h4 : (g : ℝ) ≤ r := by exact_mod_cast (show g ≤ r by omega)
    exact .inr ⟨e1, by linarith, fun h => absurd h (by linarith)⟩

/-- R13: the square root of a number that is not negative is rounded once, in a format with an even unit exponent whose
smallest root has a quantum of at least 2. -/
theorem Fmt.roundsTo_sqrt (hf : 1 ≤ f.mbits) {k : Nat} (hone : f.one = 2 ^ k * 2 ^ k) (hk : f.mbits + 1 ≤ k) (s : Bool)
    (a : Nat) (h : 0 ≤ signed s a) : f.RoundsTo (.sqrt f.one (.fin s a)) √(signed s a * f.one) s := by
  by_cases ha : a = 0
  · subst ha
    rw [Exact.sqrt_fin_zero]
    exact f.roundsTo_rat hf Nat.one_pos (by simp) fun _ => rfl
  have hpos : (0 : ℝ) < a := by exact_mod_cast Nat.pos_of_ne_zero ha
  obtain rfl : s = false := by
    cases s
    · rfl
    · rw [signed_true] at h
      linarith
  have hcast : signed false a * f.one = ((a * f.one : Nat) : ℝ) := by rw [signed_false, Nat.cast_mul]
  rw [Exact.sqrt_fin_pos f.one ha, hcast]
  have hbig : 2 * 2 ^ f.mbits ≤ isqrt (a * f.one) := by
    rw [isqrt_eq_sqrt, Nat.le_sqrt, ← pow_succ']
    have h2 : 2 ^ (f.mbits + 1) ≤ 2 ^ k := Nat.pow_le_pow_right two_pos hk
    calc 2 ^ (f.mbits + 1) * 2 ^ (f.mbits + 1) ≤ 2 ^ k * 2 ^ k := Nat.mul_le_mul h2 h2
      _ = f.one := hone.symm
      _ ≤ a * f.one := Nat.le_mul_of_pos_left _ (Nat.pos_of_ne_zero ha)
  split
  · rename_i hsq
    generalize isqrt (a * f.one) = r at *
    refine f.roundsTo_rat hf Nat.one_pos ?_ fun _ => rfl
    rw [← hsq, Nat.cast_mul, Real.sqrt_mul_self (Nat.cast_nonneg _), signed_false, Nat.cast_one, div_one]
  · rename_i hne
    have hroot : (0 : ℝ) < √((a * f.one : Nat) : ℝ) :=
      Real.sqrt_pos.2 (by exact_mod_cast Nat.mul_pos (Nat.pos_of_ne_zero ha) f.one_pos)
    refine ⟨false, _, 2, rfl, ?_, ?_⟩
    · rw [abs_of_pos hroot]
      exact f.round_sqrt hf hbig hne
    · rw [if_neg hroot.ne', decide_eq_false (not_lt.2 hroot.le)]

/-- Settles O53: each operation's exact result, rounded. -/
theorem arithmetic64RoundsOnce : Obligations.Arithmetic64RoundsOnce := by
  intro x y hx hy
  have hf : 1 ≤ fmt64.mbits := by decide
  have hone : fmt64.one = 2 ^ 537 * 2 ^ 537 := by
    rw [← pow_add, fmt64_one]
    exact congrArg (2 ^ ·) (show fmt64.unitExp = 537 + 537 by decide)
  simp only [add64, sub64, mul64, div64, sqrt64, val64_of_finite hx, val64_of_finite hy, value64_eq_signed]
  refine ⟨rounded64_result (fmt64.roundsTo_add hf _ _ _ _), rounded64_result (fmt64.roundsTo_sub hf _ _ _ _),
    rounded64_result (fmt64.roundsTo_mul hf _ _ _ _ fmt64.one_pos), fun h0 => ?_, fun h => ?_⟩
  · exact rounded64_result (fmt64.roundsTo_div hf _ _ _ _ fun hb => h0 (by rw [hb, Nat.cast_zero, signed_eq_zero]))
  · exact rounded64_result (fmt64.roundsTo_sqrt hf hone (by decide) _ _ h)

/-- Settles O54: each operation's exact result, rounded. -/
theorem arithmetic32RoundsOnce : Obligations.Arithmetic32RoundsOnce := by
  intro x y hx hy
  have hf : 1 ≤ fmt32.mbits := by decide
  simp only [add32, sub32, mul32, val32_of_finite hx, val32_of_finite hy, value32_eq_signed]
  exact ⟨rounded32_result (fmt32.roundsTo_add hf _ _ _ _), rounded32_result (fmt32.roundsTo_sub hf _ _ _ _),
    rounded32_result (fmt32.roundsTo_mul hf _ _ _ _ fmt32.one_pos)⟩

end Sys2Proof.Machine

/-! Comparisons, conversions, the fixed part of the elementary functions, and two pi (R14 to R17). -/

namespace Sys2Proof.Machine

variable {f : Fmt}

/-! ## Comparisons -/

/-- R14: the number at a place in the order of the numbers. -/
noncomputable def Fmt.numberAt (f : Fmt) (z : Int) : ℝ := if z < 0 then -(f.units z.natAbs : ℝ) else f.units z.natAbs

theorem Fmt.numberAt_signed (f : Fmt) (s : Bool) (m : Nat) :
    f.numberAt (if s then -(m : Int) else m) = signed s (f.units m) := by
  unfold Fmt.numberAt
  cases s
  · simp
  · rcases Nat.eq_zero_or_pos m with rfl | h
    · simp
    · simp [h]

/-- R14: the numbers rise with their places. -/
theorem Fmt.numberAt_strictMono (f : Fmt) : StrictMono f.numberAt := by
  have key : ∀ {m n : Nat}, m < n → (f.units m : ℝ) < f.units n := fun h => by exact_mod_cast f.units_strictMono h
  have nonneg : ∀ n : Nat, (0 : ℝ) ≤ f.units n := fun n => Nat.cast_nonneg _
  intro a b hab
  unfold Fmt.numberAt
  by_cases hb : b < 0
  · rw [if_pos hb, if_pos (hab.trans hb), neg_lt_neg_iff]
    exact key (by omega)
  rw [if_neg hb]
  by_cases ha : a < 0
  · rw [if_pos ha]
    have h0 : (0 : ℝ) < f.units a.natAbs := by simpa using key (show 0 < a.natAbs by omega)
    linarith [nonneg b.natAbs]
  · rw [if_neg ha]
    exact key (by omega)

theorem value64_eq_numberAt (x : F64) : value64 x = fmt64.numberAt (order64 x) :=
  (fmt64.numberAt_signed (neg64 x) (mag64 x)).symm

theorem value32_eq_numberAt (x : F32) : value32 x = fmt32.numberAt (order32 x) :=
  (fmt32.numberAt_signed (neg32 x) (mag32 x)).symm

/-- Settles O56: a comparison is that of the places, and the numbers rise with their places. -/
theorem comparisonsAreNumeric : Obligations.ComparisonsAreNumeric := by
  refine ⟨fun x y hx hy => ?_, fun x y hx hy => ?_, fun x y h => ?_, fun x y h => ?_, by decide, by decide⟩
  · have mono := fmt64.numberAt_strictMono
    rw [value64_eq_numberAt, value64_eq_numberAt, mono.lt_iff_lt, mono.le_iff_le, mono.injective.eq_iff]
    simp [lt64, le64, eq64, hx, hy]
  · have mono := fmt32.numberAt_strictMono
    rw [value32_eq_numberAt, value32_eq_numberAt, mono.lt_iff_lt, mono.le_iff_le, mono.injective.eq_iff]
    simp [lt32, le32, eq32, hx, hy]
  · rcases h with h | h <;> simp [lt64, le64, eq64, h]
  · rcases h with h | h <;> simp [lt32, le32, eq32, h]

/-! ## Conversions -/

/-- R15: a whole number is an exact result. -/
theorem ofInt64_eq_result (n : Int) : ofInt64 n = result64 0 (.rat (decide (n < 0)) (n.natAbs * fmt64.one) 1) := rfl

theorem cast_eq_signed_natAbs (n : Int) : (n : ℝ) = signed (decide (n < 0)) n.natAbs := by
  by_cases h : n < 0
  · rw [decide_eq_true h, signed_true, Nat.cast_natAbs, abs_of_neg h, Int.cast_neg, neg_neg]
  · rw [decide_eq_false h, signed_false, Nat.cast_natAbs, abs_of_nonneg (not_lt.1 h)]

theorem ofInt64_rounded (n : Int) : Rounded64 (ofInt64 n) (n * fmt64.one) false := by
  rw [ofInt64_eq_result]
  refine rounded64_result (fmt64.roundsTo_rat (by decide) Nat.one_pos ?_ fun h0 => decide_eq_false ?_)
  · rw [cast_eq_signed_natAbs, signed_mul, Nat.cast_one, div_one, Nat.cast_mul]
  · have := (Nat.mul_eq_zero.1 h0).resolve_right fmt64.one_pos.ne'
    omega

/-- R15: whole numbers up to 2^53 are representable. -/
theorem ofInt64_exact {n : Int} (h : n.natAbs ≤ 2 ^ 53) : value64 (ofInt64 n) = n * fmt64.one := by
  obtain ⟨m, h1, h2⟩ := fmt64.exists_units_eq (r := n.natAbs) (by rw [fmt64_mbits]; omega) fmt64.unitExp
  have hm : m < fmt64.infMag := lt_of_le_of_lt h1 (by decide)
  have e : ofInt64 n = pack64 (decide (n < 0)) m := by
    have hr := fmt64.round_units hm Nat.one_pos
    rw [h2, Nat.mul_one, ← fmt64_one] at hr
    rw [ofInt64, hr]
  rw [e, value64_eq_signed, neg64_pack64 _ hm.le, mag64_pack64 _ hm.le, h2, ← fmt64_one, Nat.cast_mul, ← signed_mul,
    ← cast_eq_signed_natAbs]

/-- R15: narrowing a finite number is an exact result rounded to binary32. -/
theorem cvt32_of_finite {x : F64} (h : Finite64 x) :
    cvt32 x = result32 0 (.rat (neg64 x) (fmt64.units (mag64 x) * fmt32.one) fmt64.one) := by
  rw [cvt32, val64_of_finite h]
  rfl

theorem cvt32_rounded {x : F64} (h : Finite64 x) : Rounded32 (cvt32 x) (value64 x * fmt32.one / fmt64.one) (neg64 x) := by
  rw [cvt32_of_finite h]
  refine rounded32_result (fmt32.roundsTo_rat (by decide) fmt64.one_pos ?_ fun _ => rfl)
  rw [value64_eq_signed, signed_mul, signed_div, Nat.cast_mul]

/-- R15: every binary32 number is a binary64 number, in units of the latter. -/
theorem exists_widened {m : Nat} (h : m < fmt32.infMag) :
    ∃ n, n < fmt64.infMag ∧ fmt32.units m * fmt64.one = fmt64.units n * fmt32.one := by
  obtain ⟨r, sh, rfl, hr, hn⟩ := fmt32.exists_scaled m
  rw [fmt32_infMag, show fmt32.mbits = 23 from rfl] at h
  have hr' : r ≤ 2 * 2 ^ fmt64.mbits := by
    rw [show fmt32.mbits = 23 from rfl] at hr
    rw [fmt64_mbits]
    omega
  obtain ⟨n, h1, h2⟩ := fmt64.exists_units_eq hr' (sh + (fmt64.unitExp - fmt32.unitExp))
  have e64 : fmt64.unitExp = 1074 := by decide
  have e32 : fmt32.unitExp = 149 := by decide
  rw [e64, e32, fmt64_mbits] at h1
  refine ⟨n, by rw [fmt64_infMag]; omega, ?_⟩
  have hone : fmt64.one = 2 ^ (fmt64.unitExp - fmt32.unitExp) * fmt32.one := by
    rw [fmt64_one, Fmt.one, ← pow_add, e64, e32]
  rw [h2, fmt32.units_scaled hn hr.le, hone, pow_add]
  ring

theorem cvt64_of_finite {x : F32} (h : Finite32 x) : ∃ n, n < fmt64.infMag ∧ cvt64 x = pack64 (neg32 x) n ∧
    fmt32.units (mag32 x) * fmt64.one = fmt64.units n * fmt32.one := by
  obtain ⟨n, hn, he⟩ := exists_widened h
  refine ⟨n, hn, ?_, he⟩
  rw [cvt64, val32_of_finite h]
  dsimp only
  rw [he, fmt64.round_units hn fmt32.one_pos]

theorem cvt64_exact {x : F32} (h : Finite32 x) : Finite64 (cvt64 x) ∧ neg64 (cvt64 x) = neg32 x ∧
    value64 (cvt64 x) * fmt32.one = value32 x * fmt64.one := by
  obtain ⟨n, hn, e, he⟩ := cvt64_of_finite h
  have hmag := mag64_pack64 (neg32 x) hn.le
  have hneg := neg64_pack64 (neg32 x) hn.le
  have hu : (fmt64.units n : ℝ) * fmt32.one = fmt32.units (mag32 x) * fmt64.one := by exact_mod_cast he.symm
  rw [e]
  refine ⟨lt_of_eq_of_lt hmag hn, hneg, ?_⟩
  rw [value64_eq_signed, value32_eq_signed, hmag, hneg, signed_mul, signed_mul, hu]

theorem floorInt_eq_floor {x : F64} (h : Finite64 x) : floorInt x = ⌊value64 x / fmt64.one⌋ := by
  rw [floorInt, val64_of_finite h, value64_eq_signed, Int.floor_div_natCast]
  dsimp only
  congr 1
  cases neg64 x
  · simp
  · rw [if_pos rfl, signed_true, Int.floor_neg, Int.ceil_natCast]

/-- Settles O57: on finite operands a conversion rounds an exact result, on the others it is one of the special patterns. -/
theorem conversionsRoundOnce : Obligations.ConversionsRoundOnce := by
  refine ⟨fun n => ⟨ofInt64_rounded n, ofInt64_exact⟩, fun x => cvt32_rounded, fun x => cvt64_exact,
    fun x => floorInt_eq_floor, fun x h => ?_, fun x h => ?_, fun x h => ?_, fun x h => ?_⟩
  · rw [cvt32, val64_of_nan h]
    exact quiet32_quietNaN32 _
  · rw [cvt64, val32_of_nan h]
    exact quiet64_quietNaN64 _
  · rw [cvt32, val64_of_inf h]
    exact isInf32_pack32 _
  · rw [cvt64, val32_of_inf h]
    exact isInf64_pack64 _

/-! ## Elementary functions -/

/-- R16: a number from -1.0 to 1.0. -/
def WithinOne (z : F64) : Prop := le64 minusOne64 z = true ∧ le64 z one64 = true

theorem elementary_zero (nan atZero source : F64) : elementary nan atZero source 0#64 = atZero := by
  rw [elementary, if_neg (by decide), if_pos rfl]

theorem elementary_withinOne {x : F64} (hx : Finite64 x) {atZero : F64} (h0 : WithinOne atZero) (nan source : F64) :
    WithinOne (elementary nan atZero source x) := by
  rw [elementary, if_neg (not_le.2 hx)]
  split
  · exact h0
  split
  · rename_i h
    exact (Bool.and_eq_true _ _ ▸ h : _ ∧ _)
  · exact h0

theorem elementary_nan {x : F64} (hx : ¬ Finite64 x) (nan atZero source : F64) :
    isNaN64 (elementary nan atZero source x) = true := by
  rw [elementary, if_pos (not_lt.1 hx)]
  exact isNaN64_quietNaN64 nan

/-- Settles O58: the properties are those of `elementary`, whatever the free value. -/
theorem elementaryFunctionsFixedPart : Obligations.ElementaryFunctionsFixedPart := by
  have h1 : WithinOne one64 := by constructor <;> decide
  have h0 : WithinOne 0#64 := by constructor <;> decide
  exact ⟨elementary_zero _ _ _, elementary_zero _ _ _, fun x =>
    ⟨fun hx => ⟨elementary_withinOne hx h1 _ _, elementary_withinOne hx h0 _ _⟩,
      fun hx => ⟨elementary_nan hx _ _ _, elementary_nan hx _ _ _⟩⟩⟩

/-! ## Two pi -/

theorem twoPi64_eq : twoPi64 = 0x401921FB54442D18#64 := by decide +kernel

/-- A normal pattern with the exponent one higher has twice the value. -/
theorem value64_add_exponent {x y : F64} (hn : neg64 y = neg64 x) (hm : mag64 y = mag64 x + 2 ^ 52) (h : 2 ^ 52 ≤ mag64 x) :
    value64 y = 2 * value64 x := by
  rw [value64_eq_signed, value64_eq_signed, hn, hm, units64_double h, Nat.cast_mul, Nat.cast_ofNat]
  cases neg64 x <;> simp

/-- Settles O59: the pattern is computed, and differs from that of pi in the exponent only. -/
theorem twoPiIsExactDouble : Obligations.TwoPiIsExactDouble := by
  refine ⟨twoPi64_eq, twoPi64_eq, ?_⟩
  rw [twoPi64_eq]
  exact value64_add_exponent (by decide) (by decide) (by decide)

end Sys2Proof.Machine

/-! The contexts of each unit stay legal (R41, R43, R45), each from its own invariant alone. No host access reaches a context,
so an invariant of the contexts holds wherever a reset establishes it and every command keeps it. -/

namespace Sys2Proof.Machine

variable {s t : State}

/-! ## Invariants of the contexts -/

/-- The contexts of the block, and the limits they are measured by, are the same in `s` and `t`. -/
structure SameContexts (s t : State) : Prop where
  fir : t.fir = s.fir
  res : t.res = s.res
  cnv : t.cnv = s.cnv
  lim : t.lim = s.lim

/-- R71: no host write reaches a context. -/
theorem hostWrite_sameContexts (s : State) (e : Elem) (v : Word64) : SameContexts s (hostWrite s e v) := by
  cases e with
  | a i =>
    unfold hostWrite
    dsimp only
    split <;> exact ⟨rfl, rfl, rfl, rfl⟩
  | _ => exact ⟨rfl, rfl, rfl, rfl⟩

/-- An invariant of the contexts that a reset establishes and every command keeps holds after a reset and from step to
step. -/
theorem contexts_invariant {P : State → Prop} (hsame : ∀ {s t : State}, SameContexts s t → P s → P t)
    (hreset : ∀ (p : Params) (m : InitMem), P (State.resetWith p m))
    (hends : ∀ {s t : State} {i : Instr}, s.lim.Ok → P s → Ends s i t → P t) :
    (∀ (p : Params) (m : InitMem), P (State.resetWith p m)) ∧
      ∀ s t : State, s.lim.Ok → P s → step s = .next t → P t := by
  refine ⟨hreset, fun s t hl hs h => ?_⟩
  have keep : ∀ {u : State}, SameContexts s u → P u := fun h => hsame h hs
  rcases step_cases s with ⟨-, e⟩ | ⟨_, _, -, e⟩ | ⟨el, v, rest, -, -, e⟩ | ⟨m, rest, -, e⟩ | ⟨v, rest, _, -, -, e⟩ |
    ⟨v, rest, i, -, -, e⟩ <;> rw [e] at h
  · cases h
    exact hs
  · cases h
    exact keep ⟨rfl, rfl, rfl, rfl⟩
  · cases h
    exact hsame (hostWrite_sameContexts _ el v) (keep ⟨rfl, rfl, rfl, rfl⟩)
  · cases h
    exact hsame (s := State.resetWith s.params m) ⟨rfl, rfl, rfl, rfl⟩ (hreset _ m)
  · cases h
    exact keep ⟨rfl, rfl, rfl, rfl⟩
  · exact hends (s := State.latch { s with host := rest } (v.setWidth 32)) hl (keep ⟨rfl, rfl, rfl, rfl⟩) (exec_ends h)

theorem mixFill_fir (c q : Nat) (D : CnvCtx) (B : RawSlot) (out : Packet) (chan : Int) (s : State) :
    (mixFill c q D B out chan s).fir = s.fir := by
  rcases mixFill_cases c q D B out chan s with ⟨-, e⟩ | ⟨-, e⟩ <;> rw [e] <;> rfl

theorem mixFill_res (c q : Nat) (D : CnvCtx) (B : RawSlot) (out : Packet) (chan : Int) (s : State) :
    (mixFill c q D B out chan s).res = s.res := by
  rcases mixFill_cases c q D B out chan s with ⟨-, e⟩ | ⟨-, e⟩ <;> rw [e] <;> rfl

theorem mixFill_lim (c q : Nat) (D : CnvCtx) (B : RawSlot) (out : Packet) (chan : Int) (s : State) :
    (mixFill c q D B out chan s).lim = s.lim := by
  rcases mixFill_cases c q D B out chan s with ⟨-, e⟩ | ⟨-, e⟩ <;> rw [e] <;> rfl

/-! ## Filters -/

theorem State.FirOk.of_same (h : SameContexts s t) (hs : s.FirOk) : t.FirOk := by
  unfold State.FirOk
  rwa [h.fir, h.lim]

/-- R211: after a reset no filter context is valid. -/
theorem State.resetWith_firOk (p : Params) (m : InitMem) : (State.resetWith p m).FirOk := fun F hF hv =>
  absurd hv (by simp [((State.resetWith_values p m).fir F hF).1])

theorem State.FirOk.setFir (hs : s.FirOk) (c : Nat) {F : FirCtx} (hF : F.valid = true → F.Ok s.lim) :
    (s.setFir c F).FirOk :=
  forall_mem_set hs c hF

/-- R130 to R132: the taps of a design that succeeds are odd in number, at least 3 and within the limit. -/
theorem designLowPass_taps {gain fs fc tw att : F64} {win : WindowFn} {beta : F64} {maxTaps limit : Int} {ts : List F32}
    (hl : limit ≤ 2 ^ 62) (h : designLowPass gain fs fc tw att win beta maxTaps limit = .taps ts) :
    ts.length % 2 = 1 ∧ 3 ≤ ts.length ∧ (ts.length : Int) ≤ limit := by
  rcases designLowPass_cases (gain := gain) (fs := fs) (fc := fc) (tw := tw) (att := att) (win := win) (beta := beta)
    (maxTaps := maxTaps) hl with ⟨ts', e, hts⟩ | ⟨_, e, -⟩ <;> rw [e] at h <;> cases h
  exact hts

/-- R41: a filter command keeps the invariant of its context, whatever samples it takes. -/
theorem FirCtx.Ok.after {l : Limits} {F : FirCtx} (h : F.Ok l) (ch : Channels) (xr xi : Nat → F32) (m p : Nat) :
    (F.after ch xr xi m p).Ok l where
  odd := h.odd
  three_le := h.three_le
  le_max := h.le_max
  decim_pos := h.decim_pos
  decim_le := h.decim_le
  tapCur_lt := (FirCtx.after_tapCur h.tapCur_lt xr xi m p).trans_lt (Nat.mod_lt _ (Nat.zero_lt_of_lt h.tapCur_lt))
  decCur_lt := (FirCtx.after_decCur h.decCur_lt xr xi m p).trans_lt (Nat.mod_lt _ h.decim_pos)

/-- R41: only a design that succeeds and a filter command write a context and leave it valid. -/
theorem Ends.firOk {i : Instr} (hl : s.lim.Ok) (hs : s.FirOk) (h : Ends s i t) : t.FirOk := by
  cases h with
  | firdesFailed => exact hs.setFir _ fun hv => Bool.noConfusion hv
  | designed hF h0 h1 hts =>
    have htap := tapMax_le_of_ok hl
    obtain ⟨hodd, h3, hmax⟩ := designLowPass_taps (by omega) hts
    exact hs.setFir _ fun _ => FirCtx.built_ok htap h0 h1 hodd h3 (by omega)
  | @filtered ch c p q F inp out x hF hout hv hok hx =>
    have ok := hs F (List.mem_of_getElem? hF) hv
    obtain ⟨m, -, -, hm⟩ := firRun_spec (ch := ch) (inp := inp) (off := (s.ai 0).toNat) ok.tapCur_lt ok.decCur_lt hok.1
      (s.ai 1).toNat
    rw [← hx] at hm
    exact hs.setFir c fun _ => hm.ctx ▸ ok.after ch _ _ _ _
  | mixed =>
    unfold State.FirOk
    rwa [mixFill_fir, mixFill_lim]
  | _ => exact hs

/-- Settles O12: a reset leaves no filter context valid, and what a command ends in keeps the invariant. -/
theorem firContextsStayLegal : Obligations.FirContextsStayLegal :=
  contexts_invariant State.FirOk.of_same State.resetWith_firOk Ends.firOk

/-! ## Resamplers -/

theorem State.ResOk.of_same (h : SameContexts s t) (hs : s.ResOk) : t.ResOk := by
  unfold State.ResOk
  rwa [h.res, h.lim]

/-- R211: after a reset no resampler context is valid. -/
theorem State.resetWith_resOk (p : Params) (m : InitMem) : (State.resetWith p m).ResOk := fun R hR hv =>
  absurd hv (by simp [((State.resetWith_values p m).res R hR).1])

theorem State.ResOk.setRes (hs : s.ResOk) (c : Nat) {R : ResCtx} (hR : R.valid = true → R.Ok s.lim) :
    (s.setRes c R).ResOk :=
  forall_mem_set hs c hR

/-- R43: a `RESAMP` keeps the invariant of its context, where its phase counter is bounded. -/
theorem ResCtx.Ok.after {l : Limits} {R : ResCtx} (hl : l.Ok) (h : R.Ok l) (xr xi : Nat → F32) {j c : Nat}
    (hb : R.phaseAt j - c * R.facL.toNat ≤ R.facL.toNat + R.facM.toNat - 1) : (R.after xr xi j c).Ok l where
  facL_pos := h.facL_pos
  facL_le := h.facL_le
  facM_pos := h.facM_pos
  facM_le := h.facM_le
  coprime := h.coprime
  subLen_pos := h.subLen_pos
  subLen_le := h.subLen_le
  pos_lt := (ResCtx.after_pos (h.ready hl) xr xi j c).trans_lt (Nat.mod_lt _ h.subLen_pos)
  ctr_le := (ResCtx.after_ctr (h.ready hl) xr xi hb).trans_le hb

/-- R151: a construction that succeeds leaves a context that is in order: its factors are reduced and its sub-filters hold
at least one coefficient. -/
theorem ResCtx.built_ok_of_prototype {R : ResCtx} {custom : Bool} {P : List F32} {l m : Nat} (hl : s.lim.Ok)
    (h0 : 1 ≤ l ∧ l ≤ 2 ^ 31 - 1) (h1 : 1 ≤ m ∧ m ≤ 2 ^ 31 - 1) (hmax : l / Nat.gcd l m ≤ s.lim.resLMax)
    (hP : resinitPrototype s custom (l / Nat.gcd l m) (m / Nat.gcd l m) = .taps P)
    (hK : subFilterLen P.length (l / Nat.gcd l m) ≤ s.lim.resKMax) :
    (R.built s.lim (l / Nat.gcd l m) (m / Nat.gcd l m) (subFilterLen P.length (l / Nat.gcd l m)) P).Ok s.lim := by
  obtain ⟨⟨a1, a2⟩, ⟨b1, b2⟩, hco⟩ := reduced_pair h0.1 h1.1
  have hlen : 1 ≤ P.length := by
    rcases resinitPrototype_cases hl custom a1 (by omega) b1 (by omega) with ⟨P', e, h3⟩ | ⟨_, e⟩ <;>
      rw [e] at hP <;> cases hP
    exact h3
  exact ResCtx.built_ok hl a1 hmax b1 (by omega) hco ((subFilterLen_spec a1).2.2 hlen) hK

/-- R43: only a construction that succeeds and a `RESAMP` write a context and leave it valid. -/
theorem Ends.resOk {i : Instr} (hl : s.lim.Ok) (hs : s.ResOk) (h : Ends s i t) : t.ResOk := by
  cases h with
  | resinitFailed => exact hs.setRes _ fun hv => Bool.noConfusion hv
  | split hR h0 h1 hL hM hmax hP hK =>
    subst hL hM
    exact hs.setRes _ fun _ => ResCtx.built_ok_of_prototype hl (by omega) (by omega) hmax hP hK
  | @resampled c p q nr R inp out x hR hout hv hok hx =>
    have ok := hs R (List.mem_of_getElem? hR) hv
    have hm := resRun_spec (l := s.lim) (inp := inp) (off := (s.ai 0).toNat) (ok.ready hl) hok.1 (s.ai 1).toNat
    rw [← hx] at hm
    exact hs.setRes c fun _ => hm.ctx ▸ ok.after hl _ _ hm.bound
  | mixed =>
    unfold State.ResOk
    rwa [mixFill_res, mixFill_lim]
  | _ => exact hs

/-- Settles O13: a reset leaves no resampler context valid, and what a command ends in keeps the invariant. -/
theorem resContextsStayLegal : Obligations.ResContextsStayLegal :=
  contexts_invariant State.ResOk.of_same State.resetWith_resOk Ends.resOk

/-! ## Converters -/

theorem State.CnvOk.of_same (h : SameContexts s t) (hs : s.CnvOk) : t.CnvOk := by
  unfold State.CnvOk
  rwa [h.cnv, h.lim]

/-- R211: after a reset no converter context is valid. -/
theorem State.resetWith_cnvOk (p : Params) (m : InitMem) : (State.resetWith p m).CnvOk := fun C hC hv =>
  absurd hv (by simp [((State.resetWith_values p m).cnv C hC).1])

theorem State.CnvOk.setCnv (hs : s.CnvOk) (c : Nat) {C : CnvCtx} (hC : C.valid = true → C.Ok s.lim) :
    (s.setCnv c C).CnvOk :=
  forall_mem_set hs c hC

/-- R45: an empty cache constrains nothing. -/
theorem CnvCtx.Ok.uncached {l : Limits} {C : CnvCtx} (h : C.Ok l) : ({ C with ncoValid := false } : CnvCtx).Ok l :=
  { h with cache := fun hn => Bool.noConfusion hn }

/-- R45, R176: bringing the cache up to date keeps the invariant of the context and leaves the cache valid. -/
theorem updateCache_ok {l : Limits} {C D : CnvCtx} {f : Int} (h : C.Ok l) (hD : updateCache C f = .ready D) :
    D.Ok l ∧ D.ncoValid = true := by
  rcases updateCache_cases f h.rate_pos with ⟨hn, -, e⟩ | ⟨-, b, -, ⟨hb, e⟩ | ⟨-, e⟩⟩ <;> rw [e] at hD <;> cases hD
  · exact ⟨h, hn⟩
  · exact ⟨h.regenerated hb, rfl⟩

/-- R45: the cursor may stand anywhere inside the table. -/
theorem CnvCtx.Ok.withCursor {l : Limits} {D : CnvCtx} (h : D.Ok l) {cur : Nat} (hc : cur < D.ncoLen.toNat) :
    ({ D with cur := BitVec.ofNat 32 cur } : CnvCtx).Ok l :=
  { h with
    cache := fun hn => ⟨(h.cache hn).1, .inl
      (show (BitVec.ofNat 32 cur).toNat < D.ncoLen.toNat by rwa [BitVec.toNat_ofNat, Nat.mod_eq_of_lt (by omega)])⟩ }

/-- R178: a mixing fill leaves the cursor inside the table. -/
theorem State.CnvOk.mixFill (hs : s.CnvOk) {c q : Nat} {D : CnvCtx} {B : RawSlot} {out : Packet} {chan : Int}
    (hD : D.Ok s.lim) (hn : D.ncoValid = true) : (mixFill c q D B out chan s).CnvOk := by
  rcases mixFill_cases c q D B out chan s with ⟨-, e⟩ | ⟨hne, e⟩ <;> rw [e]
  · exact hs.setCnv c fun _ => hD
  · have hlen : D.ncoLen.toNat ≠ 0 := fun h0 => hne (.inl (BitVec.eq_of_toNat_eq h0))
    have hcur : D.cur.toNat < D.ncoLen.toNat := (hD.cache hn).2.resolve_right fun h0 => hlen h0.1
    obtain ⟨hc, -⟩ := mixLoop_spec (b := B) (at_ := out.size.toNat)
      (x := { re := out.re, im := out.im, cur := D.cur.toNat }) hcur (fillCount B out)
    exact hs.setCnv c fun _ => hD.withCursor (hc.trans_lt (Nat.mod_lt _ (Nat.pos_of_ne_zero hlen)))

/-- R45: only a construction that succeeds and `CNVMIX` write a context and leave it valid. -/
theorem Ends.cnvOk {i : Instr} (hl : s.lim.Ok) (hs : s.CnvOk) (h : Ends s i t) : t.CnvOk := by
  cases h with
  | cnvinitFailed => exact hs.setCnv _ fun hv => Bool.noConfusion hv
  | cnvmixTooLong hC => exact hs.setCnv _ fun hv => (hs _ (List.mem_of_getElem? hC) hv).uncached
  | configured hC h0 h1 h2 =>
    exact hs.setCnv _ fun _ => CnvCtx.built_ok (ncoMax_le_of_ok hl) h0.1 h0.2 h1 h2.1 h2.2
  | mixed hC hout hv hok hD =>
    obtain ⟨hDok, hn⟩ := updateCache_ok (hs _ (List.mem_of_getElem? hC) hv) hD
    exact hs.mixFill hDok hn
  | _ => exact hs

/-- Settles O14: a reset leaves no converter context valid, and what a command ends in keeps the invariant. -/
theorem cnvContextsStayLegal : Obligations.CnvContextsStayLegal :=
  contexts_invariant State.CnvOk.of_same State.resetWith_cnvOk Ends.cnvOk

end Sys2Proof.Machine

/-! The command word (R90 to R96): a word decodes to a command exactly where its fields are those of the command, so it is
illegal exactly where its fields are those of none. -/

namespace Sys2Proof

/-! ## Words and fields -/

/-- R93, R94: the fields of the word of a command. -/
def Instr.fields : Instr → Fields
  | .winblk => ⟨0x10, 0, 0, 0, 0, 0⟩
  | .winham => ⟨0x11, 0, 0, 0, 0, 0⟩
  | .winksr => ⟨0x12, 0, 0, 0, 0, 0⟩
  | .wini0 => ⟨0x13, 0, 0, 0, 0, 0⟩
  | .ratapx => ⟨0x20, 0, 0, 0, 0, 0⟩
  | .firdes ctx win => ⟨0x30, ctx, 0, 0, windowCode win, 0⟩
  | .firflt ctx src dst => ⟨0x31, ctx, src, dst, 0, 0⟩
  | .firfltr ctx src dst => ⟨0x32, ctx, src, dst, 0, 0⟩
  | .resinit ctx custom => ⟨0x40, ctx, 0, 0, if custom then 1 else 0, 0⟩
  | .resamp ctx src dst => ⟨0x41, ctx, src, dst, 0, 0⟩
  | .cnvinit ctx => ⟨0x50, ctx, 0, 0, 0, 0⟩
  | .cnvfill ctx src dst => ⟨0x51, ctx, src, dst, 0, 0⟩
  | .cnvmix ctx src dst => ⟨0x52, ctx, src, dst, 0, 0⟩

/-- R90: the word of the given fields, `rsv` zero. -/
def Fields.word (f : Fields) : Word32 := assemble f.opcode f.ctx f.src f.dst f.mod

theorem encode_eq_word (i : Instr) : encode i = i.fields.word := by cases i <;> rfl

/-- R90: every field fits its bits. -/
structure Fields.Fit (f : Fields) : Prop where
  opcode : f.opcode < 2 ^ 8
  ctx : f.ctx < 2 ^ 4
  src : f.src < 2 ^ 4
  dst : f.dst < 2 ^ 4
  mod : f.mod < 2 ^ 4

theorem fieldsOf_fit (w : Word32) : (fieldsOf w).Fit :=
  ⟨BitVec.isLt _, BitVec.isLt _, BitVec.isLt _, BitVec.isLt _, BitVec.isLt _⟩

/-- R90: a field as its place in the number that the word is. -/
theorem toNat_extractLsb' (w : Word32) (start len : Nat) :
    (w.extractLsb' start len).toNat = w.toNat / 2 ^ start % 2 ^ len := by
  rw [BitVec.extractLsb'_toNat, Nat.shiftRight_eq_div_pow]

theorem fieldsOf_word {f : Fields} (hf : f.Fit) (h0 : f.rsv = 0) : fieldsOf f.word = f := by
  obtain ⟨opcode, ctx, src, dst, mod, rsv⟩ := f
  obtain ⟨h1, h2, h3, h4, h5⟩ := hf
  dsimp only at h0 h1 h2 h3 h4 h5
  simp only [fieldsOf, Fields.word, assemble, toNat_extractLsb', BitVec.toNat_ofNat, Fields.mk.injEq]
  omega

theorem word_fieldsOf {w : Word32} (h0 : (fieldsOf w).rsv = 0) : (fieldsOf w).word = w := by
  apply BitVec.eq_of_toNat_eq
  have hw := w.isLt
  simp only [fieldsOf, toNat_extractLsb'] at h0
  simp only [fieldsOf, Fields.word, assemble, toNat_extractLsb', BitVec.toNat_ofNat]
  omega

theorem Instr.fields_rsv (i : Instr) : i.fields.rsv = 0 := by cases i <;> rfl

theorem windowCode_lt (win : WindowFn) : windowCode win < 3 := by cases win <;> decide

/-- R90, R95: a command is well formed where its fields fit their bits. -/
theorem Instr.wellFormed_iff_fit (i : Instr) : i.wellFormed = true ↔ i.fields.Fit := by
  have hop : i.fields.opcode < 2 ^ 8 := by cases i <;> simp [Instr.fields]
  have hmod : i.fields.mod < 2 ^ 4 := by
    cases i with
    | firdes ctx win => exact (windowCode_lt win).trans (by decide)
    | resinit ctx custom => cases custom <;> simp [Instr.fields]
    | _ => simp [Instr.fields]
  have hfit : i.fields.Fit ↔ i.fields.ctx < 16 ∧ i.fields.src < 16 ∧ i.fields.dst < 16 :=
    ⟨fun h => ⟨h.ctx, h.src, h.dst⟩, fun ⟨h1, h2, h3⟩ => ⟨hop, h1, h2, h3, hmod⟩⟩
  rw [hfit]
  cases i <;> simp [Instr.wellFormed, Instr.fields]

/-! ## What decodes -/

theorem commandOf_fields (i : Instr) : commandOf i.fields = .ok i := by
  cases i with
  | firdes ctx win => cases win <;> rfl
  | resinit ctx custom => cases custom <;> rfl
  | _ => rfl

theorem formatN_ok {f : Fields} {i j : Instr} (h : formatN f i = .ok j) :
    (f.ctx = 0 ∧ f.src = 0 ∧ f.dst = 0 ∧ f.mod = 0) ∧ i = j := by
  unfold formatN at h
  split at h <;> cases h
  exact ⟨‹_›, rfl⟩

theorem formatS_ok {f : Fields} {i j : Instr} (h : formatS f i = .ok j) : f.mod = 0 ∧ i = j := by
  unfold formatS at h
  split at h <;> cases h
  exact ⟨‹_›, rfl⟩

theorem formatC_ok {f : Fields} {i : Except DecodeError Instr} {j : Instr} (h : formatC f i = .ok j) :
    (f.src = 0 ∧ f.dst = 0) ∧ i = .ok j := by
  unfold formatC at h
  split at h
  · exact ⟨‹_›, h⟩
  · cases h

theorem firdesOf_ok {f : Fields} {j : Instr} (h : firdesOf f = .ok j) :
    ∃ win, f.mod = windowCode win ∧ j = .firdes f.ctx win := by
  unfold firdesOf windowOf at h
  split at h <;> cases h
  rename_i win hwin
  refine ⟨win, ?_, rfl⟩
  split at hwin <;> cases hwin <;> assumption

theorem resinitOf_ok {f : Fields} {j : Instr} (h : resinitOf f = .ok j) :
    ∃ custom : Bool, (f.mod = if custom then 1 else 0) ∧ j = .resinit f.ctx custom := by
  unfold resinitOf at h
  split at h
  · cases h
    exact ⟨false, ‹_›, rfl⟩
  split at h <;> cases h
  exact ⟨true, ‹_›, rfl⟩

theorem cnvinitOf_ok {f : Fields} {j : Instr} (h : cnvinitOf f = .ok j) : f.mod = 0 ∧ j = .cnvinit f.ctx := by
  unfold cnvinitOf at h
  split at h <;> cases h
  exact ⟨‹_›, rfl⟩

/-- R91, R96: the fields that make a command are the command's own, `rsv` apart. -/
theorem fields_of_commandOf {f : Fields} {i : Instr} (h0 : f.rsv = 0) (h : commandOf f = .ok i) : f = i.fields := by
  obtain ⟨opcode, ctx, src, dst, mod, rsv⟩ := f
  obtain rfl : rsv = 0 := h0
  unfold commandOf at h
  split at h
  case h_14 => cases h
  all_goals rename_i hop; obtain rfl : opcode = _ := hop
  case h_6 =>
    obtain ⟨⟨rfl, rfl⟩, h⟩ := formatC_ok h
    obtain ⟨win, rfl, rfl⟩ := firdesOf_ok h
    rfl
  case h_9 =>
    obtain ⟨⟨rfl, rfl⟩, h⟩ := formatC_ok h
    obtain ⟨custom, rfl, rfl⟩ := resinitOf_ok h
    rfl
  case h_11 =>
    obtain ⟨⟨rfl, rfl⟩, h⟩ := formatC_ok h
    obtain ⟨rfl, rfl⟩ := cnvinitOf_ok h
    rfl
  case h_7 | h_8 | h_10 | h_12 | h_13 =>
    obtain ⟨rfl, rfl⟩ := formatS_ok h
    rfl
  all_goals
    obtain ⟨⟨rfl, rfl, rfl, rfl⟩, rfl⟩ := formatN_ok h
    rfl

/-- R93, R96: a word decodes to a command where its fields are the command's. -/
theorem decode_eq_ok_iff {w : Word32} {i : Instr} : decode w = .ok i ↔ fieldsOf w = i.fields := by
  unfold decode
  dsimp only
  constructor
  · intro h
    split at h
    · exact fields_of_commandOf ‹_› h
    · cases h
  · intro h
    rw [h, if_pos i.fields_rsv, commandOf_fields]

/-- R90 to R94: the word of a well-formed command decodes to it. -/
theorem decode_encode {i : Instr} (h : i.wellFormed = true) : decode (encode i) = .ok i := by
  rw [decode_eq_ok_iff, encode_eq_word, fieldsOf_word (i.wellFormed_iff_fit.1 h) i.fields_rsv]

/-- R90 to R96: a word that decodes is the word of its command, which is well formed. -/
theorem encode_of_decode {w : Word32} {i : Instr} (h : decode w = .ok i) : i.wellFormed = true ∧ encode i = w := by
  have hf := decode_eq_ok_iff.1 h
  refine ⟨i.wellFormed_iff_fit.2 (hf ▸ fieldsOf_fit w), ?_⟩
  rw [encode_eq_word, ← hf, word_fieldsOf (hf ▸ i.fields_rsv)]

/-! ## Illegal words -/

/-- R96: the conditions under which the fields of a word are those of no command. -/
def Fields.Illegal (f : Fields) : Prop :=
  let formatN := f.opcode ∈ [0x10, 0x11, 0x12, 0x13, 0x20]
  let formatC := f.opcode ∈ [0x30, 0x40, 0x50]
  let formatS := f.opcode ∈ [0x31, 0x32, 0x41, 0x51, 0x52]
  ¬ (formatN ∨ formatC ∨ formatS) ∨ f.rsv ≠ 0 ∨
  (formatN ∧ (f.ctx ≠ 0 ∨ f.src ≠ 0 ∨ f.dst ≠ 0 ∨ f.mod ≠ 0)) ∨
  (formatC ∧ (f.src ≠ 0 ∨ f.dst ≠ 0)) ∨ (f.opcode = 0x50 ∧ f.mod ≠ 0) ∨
  (formatS ∧ f.mod ≠ 0) ∨
  (f.opcode = 0x30 ∧ 3 ≤ f.mod) ∨
  (f.opcode = 0x40 ∧ 2 ≤ f.mod)

theorem Instr.fields_not_illegal (i : Instr) : ¬ i.fields.Illegal := by
  cases i with
  | firdes ctx win => cases win <;> simp [Fields.Illegal, Instr.fields, windowCode]
  | resinit ctx custom => cases custom <;> simp [Fields.Illegal, Instr.fields]
  | _ => simp [Fields.Illegal, Instr.fields]

theorem exists_windowCode {m : Nat} (h : m < 3) : ∃ win, windowCode win = m := by
  interval_cases m
  exacts [⟨.blackman, rfl⟩, ⟨.hamming, rfl⟩, ⟨.kaiser, rfl⟩]

theorem exists_customBit {m : Nat} (h : m < 2) : ∃ custom : Bool, (if custom then 1 else 0) = m := by
  interval_cases m
  exacts [⟨false, rfl⟩, ⟨true, rfl⟩]

/-- R93, R96: fields under none of the conditions are those of a command, opcode by opcode. -/
theorem exists_fields_of_not_illegal {f : Fields} (h : ¬ f.Illegal) : ∃ i : Instr, i.fields = f := by
  obtain ⟨opcode, ctx, src, dst, mod, rsv⟩ := f
  simp only [Fields.Illegal, not_or, not_not, not_and, ne_eq] at h
  obtain ⟨hop, rfl, hN, hC, hcnv, hS, hfir, hres⟩ := h
  by_cases hn : opcode ∈ [0x10, 0x11, 0x12, 0x13, 0x20]
  · obtain ⟨rfl, rfl, rfl, rfl⟩ := hN hn
    simp only [List.mem_cons, List.not_mem_nil, or_false] at hn
    rcases hn with rfl | rfl | rfl | rfl | rfl
    exacts [⟨.winblk, rfl⟩, ⟨.winham, rfl⟩, ⟨.winksr, rfl⟩, ⟨.wini0, rfl⟩, ⟨.ratapx, rfl⟩]
  by_cases hc : opcode ∈ [0x30, 0x40, 0x50]
  · obtain ⟨rfl, rfl⟩ := hC hc
    simp only [List.mem_cons, List.not_mem_nil, or_false] at hc
    rcases hc with rfl | rfl | rfl
    · obtain ⟨win, rfl⟩ := exists_windowCode (not_le.1 (hfir rfl))
      exact ⟨.firdes ctx win, rfl⟩
    · obtain ⟨custom, rfl⟩ := exists_customBit (not_le.1 (hres rfl))
      exact ⟨.resinit ctx custom, rfl⟩
    · obtain rfl := hcnv rfl
      exact ⟨.cnvinit ctx, rfl⟩
  · have hs := hop hn hc
    obtain rfl := hS hs
    simp only [List.mem_cons, List.not_mem_nil, or_false] at hs
    rcases hs with rfl | rfl | rfl | rfl | rfl
    exacts [⟨.firflt ctx src dst, rfl⟩, ⟨.firfltr ctx src dst, rfl⟩, ⟨.resamp ctx src dst, rfl⟩,
      ⟨.cnvfill ctx src dst, rfl⟩, ⟨.cnvmix ctx src dst, rfl⟩]

theorem decode_of_illegal {w : Word32} (h : (fieldsOf w).Illegal) : ∃ e, decode w = .error e := by
  cases hd : decode w with
  | error e => exact ⟨e, rfl⟩
  | ok i => exact absurd (decode_eq_ok_iff.1 hd ▸ h) i.fields_not_illegal

theorem decode_of_not_illegal {w : Word32} (h : ¬ (fieldsOf w).Illegal) : ∃ i, decode w = .ok i := by
  obtain ⟨i, hi⟩ := exists_fields_of_not_illegal h
  exact ⟨i, decode_eq_ok_iff.2 hi.symm⟩

/-- Settles O3: an illegal word decodes to an error, any other to one command, which encodes to it. -/
theorem illegalWordsRaise : Obligations.IllegalWordsRaise := by
  intro w
  refine ⟨fun (h : (fieldsOf w).Illegal) s rest hs => ?_, fun (h : ¬ (fieldsOf w).Illegal) => ?_⟩
  · obtain ⟨e, he⟩ := decode_of_illegal h
    have hw : (w.setWidth 64).setWidth 32 = w := BitVec.setWidth_setWidth_of_le w (by decide)
    rw [Machine.step_write_cmd hs, hw, Machine.issue_of_error he]
    rfl
  · obtain ⟨i, hi⟩ := decode_of_not_illegal h
    refine ⟨i, encode_of_decode hi, fun j ⟨hwf, hj⟩ => ?_⟩
    have hdj := decode_encode hwf
    rw [hj, hi] at hdj
    exact (Except.ok.inj hdj).symm

end Sys2Proof

/-! What a command does to the packets (R36), and the code it ends with (R192). -/

namespace Sys2Proof.Machine

variable {s t : State}

/-! ## The sizes of the packets that commands write -/

theorem toNat_ofNat_le (w n : Nat) : (BitVec.ofNat w n).toNat ≤ n := by
  rw [BitVec.toNat_ofNat]
  exact Nat.mod_le _ _

@[simp] theorem FirRun.insert_o (ch : Channels) (inp : Packet) (off : Nat) (x : FirRun) : (x.insert ch inp off).o = x.o := by
  cases ch <;> rfl

@[simp] theorem FirRun.emit_o (ch : Channels) (x : FirRun) : (x.emit ch).o = x.o + 1 := by cases ch <;> rfl

@[simp] theorem FirRun.advance_o (x : FirRun) : x.advance.o = x.o := rfl

/-- R135: a filter command appends an output only where the packet has room. -/
theorem firLoop_o_le {ch : Channels} {inp : Packet} {off cap : Nat} :
    ∀ (n : Nat) (x : FirRun), x.o ≤ cap → (firLoop ch inp off cap n x).o ≤ cap := by
  intro n
  induction n with
  | zero => exact fun _ h => h
  | succ n ih =>
    intro x h
    rw [firLoop]
    split
    · split
      · rwa [FirRun.insert_o]
      · rename_i hroom
        refine ih _ ?_
        rw [FirRun.insert_o] at hroom
        rw [FirRun.advance_o, FirRun.emit_o, FirRun.insert_o]
        omega
    · exact ih _ (by rwa [FirRun.advance_o, FirRun.insert_o])

/-- R156: consuming samples appends no output. -/
theorem resDrain_o (inp : Packet) (off : Nat) : ∀ (left : Nat) (x : ResRun), (resDrain inp off left x).o = x.o := by
  intro left
  induction left with
  | zero => exact fun _ => rfl
  | succ left ih =>
    intro x
    rw [resDrain]
    split
    · exact ih _
    · rfl

/-- R156: a `RESAMP` appends no more outputs than there is room for. -/
theorem resLoop_o_le {lim : Limits} {inp : Packet} {off len : Nat} :
    ∀ (room : Nat) (x : ResRun), (resLoop lim inp off len room x).o ≤ x.o + room := by
  intro room
  induction room with
  | zero => exact fun _ => le_rfl
  | succ room ih =>
    intro x
    rw [resLoop]
    dsimp only
    split
    · have h := ih (resDrain inp off (len - (x.emit lim).cnt) (x.emit lim))
      rw [resDrain_o, show (x.emit lim).o = x.o + 1 from rfl] at h
      omega
    · omega

variable {out : Packet}

theorem firOutput_size_le (ch : Channels) (F : FirCtx) (inp : Packet) (off len : Nat) (h : out.size.toNat ≤ out.cap.toNat) :
    (firOutput inp out (firRun ch F inp out off len)).size.toNat ≤ out.cap.toNat :=
  (toNat_ofNat_le _ _).trans (firLoop_o_le len _ h)

theorem resOutput_size_le (l : Limits) (R : ResCtx) (inp : Packet) (off len nr : Nat)
    (h : out.size.toNat ≤ out.cap.toNat) :
    (resOutput inp out nr (resRun l R inp out off len)).size.toNat ≤ out.cap.toNat := by
  have hrun := resLoop_o_le (lim := l) (inp := inp) (off := off) (len := len) (out.cap.toNat - out.size.toNat)
    (resDrain inp off len { ctx := R, re := out.re, im := out.im, o := out.size.toNat, cnt := 0 })
  rw [resDrain_o, Nat.add_sub_cancel' h] at hrun
  exact (toNat_ofNat_le _ _).trans hrun

/-- R173, R178: a fill of as many samples as there is room for stays within the capacity. -/
theorem fill_size_le (B : RawSlot) (h : out.size.toNat ≤ out.cap.toNat) :
    (BitVec.ofNat 32 (out.size.toNat + fillCount B out)).toNat ≤ out.cap.toNat := by
  have hn : fillCount B out ≤ out.cap.toNat - out.size.toNat := min_le_right _ _
  exact (toNat_ofNat_le _ _).trans (by omega)

/-! ## Packets stay in order -/

/-- What a command does to the packets of `s`: nothing, or it replaces the one in slot `q` by one of the same capacity and
of a size within it. -/
def PacketsKept (s t : State) : Prop :=
  t.pkt = s.pkt ∨ ∃ q out X, s.pkt[q]? = some out ∧ t.pkt = s.pkt.set q X ∧ X.cap = out.cap ∧ X.size.toNat ≤ out.cap.toNat

theorem Ends.lim {i : Instr} (h : Ends s i t) : t.lim = s.lim := congrArg Params.lim h.sameHostState.params

theorem Ends.packetsKept {i : Instr} (h : Ends s i t) : PacketsKept s t := by
  cases h with
  | @filtered ch c p q F inp out x hF hout hv hok hx =>
    exact .inr ⟨q, out, _, hout, rfl, rfl, hx ▸ firOutput_size_le ch F inp _ _ hok.1⟩
  | @resampled c p q nr R inp out x hR hout hv hok hx =>
    exact .inr ⟨q, out, _, hout, rfl, rfl, hx ▸ resOutput_size_le _ R inp _ _ nr hok.1⟩
  | @filled c b q n C B out hout hok hn => exact .inr ⟨q, out, _, hout, rfl, rfl, hn ▸ fill_size_le B hok.1⟩
  | @mixed c b q C D B out hC hout hv hok hD =>
    rcases mixFill_cases c q D B out (s.ai 0) s with ⟨-, e⟩ | ⟨-, e⟩ <;> rw [e]
    · exact .inl rfl
    · exact .inr ⟨q, out, _, hout, rfl, rfl, fill_size_le B hok.1⟩
  | _ => exact .inl rfl

theorem PacketsKept.pktOK {l : Limits} {j : Nat} {P Q : Packet} (h : PacketsKept s t) (hP : s.pkt[j]? = some P)
    (hQ : t.pkt[j]? = some Q) : (PktOK l P → PktOK l Q) ∧ Q.cap = P.cap := by
  rcases h with e | ⟨q, out, X, hout, e, hcap, hsize⟩ <;> rw [e] at hQ
  · obtain rfl := Option.some.inj (hP.symm.trans hQ)
    exact ⟨id, rfl⟩
  · by_cases hq : q = j
    · subst hq
      obtain rfl := Option.some.inj (hP.symm.trans hout)
      rw [List.getElem?_set_self (List.getElem?_eq_some_iff.1 hP).1] at hQ
      obtain rfl := Option.some.inj hQ
      exact ⟨fun ⟨_, h2⟩ => ⟨hcap ▸ hsize, hcap ▸ h2⟩, hcap⟩
    · rw [List.getElem?_set_ne hq] at hQ
      obtain rfl := Option.some.inj (hP.symm.trans hQ)
      exact ⟨id, rfl⟩

/-! ## Packets that are not in order are refused -/

theorem firFilter_of_not_pktOK (ch : Channels) {c p q : Nat} {F : FirCtx} {inp : Packet} (hF : s.fir[c]? = some F)
    (hv : F.valid = true) (hp : s.pkt[p]? = some inp) (hq : s.pkt[q]? = some out)
    (h : ¬ (PktOK s.lim inp ∧ PktOK s.lim out)) : firFilter ch c p q s = .next (s.raise .badOperand) := by
  have hops : ¬ StreamOperands s.lim p q inp out (s.ai 0) (s.ai 1) := fun ⟨_, hi, ho, _⟩ => h ⟨hi, ho⟩
  rw [firFilter, hF, hp, hq]
  dsimp only
  rw [if_neg (by simp [hv]), if_pos hops]

theorem execResamp_of_not_pktOK {c p q : Nat} {R : ResCtx} {inp : Packet} (hR : s.res[c]? = some R) (hv : R.valid = true)
    (hp : s.pkt[p]? = some inp) (hq : s.pkt[q]? = some out) (h : ¬ (PktOK s.lim inp ∧ PktOK s.lim out)) :
    execResamp c p q s = .next (s.raise .badOperand) := by
  have hops : ¬ StreamOperands s.lim p q inp out (s.ai 0) (s.ai 1) := fun ⟨_, hi, ho, _⟩ => h ⟨hi, ho⟩
  rw [execResamp, hR, hp, hq]
  dsimp only
  rw [if_neg (by simp [hv]), if_pos hops]

theorem execCnvfill_of_not_pktOK {c b q : Nat} {C : CnvCtx} {B : RawSlot} (hC : s.cnv[c]? = some C) (hv : C.valid = true)
    (hB : s.raw[b]? = some B) (hq : s.pkt[q]? = some out) (h : ¬ PktOK s.lim out) :
    execCnvfill c b q s = .next (s.raise .badOperand) := by
  rw [execCnvfill, hC, hB, hq]
  dsimp only
  rw [if_neg (by simp [hv]), if_pos fun hok => h hok.2]

theorem execCnvmix_of_not_pktOK {c b q : Nat} {C : CnvCtx} {B : RawSlot} (hC : s.cnv[c]? = some C) (hv : C.valid = true)
    (hB : s.raw[b]? = some B) (hq : s.pkt[q]? = some out) (h : ¬ PktOK s.lim out) :
    execCnvmix c b q s = .next (s.raise .badOperand) := by
  rw [execCnvmix, hC, hB, hq]
  dsimp only
  rw [if_neg (by simp [hv]), if_pos fun hok => h hok.2]

/-- Settles O17: the packet a command writes keeps its capacity and stays within it; each streaming command tests its
packets right after its context. -/
theorem packetInvariantPreserved : Obligations.PacketInvariantPreserved := by
  refine ⟨fun i s t j P Q h hP hQ => ?_, fun s c p q F inp out hF hv hp hq hbad => ?_,
    fun s c p q R inp out hR hv hp hq hbad => execResamp_of_not_pktOK hR hv hp hq hbad,
    fun s c b q C B out hC hv hB hq hbad => ?_⟩
  · have hends := exec_ends h
    rw [hends.lim]
    exact hends.packetsKept.pktOK hP hQ
  · exact ⟨firFilter_of_not_pktOK .both hF hv hp hq hbad, firFilter_of_not_pktOK .realOnly hF hv hp hq hbad⟩
  · exact ⟨execCnvfill_of_not_pktOK hC hv hB hq hbad, execCnvmix_of_not_pktOK hC hv hB hq hbad⟩

/-! ## The code a command ends with -/

/-- R192, R33: the status word of `t` is a code of the command's row in the table, zeros above it. -/
def HasCode (i : Instr) (t : State) : Prop := ∃ code ∈ codesOf i, t.status = BitVec.ofNat 32 code

theorem statusWord_eq_ofNat {c : Nat} (hc : c < 256) : statusWord c = BitVec.ofNat 32 c := by
  apply BitVec.eq_of_toNat_eq
  rw [statusWord_toNat, BitVec.toNat_ofNat]
  omega

theorem hasCode_raise {i : Instr} {e : ErrCode} (h : e.number ∈ codesOf i := by simp [codesOf, ErrCode.number]) :
    HasCode i (s.raise e) :=
  ⟨e.number, h, statusWord_eq_ofNat (by have := e.number_range; omega)⟩

theorem zero_mem_codesOf (i : Instr) : 0 ∈ codesOf i := by cases i <;> simp [codesOf]

theorem hasCode_of_status_zero {i : Instr} (h : t.status = 0) : HasCode i t := ⟨0, zero_mem_codesOf i, h⟩

theorem hasCode_complete (i : Instr) : HasCode i s.complete := hasCode_of_status_zero State.complete_status_zero

theorem execWinblk_hasCode (h : execWinblk s = .next t) : HasCode .winblk t := by
  unfold execWinblk at h
  split at h <;> cases h
  · exact hasCode_complete _
  · exact hasCode_raise

theorem execWinham_hasCode (h : execWinham s = .next t) : HasCode .winham t := by
  unfold execWinham at h
  split at h <;> cases h
  · exact hasCode_complete _
  · exact hasCode_raise

theorem execWinksr_hasCode (h : execWinksr s = .next t) : HasCode .winksr t := by
  unfold execWinksr at h
  split at h
  · cases h; exact hasCode_raise
  split at h
  · cases h; exact hasCode_raise
  split at h <;> cases h
  exact hasCode_complete _

theorem execWini0_hasCode (h : execWini0 s = .next t) : HasCode .wini0 t := by
  unfold execWini0 at h
  split at h
  · split at h <;> cases h
    exact hasCode_complete _
  · cases h; exact hasCode_raise

theorem execRatapx_hasCode (h : execRatapx s = .next t) : HasCode .ratapx t := by
  unfold execRatapx at h
  split at h
  · split at h <;> cases h
    exact hasCode_complete _
  · cases h; exact hasCode_raise

/-- R130, R132: the codes that a design fails with. -/
theorem designLowPass_fail {gain fs fc tw att : F64} {win : WindowFn} {beta : F64} {maxTaps limit : Int} {e : ErrCode}
    (hl : limit ≤ 2 ^ 62) (h : designLowPass gain fs fc tw att win beta maxTaps limit = .fail e) :
    e = .invalidFilterParameters ∨ e = .badOperand ∨ e = .capacityExceeded := by
  rcases designLowPass_cases (gain := gain) (fs := fs) (fc := fc) (tw := tw) (att := att) (win := win) (beta := beta)
    (maxTaps := maxTaps) hl with ⟨_, e', -⟩ | ⟨_, e', he⟩ <;> rw [e'] at h <;> cases h
  exact he

theorem execFirdes_hasCode {c : Nat} {win : WindowFn} (hl : s.lim.Ok) (h : execFirdes c win s = .next t) :
    HasCode (.firdes c win) t := by
  have htap := tapMax_le_of_ok hl
  unfold execFirdes at h
  split at h
  · cases h; exact hasCode_raise
  dsimp only at h
  split at h
  · cases h; exact hasCode_raise
  split at h
  · cases h; exact hasCode_raise
  split at h
  · cases h
  · rename_i e he
    cases h
    refine hasCode_raise ?_
    rcases designLowPass_fail (by omega) he with rfl | rfl | rfl <;> simp [codesOf, ErrCode.number]
  · cases h; exact hasCode_complete _

theorem firFilter_hasCode {ch : Channels} {c p q : Nat} (h : firFilter ch c p q s = .next t) :
    HasCode (filterInstr ch c p q) t := by
  have hcodes : codesOf (filterInstr ch c p q) = [0, 4, 5, 6] := by cases ch <;> rfl
  unfold firFilter at h
  split at h
  · split at h
    · cases h; exact hasCode_raise (by simp [hcodes, ErrCode.number])
    split at h
    · cases h; exact hasCode_raise (by simp [hcodes, ErrCode.number])
    · cases h; exact hasCode_complete _
  · cases h; exact hasCode_raise (by simp [hcodes, ErrCode.number])

/-- R152, R155: the codes that the prototype of a resampler fails with; the designer's `InvalidFilterParameters` is none of
them. -/
theorem resinitPrototype_fail {custom : Bool} {L M : Nat} {e : ErrCode} (hl : s.lim.Ok) (hL : 1 ≤ L) (hL2 : L ≤ 2 ^ 31 - 1)
    (hM : 1 ≤ M) (hM2 : M ≤ 2 ^ 31 - 1) (h : resinitPrototype s custom L M = .fail e) :
    e = .badOperand ∨ e = .capacityExceeded := by
  cases custom with
  | true =>
    rw [resinitPrototype_custom] at h
    rcases customPrototype_cases (lim := s.lim) (b := s.tbuf) with ⟨-, -, e'⟩ | ⟨-, e'⟩ <;> rw [e'] at h <;> cases h
    exact .inl rfl
  | false =>
    rw [resinitPrototype_default] at h
    rcases defaultPrototype_cases (fbw := s.af 2) (mtpp := s.ai 3) hl hL hL2 hM hM2 with ⟨_, e', -⟩ | ⟨_, e', he⟩ <;>
      rw [e'] at h <;> cases h
    exact he

theorem execResinit_hasCode {c : Nat} {custom : Bool} (hl : s.lim.Ok) (h : execResinit c custom s = .next t) :
    HasCode (.resinit c custom) t := by
  unfold execResinit at h
  split at h
  · cases h; exact hasCode_raise
  dsimp only at h
  split at h
  · cases h; exact hasCode_raise
  rename_i hpos
  split at h
  · cases h; exact hasCode_raise
  rename_i hmax
  split at h
  · cases h; exact hasCode_raise
  obtain ⟨⟨a1, a2⟩, ⟨b1, b2⟩, -⟩ := reduced_pair (l := (s.ai 0).toNat) (m := (s.ai 1).toNat) (by omega) (by omega)
  split at h
  · cases h
  · rename_i e he
    cases h
    refine hasCode_raise ?_
    rcases resinitPrototype_fail hl a1 (by omega) b1 (by omega) he with rfl | rfl <;> simp [codesOf, ErrCode.number]
  split at h
  · cases h; exact hasCode_raise
  · cases h; exact hasCode_complete _

theorem execResamp_hasCode {c p q : Nat} (h : execResamp c p q s = .next t) : HasCode (.resamp c p q) t := by
  unfold execResamp at h
  split at h
  · split at h
    · cases h; exact hasCode_raise
    split at h
    · cases h; exact hasCode_raise
    dsimp only at h
    split at h
    · cases h; exact hasCode_raise
    · cases h; exact hasCode_complete _
  · cases h; exact hasCode_raise

theorem execCnvinit_hasCode {c : Nat} (h : execCnvinit c s = .next t) : HasCode (.cnvinit c) t := by
  unfold execCnvinit at h
  split at h
  · cases h; exact hasCode_raise
  dsimp only at h
  split at h
  · cases h; exact hasCode_raise
  split at h
  · cases h; exact hasCode_raise
  split at h
  · cases h; exact hasCode_raise
  · cases h; exact hasCode_complete _

theorem execCnvfill_hasCode {c b q : Nat} (h : execCnvfill c b q s = .next t) : HasCode (.cnvfill c b q) t := by
  unfold execCnvfill at h
  split at h
  · split at h
    · cases h; exact hasCode_raise
    split at h
    · cases h; exact hasCode_raise
    dsimp only at h
    split at h <;> cases h <;> exact hasCode_complete _
  · cases h; exact hasCode_raise

theorem execCnvmix_hasCode {c b q : Nat} (h : execCnvmix c b q s = .next t) : HasCode (.cnvmix c b q) t := by
  unfold execCnvmix at h
  split at h
  · split at h
    · cases h; exact hasCode_raise
    split at h
    · cases h; exact hasCode_raise
    split at h
    · cases h; exact hasCode_raise
    split at h <;> cases h
    · exact hasCode_raise
    · exact hasCode_of_status_zero (mixFill_status ..)
  · cases h; exact hasCode_raise

/-- Settles O20: command by command, each branch that raises does so with a code of the table. -/
theorem codesOfEachCommand : Obligations.CodesOfEachCommand := by
  intro i s t hl h
  cases i with
  | winblk => exact execWinblk_hasCode h
  | winham => exact execWinham_hasCode h
  | winksr => exact execWinksr_hasCode h
  | wini0 => exact execWini0_hasCode h
  | ratapx => exact execRatapx_hasCode h
  | firdes c win => exact execFirdes_hasCode hl h
  | firflt c p q => exact firFilter_hasCode (ch := .both) h
  | firfltr c p q => exact firFilter_hasCode (ch := .realOnly) h
  | resinit c custom => exact execResinit_hasCode hl h
  | resamp c p q => exact execResamp_hasCode h
  | cnvinit c => exact execCnvinit_hasCode h
  | cnvfill c b q => exact execCnvfill_hasCode h
  | cnvmix c b q => exact execCnvmix_hasCode h

end Sys2Proof.Machine

/-! What a command neither reads nor writes (R37, R39, R99): a change of the state that keeps clear of what the command names
can be made before the command or after it. -/

namespace Sys2Proof.Machine

/-! ## Changes that a command does not see -/

/-- The change `f` of the state keeps clear of everything the command `i` reads and writes. A change that leaves the field
alone meets a condition by `rfl`. -/
structure Unseen (i : Instr) (f : State → State) : Prop where
  lim : ∀ s, (f s).lim = s.lim := by intros; rfl
  arg : ∀ s, ∀ k ∈ argumentsOf i, (f s).arg k = s.arg k := by intros; rfl
  tbuf : (∃ c, i = .resinit c true) → ∀ s, (f s).tbuf = s.tbuf := by intros; rfl
  raw : ∀ s, ∀ b, rawOf i = some b → (f s).raw[b]? = s.raw[b]? := by intros; rfl
  pkt : ∀ s, ∀ q ∈ packetsOf i, (f s).pkt[q]? = s.pkt[q]? := by intros; rfl
  fir : ∀ s, ∀ c, firCtxOf i = some c → (f s).fir[c]? = s.fir[c]? := by intros; rfl
  res : ∀ s, ∀ c, resCtxOf i = some c → (f s).res[c]? = s.res[c]? := by intros; rfl
  cnv : ∀ s, ∀ c, cnvCtxOf i = some c → (f s).cnv[c]? = s.cnv[c]? := by intros; rfl
  raise : ∀ s e, (f s).raise e = f (s.raise e) := by intros; rfl
  complete : ∀ s, (f s).complete = f s.complete := by intros; rfl
  setR : ∀ s k v, (f s).setR k v = f (s.setR k v) := by intros; rfl
  setPkt : ∀ s, ∀ q ∈ packetsOf i, ∀ P, (f s).setPkt q P = f (s.setPkt q P) := by intros; rfl
  setFir : ∀ s, ∀ c, firCtxOf i = some c → ∀ F, (f s).setFir c F = f (s.setFir c F) := by intros; rfl
  setRes : ∀ s, ∀ c, resCtxOf i = some c → ∀ R, (f s).setRes c R = f (s.setRes c R) := by intros; rfl
  setCnv : ∀ s, ∀ c, cnvCtxOf i = some c → ∀ C, (f s).setCnv c C = f (s.setCnv c C) := by intros; rfl

variable {i : Instr} {f : State → State}

theorem Unseen.ai (hf : Unseen i f) {k : Fin 8} (hk : k ∈ argumentsOf i) (s : State) : (f s).ai k = s.ai k :=
  congrArg BitVec.toInt (hf.arg s k hk)

theorem Unseen.af (hf : Unseen i f) {k : Fin 8} (hk : k ∈ argumentsOf i) (s : State) : (f s).af k = s.af k :=
  hf.arg s k hk

@[simp] theorem mapNext_next (f : State → State) (s : State) : mapNext f (.next s) = .next (f s) := rfl

/-! ## The commands without a context -/

theorem Unseen.execWinblk (hf : Unseen .winblk f) (s : State) :
    execWinblk (f s) = mapNext f (execWinblk s) := by
  unfold Machine.execWinblk
  rw [hf.ai (k := 0) (by decide), hf.ai (k := 1) (by decide)]
  split
  · rw [hf.setR, hf.complete, mapNext_next]
  · rw [hf.raise, mapNext_next]

theorem Unseen.execWinham (hf : Unseen .winham f) (s : State) :
    execWinham (f s) = mapNext f (execWinham s) := by
  unfold Machine.execWinham
  rw [hf.ai (k := 0) (by decide), hf.ai (k := 1) (by decide)]
  split
  · rw [hf.setR, hf.complete, mapNext_next]
  · rw [hf.raise, mapNext_next]

theorem Unseen.execWinksr (hf : Unseen .winksr f) (s : State) :
    execWinksr (f s) = mapNext f (execWinksr s) := by
  unfold Machine.execWinksr
  rw [hf.ai (k := 0) (by decide), hf.ai (k := 1) (by decide), hf.af (k := 2) (by decide)]
  split
  · rw [hf.raise, mapNext_next]
  split
  · rw [hf.raise, mapNext_next]
  cases kaiser (s.ai 0) (s.ai 1) (s.af 2) with
  | some v => simp only [hf.setR, hf.complete, mapNext_next]
  | none => rfl

theorem Unseen.execWini0 (hf : Unseen .wini0 f) (s : State) :
    execWini0 (f s) = mapNext f (execWini0 s) := by
  unfold Machine.execWini0
  rw [hf.af (k := 0) (by decide)]
  split
  · cases i0 (s.af 0) with
    | some v => simp only [hf.setR, hf.complete, mapNext_next]
    | none => rfl
  · rw [hf.raise, mapNext_next]

theorem Unseen.execRatapx (hf : Unseen .ratapx f) (s : State) :
    execRatapx (f s) = mapNext f (execRatapx s) := by
  unfold Machine.execRatapx
  rw [hf.ai (k := 0) (by decide), hf.ai (k := 1) (by decide), hf.ai (k := 2) (by decide)]
  split
  · cases ratApprox (s.ai 0).toNat (s.ai 1).toNat (s.ai 2).toNat with
    | some nd => simp only [hf.setR, hf.complete, mapNext_next]
    | none => rfl
  · rw [hf.raise, mapNext_next]

/-! ## Filters -/

/-- R94, R131: only the Kaiser window has a shape parameter. -/
theorem windowed_of_ne_kaiser {nt : Nat} {w0 : F64} {win : WindowFn} (hw : win ≠ .kaiser) (beta beta' : F64) :
    ∀ n, windowed nt w0 win beta n = windowed nt w0 win beta' n := by
  have hwin : ∀ n N, window win n N beta = window win n N beta' := by
    cases win with
    | kaiser => exact absurd rfl hw
    | _ => exact fun _ _ => rfl
  intro n
  induction n with
  | zero => rfl
  | succ n ih => rw [windowed, windowed, ih, hwin]

theorem designLowPass_of_ne_kaiser {gain fs fc tw att : F64} {win : WindowFn} (hw : win ≠ .kaiser) (beta beta' : F64)
    (maxTaps limit : Int) :
    designLowPass gain fs fc tw att win beta maxTaps limit = designLowPass gain fs fc tw att win beta' maxTaps limit := by
  have hproto : ∀ nt, prototype nt gain fs fc win beta = prototype nt gain fs fc win beta' := fun nt => by
    rw [prototype, prototype, windowed_of_ne_kaiser hw beta beta']
  have hno : ∀ b : F64, ¬ (win = .kaiser ∧ ¬ seriesDomain b) := fun _ h => hw h.1
  simp only [designLowPass, if_neg (hno _), hproto]

/-- R99, R131: the design of a `FIRDES`, whose argument 7 counts for the Kaiser window only. -/
theorem Unseen.design {c : Nat} {win : WindowFn} (hf : Unseen (.firdes c win) f) (s : State) :
    designLowPass ((f s).af 1) ((f s).af 2) ((f s).af 3) ((f s).af 4) ((f s).af 5) win ((f s).af 7) ((f s).ai 6)
        (f s).lim.tapMax =
      designLowPass (s.af 1) (s.af 2) (s.af 3) (s.af 4) (s.af 5) win (s.af 7) (s.ai 6) s.lim.tapMax := by
  have hk : ∀ k : Fin 8, k ≠ 7 → k ∈ argumentsOf (.firdes c win) := by
    cases win <;> simp only [argumentsOf] <;> decide
  rw [hf.af (hk 1 (by decide)), hf.af (hk 2 (by decide)), hf.af (hk 3 (by decide)), hf.af (hk 4 (by decide)),
    hf.af (hk 5 (by decide)), hf.ai (hk 6 (by decide)), hf.lim]
  by_cases hw : win = .kaiser
  · subst hw
    rw [hf.af (k := 7) (by simp [argumentsOf])]
  · exact designLowPass_of_ne_kaiser hw _ _ _ _

theorem Unseen.execFirdes {c : Nat} {win : WindowFn} (hf : Unseen (.firdes c win) f) (s : State) :
    execFirdes c win (f s) = mapNext f (execFirdes c win s) := by
  have h0 : (0 : Fin 8) ∈ argumentsOf (.firdes c win) := by cases win <;> simp [argumentsOf]
  unfold Machine.execFirdes
  rw [hf.fir s c rfl, hf.ai h0, hf.design]
  split
  · rw [hf.raise, mapNext_next]
  dsimp only
  split
  · rw [hf.setFir s c rfl, hf.raise, mapNext_next]
  split
  · rw [hf.setFir s c rfl, hf.raise, mapNext_next]
  cases designLowPass (s.af 1) (s.af 2) (s.af 3) (s.af 4) (s.af 5) win (s.af 7) (s.ai 6) s.lim.tapMax with
  | noFuel => rfl
  | fail e => simp only [hf.setFir s c rfl, hf.raise, mapNext_next]
  | taps ts => simp only [hf.setFir s c rfl, hf.setR, hf.complete, mapNext_next]

theorem Unseen.firFilter {ch : Channels} {c p q : Nat} (hf : Unseen (filterInstr ch c p q) f) (s : State) :
    firFilter ch c p q (f s) = mapNext f (firFilter ch c p q s) := by
  have hc : firCtxOf (filterInstr ch c p q) = some c := by cases ch <;> rfl
  have hpkt : packetsOf (filterInstr ch c p q) = [p, q] := by cases ch <;> rfl
  have harg : argumentsOf (filterInstr ch c p q) = [0, 1] := by cases ch <;> rfl
  have hq : q ∈ packetsOf (filterInstr ch c p q) := by simp [hpkt]
  unfold Machine.firFilter
  rw [hf.fir s c hc, hf.pkt s p (by simp [hpkt]), hf.pkt s q hq, hf.ai (k := 0) (by simp [harg]),
    hf.ai (k := 1) (by simp [harg]), hf.lim]
  split
  · split
    · rw [hf.raise, mapNext_next]
    split
    · rw [hf.raise, mapNext_next]
    · dsimp only
      rw [hf.setFir s c hc, hf.setPkt _ q hq, hf.setR, hf.complete, mapNext_next]
  · rw [hf.raise, mapNext_next]

/-! ## Resamplers -/

/-- R99, R152, R155: the prototype of a `RESINIT` comes from the tap staging buffer or from arguments 2 and 3. -/
theorem Unseen.resinitPrototype {c : Nat} {custom : Bool} (hf : Unseen (.resinit c custom) f) (s : State) (L M : Nat) :
    resinitPrototype (f s) custom L M = resinitPrototype s custom L M := by
  cases custom with
  | true => rw [resinitPrototype_custom, resinitPrototype_custom, hf.lim, hf.tbuf ⟨c, rfl⟩]
  | false =>
    rw [resinitPrototype_default, resinitPrototype_default, hf.lim, hf.af (k := 2) (by simp [argumentsOf]),
      hf.ai (k := 3) (by simp [argumentsOf])]

theorem Unseen.execResinit {c : Nat} {custom : Bool} (hf : Unseen (.resinit c custom) f) (s : State) :
    execResinit c custom (f s) = mapNext f (execResinit c custom s) := by
  have h0 : (0 : Fin 8) ∈ argumentsOf (.resinit c custom) := by cases custom <;> simp [argumentsOf]
  have h1 : (1 : Fin 8) ∈ argumentsOf (.resinit c custom) := by cases custom <;> simp [argumentsOf]
  have hproto := hf.resinitPrototype s
  unfold Machine.resinitPrototype at hproto
  unfold Machine.execResinit
  rw [hf.res s c rfl, hf.ai h0, hf.ai h1]
  split
  · rw [hf.raise, mapNext_next]
  dsimp only
  generalize (s.ai 0).toNat / Nat.gcd (s.ai 0).toNat (s.ai 1).toNat = L
  generalize (s.ai 1).toNat / Nat.gcd (s.ai 0).toNat (s.ai 1).toNat = M
  rw [hproto, hf.lim]
  split
  · rw [hf.setRes s c rfl, hf.raise, mapNext_next]
  split
  · rw [hf.setRes s c rfl, hf.raise, mapNext_next]
  split
  · rw [hf.setRes s c rfl, hf.raise, mapNext_next]
  cases (if custom then customPrototype s.lim s.tbuf else defaultPrototype s.lim L M (s.af 2) (s.ai 3)) with
  | noFuel => rfl
  | fail e => simp only [hf.setRes s c rfl, hf.raise, mapNext_next]
  | taps P =>
    dsimp only
    split
    · rw [hf.setRes s c rfl, hf.raise, mapNext_next]
    · rw [hf.setRes s c rfl, hf.setR, hf.setR, hf.complete, mapNext_next]

theorem Unseen.execResamp {c p q : Nat} (hf : Unseen (.resamp c p q) f) (s : State) :
    execResamp c p q (f s) = mapNext f (execResamp c p q s) := by
  have hq : q ∈ packetsOf (.resamp c p q) := by simp [packetsOf]
  unfold Machine.execResamp
  rw [hf.res s c rfl, hf.pkt s p (by simp [packetsOf]), hf.pkt s q hq, hf.ai (k := 0) (by simp [argumentsOf]),
    hf.ai (k := 1) (by simp [argumentsOf]), hf.lim]
  split
  · split
    · rw [hf.raise, mapNext_next]
    split
    · rw [hf.raise, mapNext_next]
    dsimp only
    split
    · rw [hf.raise, mapNext_next]
    · rw [hf.setRes s c rfl, hf.setPkt _ q hq, hf.setR, hf.complete, mapNext_next]
  · rw [hf.raise, mapNext_next]

/-! ## Converters -/

theorem Unseen.execCnvinit {c : Nat} (hf : Unseen (.cnvinit c) f) (s : State) :
    execCnvinit c (f s) = mapNext f (execCnvinit c s) := by
  unfold Machine.execCnvinit
  rw [hf.cnv s c rfl, hf.ai (k := 0) (by simp [argumentsOf]), hf.ai (k := 1) (by simp [argumentsOf]),
    hf.ai (k := 2) (by simp [argumentsOf]), hf.lim]
  split
  · rw [hf.raise, mapNext_next]
  dsimp only
  split
  · rw [hf.setCnv s c rfl, hf.raise, mapNext_next]
  split
  · rw [hf.setCnv s c rfl, hf.raise, mapNext_next]
  split
  · rw [hf.setCnv s c rfl, hf.raise, mapNext_next]
  · rw [hf.setCnv s c rfl, hf.complete, mapNext_next]

theorem Unseen.execCnvfill {c b q : Nat} (hf : Unseen (.cnvfill c b q) f) (s : State) :
    execCnvfill c b q (f s) = mapNext f (execCnvfill c b q s) := by
  have hq : q ∈ packetsOf (.cnvfill c b q) := by simp [packetsOf]
  unfold Machine.execCnvfill
  rw [hf.cnv s c rfl, hf.raw s b rfl, hf.pkt s q hq, hf.lim]
  split
  · split
    · rw [hf.raise, mapNext_next]
    split
    · rw [hf.raise, mapNext_next]
    dsimp only
    split
    · rw [hf.setR, hf.complete, mapNext_next]
    · rw [hf.setPkt s q hq, hf.setR, hf.complete, mapNext_next]
  · rw [hf.raise, mapNext_next]

theorem Unseen.mixFill {c b q : Nat} (hf : Unseen (.cnvmix c b q) f) (D : CnvCtx) (B : RawSlot) (out : Packet) (chan : Int)
    (s : State) : mixFill c q D B out chan (f s) = f (mixFill c q D B out chan s) := by
  unfold Machine.mixFill
  dsimp only
  split
  · rw [hf.setCnv s c rfl, hf.setR, hf.complete]
  · rw [hf.setCnv s c rfl, hf.setPkt _ q (by simp [packetsOf]), hf.setR, hf.complete]

theorem Unseen.execCnvmix {c b q : Nat} (hf : Unseen (.cnvmix c b q) f) (s : State) :
    execCnvmix c b q (f s) = mapNext f (execCnvmix c b q s) := by
  unfold Machine.execCnvmix
  rw [hf.cnv s c rfl, hf.raw s b rfl, hf.pkt s q (by simp [packetsOf]), hf.ai (k := 0) (by simp [argumentsOf]), hf.lim]
  split
  · rename_i C B out _ _ _
    split
    · rw [hf.raise, mapNext_next]
    split
    · rw [hf.raise, mapNext_next]
    split
    · rw [hf.raise, mapNext_next]
    cases updateCache C (effectiveMix C (s.ai 0)) with
    | noFuel => rfl
    | tooLong => simp only [hf.setCnv s c rfl, hf.raise, mapNext_next]
    | ready D => simp only [hf.mixFill, mapNext_next]
  · rw [hf.raise, mapNext_next]

/-! ## Every command -/

/-- R37, R39, R84, R99: a change that a command does not see can be made before it or after it. -/
theorem Unseen.exec (hf : Unseen i f) (s : State) : exec i (f s) = mapNext f (exec i s) := by
  cases i with
  | winblk => exact hf.execWinblk s
  | winham => exact hf.execWinham s
  | winksr => exact hf.execWinksr s
  | wini0 => exact hf.execWini0 s
  | ratapx => exact hf.execRatapx s
  | firdes c win => exact hf.execFirdes s
  | firflt c p q => exact Unseen.firFilter (ch := .both) hf s
  | firfltr c p q => exact Unseen.firFilter (ch := .realOnly) hf s
  | resinit c custom => exact hf.execResinit s
  | resamp c p q => exact hf.execResamp s
  | cnvinit c => exact hf.execCnvinit s
  | cnvfill c b q => exact hf.execCnvfill s
  | cnvmix c b q => exact hf.execCnvmix s

/-- R37: a packet slot that the command does not name. -/
theorem unseen_setPkt {j : Nat} (hj : j ∉ packetsOf i) (P : Packet) : Unseen i fun s => s.setPkt j P where
  pkt _ q hq := List.getElem?_set_ne fun e : j = q => hj (e ▸ hq)
  setPkt s q hq X := congrArg (fun l => { s with pkt := l }) (List.set_comm P X fun e : j = q => hj (e ▸ hq))

/-- R37: a raw slot that the command does not name. -/
theorem unseen_setRaw {j : Nat} (hj : rawOf i ≠ some j) (B : RawSlot) :
    Unseen i fun s => { s with raw := s.raw.set j B } where
  raw _ b hb := List.getElem?_set_ne fun e : j = b => hj (e ▸ hb)

/-- R39: the tap staging buffer, for a command that does not take its prototype from it. -/
theorem unseen_setTbuf (hi : ∀ c, i ≠ .resinit c true) (T : TapBuffer) : Unseen i fun s => { s with tbuf := T } where
  tbuf := fun ⟨c, hc⟩ => absurd hc (hi c)

/-- R99: an argument register that is not listed for the command. -/
theorem unseen_setArg {k : Fin 8} (hk : k ∉ argumentsOf i) (v : Word64) :
    Unseen i fun s => { s with a := s.a.set k v } where
  arg s j hj := Vector.getElem_set_ne k.isLt j.isLt fun e : (k : Nat) = j => hk (Fin.ext e ▸ hj)

/-- Settles O23: another packet slot, another raw slot and the tap staging buffer are changes that the command does not
see. -/
theorem onlyNamedBuffersTouched : Obligations.OnlyNamedBuffersTouched := fun _ s _ =>
  ⟨fun hj P => (unseen_setPkt hj P).exec s, fun hj B => (unseen_setRaw hj B).exec s,
    fun hi T => (unseen_setTbuf hi T).exec s⟩

/-! ## The result registers -/

variable {s t : State}

theorem execCnvinit_r {c : Nat} (h : execCnvinit c s = .next t) : t.r = s.r := by
  unfold execCnvinit at h
  split at h
  · cases h; rfl
  dsimp only at h
  split at h
  · cases h; rfl
  split at h
  · cases h; rfl
  split at h <;> cases h <;> rfl

theorem zero_mem_resultsOf (hi : ∀ c, i ≠ .cnvinit c) : 0 ∈ resultsOf i := by
  cases i with
  | cnvinit c => exact absurd rfl (hi c)
  | _ => simp [resultsOf]

/-- A write of the first result register leaves the register that a command with results does not list. -/
theorem getElem_setR_zero (h0 : 0 ∈ resultsOf i) {k : Fin 2} (hk : k ∉ resultsOf i) (v : Word64) :
    (s.setR 0 v).r[k] = s.r[k] :=
  Vector.getElem_set_ne (by decide) k.isLt fun e => hk (Fin.ext e ▸ h0)

/-- R31, R99: a command with results writes the listed registers only, and only where it completes. -/
theorem Ends.r_eq (h : Ends s i t) (h0 : 0 ∈ resultsOf i) {k : Fin 2} (hk : k ∉ resultsOf i ∨ t.status ≠ 0) :
    t.r[k] = s.r[k] := by
  have completed : ∀ {u : State}, u.complete.status ≠ 0 → False := fun hu => hu State.complete_status_zero
  cases h with
  | raised | firdesFailed | resinitFailed | cnvinitFailed | cnvmixTooLong | configured => rfl
  | approximated | split =>
    refine absurd ?_ (hk.resolve_right completed)
    fin_cases k <;> simp [resultsOf]
  | @mixed c b q C D B out =>
    have hk := hk.resolve_right fun hu => hu (mixFill_status ..)
    rcases mixFill_cases c q D B out (s.ai 0) s with ⟨-, e⟩ | ⟨-, e⟩ <;> simp only [e] <;>
      exact getElem_setR_zero h0 hk _
  | _ => exact getElem_setR_zero h0 (hk.resolve_right completed) _

/-- Settles O24: an argument register that is not listed is a change that the command does not see; a result register is
written by a command that completes and lists it. -/
theorem registersListedForEachCommand : Obligations.RegistersListedForEachCommand := by
  refine fun i s => ⟨fun k hk v => (unseen_setArg hk v).exec s, fun t h k hk => ?_⟩
  by_cases hi : ∃ c, i = .cnvinit c
  · obtain ⟨c, rfl⟩ := hi
    rw [execCnvinit_r h]
  · exact (exec_ends h).r_eq (zero_mem_resultsOf (not_exists.1 hi)) hk

end Sys2Proof.Machine

/-! The element memories stay in canonical form (R70, R71, R75), from that form alone: whatever else a state holds, each
update of a memory is a write or a fill, and both keep the form. -/

namespace Sys2Proof.Machine

variable {s t : State}

/-! ## The memories of one slot -/

theorem State.MemCanonical.pkt_wf (h : s.MemCanonical) {p : Nat} {P : Packet} (hP : s.pkt[p]? = some P) :
    P.re.wf ∧ P.im.wf :=
  h.pkt P (List.mem_of_getElem? hP)

theorem State.MemCanonical.fir_wf (h : s.MemCanonical) {c : Nat} {F : FirCtx} (hF : s.fir[c]? = some F) :
    F.taps.wf ∧ F.dre.wf ∧ F.dim.wf :=
  h.fir F (List.mem_of_getElem? hF)

theorem State.MemCanonical.res_wf (h : s.MemCanonical) {c : Nat} {R : ResCtx} (hR : s.res[c]? = some R) :
    R.ph.wf ∧ R.dre.wf ∧ R.dim.wf :=
  h.res R (List.mem_of_getElem? hR)

theorem State.MemCanonical.cnv_wf (h : s.MemCanonical) {c : Nat} {C : CnvCtx} (hC : s.cnv[c]? = some C) :
    C.lut.wf ∧ C.cos.wf ∧ C.sin.wf :=
  h.cnv C (List.mem_of_getElem? hC)

/-! ## Updates of the state -/

theorem State.MemCanonical.raise (h : s.MemCanonical) (e : ErrCode) : (s.raise e).MemCanonical := { h with }

theorem State.MemCanonical.complete (h : s.MemCanonical) : s.complete.MemCanonical := { h with }

theorem State.MemCanonical.setR (h : s.MemCanonical) (i : Fin 2) (v : Word64) : (s.setR i v).MemCanonical := { h with }

theorem State.MemCanonical.latch (h : s.MemCanonical) (w : Word32) : (s.latch w).MemCanonical := { h with }

theorem State.MemCanonical.withHost (h : s.MemCanonical) (rest : List HostAction) :
    ({ s with host := rest } : State).MemCanonical :=
  { h with }

theorem State.MemCanonical.setPkt (h : s.MemCanonical) (p : Nat) {P : Packet} (hP : P.re.wf ∧ P.im.wf) :
    (s.setPkt p P).MemCanonical :=
  { h with pkt := forall_mem_set h.pkt p hP }

theorem State.MemCanonical.setFir (h : s.MemCanonical) (c : Nat) {F : FirCtx} (hF : F.taps.wf ∧ F.dre.wf ∧ F.dim.wf) :
    (s.setFir c F).MemCanonical :=
  { h with fir := forall_mem_set h.fir c hF }

theorem State.MemCanonical.setRes (h : s.MemCanonical) (c : Nat) {R : ResCtx} (hR : R.ph.wf ∧ R.dre.wf ∧ R.dim.wf) :
    (s.setRes c R).MemCanonical :=
  { h with res := forall_mem_set h.res c hR }

theorem State.MemCanonical.setCnv (h : s.MemCanonical) (c : Nat) {C : CnvCtx} (hC : C.lut.wf ∧ C.cos.wf ∧ C.sin.wf) :
    (s.setCnv c C).MemCanonical :=
  { h with cnv := forall_mem_set h.cnv c hC }

theorem State.MemCanonical.modifyPkt (h : s.MemCanonical) (p : Nat) {f : Packet → Packet}
    (hf : ∀ P : Packet, P.re.wf ∧ P.im.wf → (f P).re.wf ∧ (f P).im.wf) :
    ({ s with pkt := s.pkt.modify p f } : State).MemCanonical :=
  { h with pkt := forall_mem_modify h.pkt p hf }

theorem State.MemCanonical.modifyRaw (h : s.MemCanonical) (b : Nat) {f : RawSlot → RawSlot}
    (hf : ∀ B : RawSlot, B.byte.wf → (f B).byte.wf) : ({ s with raw := s.raw.modify b f } : State).MemCanonical :=
  { h with raw := forall_mem_modify h.raw b hf }

/-- R71: a host write keeps the canonical form, whatever element it names. -/
theorem State.MemCanonical.hostWrite (h : s.MemCanonical) (e : Elem) (v : Word64) : (hostWrite s e v).MemCanonical := by
  cases e with
  | a i =>
    unfold Machine.hostWrite
    dsimp only
    split <;> exact { h with }
  | pktCap p | pktSize p | pktRate p | pktFreq p | pktFreqValid p => exact h.modifyPkt p fun _ => id
  | pktRe p i => exact h.modifyPkt p fun _ hP => ⟨pokeElem_wf hP.1 i v, hP.2⟩
  | pktIm p i => exact h.modifyPkt p fun _ hP => ⟨hP.1, pokeElem_wf hP.2 i v⟩
  | rawLen b => exact h.modifyRaw b fun _ => id
  | rawByte b i => exact h.modifyRaw b fun _ hB => pokeElem_wf hB i v
  | tbufLen => exact { h with }
  | tbufT i => exact { h with tbuf := pokeElem_wf h.tbuf i v }
  | _ => exact h

/-- R62, R211: whatever a reset loads is put into canonical form. -/
theorem State.MemCanonical.platformReset (s : State) (m : InitMem) : (s.platformReset m).MemCanonical :=
  have h := State.resetWith_slots s.params m
  { pkt := fun P hP => (h.pkt P hP).wf
    raw := fun B hB => (h.raw B hB).wf
    tbuf := h.tbuf.wf
    fir := fun F hF => (h.fir F hF).wf
    res := fun R hR => (h.res R hR).wf
    cnv := fun C hC => (h.cnv C hC).wf }

/-! ## Filters -/

/-- Every memory of a running filter command is in canonical form. -/
structure FirRun.Canonical (x : FirRun) : Prop where
  ctx : x.ctx.taps.wf ∧ x.ctx.dre.wf ∧ x.ctx.dim.wf
  re : x.re.wf
  im : x.im.wf

theorem FirRun.Canonical.insert {x : FirRun} (h : x.Canonical) (ch : Channels) (inp : Packet) (off : Nat) :
    (x.insert ch inp off).Canonical := by
  obtain ⟨⟨htaps, hdre, hdim⟩, hre, him⟩ := h
  cases ch with
  | both => exact ⟨⟨htaps, Mem.wf_write hdre _ _, Mem.wf_write hdim _ _⟩, hre, him⟩
  | realOnly => exact ⟨⟨htaps, Mem.wf_write hdre _ _, hdim⟩, hre, him⟩

theorem FirRun.Canonical.emit {x : FirRun} (h : x.Canonical) (ch : Channels) : (x.emit ch).Canonical := by
  cases ch with
  | both => exact ⟨h.ctx, Mem.wf_write h.re _ _, Mem.wf_write h.im _ _⟩
  | realOnly => exact ⟨h.ctx, Mem.wf_write h.re _ _, h.im⟩

theorem FirRun.Canonical.advance {x : FirRun} (h : x.Canonical) : x.advance.Canonical := ⟨h.ctx, h.re, h.im⟩

/-- R134, R135: the loop of a filter command, wherever the cursors of its context stand. -/
theorem firLoop_canonical (ch : Channels) (inp : Packet) (off cap : Nat) :
    ∀ (n : Nat) (x : FirRun), x.Canonical → (firLoop ch inp off cap n x).Canonical := by
  intro n
  induction n with
  | zero => exact fun _ h => h
  | succ n ih =>
    intro x h
    have hins := h.insert ch inp off
    rw [firLoop]
    split
    · split
      · exact hins
      · exact ih _ (hins.emit ch).advance
    · exact ih _ hins.advance

/-! ## Resamplers -/

/-- Every memory of a running `RESAMP` is in canonical form. -/
structure ResRun.Canonical (x : ResRun) : Prop where
  ctx : x.ctx.ph.wf ∧ x.ctx.dre.wf ∧ x.ctx.dim.wf
  re : x.re.wf
  im : x.im.wf

theorem ResRun.Canonical.consume {x : ResRun} (h : x.Canonical) (inp : Packet) (off : Nat) :
    (x.consume inp off).Canonical := by
  obtain ⟨⟨hph, hdre, hdim⟩, hre, him⟩ := h
  exact ⟨⟨hph, Mem.wf_write hdre _ _, Mem.wf_write hdim _ _⟩, hre, him⟩

theorem ResRun.Canonical.emit {x : ResRun} (h : x.Canonical) (lim : Limits) : (x.emit lim).Canonical :=
  ⟨h.ctx, Mem.wf_write h.re _ _, Mem.wf_write h.im _ _⟩

theorem resDrain_canonical (inp : Packet) (off : Nat) :
    ∀ (left : Nat) (x : ResRun), x.Canonical → (resDrain inp off left x).Canonical := by
  intro left
  induction left with
  | zero => exact fun _ h => h
  | succ left ih =>
    intro x h
    rw [resDrain]
    split
    · exact ih _ (h.consume inp off)
    · exact h

/-- R156: the loop of a `RESAMP`, wherever the position and the phase counter of its context stand. -/
theorem resLoop_canonical (lim : Limits) (inp : Packet) (off len : Nat) :
    ∀ (room : Nat) (x : ResRun), x.Canonical → (resLoop lim inp off len room x).Canonical := by
  intro room
  induction room with
  | zero => exact fun _ h => h
  | succ room ih =>
    intro x h
    rw [resLoop]
    dsimp only
    split
    · exact ih _ (resDrain_canonical inp off _ _ (h.emit lim))
    · exact h

/-! ## Converters -/

/-- R176, R178: a cache that is up to date is the one before or a regenerated one. -/
theorem updateCache_ready {C D : CnvCtx} {f : Int} (h : updateCache C f = .ready D) :
    D = C ∨ ∃ len, D = C.regenerated f len := by
  unfold updateCache at h
  split at h
  · unfold regenerate at h
    split at h
    · cases h
    · split at h <;> cases h
      exact .inr ⟨_, rfl⟩
  · cases h
    exact .inl rfl

theorem updateCache_wf {C D : CnvCtx} {f : Int} (hC : C.lut.wf ∧ C.cos.wf ∧ C.sin.wf) (h : updateCache C f = .ready D) :
    D.lut.wf ∧ D.cos.wf ∧ D.sin.wf := by
  rcases updateCache_ready h with rfl | ⟨len, rfl⟩
  · exact hC
  · exact CnvCtx.regenerated_wf hC

/-- R178: the loop of a mixing fill, wherever the cursor of the oscillator stands. -/
theorem mixLoop_wf (C : CnvCtx) (b : RawSlot) (at_ : Nat) {x : MixRun} (h : x.re.wf ∧ x.im.wf) :
    ∀ n, (mixLoop C b at_ n x).re.wf ∧ (mixLoop C b at_ n x).im.wf := by
  intro n
  induction n with
  | zero => exact h
  | succ n ih => exact ⟨Mem.wf_write ih.1 _ _, Mem.wf_write ih.2 _ _⟩

theorem State.MemCanonical.mixFill (h : s.MemCanonical) {c q : Nat} {D : CnvCtx} {B : RawSlot} {out : Packet} {chan : Int}
    (hD : D.lut.wf ∧ D.cos.wf ∧ D.sin.wf) (hout : out.re.wf ∧ out.im.wf) : (mixFill c q D B out chan s).MemCanonical := by
  rcases mixFill_cases c q D B out chan s with ⟨-, e⟩ | ⟨-, e⟩ <;> rw [e]
  · exact ((h.setCnv c hD).setR _ _).complete
  · refine (((h.setCnv c ?_).setPkt q ?_).setR _ _).complete
    · exact hD
    · exact mixLoop_wf D B _ hout _

/-! ## Every step -/

/-- What a command ends in has its memories in canonical form, whatever operands and contexts it met. -/
theorem Ends.memCanonical {i : Instr} (h : Ends s i t) (hs : s.MemCanonical) : t.MemCanonical := by
  cases h with
  | raised => exact hs.raise _
  | firdesFailed hF =>
    have hwf := hs.fir_wf hF
    refine (hs.setFir _ ?_).raise _
    exact hwf
  | resinitFailed hR =>
    have hwf := hs.res_wf hR
    refine (hs.setRes _ ?_).raise _
    exact hwf
  | cnvinitFailed hC =>
    have hwf := hs.cnv_wf hC
    refine (hs.setCnv _ ?_).raise _
    exact hwf
  | cnvmixTooLong hC =>
    have hwf := hs.cnv_wf hC
    refine (hs.setCnv _ ?_).raise _
    exact hwf
  | result => exact (hs.setR _ _).complete
  | approximated => exact ((hs.setR _ _).setR _ _).complete
  | designed hF => exact ((hs.setFir _ (FirCtx.built_wf (hs.fir_wf hF))).setR _ _).complete
  | @filtered ch c p q F inp out x hF hout hv hok hx =>
    obtain ⟨hre, him⟩ := hs.pkt_wf hout
    have hrun : x.Canonical := hx ▸ firLoop_canonical ch inp _ _ _ _ ⟨hs.fir_wf hF, hre, him⟩
    exact (((hs.setFir c hrun.ctx).setPkt q ⟨hrun.re, hrun.im⟩).setR _ _).complete
  | split hR => exact (((hs.setRes _ (ResCtx.built_wf (hs.res_wf hR))).setR _ _).setR _ _).complete
  | @resampled c p q nr R inp out x hR hout hv hok hx =>
    obtain ⟨hre, him⟩ := hs.pkt_wf hout
    have hrun : x.Canonical := hx ▸ resLoop_canonical s.lim inp _ _ _ _
      (resDrain_canonical inp _ _ _ ⟨hs.res_wf hR, hre, him⟩)
    exact (((hs.setRes c hrun.ctx).setPkt q ⟨hrun.re, hrun.im⟩).setR _ _).complete
  | configured hC => exact (hs.setCnv _ (CnvCtx.built_wf (hs.cnv_wf hC))).complete
  | filled hout =>
    obtain ⟨hre, him⟩ := hs.pkt_wf hout
    exact ((hs.setPkt _ ⟨Mem.wf_fill hre _ _ _, Mem.wf_fill him _ _ _⟩).setR _ _).complete
  | mixed hC hout hv hok hD =>
    exact hs.mixFill (updateCache_wf (hs.cnv_wf hC) hD) (hs.pkt_wf hout)

/-- Settles O16: each kind of step keeps the canonical form, a command by what it can end in. -/
theorem memoriesStayCanonical : Obligations.MemoriesStayCanonical := by
  intro s t hs h
  rcases step_cases s with ⟨-, e⟩ | ⟨_, rest, -, e⟩ | ⟨el, v, rest, -, -, e⟩ | ⟨m, rest, -, e⟩ | ⟨v, rest, _, -, -, e⟩ |
    ⟨v, rest, i, -, -, e⟩ <;> rw [e] at h
  · cases h
    exact hs
  · cases h
    exact hs.withHost rest
  · cases h
    exact (hs.withHost rest).hostWrite el v
  · cases h
    exact State.MemCanonical.platformReset _ m
  · cases h
    exact ((hs.withHost rest).latch _).raise _
  · exact (exec_ends h).memCanonical ((hs.withHost rest).latch _)

end Sys2Proof.Machine

/-! The context slots that a command does not name (R84): replacing one is a change that the command does not see. -/

namespace Sys2Proof.Machine

variable {i : Instr} {j : Nat}

/-- R84: a filter context that the command does not name. -/
theorem unseen_setFir (hj : firCtxOf i ≠ some j) (F : FirCtx) : Unseen i fun s => s.setFir j F where
  fir _ c hc := List.getElem?_set_ne fun e : j = c => hj (e ▸ hc)
  setFir s c hc X := congrArg (fun l => { s with fir := l }) (List.set_comm F X fun e : j = c => hj (e ▸ hc))

/-- R84: a resampler context that the command does not name. -/
theorem unseen_setRes (hj : resCtxOf i ≠ some j) (R : ResCtx) : Unseen i fun s => s.setRes j R where
  res _ c hc := List.getElem?_set_ne fun e : j = c => hj (e ▸ hc)
  setRes s c hc X := congrArg (fun l => { s with res := l }) (List.set_comm R X fun e : j = c => hj (e ▸ hc))

/-- R84: a converter context that the command does not name. -/
theorem unseen_setCnv (hj : cnvCtxOf i ≠ some j) (C : CnvCtx) : Unseen i fun s => s.setCnv j C where
  cnv _ c hc := List.getElem?_set_ne fun e : j = c => hj (e ▸ hc)
  setCnv s c hc X := congrArg (fun l => { s with cnv := l }) (List.set_comm C X fun e : j = c => hj (e ▸ hc))

/-- Settles O22: another context slot of any unit is a change that the command does not see. -/
theorem contextsAreIndependent : Obligations.ContextsAreIndependent := fun _ s _ =>
  ⟨fun hj F => (unseen_setFir hj F).exec s, fun hj R => (unseen_setRes hj R).exec s,
    fun hj C => (unseen_setCnv hj C).exec s⟩

end Sys2Proof.Machine

/-! The steps that are neither a command nor a reset (R71, R79, R204). -/

namespace Sys2Proof.Machine

variable {s : State}

theorem step_idle (h : s.host = []) : step s = .next s := by
  unfold step
  rw [h]

theorem step_read {e : Elem} {rest : List HostAction} (h : s.host = .read e :: rest) :
    step s = .next { s with host := rest } := by
  unfold step
  rw [h]

theorem step_write {e : Elem} {v : Word64} {rest : List HostAction} (h : s.host = .write e v :: rest) (he : e ≠ .cmd) :
    step s = .next (hostWrite { s with host := rest } e v) := by
  unfold step
  rw [h]
  cases e with
  | cmd => exact absurd rfl he
  | _ => rfl

/-- Settles O8: a read takes its action from the host's list, and an empty list is the block idling. -/
theorem readsAndIdleChangeNothing : Obligations.ReadsAndIdleChangeNothing := fun _ =>
  ⟨fun _ _ h => step_read h, step_idle⟩

end Sys2Proof.Machine

/-! The host port (R70, R71): what it reads after a write to the same and to another element, which writes it ignores, and
where it reads zero. -/

namespace Sys2Proof.Machine

/-! ## Fields of slots -/

section Slots

variable {α : Type} {l : List α} {p q : Nat} {f : α → α} {g : α → Word64}

theorem portSlot_of_lt (hp : p < l.length) (g : α → Word64) : portSlot l p g = g l[p] := by
  unfold portSlot
  rw [List.getElem?_eq_getElem hp]

/-- Log entry 7: a field reads as zero where there is no such slot, or where it does so in the slot there is. -/
theorem portSlot_eq_zero (h : ∀ hp : p < l.length, g l[p] = 0) : portSlot l p g = 0 := by
  by_cases hp : p < l.length
  · rw [portSlot_of_lt hp, h hp]
  · unfold portSlot
    rw [List.getElem?_eq_none (Nat.le_of_not_lt hp)]

/-- A field of the slot that is changed. -/
theorem portSlot_modify_self (hp : p < l.length) (f : α → α) (g : α → Word64) :
    portSlot (l.modify p f) p g = g (f l[p]) := by
  rw [portSlot_of_lt (by rwa [List.length_modify]), List.getElem_modify, if_pos rfl]

/-- A field of another slot, or one that the change of the slot leaves alone. -/
theorem portSlot_modify_of_unchanged (h : p = q → ∀ x, g (f x) = g x) :
    portSlot (l.modify p f) q g = portSlot l q g := by
  unfold portSlot
  rw [List.getElem?_modify]
  cases l[q]? with
  | none => rfl
  | some x =>
    by_cases hpq : p = q
    · simp [hpq, h hpq]
    · simp [hpq]

/-- A change that leaves the slot alone, where there is one. -/
theorem modify_eq_self_of_unchanged (h : ∀ hp : p < l.length, f l[p] = l[p]) : l.modify p f = l := by
  refine List.ext_getElem (List.length_modify ..) fun n _ hn => ?_
  rw [List.getElem_modify]
  split
  · rename_i hpn
    subst hpn
    exact h hn
  · rfl

end Slots

/-! ## Elements of arrays -/

section Arrays

variable {w extent i j : Nat} {m : Mem w} {v : Word64}

theorem portElem_of_not_lt (hi : ¬ i < extent) : portElem extent m i = 0 := if_neg hi

theorem pokeElem_of_not_lt (hi : ¬ i < extent) : pokeElem extent m i v = m := if_neg hi

theorem portElem_pokeElem_self (hi : i < extent) :
    portElem extent (pokeElem extent m i v) i = (v.setWidth w).setWidth 64 := by
  rw [portElem, if_pos hi, pokeElem, if_pos hi, Mem.read_write_self, portValue]

theorem portElem_pokeElem_ne (hij : j ≠ i) : portElem extent (pokeElem extent m i v) j = portElem extent m j := by
  by_cases hi : i < extent
  · rw [portElem, portElem, pokeElem, if_pos hi, Mem.read_write_ne m _ hij]
  · rw [pokeElem_of_not_lt hi]

end Arrays

/-- One bit of the port, written and read back. -/
theorem portBit_getLsbD_zero (v : Word64) : portBit (v.getLsbD 0) = (v.setWidth 1).setWidth 64 := by
  have bit : ∀ b : BitVec 1, portBit (b.getLsbD 0) = b.setWidth 64 := by decide
  rw [← bit, BitVec.getLsbD_setWidth]
  rfl

/-! ## Reading after a write -/

variable {s : State} {e e' : Elem} {v : Word64}

theorem hostRead_a {i : Nat} (hi : i < 8) : hostRead s (.a i) = s.a[i] := dif_pos hi

theorem hostRead_a_of_not_lt {i : Nat} (hi : ¬ i < 8) : hostRead s (.a i) = 0 := dif_neg hi

theorem hostWrite_a {i : Nat} (hi : i < 8) : hostWrite s (.a i) v = { s with a := s.a.set i v } := dif_pos hi

theorem hostWrite_a_of_not_lt {i : Nat} (hi : ¬ i < 8) : hostWrite s (.a i) v = s := dif_neg hi

/-- R71: a host write replaces the element that it names, truncated to its width. -/
theorem hostRead_hostWrite_self (hw : e.writable = true) (he : s.hasElem e) :
    hostRead (hostWrite s e v) e = (v.setWidth e.width).setWidth 64 := by
  cases e with
  | a i =>
    have hi : i < 8 := he
    rw [hostWrite_a hi, hostRead_a hi]
    exact (Vector.getElem_set_self hi).trans (by simp [Elem.width])
  | pktCap p | pktSize p | pktRate p => exact portSlot_modify_self he _ _
  | pktFreq p => exact (portSlot_modify_self he _ _).trans (by simp [portValue, Elem.width])
  | pktFreqValid p => exact (portSlot_modify_self he _ _).trans (portBit_getLsbD_zero v)
  | pktRe p i | pktIm p i =>
    obtain ⟨hp, hi⟩ := he
    exact (portSlot_modify_self hp _ _).trans (portElem_pokeElem_self hi)
  | rawLen b => exact portSlot_modify_self he _ _
  | rawByte b i =>
    obtain ⟨hb, hi⟩ := he
    exact (portSlot_modify_self hb _ _).trans (portElem_pokeElem_self hi)
  | tbufLen => rfl
  | tbufT i => exact portElem_pokeElem_self he
  | _ => exact Bool.noConfusion hw

/-- R71: a host write changes nothing that the port reads of any other element. -/
theorem hostRead_hostWrite_ne (hne : e' ≠ e) : hostRead (hostWrite s e v) e' = hostRead s e' := by
  cases e with
  | a i =>
    by_cases hi : i < 8
    · rw [hostWrite_a hi]
      cases e' with
      | a j =>
        by_cases hj : j < 8
        · rw [hostRead_a hj, hostRead_a hj]
          exact Vector.getElem_set_ne hi hj fun h => hne (h ▸ rfl)
        · rw [hostRead_a_of_not_lt hj, hostRead_a_of_not_lt hj]
      | _ => rfl
    · rw [hostWrite_a_of_not_lt hi]
  | pktCap p =>
    cases e' with
    | pktCap q => exact portSlot_modify_of_unchanged fun h => absurd (h ▸ rfl) hne
    | pktSize q | pktRate q | pktFreq q | pktFreqValid q | pktRe q j | pktIm q j =>
      exact portSlot_modify_of_unchanged fun _ _ => rfl
    | _ => rfl
  | pktSize p =>
    cases e' with
    | pktSize q => exact portSlot_modify_of_unchanged fun h => absurd (h ▸ rfl) hne
    | pktCap q | pktRate q | pktFreq q | pktFreqValid q | pktRe q j | pktIm q j =>
      exact portSlot_modify_of_unchanged fun _ _ => rfl
    | _ => rfl
  | pktRate p =>
    cases e' with
    | pktRate q => exact portSlot_modify_of_unchanged fun h => absurd (h ▸ rfl) hne
    | pktCap q | pktSize q | pktFreq q | pktFreqValid q | pktRe q j | pktIm q j =>
      exact portSlot_modify_of_unchanged fun _ _ => rfl
    | _ => rfl
  | pktFreq p =>
    cases e' with
    | pktFreq q => exact portSlot_modify_of_unchanged fun h => absurd (h ▸ rfl) hne
    | pktCap q | pktSize q | pktRate q | pktFreqValid q | pktRe q j | pktIm q j =>
      exact portSlot_modify_of_unchanged fun _ _ => rfl
    | _ => rfl
  | pktFreqValid p =>
    cases e' with
    | pktFreqValid q => exact portSlot_modify_of_unchanged fun h => absurd (h ▸ rfl) hne
    | pktCap q | pktSize q | pktRate q | pktFreq q | pktRe q j | pktIm q j =>
      exact portSlot_modify_of_unchanged fun _ _ => rfl
    | _ => rfl
  | pktRe p i =>
    cases e' with
    | pktRe q j =>
      exact portSlot_modify_of_unchanged fun h _ => portElem_pokeElem_ne fun hji => hne (h ▸ hji ▸ rfl)
    | pktCap q | pktSize q | pktRate q | pktFreq q | pktFreqValid q | pktIm q j =>
      exact portSlot_modify_of_unchanged fun _ _ => rfl
    | _ => rfl
  | pktIm p i =>
    cases e' with
    | pktIm q j =>
      exact portSlot_modify_of_unchanged fun h _ => portElem_pokeElem_ne fun hji => hne (h ▸ hji ▸ rfl)
    | pktCap q | pktSize q | pktRate q | pktFreq q | pktFreqValid q | pktRe q j =>
      exact portSlot_modify_of_unchanged fun _ _ => rfl
    | _ => rfl
  | rawLen b =>
    cases e' with
    | rawLen c => exact portSlot_modify_of_unchanged fun h => absurd (h ▸ rfl) hne
    | rawByte c j => exact portSlot_modify_of_unchanged fun _ _ => rfl
    | _ => rfl
  | rawByte b i =>
    cases e' with
    | rawByte c j =>
      exact portSlot_modify_of_unchanged fun h _ => portElem_pokeElem_ne fun hji => hne (h ▸ hji ▸ rfl)
    | rawLen c => exact portSlot_modify_of_unchanged fun _ _ => rfl
    | _ => rfl
  | tbufLen =>
    cases e' with
    | tbufLen => exact absurd rfl hne
    | _ => rfl
  | tbufT i =>
    cases e' with
    | tbufT j => exact portElem_pokeElem_ne fun hji => hne (hji ▸ rfl)
    | _ => rfl
  | _ => rfl

/-! ## Where the port ignores a write, and where it reads zero -/

/-- R71: a write to an element that the host may not write, or that does not exist, changes nothing at all. -/
theorem hostWrite_eq_self (h : ¬ (e.writable = true ∧ s.hasElem e)) : hostWrite s e v = s := by
  have absent : e.writable = true → ¬ s.hasElem e := fun hw he => h ⟨hw, he⟩
  cases e with
  | a i => exact hostWrite_a_of_not_lt (absent rfl)
  | pktCap p | pktSize p | pktRate p | pktFreq p | pktFreqValid p =>
    exact congrArg (fun l => { s with pkt := l }) (modify_eq_self_of_unchanged fun hp => absurd hp (absent rfl))
  | pktRe p i | pktIm p i =>
    refine congrArg (fun l => { s with pkt := l }) (modify_eq_self_of_unchanged fun hp => ?_)
    rw [pokeElem_of_not_lt fun hi => absent rfl ⟨hp, hi⟩]
  | rawLen b =>
    exact congrArg (fun l => { s with raw := l }) (modify_eq_self_of_unchanged fun hb => absurd hb (absent rfl))
  | rawByte b i =>
    refine congrArg (fun l => { s with raw := l }) (modify_eq_self_of_unchanged fun hb => ?_)
    rw [pokeElem_of_not_lt fun hi => absent rfl ⟨hb, hi⟩]
  | tbufLen => exact absurd trivial (absent rfl)
  | tbufT i => exact congrArg (fun m => { s with tbuf := { s.tbuf with t := m } }) (pokeElem_of_not_lt (absent rfl))
  | _ => rfl

/-- R71: an element that does not exist reads as zero. -/
theorem hostRead_eq_zero (h : ¬ s.hasElem e) : hostRead s e = 0 := by
  cases e with
  | a i | r i => exact dif_neg h
  | cmd | status | tbufLen => exact absurd trivial h
  | tbufT i => exact portElem_of_not_lt h
  | pktRe p i | pktIm p i => exact portSlot_eq_zero fun hp => portElem_of_not_lt fun hi => h ⟨hp, hi⟩
  | rawByte b i => exact portSlot_eq_zero fun hb => portElem_of_not_lt fun hi => h ⟨hb, hi⟩
  | firTaps c i | firDre c i | firDim c i | resDre c i | resDim c i | cnvLut c i | cnvCos c i | cnvSin c i =>
    exact portSlot_eq_zero fun hc => portElem_of_not_lt fun hi => h ⟨hc, hi⟩
  | resPh c p k => exact portSlot_eq_zero fun hc => if_neg fun hpk => h ⟨hc, hpk⟩
  | _ => exact portSlot_eq_zero fun hc => absurd hc h

/-- Settles O7: the element written, every other element, the writes that are ignored, the elements that are not there, and
the step of a host write. -/
theorem hostPortReplacesElements : Obligations.HostPortReplacesElements :=
  ⟨fun _ _ _ hw he => ⟨hostRead_hostWrite_self hw he, fun _ hne => hostRead_hostWrite_ne hne⟩,
    fun _ _ _ h => hostWrite_eq_self h, fun _ _ h => hostRead_eq_zero h, fun _ _ _ _ h he => step_write h he⟩

end Sys2Proof.Machine

/-! The opcode table (R103): the masked bits of a word fix fields of it, and those fields leave the
word one command, which is of the row. -/

namespace Sys2Proof

/-! ## The word of a command -/

/-- Settles O1: the fields of the word of a well-formed command are the command's. -/
theorem encodeThenDecode : Obligations.EncodeThenDecode := fun _ => decode_encode

/-- Settles O2: a word that decodes has the fields of its command, so it is the word made of them. -/
theorem decodeThenEncode : Obligations.DecodeThenEncode := fun _ _ => encode_of_decode

/-- Settles O5: each worked encoding is the word of its command, which is well formed. -/
theorem workedEncodingsDecode : Obligations.WorkedEncodingsDecode :=
  ⟨decode_encode (i := .winblk) rfl, decode_encode (i := .ratapx) rfl,
    decode_encode (i := .firdes 0 .blackman) rfl, decode_encode (i := .firdes 1 .kaiser) rfl,
    decode_encode (i := .firflt 0 0 1) rfl, decode_encode (i := .firfltr 1 2 3) rfl,
    decode_encode (i := .resinit 0 false) rfl, decode_encode (i := .resinit 1 true) rfl,
    decode_encode (i := .resamp 0 1 2) rfl, decode_encode (i := .cnvinit 0) rfl,
    decode_encode (i := .cnvfill 0 0 0) rfl, decode_encode (i := .cnvmix 0 1 3) rfl⟩

/-! ## Masked fields -/

variable {w : Word32} {i : Instr}

/-- The bits that two words have in common, field by field. -/
def Fields.inter (f g : Fields) : Fields :=
  ⟨f.opcode &&& g.opcode, f.ctx &&& g.ctx, f.src &&& g.src, f.dst &&& g.dst, f.mod &&& g.mod, f.rsv &&& g.rsv⟩

theorem fieldsOf_and (w m : Word32) : fieldsOf (w &&& m) = (fieldsOf w).inter (fieldsOf m) := by
  simp only [fieldsOf, Fields.inter, BitVec.extractLsb'_and, BitVec.toNat_and]

/-- R103: the fields of the mask of each row. -/
def Instr.maskFields : Instr → Fields
  | .winblk | .winham | .winksr | .wini0 | .ratapx => ⟨0xFF, 0xF, 0xF, 0xF, 0xF, 0xFF⟩
  | .firdes _ _ => ⟨0xFF, 0, 0xF, 0xF, 0, 0xFF⟩
  | .resinit _ _ => ⟨0xFF, 0, 0xF, 0xF, 0xE, 0xFF⟩
  | .cnvinit _ => ⟨0xFF, 0, 0xF, 0xF, 0xF, 0xFF⟩
  | .firflt _ _ _ | .firfltr _ _ _ | .resamp _ _ _ | .cnvfill _ _ _ | .cnvmix _ _ _ => ⟨0xFF, 0, 0, 0, 0xF, 0xFF⟩

theorem fieldsOf_rowMask (i : Instr) : fieldsOf (rowMask i) = i.maskFields := by
  cases i <;> simp only [rowMask, Instr.maskFields] <;> rfl

theorem fieldsOf_rowMatch (i : Instr) : fieldsOf (rowMatch i) = ⟨i.fields.opcode, 0, 0, 0, 0, 0⟩ := by
  cases i <;> simp only [rowMatch, Instr.fields] <;> rfl

/-! ## Bits under a mask -/

theorem eq_zero_of_and_fullMask {x m n : Nat} (hx : x < 2 ^ n) (h : x &&& m = 0) (hm : m = 2 ^ n - 1) : x = 0 := by
  rw [← Nat.and_two_pow_sub_one_of_lt_two_pow hx, ← hm, h]

/-- R94, R103: the mask of `RESINIT` leaves `mod[0]` free and no other bit of `mod`. -/
theorem lt_two_of_and_eq_zero {x : Nat} (hx : x < 2 ^ 4) (h : x &&& 0xE = 0) : x < 2 := by
  have key : ∀ y : Fin 16, y.val &&& 0xE = 0 → y.val < 2 := by decide
  exact key ⟨x, hx⟩ h

/-! ## The rows -/

theorem rowMatch_eq_opcode (i : Instr) : rowMatch i = BitVec.ofNat 32 i.fields.opcode := by cases i <;> rfl

/-- R103: the masked bits of a word in a row, field by field. -/
theorem inter_maskFields_of_inRow (h : w &&& rowMask i = rowMatch i) :
    (fieldsOf w).inter i.maskFields = ⟨i.fields.opcode, 0, 0, 0, 0, 0⟩ := by
  rw [← fieldsOf_rowMask, ← fieldsOf_and, h, fieldsOf_rowMatch]

/-- R103: every mask covers the opcode. -/
theorem opcode_of_inRow (h : w &&& rowMask i = rowMatch i) : (fieldsOf w).opcode = i.fields.opcode := by
  have hop : (fieldsOf w).opcode &&& i.maskFields.opcode = i.fields.opcode :=
    congrArg Fields.opcode (inter_maskFields_of_inRow h)
  have hmask : i.maskFields.opcode = 2 ^ 8 - 1 := by cases i <;> rfl
  rwa [hmask, Nat.and_two_pow_sub_one_of_lt_two_pow (fieldsOf_fit w).opcode] at hop

/-- R103: every mask covers `rsv`, which no match sets. -/
theorem rsv_of_inRow (h : w &&& rowMask i = rowMatch i) : (fieldsOf w).rsv = 0 := by
  have hrsv : (fieldsOf w).rsv &&& i.maskFields.rsv = 0 := congrArg Fields.rsv (inter_maskFields_of_inRow h)
  have hlt : (fieldsOf w).rsv < 2 ^ 8 := BitVec.isLt _
  exact eq_zero_of_and_fullMask hlt hrsv (by cases i <;> rfl)

/-- R103: no match sets a bit above the opcode, so a field that the mask covers is zero. -/
theorem covered_of_inRow (h : w &&& rowMask i = rowMatch i) :
    (i.maskFields.ctx = 0xF → (fieldsOf w).ctx = 0) ∧ (i.maskFields.src = 0xF → (fieldsOf w).src = 0) ∧
      (i.maskFields.dst = 0xF → (fieldsOf w).dst = 0) ∧ (i.maskFields.mod = 0xF → (fieldsOf w).mod = 0) ∧
      (i.maskFields.mod = 0xE → (fieldsOf w).mod < 2) := by
  have hrow := inter_maskFields_of_inRow h
  simp only [Fields.inter, Fields.mk.injEq] at hrow
  obtain ⟨-, hctx, hsrc, hdst, hmod, -⟩ := hrow
  obtain ⟨-, lctx, lsrc, ldst, lmod⟩ := fieldsOf_fit w
  exact ⟨eq_zero_of_and_fullMask lctx hctx, eq_zero_of_and_fullMask lsrc hsrc, eq_zero_of_and_fullMask ldst hdst,
    eq_zero_of_and_fullMask lmod hmod, fun hm => lt_two_of_and_eq_zero lmod (hm ▸ hmod)⟩

theorem rowMatch_of_inRow (h : w &&& rowMask i = rowMatch i) : rowMatch i = BitVec.ofNat 32 (fieldsOf w).opcode := by
  rw [opcode_of_inRow h, rowMatch_eq_opcode]

/-- R103: a decoded command's row is the one its word's opcode names. -/
theorem rowMatch_of_decode (h : decode w = .ok i) : rowMatch i = BitVec.ofNat 32 (fieldsOf w).opcode := by
  rw [decode_eq_ok_iff.1 h, rowMatch_eq_opcode]

/-- R96, R103: no condition of R96 holds of a word in a row, where `FIRDES` has `mod ≤ 2`. -/
theorem not_illegal_of_inRow (h : w &&& rowMask i = rowMatch i)
    (hfir : rowMatch i = 0x30#32 → (fieldsOf w).mod ≤ 2) : ¬ (fieldsOf w).Illegal := by
  have hop := opcode_of_inRow h
  have hrsv := rsv_of_inRow h
  obtain ⟨hctx, hsrc, hdst, hmod, hflag⟩ := covered_of_inRow h
  cases i with
  | firdes => simp [Fields.Illegal, Instr.fields, hop, hrsv, hsrc rfl, hdst rfl, Nat.lt_succ_of_le (hfir rfl)]
  | resinit => simp [Fields.Illegal, Instr.fields, hop, hrsv, hsrc rfl, hdst rfl, hflag rfl]
  | cnvinit => simp [Fields.Illegal, Instr.fields, hop, hrsv, hsrc rfl, hdst rfl, hmod rfl]
  | firflt | firfltr | resamp | cnvfill | cnvmix => simp [Fields.Illegal, Instr.fields, hop, hrsv, hmod rfl]
  | _ => simp [Fields.Illegal, Instr.fields, hop, hrsv, hctx rfl, hsrc rfl, hdst rfl, hmod rfl]

/-- R103: a word in a row decodes, to a command of that row, where `FIRDES` has `mod ≤ 2`. -/
theorem exists_decode_of_inRow (h : w &&& rowMask i = rowMatch i)
    (hfir : rowMatch i = 0x30#32 → (fieldsOf w).mod ≤ 2) : ∃ j, decode w = .ok j ∧ rowMatch j = rowMatch i := by
  obtain ⟨j, hj⟩ := decode_of_not_illegal (not_illegal_of_inRow h hfir)
  exact ⟨j, hj, (rowMatch_of_decode hj).trans (rowMatch_of_inRow h).symm⟩

/-- R103: the word of a well-formed command is in the command's row. -/
theorem encode_inRow (h : i.wellFormed = true) : encode i &&& rowMask i = rowMatch i := by
  cases i with
  | winblk => exact Laws.MatchMask.winblk h
  | winham => exact Laws.MatchMask.winham h
  | winksr => exact Laws.MatchMask.winksr h
  | wini0 => exact Laws.MatchMask.wini0 h
  | ratapx => exact Laws.MatchMask.ratapx h
  | firdes ctx win => exact Laws.MatchMask.firdes ctx win h
  | firflt ctx src dst => exact Laws.MatchMask.firflt ctx src dst h
  | firfltr ctx src dst => exact Laws.MatchMask.firfltr ctx src dst h
  | resinit ctx custom => exact Laws.MatchMask.resinit ctx custom h
  | resamp ctx src dst => exact Laws.MatchMask.resamp ctx src dst h
  | cnvinit ctx => exact Laws.MatchMask.cnvinit ctx h
  | cnvfill ctx src dst => exact Laws.MatchMask.cnvfill ctx src dst h
  | cnvmix ctx src dst => exact Laws.MatchMask.cnvmix ctx src dst h

/-- R103: the low byte of the word is the match, for every command, well formed or not. -/
theorem rowMatch_eq_lowByte (i : Instr) : rowMatch i = BitVec.setWidth 32 ((encode i).extractLsb' 0 8) := by
  have hop : i.fields.opcode < 2 ^ 8 := by cases i <;> simp [Instr.fields]
  apply BitVec.eq_of_toNat_eq
  rw [rowMatch_eq_opcode, encode_eq_word, BitVec.toNat_setWidth, toNat_extractLsb']
  simp only [Fields.word, assemble, BitVec.toNat_ofNat]
  omega

/-- Settles O4: a word's opcode fixes the match of its row, so rows are disjoint; the masked fields leave none of
the conditions of R96, so a word in a row decodes. -/
theorem rowsSelectCommands : Obligations.RowsSelectCommands := by
  refine ⟨fun w i j hi hj => ?disjoint, fun w i h hfir => exists_decode_of_inRow h hfir, fun w i h => ?decoded,
    fun i => ?masks, rowMatch_eq_lowByte⟩
  case disjoint => exact (rowMatch_of_inRow hi).trans (rowMatch_of_inRow hj).symm
  case decoded =>
    obtain ⟨hwf, rfl⟩ := encode_of_decode h
    exact encode_inRow hwf
  case masks => cases i <;> rfl

end Sys2Proof

/-! The window functions (R110 to R115): what they give at the first sample and for a shape parameter that is zero, and the
four commands. -/

namespace Sys2Proof.Machine

/-! ## Operations on zeros -/

theorem round64_zero {k : Nat} (hk : 0 < k) : fmt64.round 0 k = 0 := by
  have h := fmt64.round_units (m := 0) (by decide) hk
  rwa [fmt64.units_zero, Nat.zero_mul] at h

/-- R13: zero times a number is a zero. -/
theorem mul64_of_zero {x y : F64} (hx : mag64 x = 0) (hy : Finite64 y) : mul64 x y = pack64 (neg64 x != neg64 y) 0 := by
  rw [mul64, val64_of_zero hx, val64_of_finite hy]
  simp only [Exact.mul, Nat.zero_mul, result64, Fmt.roundExact, round64_zero fmt64.one_pos]

/-- R13: +0.0 over a positive whole number is +0.0. -/
theorem div64_zero_ofInt64 {d : Int} (h1 : 1 ≤ d) (h2 : d ≤ 2 ^ 62) : div64 0#64 (ofInt64 d) = 0#64 := by
  obtain ⟨n, rfl⟩ := Int.eq_ofNat_of_zero_le (show 0 ≤ d by omega)
  obtain ⟨lo, hi⟩ := ofInt64_bounds62 (show 1 ≤ n by omega) (by omega)
  have hu : fmt64.units (ofInt64 n).toNat ≠ 0 := mt Fmt.units_eq_zero.1 (lt_of_lt_of_le (by norm_num) lo).ne'
  have hfin : (ofInt64 n).toNat < fmt64.infMag := lt_of_le_of_lt hi (by decide)
  apply BitVec.eq_of_toNat_eq
  rw [div64_toNat (by decide) hfin hu, BitVec.toNat_zero, fmt64.units_zero, Nat.zero_mul,
    round64_zero (Nat.pos_of_ne_zero hu)]

/-- R14: what equals zero as a number is one of the two zeros. -/
theorem mag64_of_eq64_zero {x : F64} (h : eq64 x zero64 = true) : mag64 x = 0 := by
  have ho : order64 x = 0 := by
    rw [eq64, Bool.and_eq_true, decide_eq_true_iff] at h
    exact h.2
  rw [order64] at ho
  split at ho <;> omega

theorem eq_pack64_of_mag_zero {x : F64} (h : mag64 x = 0) : x = pack64 (neg64 x) 0 := by
  rw [← h, pack64_neg64_mag64]

theorem cos64_zero : cos64 0#64 = one64 := elementary_zero _ _ _

/-! ## The first sample -/

/-- R111: the Blackman coefficient at `n = 0`, where both angles are +0.0. -/
theorem blackman_first {N : Int} (h2 : 2 ≤ N) (h3 : N ≤ 2 ^ 31 - 1) : blackman 0 N = 0xBC70000000000000#64 := by
  have e1 : mul64 twoPi64 (ofInt64 0) = 0#64 := by decide +kernel
  have e2 : mul64 (mul64 four64 pi64) (ofInt64 0) = 0#64 := by decide +kernel
  rw [blackman, e1, e2, div64_zero_ofInt64 (by omega) (by omega), cos64_zero]
  decide +kernel

/-- R112: the Hamming coefficient at `n = 0`, where the angle is +0.0. -/
theorem hamming_first {N : Int} (h2 : 2 ≤ N) (h3 : N ≤ 2 ^ 31 - 1) : hamming 0 N = 0x3FB47AE147AE147C#64 := by
  have e1 : mul64 twoPi64 (ofInt64 0) = 0#64 := by decide +kernel
  rw [hamming, e1, div64_zero_ofInt64 (by omega) (by omega), cos64_zero]
  decide +kernel

/-! ## A shape parameter that is zero -/

/-- R115: the series ends at its first term, which is zero. -/
theorem i0_of_zero {x : F64} (h : mag64 x = 0) : i0 x = some one64 := by
  have hp : i0 (pack64 false 0) = some one64 := by decide +kernel
  have hm : i0 (pack64 true 0) = some one64 := by decide +kernel
  rw [eq_pack64_of_mag_zero h]
  cases neg64 x
  · exact hp
  · exact hm

/-- R113: away from the edges the shape parameter is scaled by a number from 0.0 to 1.0. -/
theorem kaiserArg_eq_scaled {n N : Int} (beta : F64) (h0 : 0 ≤ n) (h1 : n ≤ N - 1) (h2 : 2 ≤ N) (h3 : N ≤ 2 ^ 62) :
    ∃ g : F64, g.toNat ≤ onePat ∧ kaiserArg n N beta = mul64 beta g := by
  obtain ⟨m, rfl⟩ := Int.eq_ofNat_of_zero_le h0
  obtain ⟨d, hd⟩ := Int.eq_ofNat_of_zero_le (show 0 ≤ N - 1 by omega)
  obtain ⟨neg, a, hv, ha⟩ := kaiser_offset_le (kaiser_ratio_le (n := m) (d := d) (by omega) (by omega) (by omega))
  exact ⟨_, sqrt64_le_one (kaiser_radicand_le hv ha), by rw [kaiserArg, hd]⟩

theorem mag64_kaiserArg_of_zero {n N : Int} {beta : F64} (h0 : 0 ≤ n) (h1 : n ≤ N - 1) (h2 : 2 ≤ N) (h3 : N ≤ 2 ^ 62)
    (hb : mag64 beta = 0) : mag64 (kaiserArg n N beta) = 0 := by
  obtain ⟨g, hg, e⟩ := kaiserArg_eq_scaled beta h0 h1 h2 h3
  have hfin : Finite64 g := by
    rw [Finite64, mag64_of_lt (hg.trans_lt (by norm_num))]
    exact hg.trans_lt onePat_lt
  rw [e, mul64_of_zero hb hfin, mag64_pack64 _ (Nat.zero_le _)]

/-- R113: the quotient at and between the edges. -/
theorem kaiser_eq {n N : Int} {beta g b : F64} (hg : i0 (kaiserArg n N beta) = some g) (hb : i0 beta = some b) :
    kaiser n N beta = some (div64 (if n = 0 ∨ n = N - 1 then one64 else g) b) := by
  rw [kaiser, hg, hb]
  split <;> rfl

/-- R113: all coefficients are 1.0 for a shape parameter of either zero. -/
theorem kaiser_of_zero {n N : Int} {beta : F64} (h0 : 0 ≤ n) (h1 : n ≤ N - 1) (h2 : 2 ≤ N) (h3 : N ≤ 2 ^ 62)
    (hb : mag64 beta = 0) : kaiser n N beta = some one64 := by
  have hdiv : div64 one64 one64 = one64 := by decide +kernel
  rw [kaiser_eq (i0_of_zero (mag64_kaiserArg_of_zero h0 h1 h2 h3 hb)) (i0_of_zero hb), ite_self, hdiv]

/-! ## The commands -/

variable {s : State}

theorem seriesDomain_iff {x : F64} : seriesDomain x = true ↔ le64 zero64 x = true ∧ le64 x cI0Xmax = true := by
  rw [seriesDomain, Bool.and_eq_true]

theorem execWinksr_of_kaiser {v : F64} (hc : WindowContract (s.ai 0) (s.ai 1)) (hd : seriesDomain (s.af 2) = true)
    (hv : kaiser (s.ai 0) (s.ai 1) (s.af 2) = some v) : execWinksr s = .next (s.setR 0 v).complete := by
  rw [execWinksr, if_neg (not_not.2 hc), if_neg (not_not.2 hd), hv]

theorem execWinksr_of_illegal (h : ¬ WindowContract (s.ai 0) (s.ai 1) ∨ ¬ seriesDomain (s.af 2) = true) :
    execWinksr s = .next (s.raise .badOperand) := by
  rw [execWinksr]
  by_cases hc : WindowContract (s.ai 0) (s.ai 1)
  · rw [if_neg (not_not.2 hc), if_pos (h.resolve_left (not_not.2 hc))]
  · rw [if_pos hc]

theorem execWini0_of_i0 {v : F64} (hd : seriesDomain (s.af 0) = true) (hv : i0 (s.af 0) = some v) :
    execWini0 s = .next (s.setR 0 v).complete := by
  rw [execWini0, if_pos hd, hv]

theorem execWini0_of_illegal (hd : ¬ seriesDomain (s.af 0) = true) : execWini0 s = .next (s.raise .badOperand) := if_neg hd

/-- Settles O25: one test, and at the first sample both angles are +0.0, whose cosine is fixed. -/
theorem winblkCoefficient : Obligations.WinblkCoefficient := by
  refine ⟨rfl, fun s => ⟨fun h2 h3 h0 h1 => ⟨blackman (s.ai 0) (s.ai 1), ?completes, rfl, fun hn => ?first⟩,
    fun hc => ?raises⟩⟩
  case completes => exact if_pos ⟨⟨h2, h3⟩, h0, h1⟩
  case first => rw [hn, blackman_first h2 h3]
  case raises => exact if_neg hc

/-- Settles O26: as for `WINBLK`. -/
theorem winhamCoefficient : Obligations.WinhamCoefficient := by
  refine ⟨rfl, fun s => ⟨fun h2 h3 h0 h1 => ⟨hamming (s.ai 0) (s.ai 1), ?completes, rfl, fun hn => ?first⟩,
    fun hc => ?raises⟩⟩
  case completes => exact if_pos ⟨⟨h2, h3⟩, h0, h1⟩
  case first => rw [hn, hamming_first h2 h3]
  case raises => exact if_neg hc

/-- Settles O27: within the contract both values of I0 exist, and both are 1.0 for a shape parameter that is zero. -/
theorem winksrCoefficient : Obligations.WinksrCoefficient := by
  refine ⟨rfl, fun s => ⟨fun hc hdom => ?completes, fun h => ?raises⟩⟩
  case completes =>
    have hd := seriesDomain_iff.2 hdom
    obtain ⟨⟨h2, h3⟩, h0, h1⟩ := id hc
    have h62 : s.ai 1 ≤ 2 ^ 62 := by omega
    obtain ⟨v, hv⟩ := kaiser_isSome h0 h1 h2 h62 hd
    have hval : IsKaiser (s.ai 0) (s.ai 1) (s.af 2) v := kaiser_isKaiser hv
    refine ⟨v, execWinksr_of_kaiser hc hd hv, fun hn => ?edge, fun hn1 hn2 => ?interior, fun hz => ?zero⟩
    case edge => exact (if_pos hn).mp hval
    case interior => exact (if_neg (show ¬ (s.ai 0 = 0 ∨ s.ai 0 = s.ai 1 - 1) by omega)).mp hval
    case zero => exact Option.some.inj (hv.symm.trans (kaiser_of_zero h0 h1 h2 h62 (mag64_of_eq64_zero hz)))
  case raises => exact execWinksr_of_illegal (h.imp_right (mt seriesDomain_iff.1))

/-- Settles O28: the series ends on its domain, and what it ends in is the sum of the rule. -/
theorem wini0SumsTheSeries : Obligations.Wini0SumsTheSeries := by
  refine ⟨rfl, fun s => ⟨fun h0 h1 => ?completes, fun h => execWini0_of_illegal (mt seriesDomain_iff.1 h)⟩⟩
  have hd := seriesDomain_iff.2 ⟨h0, h1⟩
  obtain ⟨v, hv⟩ := i0_isSome hd
  refine ⟨v, execWini0_of_i0 hd hv, i0_isI0 hv, fun hz => ?zero⟩
  case zero => exact Option.some.inj (hv.symm.trans (i0_of_zero (mag64_of_eq64_zero hz)))

end Sys2Proof.Machine

/-! What the filter designer's users build (R130 to R133, R151 to R153): a design whose tests pass gives the prototype of
the formula, and `FIRDES` and `RESINIT` store it. -/

namespace Sys2Proof.Machine

/-! ## The prototype -/

theorem dcSum_eq_gainSum (h : List F64) (m n : Nat) : dcSum h m n = gainSum (fun i => h.getD i zero64) m n := by
  induction n with
  | zero => rfl
  | succ n ih => rw [dcSum, gainSum, ih]

variable {nt : Nat} {gain fs fc tw att beta : F64} {win : WindowFn} {maxTaps limit : Int}

/-- R133: the scaled response is the prototype of the formula. -/
theorem isPrototype_scaleTaps {h : List F64} (hlen : h.length = nt)
    (hw : ∀ k : Nat, k < nt → ∃ w, window win k nt beta = some w ∧
      h.getD k zero64 = mul64 (sincAt (div64 (mul64 twoPi64 fc) fs) ((k : Int) - ((nt - 1) / 2 : Nat))) w) :
    IsPrototype nt gain fs fc win beta fun k => (scaleTaps gain h ((nt - 1) / 2)).getD k zero32 := by
  refine ⟨fun i => h.getD i zero64, fun i hi => ?_, fun i hi => ?_⟩
  · obtain ⟨w, hwin, e⟩ := hw i hi
    exact ⟨_, w, sincAt_isLowPass _ _, window_isWindow hwin, e⟩
  · have hi' : i < h.length := hlen.symm ▸ hi
    simp [scaleTaps, dcSum_eq_gainSum, hi']

/-- R133: only the taps below `nt` matter. -/
theorem IsPrototype.congr {tap tap' : Nat → F32} (h : IsPrototype nt gain fs fc win beta tap)
    (he : ∀ k, k < nt → tap' k = tap k) : IsPrototype nt gain fs fc win beta tap' := by
  obtain ⟨r, hr, htap⟩ := h
  exact ⟨r, hr, fun i hi => (he i hi).trans (htap i hi)⟩

/-- R130 to R133: a design whose tests all pass gives the prototype of the formula. -/
theorem designLowPass_isPrototype (hl : limit ≤ 2 ^ 62) (hv : designValid fs fc tw = true)
    (hb : win = .kaiser → seriesDomain beta = true) (ht : tapCount att fs tw maxTaps limit = .ok nt) :
    ∃ ts, designLowPass gain fs fc tw att win beta maxTaps limit = .taps ts ∧ ts.length = nt ∧
      IsPrototype nt gain fs fc win beta fun k => ts.getD k zero32 := by
  obtain ⟨h, hlen, e, hw⟩ := designLowPass_ok (gain := gain) hl hv hb ht
  exact ⟨_, e, by rw [scaleTaps_length, hlen], isPrototype_scaleTaps hlen hw⟩

theorem designValid_iff : designValid fs fc tw = true ↔
    (lt64 zero64 fs = true ∧ lt64 zero64 fc = true ∧ le64 fc (div64 fs two64) = true) ∧ lt64 zero64 tw = true := by
  simp only [designValid, Bool.and_eq_true]

/-! ## Filters -/

variable {s : State} {c : Nat}

theorem execFirdes_of_design {F : FirCtx} {ts : List F32} (hF : s.fir[c]? = some F) (h0 : 1 ≤ s.ai 0)
    (h1 : s.ai 0 ≤ 2 ^ 31 - 1)
    (hd : designLowPass (s.af 1) (s.af 2) (s.af 3) (s.af 4) (s.af 5) win (s.af 7) (s.ai 6) s.lim.tapMax = .taps ts) :
    execFirdes c win s = .next ((s.setFir c (F.built (s.ai 0) ts)).setR 0 (intResult ts.length)).complete := by
  rw [execFirdes, hF]
  dsimp only
  rw [if_neg (by omega), if_neg (by omega), hd]

/-- Settles O31: the designer's tests pass, so it gives the prototype, and the context that is built holds it. -/
theorem firdesBuildsFilter : Obligations.FirdesBuildsFilter := by
  intro s c win F nt hlim hF h0 h1 hfs hfc hny htw hbeta ht
  have hmax := tapMax_le_of_ok hlim
  obtain ⟨hodd, h3, hle⟩ := tapCount_ok ht
  obtain ⟨ts, hts, rfl, hproto⟩ := designLowPass_isPrototype (gain := s.af 1) (win := win) (beta := s.af 7) (by omega)
    (designValid_iff.2 ⟨⟨hfs, hfc, hny⟩, htw⟩) (fun hk => seriesDomain_iff.2 (hbeta hk)) ht
  have hread := FirCtx.built_read (F := F) (decim := s.ai 0) (ts := ts)
  refine ⟨F.built (s.ai 0) ts, execFirdes_of_design hF h0 h1 hts, rfl, FirCtx.built_ntaps (by omega),
    FirCtx.built_decim h0 h1, rfl, rfl, hodd, h3, by omega, hproto.congr fun k hk => ?taps,
    fun k hk => ?line, fun k hk => ?kept⟩
  case taps => simp only [hread k, if_pos hk]
  case line => simp only [hread k, if_pos hk, and_self]
  case kept => simp only [hread k, if_neg (not_lt.2 hk), and_self]

/-! ## Resamplers -/

variable {L M K : Nat}

/-- R152: the transition width and the cutoff, each by itself. -/
theorem protoBand_fst (fb : F64) : (protoBand L M fb).1 =
    if M ≤ L then sub64 cHalfband fb else mul64 (div64 (ofInt64 L) (ofInt64 M)) (sub64 cHalfband fb) := by
  rw [protoBand]
  split <;> rfl

theorem protoBand_snd (fb : F64) : (protoBand L M fb).2 =
    if M ≤ L then sub64 cHalfband (div64 (protoBand L M fb).1 two64)
    else sub64 (mul64 (div64 (ofInt64 L) (ofInt64 M)) cHalfband) (div64 (protoBand L M fb).1 two64) := by
  rw [protoBand]
  split <;> rfl

theorem resKMax_le_of_ok {l : Limits} (h : l.Ok) : l.resKMax ≤ 2 ^ 31 - 1 := by
  obtain ⟨-, -, -, -, -, ⟨-, hk⟩, -⟩ := h
  exact hk

/-- R152: the default prototype of a bandwidth that is a number is the Kaiser prototype of its band, where the tap count
fits. -/
theorem defaultPrototype_isPrototype {lim : Limits} {fbw : F64} {mtpp : Int} (hl : lim.Ok)
    (hL : 1 ≤ L ∧ L ≤ 2 ^ 31 - 1) (hM : 1 ≤ M ∧ M ≤ 2 ^ 31 - 1) (hn : isNaN64 fbw = false)
    (ht : tapCount cResAtten (ofInt64 L) (protoBand L M (clampFbw fbw)).1 (if 0 < mtpp then mtpp * L else 0)
      (L * lim.resKMax : Nat) = .ok nt) :
    ∃ P, defaultPrototype lim L M fbw mtpp = .taps P ∧ P.length = nt ∧
      IsPrototype nt (ofInt64 L) (ofInt64 L) (protoBand L M (clampFbw fbw)).2 .kaiser cResBeta fun k => P.getD k zero32 := by
  have hlimit : L * lim.resKMax ≤ (2 ^ 31 - 1) * (2 ^ 31 - 1) := Nat.mul_le_mul hL.2 (resKMax_le_of_ok hl)
  have hv := protoBand_valid hL.1 (by omega) hM.1 (by omega) hn
  have hbeta : seriesDomain cResBeta = true := by decide
  obtain ⟨P, hP, hlen, hproto⟩ := designLowPass_isPrototype (gain := ofInt64 L) (win := .kaiser) (by omega) hv
    (fun _ => hbeta) ht
  refine ⟨P, ?_, hlen, hproto⟩
  rw [defaultPrototype, if_neg (by simp [hn])]
  exact hP

theorem execResinit_of_prototype {custom : Bool} {R : ResCtx} {P : List F32} (hR : s.res[c]? = some R)
    (h0 : 1 ≤ s.ai 0 ∧ s.ai 0 ≤ 2 ^ 31 - 1) (h1 : 1 ≤ s.ai 1 ∧ s.ai 1 ≤ 2 ^ 31 - 1)
    (hL : L = (s.ai 0).toNat / Nat.gcd (s.ai 0).toNat (s.ai 1).toNat)
    (hM : M = (s.ai 1).toNat / Nat.gcd (s.ai 0).toNat (s.ai 1).toNat) (hmax : L ≤ s.lim.resLMax)
    (hP : resinitPrototype s custom L M = .taps P) (hK : subFilterLen P.length L ≤ s.lim.resKMax) :
    execResinit c custom s = .next (((s.setRes c (R.built s.lim L M (subFilterLen P.length L) P)).setR 0
      (intResult L)).setR 1 (intResult M)).complete := by
  rw [execResinit, hR]
  dsimp only
  rw [← hL, ← hM, ← resinitPrototype, if_neg (by omega), if_neg (by omega), if_neg (by omega), hP]
  dsimp only
  rw [if_neg (by omega)]

/-- R153: the delay line of a context that is built is cleared as far as its sub-filters reach. -/
theorem ResCtx.built_line {R : ResCtx} {lim : Limits} {P : List F32} (k : Nat) :
    (R.built lim L M K P).dre.read k = (if k < K then zero32 else R.dre.read k) ∧
      (R.built lim L M K P).dim.read k = if k < K then zero32 else R.dim.read k := by
  simp [ResCtx.built, Mem.read_fill]

/-- Settles O39: the designer's validation always passes for the default band, so the tap count alone decides, and the
context that is built holds the prototype in its phases. -/
theorem resinitDesignsPrototype : Obligations.ResinitDesignsPrototype := by
  intro s c R nt hlim hR h0 h0' h1 h1' hn g L M fbLow fb rate tw mid mt K hmax ht hK
  obtain ⟨⟨a1, a2⟩, ⟨b1, b2⟩, hco⟩ := reduced_pair (l := (s.ai 0).toNat) (m := (s.ai 1).toNat) (by omega) (by omega)
  have hL : 1 ≤ L ∧ L ≤ 2 ^ 31 - 1 := ⟨a1, a2.trans (by omega)⟩
  have hM : 1 ≤ M ∧ M ≤ 2 ^ 31 - 1 := ⟨b1, b2.trans (by omega)⟩
  have htw : (protoBand L M (clampFbw (s.af 2))).1 = tw := protoBand_fst fb
  have hmid : (protoBand L M (clampFbw (s.af 2))).2 = mid := by rw [protoBand_snd, htw]
  obtain ⟨P, hP, rfl, hproto⟩ := defaultPrototype_isPrototype hlim hL hM hn (htw ▸ ht)
  have hK' := resKMax_le_of_ok hlim
  obtain ⟨hfacL, hfacM, hsub⟩ := ResCtx.built_sizes (R := R) (lim := s.lim) (P := P) (show L < 2 ^ 32 by omega)
    (show M < 2 ^ 32 by omega) (show K < 2 ^ 32 by omega)
  exact ⟨R.built s.lim L M K P, fun k => P.getD k zero32,
    execResinit_of_prototype hR ⟨h0, h0'⟩ ⟨h1, h1'⟩ rfl rfl hmax ((resinitPrototype_default s L M).trans hP) hK,
    rfl, hfacL, hfacM, hco, hsub, rfl, rfl, hmid ▸ hproto, splitPhases_read hK L, ResCtx.built_line⟩

end Sys2Proof.Machine

/-! The rational approximation (R120 to R123) in rational numbers: distances from the target, which of two equally near
fractions the search takes, and the command. -/

namespace Sys2Proof.Machine

/-! ## Distances -/

theorem abs_sub_eq_fracError {n d p q : Nat} (hd : 1 ≤ d) (hq : 1 ≤ q) :
    |(n : ℚ) / d - (p : ℚ) / q| = fracError n d p q / (d * q) := by
  have hd' : (d : ℚ) ≠ 0 := Nat.cast_ne_zero.2 (by omega)
  have hq' : (q : ℚ) ≠ 0 := Nat.cast_ne_zero.2 (by omega)
  have hpos : (0 : ℚ) < d * q := by positivity
  have e : ((fracError n d p q : Nat) : ℚ) = |(p : ℚ) * d - n * q| := by
    rw [fracError, Nat.cast_natAbs]
    push_cast
    rfl
  rw [e, abs_sub_comm, div_sub_div _ _ hq' hd', abs_div, mul_comm (q : ℚ) n, mul_comm (q : ℚ) d, abs_of_pos hpos]

/-- The search compares errors multiplied by the denominators. -/
theorem abs_sub_le_iff_fracError {n d p q p' q' : Nat} (hd : 1 ≤ d) (hq : 1 ≤ q) (hq' : 1 ≤ q') :
    |(n : ℚ) / d - (p : ℚ) / q| ≤ |(n : ℚ) / d - (p' : ℚ) / q'| ↔ fracError n d p q * q' ≤ fracError n d p' q' * q := by
  have h0 : (0 : ℚ) < d := by positivity
  have h1 : (0 : ℚ) < d * q := by positivity
  have h2 : (0 : ℚ) < d * q' := by positivity
  rw [abs_sub_eq_fracError hd hq, abs_sub_eq_fracError hd hq', div_le_div_iff₀ h1 h2, mul_left_comm,
    mul_left_comm _ (d : ℚ), mul_le_mul_iff_right₀ h0]
  exact_mod_cast Iff.rfl

theorem abs_sub_lt_iff_fracError {n d p q p' q' : Nat} (hd : 1 ≤ d) (hq : 1 ≤ q) (hq' : 1 ≤ q') :
    |(n : ℚ) / d - (p : ℚ) / q| < |(n : ℚ) / d - (p' : ℚ) / q'| ↔ fracError n d p q * q' < fracError n d p' q' * q :=
  lt_iff_lt_of_le_iff_le (abs_sub_le_iff_fracError hd hq' hq)

/-- The bounds are compared by cross-multiplication. -/
theorem div_le_div_iff_nat {p q p' q' : Nat} (hq : 1 ≤ q) (hq' : 1 ≤ q') :
    (p : ℚ) / q ≤ (p' : ℚ) / q' ↔ p * q' ≤ p' * q := by
  rw [div_le_div_iff₀ (by positivity) (by positivity)]
  exact_mod_cast Iff.rfl

theorem div_lt_div_iff_nat {p q p' q' : Nat} (hq : 1 ≤ q) (hq' : 1 ≤ q') :
    (p : ℚ) / q < (p' : ℚ) / q' ↔ p * q' < p' * q :=
  lt_iff_lt_of_le_iff_le (div_le_div_iff_nat hq' hq)

/-- Two numbers equally far from the target lie on both sides of it. -/
theorem between_of_abs_sub_eq {t x y : ℚ} (h : |t - x| = |t - y|) (hlt : y < x) : y < t ∧ t < x := by
  rcases abs_eq_abs.1 h with he | he <;> constructor <;> linarith

/-! ## Ties -/

variable {n d maxd p q : Nat} {b : Bounds}

/-- R121: the upper bound is taken only where its error is strictly smaller. -/
theorem Bounds.Around.nearest_cases (hb : b.Around n d maxd) (hd : 1 ≤ d) (hud : 1 ≤ b.ud) :
    b.nearest n d = (b.ln, b.ld) ∨
      b.nearest n d = (b.un, b.ud) ∧ |(n : ℚ) / d - (b.un : ℚ) / b.ud| < |(n : ℚ) / d - (b.ln : ℚ) / b.ld| := by
  rw [abs_sub_lt_iff_fracError hd hud hb.ld_pos]
  unfold Bounds.nearest
  dsimp only
  split
  · rename_i hc; exact .inr ⟨rfl, hc.2⟩
  · exact .inl rfl

/-- A fraction in range below the target is at most the lower bound. -/
theorem Bounds.Around.le_lower (hb : b.Around n d maxd) (hd : 1 ≤ d) (hud : 1 ≤ b.ud) (hx : maxd < b.ld + b.ud)
    (hq : 1 ≤ q) (hqm : q ≤ maxd) (hlt : (p : ℚ) / q < (n : ℚ) / d) : (p : ℚ) / q ≤ (b.ln : ℚ) / b.ld := by
  have habove : (n : ℚ) / d < (b.un : ℚ) / b.ud := (div_lt_div_iff_nat hd hud).2 hb.above
  refine (div_le_div_iff_nat hq hb.ld_pos).2 ((hb.outside hx hqm).resolve_right fun h => ?_)
  exact absurd ((div_le_div_iff_nat hud hq).2 h) (hlt.trans habove).not_ge

/-- R122 (c): of two equally near fractions the search takes the lower. -/
theorem Bounds.Around.nearest_tie (hb : b.Around n d maxd) (hd : 1 ≤ d) (hm : 1 ≤ maxd) (hx : maxd < b.ld + b.ud)
    (hq : 1 ≤ q) (hqm : q ≤ maxd)
    (htie : |(n : ℚ) / d - ((b.nearest n d).1 : ℚ) / (b.nearest n d).2| = |(n : ℚ) / d - (p : ℚ) / q|) :
    ((b.nearest n d).1 : ℚ) / (b.nearest n d).2 ≤ (p : ℚ) / q := by
  have hud := hb.ud_pos hm hx
  have hbelow : (b.ln : ℚ) / b.ld < (n : ℚ) / d := (div_lt_div_iff_nat hb.ld_pos hd).2 hb.below
  by_contra hc
  obtain ⟨hp, hn⟩ := between_of_abs_sub_eq htie (not_le.1 hc)
  rcases hb.nearest_cases hd hud with e | ⟨e, hlt⟩
  case inl => rw [e] at hn; exact lt_asymm hbelow hn
  case inr =>
    rw [e] at htie
    rw [htie, abs_of_pos (sub_pos.2 hp), abs_of_pos (sub_pos.2 hbelow)] at hlt
    linarith [hb.le_lower hd hud hx hq hqm hp]

/-! ## The approximation -/

variable {num den : Nat}

/-- U5: the fuel covers the mediants that are left at the start. -/
theorem Bounds.start_left_lt_fuel (n d maxd : Nat) : Bounds.start.left n d maxd < mediantFuel n d maxd :=
  Nat.lt_succ_self (n / d + maxd + 1)

/-- R121: the approximation is the reduced target itself, or the nearer of two bounds around it. -/
theorem ratApprox_cases (h1 : 1 ≤ num) (h2 : 1 ≤ den) (hm : 1 ≤ maxd) (h : ratApprox num den maxd = some (n, d)) :
    (n : ℚ) / d = (num : ℚ) / den ∨
      ∃ (n' d' : Nat) (b : Bounds), 1 ≤ d' ∧ (n' : ℚ) / d' = (num : ℚ) / den ∧ b.Around n' d' maxd ∧
        maxd < b.ld + b.ud ∧ b.nearest n' d' = (n, d) := by
  obtain ⟨⟨hn, -⟩, ⟨hd, -⟩, hco⟩ := reduced_pair h1 h2
  have ht : ((num / Nat.gcd num den : Nat) : ℚ) / (den / Nat.gcd num den : Nat) = (num : ℚ) / den :=
    Nat.cast_div_div_div_cancel_right (Nat.gcd_dvd_right num den) (Nat.gcd_dvd_left num den)
  unfold ratApprox at h
  dsimp only at h
  split at h
  · obtain ⟨rfl, rfl⟩ := Prod.mk.inj (Option.some.inj h)
    exact .inl ht
  · obtain ⟨b, e, hb, hx⟩ := mediantSearch_spec hco (by omega) _ _ (Bounds.start_around hn hd hm)
      (Bounds.start_left_lt_fuel _ _ _)
    rw [e] at h
    exact .inr ⟨_, _, b, hd, ht, hb, hx, Option.some.inj h⟩

/-- R122 (c): of two equally near fractions the approximation is the lower. -/
theorem ratApprox_tie (h1 : 1 ≤ num) (h2 : 1 ≤ den) (hm : 1 ≤ maxd) (h : ratApprox num den maxd = some (n, d))
    (hq : 1 ≤ q) (hqm : q ≤ maxd)
    (htie : |(num : ℚ) / den - (n : ℚ) / d| = |(num : ℚ) / den - (p : ℚ) / q|) : (n : ℚ) / d ≤ (p : ℚ) / q := by
  rcases ratApprox_cases h1 h2 hm h with ht | ⟨n', d', b, hd', ht, hb, hx, e⟩
  case inl =>
    rw [ht, sub_self, abs_zero] at htie
    rw [ht, sub_eq_zero.1 (abs_eq_zero.1 htie.symm)]
  case inr =>
    have := hb.nearest_tie (p := p) hd' hm hx hq hqm
    rw [e, ht] at this
    exact this htie

/-! ## The command -/

variable {s : State}

theorem execRatapx_of_approx (h : RatOperand (s.ai 0) ∧ RatOperand (s.ai 1) ∧ RatOperand (s.ai 2))
    (ha : ratApprox (s.ai 0).toNat (s.ai 1).toNat (s.ai 2).toNat = some (n, d)) :
    execRatapx s = .next ((s.setR 0 (intResult n)).setR 1 (intResult d)).complete := by
  rw [execRatapx, if_pos h, ha]

theorem execRatapx_of_illegal (h : ¬ (RatOperand (s.ai 0) ∧ RatOperand (s.ai 1) ∧ RatOperand (s.ai 2))) :
    execRatapx s = .next (s.raise .badOperand) := if_neg h

/-- Settles O29: the two bounds that the search ends with enclose the target, every fraction in range lies outside them,
and the upper one is taken only where it is strictly nearer. -/
theorem ratapxFindsBestFraction : Obligations.RatapxFindsBestFraction := by
  refine ⟨rfl, fun s => ⟨fun hlegal => ?completes, execRatapx_of_illegal⟩⟩
  obtain ⟨num, hnum⟩ := Int.eq_ofNat_of_zero_le (show 0 ≤ s.ai 0 by omega)
  obtain ⟨den, hden⟩ := Int.eq_ofNat_of_zero_le (show 0 ≤ s.ai 1 by omega)
  obtain ⟨maxd, hmaxd⟩ := Int.eq_ofNat_of_zero_le (show 0 ≤ s.ai 2 by omega)
  have h1 : 1 ≤ num ∧ num ≤ 2 ^ 32 - 1 := by omega
  have h2 : 1 ≤ den := by omega
  have h3 : 1 ≤ maxd ∧ maxd ≤ 2 ^ 32 - 1 := by omega
  obtain ⟨n, d, ha, hd, hdm, hco, hbest⟩ := ratApprox_spec h1.1 h2 h3.1
  refine ⟨n, d, execRatapx_of_approx hlegal (by rw [hnum, hden, hmaxd]; exact ha), ?fits, hd, ?bounded, hco,
    fun p q hq hqm => ?best⟩
  case fits => exact ratApprox_lt h1.2 h2 (hdm.trans h3.2) h3.1 hbest
  case bounded => omega
  case best =>
    have hqm' : q ≤ maxd := by omega
    simp only [hnum, hden, Int.cast_natCast]
    exact ⟨(abs_sub_le_iff_fracError h2 hd hq).2 (hbest p q hq hqm'), ratApprox_tie h1.1 h2 h3.1 ha hq hqm'⟩

end Sys2Proof.Machine

/-! The tests of the streaming commands (R134, R136, R156, R173, R178, R193), one lemma per branch, and what a length of 0
leaves (R139). -/

namespace Sys2Proof.Machine

variable {s : State} {ch : Channels} {c p q : Nat} {F : FirCtx} {R : ResCtx} {C : CnvCtx} {B : RawSlot} {inp out : Packet}

/-- Slots that are all there are not out of range. -/
theorem not_missing {α β γ : Type} {l : List α} {m : List β} {n : List γ} {x : α} {y : β} {z : γ} (hx : l[c]? = some x)
    (hy : m[p]? = some y) (hz : n[q]? = some z) : ¬ (l.length ≤ c ∨ m.length ≤ p ∨ n.length ≤ q) := by
  have := (List.getElem?_eq_some_iff.1 hx).1
  have := (List.getElem?_eq_some_iff.1 hy).1
  have := (List.getElem?_eq_some_iff.1 hz).1
  omega

/-! ## Filters -/

theorem firFilter_of_missing (h : s.fir.length ≤ c ∨ s.pkt.length ≤ p ∨ s.pkt.length ≤ q) :
    firFilter ch c p q s = .next (s.raise .badIndex) := by
  unfold firFilter
  split
  · rename_i hF hp hq
    exact absurd h (not_missing hF hp hq)
  · rfl

section

variable (hF : s.fir[c]? = some F) (hp : s.pkt[p]? = some inp) (hq : s.pkt[q]? = some out)

include hF hp hq

theorem firFilter_of_invalid (hv : F.valid = false) : firFilter ch c p q s = .next (s.raise .notConstructed) := by
  rw [firFilter, hF, hp, hq]
  exact if_pos hv

theorem firFilter_of_not_operands (hv : F.valid = true)
    (hops : ¬ StreamOperands s.lim p q inp out (s.ai 0) (s.ai 1)) :
    firFilter ch c p q s = .next (s.raise .badOperand) := by
  rw [firFilter, hF, hp, hq]
  dsimp only
  rw [if_neg (by simp [hv]), if_pos hops]

/-- R134, R137: a filter command that passes its tests writes its context, its output packet, `r[0]` and the code. -/
theorem firFilter_of_operands (hv : F.valid = true) (hops : StreamOperands s.lim p q inp out (s.ai 0) (s.ai 1)) :
    firFilter ch c p q s = .next
      { s with
        fir := s.fir.set c (firRun ch F inp out (s.ai 0).toNat (s.ai 1).toNat).ctx
        pkt := s.pkt.set q (firOutput inp out (firRun ch F inp out (s.ai 0).toNat (s.ai 1).toNat))
        r := s.r.set 0 (intResult (firRun ch F inp out (s.ai 0).toNat (s.ai 1).toNat).i), status := 0 } := by
  rw [firFilter, hF, hp, hq]
  dsimp only
  rw [if_neg (by simp [hv]), if_neg (not_not.2 hops)]
  rfl

end

/-! ## The resampler -/

theorem execResamp_of_missing (h : s.res.length ≤ c ∨ s.pkt.length ≤ p ∨ s.pkt.length ≤ q) :
    execResamp c p q s = .next (s.raise .badIndex) := by
  unfold execResamp
  split
  · rename_i hR hp hq
    exact absurd h (not_missing hR hp hq)
  · rfl

section

variable (hR : s.res[c]? = some R) (hp : s.pkt[p]? = some inp) (hq : s.pkt[q]? = some out)

include hR hp hq

theorem execResamp_of_invalid (hv : R.valid = false) : execResamp c p q s = .next (s.raise .notConstructed) := by
  rw [execResamp, hR, hp, hq]
  exact if_pos hv

/-- R156, R159: operands that are not legal, or an output rate that does not fit its field. -/
theorem execResamp_of_not_operands (hv : R.valid = true)
    (hbad : ¬ StreamOperands s.lim p q inp out (s.ai 0) (s.ai 1) ∨
      2 ^ 32 - 1 < resRate inp.rate.toNat R.facL.toNat R.facM.toNat) :
    execResamp c p q s = .next (s.raise .badOperand) := by
  rw [execResamp, hR, hp, hq]
  dsimp only
  rw [if_neg (by simp [hv])]
  split
  · rfl
  · rename_i hops
    exact if_pos (hbad.resolve_left hops)

/-- R156: a `RESAMP` that passes its tests writes its context, its output packet, `r[0]` and the code. -/
theorem execResamp_of_operands (hv : R.valid = true) (hops : StreamOperands s.lim p q inp out (s.ai 0) (s.ai 1))
    (hrate : resRate inp.rate.toNat R.facL.toNat R.facM.toNat ≤ 2 ^ 32 - 1) :
    execResamp c p q s = .next
      { s with
        res := s.res.set c (resRun s.lim R inp out (s.ai 0).toNat (s.ai 1).toNat).ctx
        pkt := s.pkt.set q (resOutput inp out (resRate inp.rate.toNat R.facL.toNat R.facM.toNat)
          (resRun s.lim R inp out (s.ai 0).toNat (s.ai 1).toNat))
        r := s.r.set 0 (intResult (resRun s.lim R inp out (s.ai 0).toNat (s.ai 1).toNat).cnt), status := 0 } := by
  rw [execResamp, hR, hp, hq]
  dsimp only
  rw [if_neg (by simp [hv]), if_neg (not_not.2 hops), if_neg (not_lt.2 hrate)]
  rfl

end

/-! ## Converters -/

theorem execCnvfill_of_missing (h : s.cnv.length ≤ c ∨ s.raw.length ≤ p ∨ s.pkt.length ≤ q) :
    execCnvfill c p q s = .next (s.raise .badIndex) := by
  unfold execCnvfill
  split
  · rename_i hC hB hq
    exact absurd h (not_missing hC hB hq)
  · rfl

theorem execCnvmix_of_missing (h : s.cnv.length ≤ c ∨ s.raw.length ≤ p ∨ s.pkt.length ≤ q) :
    execCnvmix c p q s = .next (s.raise .badIndex) := by
  unfold execCnvmix
  split
  · rename_i hC hB hq
    exact absurd h (not_missing hC hB hq)
  · rfl

section

variable (hC : s.cnv[c]? = some C) (hB : s.raw[p]? = some B) (hq : s.pkt[q]? = some out)

include hC hB hq

theorem execCnvfill_of_invalid (hv : C.valid = false) : execCnvfill c p q s = .next (s.raise .notConstructed) := by
  rw [execCnvfill, hC, hB, hq]
  exact if_pos hv

theorem execCnvmix_of_invalid (hv : C.valid = false) : execCnvmix c p q s = .next (s.raise .notConstructed) := by
  rw [execCnvmix, hC, hB, hq]
  exact if_pos hv

theorem execCnvfill_of_not_operands (hv : C.valid = true) (hbad : ¬ (RawOK s.lim B ∧ PktOK s.lim out)) :
    execCnvfill c p q s = .next (s.raise .badOperand) := by
  rw [execCnvfill, hC, hB, hq]
  dsimp only
  rw [if_neg (by simp [hv]), if_pos hbad]

/-- R178: a buffer that is not in order, or a frequency out of range. -/
theorem execCnvmix_of_not_operands (hv : C.valid = true)
    (hbad : ¬ (RawOK s.lim B ∧ PktOK s.lim out) ∨ ¬ FreqInRange (s.ai 0)) :
    execCnvmix c p q s = .next (s.raise .badOperand) := by
  rw [execCnvmix, hC, hB, hq]
  dsimp only
  rw [if_neg (by simp [hv])]
  split
  · rfl
  · rename_i hok
    exact if_pos (hbad.resolve_left (not_not.2 (not_not.1 hok)))

end

/-! ## Every streaming command -/

/-- Settles O35: the branches that the failing tests take. -/
theorem streamErrorsInOrder : Obligations.StreamErrorsInOrder := by
  refine fun s c p q => ⟨fun h => ⟨firFilter_of_missing h, firFilter_of_missing h⟩, execResamp_of_missing,
    fun h => ⟨execCnvfill_of_missing h, execCnvmix_of_missing h⟩, fun F inp out hF hp hq => ⟨fun hv => ?_, fun hv h => ?_⟩,
    fun R inp out hR hp hq => ⟨execResamp_of_invalid hR hp hq, execResamp_of_not_operands hR hp hq⟩,
    fun C B out hC hB hq => ⟨fun hv => ?_, fun hv h => ?_, fun hv _ _ h => ?_⟩⟩
  · exact ⟨firFilter_of_invalid hF hp hq hv, firFilter_of_invalid hF hp hq hv⟩
  · exact ⟨firFilter_of_not_operands hF hp hq hv h, firFilter_of_not_operands hF hp hq hv h⟩
  · exact ⟨execCnvfill_of_invalid hC hB hq hv, execCnvmix_of_invalid hC hB hq hv⟩
  · exact ⟨execCnvfill_of_not_operands hC hB hq hv h, execCnvmix_of_not_operands hC hB hq hv (.inl h)⟩
  · exact execCnvmix_of_not_operands hC hB hq hv (.inr h)

/-! ## No samples -/

theorem set_eq_self_of_getElem? {α : Type} {l : List α} {i : Nat} {a : α} (h : l[i]? = some a) : l.set i a = l := by
  obtain ⟨hi, rfl⟩ := List.getElem?_eq_some_iff.1 h
  exact List.set_getElem_self hi

/-- R139: a filter command of length 0 rewrites the rate of its output packet and its results. -/
theorem firFilter_of_length_zero (hF : s.fir[c]? = some F) (hp : s.pkt[p]? = some inp) (hq : s.pkt[q]? = some out)
    (hv : F.valid = true) (hops : StreamOperands s.lim p q inp out (s.ai 0) (s.ai 1)) (hlen : s.ai 1 = 0) :
    firFilter ch c p q s = .next { s with
      pkt := s.pkt.set q { out with rate := BitVec.ofNat 32 (inp.rate.toNat / F.decim.toNat) }
      r := s.r.set 0 0, status := 0 } := by
  rw [firFilter_of_operands hF hp hq hv hops, hlen]
  simp only [firRun, Int.toNat_zero, firLoop, firOutput, BitVec.ofNat_toNat, BitVec.setWidth_eq,
    set_eq_self_of_getElem? hF]
  rfl

/-- R139: a `RESAMP` of length 0 enters neither of its loops, whatever room there is. -/
theorem resRun_zero (l : Limits) (R : ResCtx) (inp out : Packet) (off : Nat) :
    resRun l R inp out off 0 = { ctx := R, re := out.re, im := out.im, o := out.size.toNat, cnt := 0 } := by
  rw [resRun, resDrain]
  cases out.cap.toNat - out.size.toNat with
  | zero => rfl
  | succ room => rw [resLoop, if_neg (Nat.lt_irrefl 0)]

/-- R139, R159: a `RESAMP` of length 0 rewrites the rate and the frequency of its output packet and its results. -/
theorem execResamp_of_length_zero (hR : s.res[c]? = some R) (hp : s.pkt[p]? = some inp) (hq : s.pkt[q]? = some out)
    (hv : R.valid = true) (hops : StreamOperands s.lim p q inp out (s.ai 0) (s.ai 1)) (hlen : s.ai 1 = 0)
    (hrate : resRate inp.rate.toNat R.facL.toNat R.facM.toNat ≤ 2 ^ 32 - 1) :
    execResamp c p q s = .next { s with
      pkt := s.pkt.set q { out with
        rate := BitVec.ofNat 32 (resRate inp.rate.toNat R.facL.toNat R.facM.toNat)
        freq := inp.freq, freqValid := inp.freqValid }
      r := s.r.set 0 0, status := 0 } := by
  rw [execResamp_of_operands hR hp hq hv hops hrate, hlen]
  simp only [Int.toNat_zero, resRun_zero, resOutput, BitVec.ofNat_toNat, BitVec.setWidth_eq, set_eq_self_of_getElem? hR]
  rfl

/-- Settles O36: over no samples each loop ends where it starts. -/
theorem zeroLengthCompletes : Obligations.ZeroLengthCompletes := by
  refine fun s c p q inp out hp hq hops hlen => ⟨fun F hF hv => ?_, fun R hR hv hrate => ?_⟩
  · exact ⟨firFilter_of_length_zero hF hp hq hv hops hlen, firFilter_of_length_zero hF hp hq hv hops hlen⟩
  · exact execResamp_of_length_zero hR hp hq hv hops hlen hrate

end Sys2Proof.Machine

/-! What a filter command leaves (R134 to R138): the delay line, the output packet, and on the real channel alone what it
neither reads nor writes. -/

namespace Sys2Proof.Machine

/-! ## The delay line -/

theorem read_pushSamples_of_le (line : Mem 32) (x : Nat → F32) (cur : Nat) {N j : Nat} (hN : 0 < N) (hj : N ≤ j) :
    ∀ m, (pushSamples line x cur N m).read j = line.read j := by
  intro m
  induction m with
  | zero => rfl
  | succ m ih =>
    have hlt := Nat.mod_lt (cur + m) hN
    rw [pushSamples, Mem.read_write_ne _ _ (by omega), ih]

/-- R134, R135: the delay line after `n` of `len` samples, the sample of an early stop put in behind them. -/
theorem lineAfter_pushSamples (line : Mem 32) (x : Nat → F32) (cur : Nat) {N : Nat} (hN : 0 < N) (n len : Nat) :
    LineAfter N cur line (pushSamples line x cur N (if n < len then n + 1 else n)) x n len := by
  refine ⟨fun j hj => read_pushSamples_of_le line x cur hN hj _, fun k hk => ?_⟩
  by_cases hstop : n < len
  · rw [if_pos hstop]
    by_cases hlast : k = N - 1
    · have h := read_pushSamples line x cur N n 0 hN
      rw [if_pos (Nat.zero_le n), Nat.sub_zero, Nat.sub_zero, Nat.add_mod_right] at h
      rw [if_pos ⟨hstop, hlast⟩, show cur + n + N - 1 - k = cur + n by omega, h]
    · have h := read_pushSamples line x cur N n (k + 1) (by omega)
      rw [if_neg fun hc => hlast hc.2, show cur + n + N - 1 - k = cur + n + N - (k + 1) by omega, h, Nat.sub_sub,
        Nat.add_comm 1 k]
      rfl
  · rw [if_neg hstop, if_neg fun hc => hstop hc.1]
    cases n with
    | zero => rw [if_neg (Nat.not_lt_zero k)]; rfl
    | succ m =>
      rw [show cur + (m + 1) + N - 1 - k = cur + m + N - k by omega, read_pushSamples line x cur N m k hk]
      simp only [Nat.lt_succ_iff, Nat.add_sub_cancel]

/-! ## Both channels -/

variable {ch : Channels} {F : FirCtx} {inp out : Packet} {off len : Nat}

/-- R135: a command that stops early stops at a sample that is due, all room taken. -/
theorem FirCtx.stop_of_consumed_lt (hd : F.decCur.toNat < F.decim.toNat) {room : Nat} (h : F.consumed room len < len) :
    (F.decCur.toNat + F.consumed room len) % F.decim.toNat = 0 ∧ F.produced (F.consumed room len) = room := by
  have hn : F.consumed room len = F.firstDue + room * F.decim.toNat := by
    unfold FirCtx.consumed at h ⊢
    omega
  have hdue : (F.decCur.toNat + F.consumed room len) % F.decim.toNat = 0 := (dueAt hd _).2 ⟨room, hn⟩
  refine ⟨hdue, ?_⟩
  have hstep := (F.due_step hd _).2 hdue
  exact Nat.eq_of_mul_eq_mul_right (Nat.zero_lt_of_lt hd) (by omega)

/-- R134 to R138: what a filter command over `len` samples from `off` on, `n` of which it consumes, makes of its context
and of its output packet, the imaginary channel apart. -/
structure Streamed (F : FirCtx) (inp out : Packet) (off len n : Nat) (G : FirCtx) (P : Packet) : Prop where
  stop : n < len →
    (F.decCur.toNat + n) % F.decim.toNat = 0 ∧ F.produced n = out.cap.toNat - out.size.toNat
  kept : G.valid = F.valid ∧ G.ntaps = F.ntaps ∧ G.decim = F.decim ∧ G.taps = F.taps
  tapCur : G.tapCur.toNat = (F.tapCur.toNat + n) % F.ntaps.toNat
  decCur : G.decCur.toNat = (F.decCur.toNat + n) % F.decim.toNat
  dre : LineAfter F.ntaps.toNat F.tapCur.toNat F.dre G.dre (fun j => inp.re.read (off + j)) n len
  size : P.size.toNat = out.size.toNat + F.produced n
  room : F.produced n ≤ out.cap.toNat - out.size.toNat
  rate : P.rate.toNat = inp.rate.toNat / F.decim.toNat
  re : Appended out.re P.re out.size.toNat (F.produced n)
    fun j => F.outputAt F.dre (fun j => inp.re.read (off + j)) (F.firstDue + j * F.decim.toNat)

section Runs

variable {n : Nat} (ht : F.tapCur.toNat < F.ntaps.toNat) (hd : F.decCur.toNat < F.decim.toNat)
  (hcap : out.size.toNat ≤ out.cap.toNat) (hn : n = F.consumed (out.cap.toNat - out.size.toNat) len)

include ht hd hcap hn

/-- Where a filter command ends, the count of samples given by its formula. -/
theorem firAt_firRun (ch : Channels) (inp : Packet) (off : Nat) :
    F.produced n ≤ out.cap.toNat - out.size.toNat ∧
      FirAt ch F inp out off n (if n < len then n + 1 else n) (firRun ch F inp out off len) := by
  obtain ⟨m, hm, hroom, h⟩ := firRun_spec (ch := ch) (inp := inp) (off := off) ht hd hcap len
  obtain rfl : n = m := hn.trans hm.symm
  exact ⟨hroom, h⟩

theorem firRun_streamed (ch : Channels) (inp : Packet) (off : Nat) :
    Streamed F inp out off len n (firRun ch F inp out off len).ctx (firOutput inp out (firRun ch F inp out off len)) := by
  obtain ⟨hroom, h⟩ := firAt_firRun ht hd hcap hn ch inp off
  have hrate := (inp.rate.toNat.div_le_self F.decim.toNat).trans_lt inp.rate.isLt
  have hsize := out.cap.isLt
  constructor
  case stop => rw [hn]; exact FirCtx.stop_of_consumed_lt hd
  case kept => rw [h.ctx]; exact ⟨rfl, rfl, rfl, rfl⟩
  case tapCur => rw [h.ctx]; exact FirCtx.after_tapCur ht _ _ _ _
  case decCur => rw [h.ctx]; exact FirCtx.after_decCur hd _ _ _ _
  case dre => rw [h.ctx]; exact lineAfter_pushSamples _ _ _ (Nat.zero_lt_of_lt ht) _ _
  case size => rw [firOutput, h.o]; exact Nat.mod_eq_of_lt (by omega)
  case room => exact hroom
  case rate => rw [firOutput, h.ctx]; exact Nat.mod_eq_of_lt hrate
  case re => exact h.re

/-- R134, R138: the imaginary channel of a `FIRFLT`. -/
theorem firRun_streamed_im (inp : Packet) (off : Nat) :
    LineAfter F.ntaps.toNat F.tapCur.toNat F.dim (firRun .both F inp out off len).ctx.dim
      (fun j => inp.im.read (off + j)) n len ∧
    Appended out.im (firOutput inp out (firRun .both F inp out off len)).im out.size.toNat (F.produced n)
      fun j => F.outputAt F.dim (fun j => inp.im.read (off + j)) (F.firstDue + j * F.decim.toNat) := by
  obtain ⟨-, h⟩ := firAt_firRun ht hd hcap hn .both inp off
  refine ⟨?_, fun idx => (h.im idx).trans (if_pos rfl)⟩
  rw [h.ctx]
  exact lineAfter_pushSamples _ _ _ (Nat.zero_lt_of_lt ht) _ _

end Runs

variable {s : State} {c p q : Nat}

/-- R134, R135: a filter command on a context that is in order, the count in `r[0]` given by its formula. -/
theorem firFilter_of_ok (hF : s.fir[c]? = some F) (hp : s.pkt[p]? = some inp) (hq : s.pkt[q]? = some out)
    (hv : F.valid = true) (hok : F.Ok s.lim) (hops : StreamOperands s.lim p q inp out (s.ai 0) (s.ai 1)) :
    firFilter ch c p q s = .next
      { s with
        fir := s.fir.set c (firRun ch F inp out (s.ai 0).toNat (s.ai 1).toNat).ctx
        pkt := s.pkt.set q (firOutput inp out (firRun ch F inp out (s.ai 0).toNat (s.ai 1).toNat))
        r := s.r.set 0 (intResult (F.consumed (out.cap.toNat - out.size.toNat) (s.ai 1).toNat)), status := 0 } := by
  have ⟨_, _, ⟨hcap, _⟩, _⟩ := hops
  obtain ⟨-, hrun⟩ := firAt_firRun hok.tapCur_lt hok.decCur_lt hcap rfl ch inp (s.ai 0).toNat
  rw [← hrun.i]
  exact firFilter_of_operands hF hp hq hv hops

/-- Settles O33: the loop of the command on both channels, and the state it is put back into. -/
theorem firfltStreams : Obligations.FirfltStreams := by
  intro s c p q F inp out hF hp hq hv hok hops off len room n xr xi
  have ⟨_, _, ⟨hcap, _⟩, _⟩ := hops
  obtain ⟨hstop, ⟨hv', hnt, hde, hta⟩, htap, hdec, hdre, hsize, hroom, hrate, hre⟩ :=
    firRun_streamed hok.tapCur_lt hok.decCur_lt hcap (show n = _ from rfl) .both inp off
  obtain ⟨hdim, him⟩ := firRun_streamed_im hok.tapCur_lt hok.decCur_lt hcap (show n = _ from rfl) inp off
  exact ⟨(firRun .both F inp out off len).ctx, firOutput inp out (firRun .both F inp out off len),
    firFilter_of_ok hF hp hq hv hok hops, hstop, hv'.trans hv, hnt, hde, hta, htap, hdec, hdre, hdim, rfl, rfl, rfl,
    hsize, hroom, hrate, hre, him⟩

/-! ## The real channel alone -/

/-- R136: a `FIRFLTR` writes no imaginary delay line and no imaginary output. -/
theorem firLoop_realOnly_im (inp : Packet) (off cap : Nat) : ∀ (n : Nat) (x : FirRun),
    (firLoop .realOnly inp off cap n x).ctx.dim = x.ctx.dim ∧ (firLoop .realOnly inp off cap n x).im = x.im := by
  intro n
  induction n with
  | zero => exact fun _ => ⟨rfl, rfl⟩
  | succ n ih =>
    intro x
    rw [firLoop]
    split
    · split
      · exact ⟨rfl, rfl⟩
      · exact ih _
    · exact ih _

/-- R136: a `FIRFLTR` reads no imaginary input. -/
theorem firLoop_realOnly_withIm (inp : Packet) (m : Mem 32) (off cap : Nat) : ∀ (n : Nat) (x : FirRun),
    firLoop .realOnly { inp with im := m } off cap n x = firLoop .realOnly inp off cap n x := by
  intro n
  induction n with
  | zero => exact fun _ => rfl
  | succ n ih =>
    intro x
    rw [firLoop, firLoop, ih, ih]
    rfl

/-- R136: replacing the imaginary parts of the input is a change that a `FIRFLTR` does not see. -/
theorem firFilter_realOnly_withIm (hF : s.fir[c]? = some F) (hp : s.pkt[p]? = some inp) (hq : s.pkt[q]? = some out)
    (hv : F.valid = true) (hops : StreamOperands s.lim p q inp out (s.ai 0) (s.ai 1)) (m : Mem 32) :
    firFilter .realOnly c p q (s.setPkt p { inp with im := m }) =
      mapNext (fun t => t.setPkt p { inp with im := m }) (firFilter .realOnly c p q s) := by
  have ⟨hpq, _⟩ := hops
  have hp' : (s.setPkt p { inp with im := m }).pkt[p]? = some { inp with im := m } :=
    List.getElem?_set_self (List.getElem?_eq_some_iff.1 hp).1
  have hq' : (s.setPkt p { inp with im := m }).pkt[q]? = some out := (List.getElem?_set_ne hpq).trans hq
  rw [firFilter_of_operands hF hp hq hv hops, firFilter_of_operands (s := s.setPkt p _) hF hp' hq' hv hops]
  simp only [firRun, firLoop_realOnly_withIm, mapNext_next, State.setPkt_pkt, State.setPkt_ai]
  rw [List.set_comm _ _ hpq]
  rfl

/-- Settles O34: the loop of the command on the real channel, which leaves the imaginary one out. -/
theorem firfltrStreamsRealChannel : Obligations.FirfltrStreamsRealChannel := by
  intro s c p q F inp out hF hp hq hv hok hops off len room n xr
  have ⟨_, _, ⟨hcap, _⟩, _⟩ := hops
  obtain ⟨hstop, ⟨hv', hnt, hde, hta⟩, htap, hdec, hdre, hsize, hroom, hrate, hre⟩ :=
    firRun_streamed hok.tapCur_lt hok.decCur_lt hcap (show n = _ from rfl) .realOnly inp off
  obtain ⟨hdim, him⟩ := firLoop_realOnly_im inp off out.cap.toNat len
    { ctx := F, re := out.re, im := out.im, o := out.size.toNat, i := 0 }
  exact ⟨⟨(firRun .realOnly F inp out off len).ctx, firOutput inp out (firRun .realOnly F inp out off len),
    firFilter_of_ok hF hp hq hv hok hops, hstop, hv'.trans hv, hnt, hde, hta, htap, hdec, hdre, hdim, rfl, rfl, rfl,
    hsize, hroom, hrate, hre, him⟩, firFilter_realOnly_withIm hF hp hq hv hops⟩

end Sys2Proof.Machine

/-! Splitting a filter command in two (R141): a loop that consumes all its samples goes on from the context, the arrays and
the counts that its first part leaves. -/

namespace Sys2Proof.Machine

variable {ch : Channels} {F : FirCtx} {inp out : Packet} {off cap : Nat}

/-! ## The loop in two parts -/

/-- R134, R135: at a sample the loop stops early, or it counts the sample and goes on from where it then stands. -/
theorem firLoop_succ_cases (ch : Channels) (inp : Packet) (off cap : Nat) (x : FirRun) :
    (∀ n, firLoop ch inp off cap (n + 1) x = x.insert ch inp off) ∨
      ∃ y : FirRun, y.i = x.i + 1 ∧ y.ctx.valid = x.ctx.valid ∧
        ∀ n, firLoop ch inp off cap (n + 1) x = firLoop ch inp off cap n y := by
  by_cases hdue : (x.insert ch inp off).ctx.decCur = 0
  · by_cases hfull : (x.insert ch inp off).o = cap
    · exact .inl fun n => (if_pos hdue).trans (if_pos hfull)
    · refine .inr ⟨((x.insert ch inp off).emit ch).advance, ?_, ?_, fun n => (if_pos hdue).trans (if_neg hfull)⟩ <;>
        cases ch <;> rfl
  · refine .inr ⟨(x.insert ch inp off).advance, ?_, ?_, fun n => if_neg hdue⟩ <;> cases ch <;> rfl

@[simp] theorem FirRun.insert_i (x : FirRun) : (x.insert ch inp off).i = x.i := by cases ch <;> rfl

theorem FirRun.insert_valid (x : FirRun) : (x.insert ch inp off).ctx.valid = x.ctx.valid := by cases ch <;> rfl

/-- R134: the loop counts no more samples than it is given. -/
theorem firLoop_i_le : ∀ (n : Nat) (x : FirRun), (firLoop ch inp off cap n x).i ≤ x.i + n := by
  intro n
  induction n with
  | zero => exact fun _ => le_rfl
  | succ n ih =>
    intro x
    rcases firLoop_succ_cases ch inp off cap x with h | ⟨y, hy, -, h⟩ <;> rw [h]
    · rw [FirRun.insert_i]
      omega
    · have := ih y
      omega

theorem firRun_i_le (ch : Channels) (F : FirCtx) (inp out : Packet) (off len : Nat) :
    (firRun ch F inp out off len).i ≤ len :=
  (firLoop_i_le len _).trans_eq (Nat.zero_add len)

theorem firLoop_valid : ∀ (n : Nat) (x : FirRun), (firLoop ch inp off cap n x).ctx.valid = x.ctx.valid := by
  intro n
  induction n with
  | zero => exact fun _ => rfl
  | succ n ih =>
    intro x
    rcases firLoop_succ_cases ch inp off cap x with h | ⟨y, -, hy, h⟩ <;> rw [h]
    · exact x.insert_valid
    · rw [ih, hy]

/-- R141: a loop that counts all its samples has not stopped early in its first part, and goes on from where that ends. -/
theorem firLoop_add (b : Nat) : ∀ (a : Nat) (x : FirRun), (firLoop ch inp off cap (a + b) x).i = x.i + (a + b) →
    (firLoop ch inp off cap a x).i = x.i + a ∧
      firLoop ch inp off cap (a + b) x = firLoop ch inp off cap b (firLoop ch inp off cap a x) := by
  intro a
  induction a with
  | zero => exact fun x _ => ⟨rfl, by rw [Nat.zero_add, firLoop]⟩
  | succ a ih =>
    intro x hx
    rw [Nat.succ_add] at hx ⊢
    rcases firLoop_succ_cases ch inp off cap x with h | ⟨y, hy, -, h⟩
    case inl =>
      rw [h, FirRun.insert_i] at hx
      omega
    case inr =>
      rw [h] at hx
      obtain ⟨hi, he⟩ := ih y (by omega)
      rw [h, h]
      exact ⟨by omega, he⟩

/-! ## The second command -/

/-- A running filter command that has `k` samples more behind it. -/
def FirRun.later (k : Nat) (x : FirRun) : FirRun := { x with i := x.i + k }

theorem FirRun.later_insert (k : Nat) (x : FirRun) :
    (x.later k).insert ch inp off = (x.insert ch inp (off + k)).later k := by
  have hidx : off + (x.later k).i = off + k + x.i := by
    show off + (x.i + k) = _
    omega
  cases ch <;> simp only [FirRun.insert, hidx] <;> rfl

theorem FirRun.later_emit (k : Nat) (x : FirRun) : (x.later k).emit ch = (x.emit ch).later k := by cases ch <;> rfl

theorem FirRun.later_advance (k : Nat) (x : FirRun) : (x.later k).advance = x.advance.later k := by
  simp only [FirRun.advance, FirRun.later, Nat.add_right_comm]

/-- R141: samples counted before are the same as a start further into the input. -/
theorem firLoop_later (k : Nat) : ∀ (n : Nat) (x : FirRun),
    firLoop ch inp off cap n (x.later k) = (firLoop ch inp (off + k) cap n x).later k := by
  intro n
  induction n with
  | zero => exact fun _ => rfl
  | succ n ih =>
    intro x
    rw [firLoop, firLoop, FirRun.later_insert, FirRun.later_emit, FirRun.later_advance, FirRun.later_advance, ih, ih]
    simp only [apply_ite (FirRun.later k)]
    rfl

/-- R141: the packet that a first command leaves holds its arrays, its size and its capacity. -/
theorem firRun_continue {y : FirRun} (hy : y.o ≤ out.cap.toNat) (b : Nat) :
    (firRun ch y.ctx inp (firOutput inp out y) (off + y.i) b).later y.i = firLoop ch inp off out.cap.toNat b y := by
  have hsize : (firOutput inp out y).size.toNat = y.o := Nat.mod_eq_of_lt (hy.trans_lt out.cap.isLt)
  rw [firRun, ← firLoop_later, hsize, FirRun.later, Nat.zero_add]
  rfl

/-- R134, R137: what the second command makes of the packet is what one command over all samples makes of it. -/
theorem firOutput_firOutput (y z : FirRun) (k : Nat) :
    firOutput inp (firOutput inp out y) z = firOutput inp out (z.later k) := rfl

/-- R141: a filter command that consumes all `a + b` samples ends where the command over the last `b` of them ends, begun
from what the command over the first `a` leaves. -/
theorem firRun_split {a b : Nat} (hcap : out.size.toNat ≤ out.cap.toNat)
    (h : (firRun ch F inp out off (a + b)).i = a + b) :
    let y := firRun ch F inp out off a
    y.i = a ∧ (firRun ch y.ctx inp (firOutput inp out y) (off + a) b).later a = firRun ch F inp out off (a + b) := by
  intro y
  obtain ⟨hi, he⟩ := firLoop_add (ch := ch) (inp := inp) (off := off) (cap := out.cap.toNat) b a _
    (h.trans (Nat.zero_add _).symm)
  have hya : y.i = a := hi.trans (Nat.zero_add a)
  have hcont := firRun_continue (ch := ch) (inp := inp) (off := off) (y := y) (firLoop_o_le a _ hcap) b
  rw [hya] at hcont
  exact ⟨hya, hcont.trans he.symm⟩

/-! ## The commands -/

variable {s t : State} {c p q : Nat}

theorem State.raise_status_ne_zero (e : ErrCode) : (s.raise e).status ≠ 0 := by
  have key : statusWord e.number ≠ 0 := by cases e <;> decide
  exact key

/-- R190: a filter command that ends with code 0 has passed its tests. -/
theorem firFilter_completed (h : firFilter ch c p q s = .next t) (ht : t.status = 0) :
    ∃ F inp out, s.fir[c]? = some F ∧ s.pkt[p]? = some inp ∧ s.pkt[q]? = some out ∧ F.valid = true ∧
      StreamOperands s.lim p q inp out (s.ai 0) (s.ai 1) := by
  have raised : ∀ e, firFilter ch c p q s ≠ .next (s.raise e) := fun e he => by
    rw [he] at h
    cases h
    exact State.raise_status_ne_zero e ht
  by_cases hmiss : s.fir.length ≤ c ∨ s.pkt.length ≤ p ∨ s.pkt.length ≤ q
  · exact absurd (firFilter_of_missing hmiss) (raised _)
  have hF : s.fir[c]? = some s.fir[c] := List.getElem?_eq_getElem (by omega)
  have hp : s.pkt[p]? = some s.pkt[p] := List.getElem?_eq_getElem (by omega)
  have hq : s.pkt[q]? = some s.pkt[q] := List.getElem?_eq_getElem (by omega)
  refine ⟨_, _, _, hF, hp, hq, ?_⟩
  by_contra hbad
  by_cases hv : s.fir[c].valid = true
  · exact raised _ (firFilter_of_not_operands hF hp hq hv fun hops => hbad ⟨hv, hops⟩)
  · exact raised _ (firFilter_of_invalid hF hp hq (Bool.eq_false_of_not_eq_true hv))

theorem toInt_ofInt_of_range {n : Int} (h0 : 0 ≤ n) (h1 : n < 2 ^ 63) : (BitVec.ofInt 64 n).toInt = n := by
  rw [BitVec.toInt_ofInt]
  exact Int.bmod_eq_of_le (by omega) (by omega)

theorem State.withArgs_ai_zero {f : Int} (h0 : 0 ≤ f) (h1 : f < 2 ^ 63) (n : Int) : (s.withArgs f n).ai 0 = f := by
  have harg : (s.withArgs f n).arg 0 = BitVec.ofInt 64 f := by simp [State.withArgs, State.arg]
  rw [State.ai, harg, toInt_ofInt_of_range h0 h1]

theorem State.withArgs_ai_one {n : Int} (h0 : 0 ≤ n) (h1 : n < 2 ^ 63) (f : Int) : (s.withArgs f n).ai 1 = n := by
  have harg : (s.withArgs f n).arg 1 = BitVec.ofInt 64 n := by simp [State.withArgs, State.arg]
  rw [State.ai, harg, toInt_ofInt_of_range h0 h1]

theorem intResult_eq_ofInt (n : Nat) : intResult n = BitVec.ofInt 64 n := (BitVec.ofInt_natCast 64 n).symm

theorem intResult_inj {m n : Nat} (hm : m < 2 ^ 64) (hn : n < 2 ^ 64) (h : intResult m = intResult n) : m = n := by
  have e := congrArg BitVec.toNat h
  rwa [intResult, intResult, BitVec.toNat_ofNat, BitVec.toNat_ofNat, Nat.mod_eq_of_lt hm, Nat.mod_eq_of_lt hn] at e

/-- R134, R137: the state after a filter command on context `c` and output packet `q` that ran to `x`. -/
def State.afterFilter (s : State) (c q : Nat) (inp out : Packet) (x : FirRun) : State :=
  (((s.setFir c x.ctx).setPkt q (firOutput inp out x)).setR 0 (intResult x.i)).complete

variable {x : FirRun}

@[simp] theorem State.afterFilter_fir : (s.afterFilter c q inp out x).fir = s.fir.set c x.ctx := rfl
@[simp] theorem State.afterFilter_pkt : (s.afterFilter c q inp out x).pkt = s.pkt.set q (firOutput inp out x) := rfl
@[simp] theorem State.afterFilter_lim : (s.afterFilter c q inp out x).lim = s.lim := rfl
@[simp] theorem State.afterFilter_status : (s.afterFilter c q inp out x).status = 0 := State.complete_status_zero
@[simp] theorem State.afterFilter_result : (s.afterFilter c q inp out x).r[0] = intResult x.i :=
  Vector.getElem_set_self (by decide)

@[simp] theorem State.withArgs_fir (f n : Int) : (s.withArgs f n).fir = s.fir := rfl
@[simp] theorem State.withArgs_pkt (f n : Int) : (s.withArgs f n).pkt = s.pkt := rfl
@[simp] theorem State.withArgs_lim (f n : Int) : (s.withArgs f n).lim = s.lim := rfl

/-- R134: a filter command that passes its tests, its offset and its length given as numbers. -/
theorem firFilter_withArgs (hF : s.fir[c]? = some F) (hp : s.pkt[p]? = some inp) (hq : s.pkt[q]? = some out)
    (hv : F.valid = true) {f n : Nat} (hops : StreamOperands s.lim p q inp out f n) (hf : f < 2 ^ 63) (hn : n < 2 ^ 63) :
    firFilter ch c p q (s.withArgs f n) =
      .next ((s.withArgs f n).afterFilter c q inp out (firRun ch F inp out f n)) := by
  have h0 : (s.withArgs f n).ai 0 = f := State.withArgs_ai_zero (by omega) (by omega) _
  have h1 : (s.withArgs f n).ai 1 = n := State.withArgs_ai_one (by omega) (by omega) _
  have h := firFilter_of_operands (ch := ch) (s := s.withArgs f n) hF hp hq hv (by rw [h0, h1]; exact hops)
  rw [h0, h1] at h
  exact h

/-- R141: the statement for either command, the lengths of the two parts given as numbers. -/
theorem firFilter_split {f a b : Nat} (hf : f < 2 ^ 63) (hn : a + b < 2 ^ 63)
    (h : firFilter ch c p q (s.withArgs f (a + b : Nat)) = .next t) (ht : t.status = 0)
    (hr : t.r[0] = intResult (a + b)) :
    ∃ u v, firFilter ch c p q (s.withArgs f a) = .next u ∧ u.status = 0 ∧ u.r[0] = intResult a ∧
      firFilter ch c p q (u.withArgs (f + a : Nat) b) = .next v ∧ v.status = 0 ∧ v.r[0] = intResult b ∧
      v.fir = t.fir ∧ v.pkt = t.pkt := by
  obtain ⟨F, inp, out, hF, hp, hq, hv, hops⟩ := firFilter_completed h ht
  rw [State.withArgs_ai_zero (by omega) (by omega), State.withArgs_ai_one (by omega) (by omega)] at hops
  rw [State.withArgs_fir] at hF
  rw [State.withArgs_pkt] at hp hq
  rw [State.withArgs_lim] at hops
  obtain rfl := Host.Outcome.next.inj ((firFilter_withArgs hF hp hq hv hops hf hn).symm.trans h)
  obtain ⟨hpq, hinp, ⟨hcap, hdepth⟩, -, -, hlen⟩ := hops
  have hle := firRun_i_le ch F inp out f (a + b)
  rw [State.afterFilter_result] at hr
  have hall := intResult_inj (by omega) (by omega) hr
  obtain ⟨hi, he⟩ := firRun_split hcap hall
  have hfirst := firFilter_withArgs (s := s) (ch := ch) (n := a) hF hp hq hv
    ⟨hpq, hinp, ⟨hcap, hdepth⟩, by omega, by omega, by omega⟩ hf (by omega)
  have hsize := firOutput_size_le ch F inp f a hcap
  have hvalid : (firRun ch F inp out f a).ctx.valid = true := (firLoop_valid a _).trans hv
  generalize firRun ch F inp out f a = y at hi he hfirst hsize hvalid
  have hsecond := firFilter_withArgs (s := (s.withArgs f a).afterFilter c q inp out y) (ch := ch) (f := f + a) (n := b)
    (List.getElem?_set_self (List.getElem?_eq_some_iff.1 hF).1) ((List.getElem?_set_ne hpq.symm).trans hp)
    (List.getElem?_set_self (List.getElem?_eq_some_iff.1 hq).1) hvalid
    ⟨hpq, hinp, ⟨hsize, hdepth⟩, by omega, by omega, by omega⟩ (by omega) (by omega)
  generalize firRun ch y.ctx inp (firOutput inp out y) (f + a) b = z at he hsecond
  refine ⟨_, _, hfirst, State.afterFilter_status, State.afterFilter_result.trans (by rw [hi]), hsecond,
    State.afterFilter_status, State.afterFilter_result.trans ?count, ?contexts, ?packets⟩
  case count =>
    have hz : z.i + a = a + b := (congrArg FirRun.i he).trans hall
    rw [show z.i = b by omega]
  case contexts =>
    simp only [State.afterFilter_fir, State.withArgs_fir, List.set_set, ← he]
    rfl
  case packets =>
    simp only [State.afterFilter_pkt, State.withArgs_pkt, List.set_set, ← he]
    rw [firOutput_firOutput]

/-- Settles O37: the loop over all samples is the loop over the last ones begun where the loop over the first ones ends. -/
theorem filterCallsSplit : Obligations.FilterCallsSplit := by
  intro i c p q hi s t f k n hf hf' hk hkn hn h ht hr
  obtain ⟨f, rfl⟩ := Int.eq_ofNat_of_zero_le hf
  obtain ⟨a, rfl⟩ := Int.eq_ofNat_of_zero_le hk
  obtain ⟨b, rfl⟩ := Int.le.dest hkn
  rw [← Int.natCast_add, ← intResult_eq_ofInt] at hr
  rw [show (a + b : Int) - a = b by omega, ← Int.natCast_add, ← intResult_eq_ofInt, ← intResult_eq_ofInt]
  rcases hi with rfl | rfl
  · exact firFilter_split (ch := .both) (by omega) (by omega) h ht hr
  · exact firFilter_split (ch := .realOnly) (by omega) (by omega) h ht hr

end Sys2Proof.Machine

/-! The tap count (R132) in real numbers, and the errors of the construction commands that design a filter (R130 to R132,
R151, R152, R155). -/

namespace Sys2Proof.Machine

/-! ## The tap count -/

theorem twoTo62_eq : twoTo62 = 0x43D0000000000000#64 := by decide +kernel

theorem minusTwoTo62_eq : minusTwoTo62 = 0xC3D0000000000000#64 := by decide +kernel

/-- 2^62, past the whole numbers of R15 that are all representable, is representable as a power of two. -/
theorem units_twoTo62 : fmt64.units 0x43D0000000000000 = 2 ^ 62 * fmt64.one := by decide +kernel

theorem value64_twoTo62 : value64 twoTo62 = 2 ^ 62 * fmt64.one := by
  have hmag : mag64 twoTo62 = 0x43D0000000000000 := by rw [twoTo62_eq]; decide
  have hneg : neg64 twoTo62 = false := by rw [twoTo62_eq]; decide
  rw [value64_eq_signed, hneg, hmag, signed_false, units_twoTo62, Nat.cast_mul, Nat.cast_pow, Nat.cast_ofNat]

theorem value64_minusTwoTo62 : value64 minusTwoTo62 = -2 ^ 62 * fmt64.one := by
  have hmag : mag64 minusTwoTo62 = 0x43D0000000000000 := by rw [minusTwoTo62_eq]; decide
  have hneg : neg64 minusTwoTo62 = true := by rw [minusTwoTo62_eq]; decide
  rw [value64_eq_signed, hneg, hmag, signed_true, units_twoTo62, Nat.cast_mul, Nat.cast_pow, Nat.cast_ofNat, neg_mul]

theorem le64_iff {x y : F64} (hx : isNaN64 x = false) (hy : isNaN64 y = false) :
    le64 x y = true ↔ value64 x ≤ value64 y := by
  obtain ⟨numeric, -⟩ := comparisonsAreNumeric
  obtain ⟨-, hle, -⟩ := numeric x y hx hy
  exact hle

variable {q : F64}

theorem fmt64_one_cast_pos : (0 : ℝ) < fmt64.one := Nat.cast_pos.2 fmt64.one_pos

theorem twoTo62_le_iff (hq : isNaN64 q = false) : le64 twoTo62 q = true ↔ 2 ^ 62 ≤ value64 q / fmt64.one := by
  rw [le64_iff (by rw [twoTo62_eq]; decide) hq, value64_twoTo62, le_div_iff₀ fmt64_one_cast_pos]

theorem le_minusTwoTo62_iff (hq : isNaN64 q = false) : le64 q minusTwoTo62 = true ↔ value64 q / fmt64.one ≤ -2 ^ 62 := by
  rw [le64_iff hq (by rw [minusTwoTo62_eq]; decide), value64_minusTwoTo62, div_le_iff₀ fmt64_one_cast_pos]

/-- R132: a quotient that is an infinity is saturated. -/
theorem finite64_of_unsaturated (hq : isNaN64 q = false) (h1 : ¬ le64 twoTo62 q = true)
    (h2 : ¬ le64 q minusTwoTo62 = true) : Finite64 q := by
  by_contra hfin
  have hmag : mag64 q = fmt64.infMag := le_antisymm (not_lt.1 (of_decide_eq_false hq)) (not_lt.1 hfin)
  cases hneg : neg64 q with
  | false =>
    refine h1 ?_
    rw [le64, hq, order64, order64, hneg, hmag, twoTo62_eq]
    decide
  | true =>
    refine h2 ?_
    rw [le64, hq, order64, order64, hneg, hmag, minusTwoTo62_eq]
    decide

/-- R132: the floor of the quotient, saturated. -/
theorem tapFloor_eq_saturatedFloor (hq : isNaN64 q = false) : tapFloor q = saturatedFloor q := by
  unfold tapFloor saturatedFloor
  simp only [← twoTo62_le_iff hq, ← le_minusTwoTo62_iff hq]
  split
  · rfl
  rename_i h1
  split
  · rfl
  rename_i h2
  exact floorInt_eq_floor (finite64_of_unsaturated hq h1 h2)

/-- Settles O30: past the test for a NaN, the count's whole number is the saturated floor. -/
theorem tapCountRule : Obligations.TapCountRule := by
  intro att fs tw maxTaps limit q clamped nt
  by_cases hq : isNaN64 q = true
  · exact (if_pos hq).trans (if_pos hq).symm
  · have hnt : nt = tapClamp (tapFloor q) maxTaps := by
      rw [tapFloor_eq_saturatedFloor (Bool.eq_false_of_not_eq_true hq)]
      rfl
    rw [if_neg hq, hnt]
    exact if_neg hq

/-! ## Designs that fail -/

section Designs

variable {gain fs fc tw att beta : F64} {win : WindowFn} {maxTaps limit : Int} {e : ErrCode}

theorem designLowPass_of_not_valid (hv : ¬ designValid fs fc tw = true) :
    designLowPass gain fs fc tw att win beta maxTaps limit = .fail .invalidFilterParameters := if_pos hv

theorem designLowPass_of_bad_beta (hv : designValid fs fc tw = true) (hb : win = .kaiser ∧ ¬ seriesDomain beta = true) :
    designLowPass gain fs fc tw att win beta maxTaps limit = .fail .badOperand :=
  (if_neg (not_not.2 hv)).trans (if_pos hb)

/-- R130, R132: past the designer's own tests the tap count alone can fail. -/
theorem designLowPass_of_tapCount_error (hv : designValid fs fc tw = true)
    (hb : ¬ (win = .kaiser ∧ ¬ seriesDomain beta = true)) (ht : tapCount att fs tw maxTaps limit = .error e) :
    designLowPass gain fs fc tw att win beta maxTaps limit = .fail e := by
  rw [designLowPass, if_neg (not_not.2 hv), if_neg hb, ht]

end Designs

variable {s : State} {c : Nat}

theorem State.raise_eq (s : State) (e : ErrCode) : s.raise e = { s with status := BitVec.ofNat 32 e.number } := by
  rw [State.raise, statusWord_eq_ofNat (lt_of_le_of_lt e.number_range.2 (by decide))]

/-! ## Filters -/

section Firdes

variable {win : WindowFn} {F : FirCtx}

theorem execFirdes_of_missing (h : s.fir.length ≤ c) : execFirdes c win s = .next (s.raise .badIndex) := by
  rw [execFirdes, List.getElem?_eq_none h]

variable (hF : s.fir[c]? = some F)

include hF

theorem execFirdes_of_decim_nonpos (h : s.ai 0 ≤ 0) :
    execFirdes c win s = .next ((s.setFir c { F with valid := false }).raise .invalidFilterParameters) := by
  rw [execFirdes, hF]
  exact if_pos h

theorem execFirdes_of_decim_large (h : 2 ^ 31 - 1 < s.ai 0) :
    execFirdes c win s = .next ((s.setFir c { F with valid := false }).raise .badOperand) := by
  rw [execFirdes, hF]
  exact (if_neg (by omega)).trans (if_pos h)

/-- R131, R194: a design that fails leaves no filter. -/
theorem execFirdes_of_fail {e : ErrCode} (h0 : 1 ≤ s.ai 0) (h1 : s.ai 0 ≤ 2 ^ 31 - 1)
    (hd : designLowPass (s.af 1) (s.af 2) (s.af 3) (s.af 4) (s.af 5) win (s.af 7) (s.ai 6) s.lim.tapMax = .fail e) :
    execFirdes c win s = .next ((s.setFir c { F with valid := false }).raise e) := by
  rw [execFirdes, hF]
  dsimp only
  rw [if_neg (by omega), if_neg (by omega), hd]

end Firdes

/-- Settles O32: the decimation factor, then the tests of the designer. -/
theorem firdesErrorsInOrder : Obligations.FirdesErrorsInOrder := by
  intro s c win valid badBeta
  have hvalid : designValid (s.af 2) (s.af 3) (s.af 4) = true ↔ valid := designValid_iff.trans and_assoc
  have hbeta : (win = .kaiser ∧ ¬ seriesDomain (s.af 7) = true) ↔ badBeta := by rw [seriesDomain_iff]
  refine ⟨execFirdes_of_missing, ?_⟩
  intro F hF s0
  refine ⟨execFirdes_of_decim_nonpos hF, execFirdes_of_decim_large hF, fun h0 h1 =>
    ⟨fun hv => ?_, fun hv hb => ?_, fun hv hb e ht => ?_⟩⟩
  · exact execFirdes_of_fail hF h0 h1 (designLowPass_of_not_valid (mt hvalid.1 hv))
  · exact execFirdes_of_fail hF h0 h1 (designLowPass_of_bad_beta (hvalid.2 hv) (hbeta.2 hb))
  · have hd := designLowPass_of_tapCount_error (gain := s.af 1) (fc := s.af 3) (hvalid.2 hv) (mt hbeta.1 hb) ht
    exact (execFirdes_of_fail hF h0 h1 hd).trans (congrArg _ (State.raise_eq s0 e))

/-! ## Resamplers -/

/-- R152, R132: past the test for a NaN the tap count alone can fail. -/
theorem defaultPrototype_of_tapCount_error {lim : Limits} {L M : Nat} {fbw : F64} {mtpp : Int} {e : ErrCode}
    (hL : 1 ≤ L ∧ L ≤ 2 ^ 31) (hM : 1 ≤ M ∧ M ≤ 2 ^ 31) (hn : isNaN64 fbw = false)
    (ht : tapCount cResAtten (ofInt64 L) (protoBand L M (clampFbw fbw)).1 (if 0 < mtpp then mtpp * L else 0)
      (L * lim.resKMax : Nat) = .error e) :
    defaultPrototype lim L M fbw mtpp = .fail e := by
  have hbeta : seriesDomain cResBeta = true := by decide
  rw [defaultPrototype, if_neg (by simp [hn])]
  exact designLowPass_of_tapCount_error (protoBand_valid hL.1 hL.2 hM.1 hM.2 hn) (fun hb => hb.2 hbeta) ht

section Resinit

variable {custom : Bool} {R : ResCtx}

theorem execResinit_of_missing (h : s.res.length ≤ c) : execResinit c custom s = .next (s.raise .badIndex) := by
  rw [execResinit, List.getElem?_eq_none h]

variable (hR : s.res[c]? = some R)

include hR

theorem execResinit_of_nonpos (h : s.ai 0 ≤ 0 ∨ s.ai 1 ≤ 0) :
    execResinit c custom s = .next ((s.setRes c { R with valid := false }).raise .invalidResamplerParameters) := by
  rw [execResinit, hR]
  exact if_pos h

theorem execResinit_of_large (h0 : 1 ≤ s.ai 0) (h1 : 1 ≤ s.ai 1) (h : 2 ^ 31 - 1 < s.ai 0 ∨ 2 ^ 31 - 1 < s.ai 1) :
    execResinit c custom s = .next ((s.setRes c { R with valid := false }).raise .badOperand) := by
  rw [execResinit, hR]
  exact (if_neg (by omega)).trans (if_pos h)

variable {L M : Nat} (h0 : 1 ≤ s.ai 0 ∧ s.ai 0 ≤ 2 ^ 31 - 1) (h1 : 1 ≤ s.ai 1 ∧ s.ai 1 ≤ 2 ^ 31 - 1)
  (hL : L = (s.ai 0).toNat / Nat.gcd (s.ai 0).toNat (s.ai 1).toNat)

include h0 h1 hL

/-- R151: a reduced interpolation factor that does not fit. -/
theorem execResinit_of_factor (hmax : s.lim.resLMax < L) :
    execResinit c custom s = .next ((s.setRes c { R with valid := false }).raise .capacityExceeded) := by
  rw [execResinit, hR]
  dsimp only
  rw [← hL, if_neg (by omega), if_neg (by omega), if_pos hmax]

variable (hM : M = (s.ai 1).toNat / Nat.gcd (s.ai 0).toNat (s.ai 1).toNat) (hmax : L ≤ s.lim.resLMax)

include hM hmax

/-- R151, R194: a prototype that fails leaves no resampler. -/
theorem execResinit_of_fail {e : ErrCode} (hP : resinitPrototype s custom L M = .fail e) :
    execResinit c custom s = .next ((s.setRes c { R with valid := false }).raise e) := by
  rw [execResinit, hR]
  dsimp only
  rw [← hL, ← hM, ← resinitPrototype, if_neg (by omega), if_neg (by omega), if_neg (by omega), hP]

/-- R151: sub-filters that do not fit. -/
theorem execResinit_of_subFilter {P : List F32} (hP : resinitPrototype s custom L M = .taps P)
    (hK : s.lim.resKMax < subFilterLen P.length L) :
    execResinit c custom s = .next ((s.setRes c { R with valid := false }).raise .capacityExceeded) := by
  rw [execResinit, hR]
  dsimp only
  rw [← hL, ← hM, ← resinitPrototype, if_neg (by omega), if_neg (by omega), if_neg (by omega), hP]
  exact if_pos hK

end Resinit

/-- Settles O40: the factors, then the prototype, whose default band always passes the designer's validation, then the
length of the sub-filters. -/
theorem resinitErrorsInOrder : Obligations.ResinitErrorsInOrder := by
  refine fun s c custom => ⟨execResinit_of_missing, ?_⟩
  intro R hR s0 g L M fbLow fb tw
  refine ⟨execResinit_of_nonpos hR, fun l0 m0 => ⟨execResinit_of_large hR l0 m0, fun l1 m1 => ?_⟩⟩
  have h0 : 1 ≤ s.ai 0 ∧ s.ai 0 ≤ 2 ^ 31 - 1 := ⟨l0, l1⟩
  have h1 : 1 ≤ s.ai 1 ∧ s.ai 1 ≤ 2 ^ 31 - 1 := ⟨m0, m1⟩
  have fails : ∀ e, L ≤ s.lim.resLMax → resinitPrototype s custom L M = .fail e →
      execResinit c custom s = .next (s0.raise e) := fun e hmax hP => execResinit_of_fail hR h0 h1 rfl rfl hmax hP
  refine ⟨execResinit_of_factor hR h0 h1 rfl, fun hmax hc hn => ?nan, fun hmax hc hn e ht => ?tapCount,
    fun hmax hc hlen => ?staged, fun hmax hc hlen hdepth hK => ?subFilter⟩
  case nan =>
    refine fails .badOperand hmax ?_
    rw [hc, resinitPrototype_default]
    exact if_pos hn
  case tapCount =>
    obtain ⟨⟨a1, a2⟩, ⟨b1, b2⟩, -⟩ := reduced_pair (l := (s.ai 0).toNat) (m := (s.ai 1).toNat) (by omega) (by omega)
    have htw : (protoBand L M (clampFbw (s.af 2))).1 = tw := protoBand_fst fb
    refine (fails e hmax ?_).trans (congrArg _ (State.raise_eq s0 e))
    rw [hc, resinitPrototype_default]
    exact defaultPrototype_of_tapCount_error ⟨a1, a2.trans (by omega)⟩ ⟨b1, b2.trans (by omega)⟩ hn (htw ▸ ht)
  case staged =>
    refine fails .badOperand hmax ?_
    rw [hc, resinitPrototype_custom]
    exact if_pos hlen
  case subFilter =>
    have hP : resinitPrototype s custom L M = .taps ((List.range s.tbuf.tlen.toNat).map s.tbuf.t.read) := by
      rw [hc, resinitPrototype_custom]
      exact if_neg (by omega)
    refine execResinit_of_subFilter hR h0 h1 rfl rfl hmax hP ?_
    rw [List.length_map, List.length_range]
    exact hK

end Sys2Proof.Machine

/-! What the resampler commands leave: the context that staged taps build (R151, R153, R155), and the context and the output
packet of a `RESAMP` (R156 to R159). -/

namespace Sys2Proof.Machine

variable {R : ResCtx}

/-! ## Staged taps -/

section StagedTaps

variable {b : TapBuffer}

theorem length_stagedTaps : ((List.range b.tlen.toNat).map b.t.read).length = b.tlen.toNat := by
  rw [List.length_map, List.length_range]

theorem getD_stagedTaps {i : Nat} (h : i < b.tlen.toNat) (d : F32) :
    ((List.range b.tlen.toNat).map b.t.read).getD i d = b.t.read i := by
  rw [List.getD_eq_getElem _ _ (by rwa [length_stagedTaps]), List.getElem_map, List.getElem_range]

/-- R153: the phases that staged taps are split into. -/
theorem splitPhases_stagedTaps {lim : Limits} {ph : Mem 32} {L K : Nat} (hK : K ≤ lim.resKMax) (p k : Nat)
    (hk : k < lim.resKMax) :
    (splitPhases lim ph L K ((List.range b.tlen.toNat).map b.t.read) L).read (phIndex lim p k) =
      if p < L ∧ k < K then (if p + k * L < b.tlen.toNat then b.t.read (p + k * L) else zero32)
      else ph.read (phIndex lim p k) := by
  rw [splitPhases_read hK L p k hk, length_stagedTaps]
  congr 1
  split
  · rename_i hi
    exact getD_stagedTaps hi zero32
  · rfl

end StagedTaps

/-- Settles O38: the staged taps pass the one test of R155, and the context that is built holds them in its phases. -/
theorem resinitSplitsCustomTaps : Obligations.ResinitSplitsCustomTaps := by
  intro s c R hlim hR h0 h0' h1 h1' g L M n K hmax hn hdepth hK
  obtain ⟨⟨hL, -⟩, ⟨-, hM⟩, hco⟩ := reduced_pair (l := (s.ai 0).toNat) (m := (s.ai 1).toNat) (by omega) (by omega)
  have hM' : M < 2 ^ 32 := hM.trans_lt (by omega)
  have hP : resinitPrototype s true L M = .taps ((List.range n).map s.tbuf.t.read) := by
    rw [resinitPrototype_custom]
    exact if_neg (by omega)
  have hlen : ((List.range n).map s.tbuf.t.read).length = n := length_stagedTaps
  have hexec := execResinit_of_prototype hR ⟨h0, h0'⟩ ⟨h1, h1'⟩ rfl rfl hmax hP (hlen.symm ▸ hK)
  rw [hlen] at hexec
  have hK' := resKMax_le_of_ok hlim
  obtain ⟨hfacL, hfacM, hsub⟩ := ResCtx.built_sizes (R := R) (lim := s.lim) (P := (List.range n).map s.tbuf.t.read)
    (show L < 2 ^ 32 by omega) hM' (show K < 2 ^ 32 by omega)
  obtain ⟨hcover, htight, -⟩ := subFilterLen_spec (n := n) hL
  exact ⟨_, hexec, rfl, hfacL, hfacM, hco, hsub, hcover, htight, rfl, rfl, splitPhases_stagedTaps hK, ResCtx.built_line⟩

/-! ## The stream -/

section Stream

variable {inp out : Packet} {off len room : Nat}

/-- R157: a `RESAMP` that stops early has used all room, and owes no sample. -/
theorem ResCtx.stop_of_consumed_lt (hR : R.Ready) (h : R.consumed room len < len) :
    R.outputs room len = room ∧ R.consumed room len = R.phaseAt (R.outputs room len) / R.facL.toNat := by
  have hc : R.consumed room len = R.phaseAt (R.outputs room len) / R.facL.toNat := by
    unfold ResCtx.consumed at h ⊢
    omega
  have hdue := (ResCtx.due_iff hR len (R.outputs room len)).2 (hc ▸ h)
  refine ⟨?_, hc⟩
  unfold ResCtx.outputs at hdue ⊢
  omega

theorem lineAfter_pushSamples_all (line : Mem 32) (x : Nat → F32) (cur : Nat) {N : Nat} (hN : 0 < N) (n : Nat) :
    LineAfter N cur line (pushSamples line x cur N n) x n n := by
  have h := lineAfter_pushSamples line x cur hN n n
  rwa [if_neg (Nat.lt_irrefl n)] at h

/-- R156 to R159: what a `RESAMP` over `len` samples from `off` on, `n` of which it consumes, makes of its context and of its
output packet, to which it appends `j` outputs. -/
structure Resampled (l : Limits) (R : ResCtx) (inp out : Packet) (off len j n : Nat) (S : ResCtx) (P : Packet) : Prop where
  stop : n < len → j = out.cap.toNat - out.size.toNat ∧ S.ctr.toNat < R.facL.toNat
  kept : S.valid = R.valid ∧ S.facL = R.facL ∧ S.facM = R.facM ∧ S.subLen = R.subLen ∧ S.ph = R.ph
  pos : S.pos.toNat = (R.pos.toNat + n) % R.subLen.toNat
  ctr : S.ctr.toNat + n * R.facL.toNat = R.ctr.toNat + j * R.facM.toNat
  dre : LineAfter R.subLen.toNat R.pos.toNat R.dre S.dre (fun i => inp.re.read (off + i)) n n
  dim : LineAfter R.subLen.toNat R.pos.toNat R.dim S.dim (fun i => inp.im.read (off + i)) n n
  size : P.size.toNat = out.size.toNat + j
  room : j ≤ out.cap.toNat - out.size.toNat
  rate : P.rate.toNat = resRate inp.rate.toNat R.facL.toNat R.facM.toNat
  re : Appended out.re P.re out.size.toNat j (R.outputAt l R.dre fun i => inp.re.read (off + i))
  im : Appended out.im P.im out.size.toNat j (R.outputAt l R.dim fun i => inp.im.read (off + i))

theorem resRun_resampled {l : Limits} {j n : Nat} (hR : R.Ready) (hcap : out.size.toNat ≤ out.cap.toNat)
    (hrate : resRate inp.rate.toNat R.facL.toNat R.facM.toNat ≤ 2 ^ 32 - 1)
    (hj : j = R.outputs (out.cap.toNat - out.size.toNat) len)
    (hn : n = R.consumed (out.cap.toNat - out.size.toNat) len) :
    Resampled l R inp out off len j n (resRun l R inp out off len).ctx
      (resOutput inp out (resRate inp.rate.toNat R.facL.toNat R.facM.toNat) (resRun l R inp out off len)) := by
  have h := resRun_spec (l := l) (inp := inp) (off := off) hR hcap len
  rw [← hj, ← hn] at h
  have hroom : j ≤ out.cap.toNat - out.size.toNat := hj.trans_le (min_le_left _ _)
  have hsize := out.cap.isLt
  have hN : 0 < R.subLen.toNat := Nat.zero_lt_of_lt hR.pos_lt
  have howed : n * R.facL.toNat ≤ R.phaseAt j := (Nat.le_div_iff_mul_le hR.facL_pos).1 h.owed
  have hctr := ResCtx.after_ctr hR (fun i => inp.re.read (off + i)) (fun i => inp.im.read (off + i)) h.bound
  constructor
  case stop =>
    intro hlt
    rw [hn] at hlt
    obtain ⟨hfull, hc⟩ := ResCtx.stop_of_consumed_lt hR hlt
    rw [← hj] at hfull hc
    rw [← hn] at hc
    refine ⟨hfull, ?_⟩
    rw [h.ctx, (resDot_after (l := l) hR _ _ hc).1]
    exact Nat.mod_lt _ hR.facL_pos
  case kept => rw [h.ctx]; exact ⟨rfl, rfl, rfl, rfl, rfl⟩
  case pos => rw [h.ctx]; exact ResCtx.after_pos hR _ _ _ _
  case ctr =>
    rw [h.ctx, hctr]
    exact Nat.sub_add_cancel howed
  case dre => rw [h.ctx]; exact lineAfter_pushSamples_all _ _ _ hN n
  case dim => rw [h.ctx]; exact lineAfter_pushSamples_all _ _ _ hN n
  case size => rw [resOutput, h.o]; exact Nat.mod_eq_of_lt (by omega)
  case room => exact hroom
  case rate => exact Nat.mod_eq_of_lt (by omega)
  case re => exact h.re
  case im => exact h.im

end Stream

/-- Settles O41: the loops of the command from its context, and the state it is put back into. -/
theorem resampStreams : Obligations.ResampStreams := by
  intro s c p q R inp out hlim hR hp hq hv hok hops hrate off len room j n xr xi
  have ⟨_, _, ⟨hcap, _⟩, _⟩ := hops
  have hready := hok.ready hlim
  have hcnt : (resRun s.lim R inp out off len).cnt = n := (resRun_spec hready hcap len).cnt
  obtain ⟨hstop, ⟨hv', hfacL, hfacM, hsub, hph⟩, hpos, hctr, hdre, hdim, hsize, hroom, hrate', hre, him⟩ :=
    resRun_resampled (l := s.lim) (off := off) (len := len) hready hcap hrate (show j = _ from rfl) (show n = _ from rfl)
  have hexec := execResamp_of_operands hR hp hq hv hops hrate
  rw [hcnt] at hexec
  exact ⟨_, _, hexec, hstop, hv'.trans hv, hfacL, hfacM, hsub, hph, hpos, hctr, hdre, hdim, rfl, rfl, rfl, hsize, hroom,
    hrate', hre, him⟩

end Sys2Proof.Machine

/-! Splitting a `RESAMP` in two (R157 (d)): a command that consumes all its samples goes on from the context, the arrays and
the counts that a command over the first of them leaves. -/

namespace Sys2Proof.Machine

variable {l : Limits} {R : ResCtx} {inp out : Packet} {off : Nat}

/-! ## The inner loop -/

/-- R156: the inner loop over `left` samples counts no more than these, and where it counts fewer, no sample is owed. -/
theorem resDrain_cnt : ∀ (left : Nat) (x : ResRun), (resDrain inp off left x).cnt ≤ x.cnt + left ∧
    ((resDrain inp off left x).cnt < x.cnt + left →
      (resDrain inp off left x).ctx.ctr.toNat < (resDrain inp off left x).ctx.facL.toNat) := by
  intro left
  induction left with
  | zero => exact fun x => ⟨le_rfl, fun h => absurd h (Nat.lt_irrefl x.cnt)⟩
  | succ left ih =>
    intro x
    rw [resDrain]
    split
    · obtain ⟨hle, hlt⟩ := ih (x.consume inp off)
      have hcnt : (x.consume inp off).cnt = x.cnt + 1 := rfl
      exact ⟨by omega, fun h => hlt (by omega)⟩
    · rename_i howed
      exact ⟨Nat.le_add_right _ _, fun _ => not_le.1 howed⟩

theorem resDrain_cnt_le {x : ResRun} {a : Nat} (hx : x.cnt ≤ a) : (resDrain inp off (a - x.cnt) x).cnt ≤ a :=
  (resDrain_cnt _ x).1.trans_eq (Nat.add_sub_cancel' hx)

/-- R156: the inner loop where no sample is owed. -/
theorem resDrain_of_lt {x : ResRun} (h : x.ctx.ctr.toNat < x.ctx.facL.toNat) :
    ∀ left, resDrain inp off left x = x
  | 0 => rfl
  | _ + 1 => if_neg (not_le.2 h)

theorem resDrain_add (b : Nat) : ∀ (a : Nat) (x : ResRun),
    resDrain inp off (a + b) x = resDrain inp off b (resDrain inp off a x) := by
  intro a
  induction a with
  | zero => exact fun x => by rw [Nat.zero_add, resDrain]
  | succ a ih =>
    intro x
    rw [Nat.succ_add]
    by_cases howed : x.ctx.facL.toNat ≤ x.ctx.ctr.toNat
    · rw [resDrain, if_pos howed, ih, resDrain, if_pos howed]
    · have h := not_le.1 howed
      rw [resDrain_of_lt h, resDrain_of_lt h, resDrain_of_lt h]

/-! ## The outer loop -/

/-- R156: the rest of a command of `len` samples that has room for `room` more outputs, from a drain on. -/
def resFrom (l : Limits) (inp : Packet) (off len room : Nat) (x : ResRun) : ResRun :=
  resLoop l inp off len room (resDrain inp off (len - x.cnt) x)

/-- R156: a `RESAMP` before its first sample. -/
def ResRun.start (R : ResCtx) (out : Packet) : ResRun :=
  { ctx := R, re := out.re, im := out.im, o := out.size.toNat, cnt := 0 }

theorem resRun_eq_resFrom (l : Limits) (R : ResCtx) (inp out : Packet) (off len : Nat) :
    resRun l R inp out off len = resFrom l inp off len (out.cap.toNat - out.size.toNat) (.start R out) := rfl

section Drained

variable {len room : Nat} {x d : ResRun} (hd : resDrain inp off (len - x.cnt) x = d)

include hd

/-- R156: after its drain the command ends, no sample or no room being left, or it appends an output and drains again. -/
theorem resFrom_of_consumed (h : ¬ d.cnt < len) : resFrom l inp off len room x = d := by
  rw [resFrom, hd]
  cases room with
  | zero => rfl
  | succ room => exact if_neg h

theorem resFrom_zero : resFrom l inp off len 0 x = d := by
  rw [resFrom, hd]
  rfl

theorem resFrom_succ (h : d.cnt < len) : resFrom l inp off len (room + 1) x = resFrom l inp off len room (d.emit l) := by
  rw [resFrom, hd]
  exact if_pos h

end Drained

theorem resDrain_kept : ∀ (left : Nat) (x : ResRun), (resDrain inp off left x).ctx.valid = x.ctx.valid ∧
    (resDrain inp off left x).ctx.facL = x.ctx.facL ∧ (resDrain inp off left x).ctx.facM = x.ctx.facM := by
  intro left
  induction left with
  | zero => exact fun _ => ⟨rfl, rfl, rfl⟩
  | succ left ih =>
    intro x
    rw [resDrain]
    split
    · exact ih _
    · exact ⟨rfl, rfl, rfl⟩

/-- R156: what a command keeps of its context, and that it counts no more samples than it has. -/
theorem resFrom_kept (len : Nat) : ∀ (room : Nat) (x : ResRun), x.cnt ≤ len →
    (resFrom l inp off len room x).ctx.valid = x.ctx.valid ∧ (resFrom l inp off len room x).ctx.facL = x.ctx.facL ∧
      (resFrom l inp off len room x).ctx.facM = x.ctx.facM ∧ (resFrom l inp off len room x).cnt ≤ len := by
  intro room
  induction room with
  | zero =>
    intro x hx
    obtain ⟨hv, hL, hM⟩ := resDrain_kept (inp := inp) (off := off) (len - x.cnt) x
    exact ⟨hv, hL, hM, resDrain_cnt_le hx⟩
  | succ room ih =>
    intro x hx
    obtain ⟨hv, hL, hM⟩ := resDrain_kept (inp := inp) (off := off) (len - x.cnt) x
    by_cases h : (resDrain inp off (len - x.cnt) x).cnt < len
    · rw [resFrom_succ rfl h]
      obtain ⟨hv', hL', hM', hle⟩ := ih ((resDrain inp off (len - x.cnt) x).emit l) h.le
      exact ⟨hv'.trans hv, hL'.trans hL, hM'.trans hM, hle⟩
    · rw [resFrom_of_consumed rfl h]
      exact ⟨hv, hL, hM, resDrain_cnt_le hx⟩

theorem resRun_kept (l : Limits) (R : ResCtx) (inp out : Packet) (off len : Nat) :
    (resRun l R inp out off len).ctx.valid = R.valid ∧ (resRun l R inp out off len).ctx.facL = R.facL ∧
      (resRun l R inp out off len).ctx.facM = R.facM ∧ (resRun l R inp out off len).cnt ≤ len := by
  rw [resRun_eq_resFrom]
  exact resFrom_kept len _ _ (Nat.zero_le len)

/-- R157: a drain over `a` samples and one over those that are then left of `a + b` are one drain over `a + b`. -/
theorem resDrain_resDrain {a : Nat} {x d : ResRun} (hx : x.cnt ≤ a) (hd : resDrain inp off (a - x.cnt) x = d) (b : Nat) :
    resDrain inp off (a + b - x.cnt) x = resDrain inp off (a + b - d.cnt) d := by
  obtain ⟨hle, hlt⟩ := resDrain_cnt (inp := inp) (off := off) (a - x.cnt) x
  rw [show a + b - x.cnt = a - x.cnt + b by omega, resDrain_add]
  rw [hd] at hle hlt ⊢
  by_cases hall : d.cnt = a
  · rw [hall, Nat.add_sub_cancel_left]
  · have howed := hlt (by omega)
    rw [resDrain_of_lt howed, resDrain_of_lt howed]

/-- R157: where the drain reaches the first `a` samples, the command over these ends there, all its room left. -/
theorem resFrom_of_reached {a cap room : Nat} {x d : ResRun} (hx : x.cnt ≤ a) (hd : resDrain inp off (a - x.cnt) x = d)
    (h : d.cnt = a) (ho : x.o + room = cap) (b : Nat) :
    (resFrom l inp off a room x).cnt = a ∧ (resFrom l inp off a room x).o + room = cap ∧
      resFrom l inp off (a + b) room x = resFrom l inp off (a + b) room (resFrom l inp off a room x) := by
  have hdo := resDrain_o inp off (a - x.cnt) x
  rw [hd] at hdo
  rw [resFrom_of_consumed hd (by omega)]
  refine ⟨h, by omega, ?_⟩
  rw [resFrom, resFrom, resDrain_resDrain hx hd]

/-- R157: where it does not, no sample is owed, and the longer command comes to the same output. -/
theorem resDrain_of_not_reached {a : Nat} {x d : ResRun} (hx : x.cnt ≤ a) (hd : resDrain inp off (a - x.cnt) x = d)
    (h : d.cnt < a) (b : Nat) : resDrain inp off (a + b - x.cnt) x = d := by
  obtain ⟨-, howed⟩ := resDrain_cnt (inp := inp) (off := off) (a - x.cnt) x
  rw [hd] at howed
  rw [resDrain_resDrain hx hd, resDrain_of_lt (howed (by omega))]

/-- R157: a command over `a + b` samples that consumes them all goes on from where the command over the first `a` of them
ends, with the room that this leaves. -/
theorem resFrom_add {a b cap : Nat} : ∀ (room : Nat) (x : ResRun), x.cnt ≤ a → x.o + room = cap →
    (resFrom l inp off (a + b) room x).cnt = a + b →
    ∃ left, (resFrom l inp off a room x).cnt = a ∧ (resFrom l inp off a room x).o + left = cap ∧
      resFrom l inp off (a + b) room x = resFrom l inp off (a + b) left (resFrom l inp off a room x) := by
  intro room
  induction room with
  | zero =>
    intro x hx ho hall
    have hle := resDrain_cnt_le (inp := inp) (off := off) hx
    generalize hd : resDrain inp off (a - x.cnt) x = d at hle
    rcases hle.lt_or_eq with h | h
    · rw [resFrom_zero (resDrain_of_not_reached hx hd h b)] at hall
      omega
    · exact ⟨0, resFrom_of_reached hx hd h ho b⟩
  | succ room ih =>
    intro x hx ho hall
    have hdo := resDrain_o inp off (a - x.cnt) x
    have hle := resDrain_cnt_le (inp := inp) (off := off) hx
    generalize hd : resDrain inp off (a - x.cnt) x = d at hdo hle
    rcases hle.lt_or_eq with h | h
    · have hlong := resFrom_succ (l := l) (room := room) (resDrain_of_not_reached hx hd h b) (by omega)
      have ho' : (d.emit l).o + room = cap := by
        show d.o + 1 + room = cap
        omega
      rw [hlong] at hall ⊢
      rw [resFrom_succ hd h]
      exact ih (d.emit l) h.le ho' hall
    · exact ⟨room + 1, resFrom_of_reached hx hd h ho b⟩

/-! ## The second command -/

/-- A running `RESAMP` that has `k` samples more behind it. -/
def ResRun.later (k : Nat) (x : ResRun) : ResRun := { x with cnt := x.cnt + k }

theorem ResRun.later_consume (k : Nat) (x : ResRun) :
    (x.later k).consume inp off = (x.consume inp (off + k)).later k := by
  have hidx : off + (x.later k).cnt = off + k + x.cnt := by
    show off + (x.cnt + k) = _
    omega
  simp only [ResRun.consume, hidx]
  simp only [ResRun.later, Nat.add_right_comm]

theorem resDrain_later (k : Nat) : ∀ (left : Nat) (x : ResRun),
    resDrain inp off left (x.later k) = (resDrain inp (off + k) left x).later k := by
  intro left
  induction left with
  | zero => exact fun _ => rfl
  | succ left ih =>
    intro x
    rw [resDrain, resDrain, ResRun.later_consume, ih, apply_ite (ResRun.later k)]
    rfl

/-- R157: samples consumed before are the same as a start further into the input. -/
theorem resLoop_later (len k : Nat) : ∀ (room : Nat) (x : ResRun),
    resLoop l inp off (len + k) room (x.later k) = (resLoop l inp (off + k) len room x).later k := by
  intro room
  induction room with
  | zero => exact fun _ => rfl
  | succ room ih =>
    intro x
    have hlt : (x.later k).cnt < len + k ↔ x.cnt < len := Nat.add_lt_add_iff_right
    have hleft : len + k - ((x.later k).emit l).cnt = len - (x.emit l).cnt := Nat.add_sub_add_right _ _ _
    have hemit : (x.later k).emit l = (x.emit l).later k := rfl
    rw [resLoop, resLoop]
    dsimp only
    rw [hleft, hemit, resDrain_later, ih, apply_ite (ResRun.later k)]
    simp only [hlt]

/-- R157: the packet that a first command leaves holds its arrays, its size and its capacity. -/
theorem resRun_continue {y : ResRun} (hy : y.o ≤ out.cap.toNat) (b nr : Nat) :
    (resRun l y.ctx inp (resOutput inp out nr y) (off + y.cnt) b).later y.cnt =
      resFrom l inp off (b + y.cnt) (out.cap.toNat - y.o) y := by
  have hsize : (resOutput inp out nr y).size.toNat = y.o := Nat.mod_eq_of_lt (hy.trans_lt out.cap.isLt)
  rw [resRun, ← resLoop_later, ← resDrain_later, hsize, ResRun.later, Nat.zero_add, resFrom, Nat.add_sub_cancel]
  rfl

/-- R156, R159: what the second command makes of the packet is what one command over all samples makes of it. -/
theorem resOutput_resOutput (nr : Nat) (y z : ResRun) (k : Nat) :
    resOutput inp (resOutput inp out nr y) nr z = resOutput inp out nr (z.later k) := rfl

/-- R157: a `RESAMP` that consumes all `a + b` samples ends where the command over the last `b` of them ends, begun from
what the command over the first `a` leaves. -/
theorem resRun_split {a b : Nat} (nr : Nat) (hcap : out.size.toNat ≤ out.cap.toNat)
    (h : (resRun l R inp out off (a + b)).cnt = a + b) :
    let y := resRun l R inp out off a
    y.cnt = a ∧
      (resRun l y.ctx inp (resOutput inp out nr y) (off + a) b).later a = resRun l R inp out off (a + b) := by
  intro y
  obtain ⟨left, hcnt, ho, he⟩ := resFrom_add (cap := out.cap.toNat) _ (.start R out) (Nat.zero_le a)
    (Nat.add_sub_cancel' hcap) h
  have hcont := resRun_continue (l := l) (inp := inp) (off := off) (show y.o ≤ out.cap.toNat from Nat.le.intro ho) b nr
  have hleft : out.cap.toNat - y.o = left := Nat.sub_eq_of_eq_add' ho.symm
  rw [show y.cnt = a from hcnt, Nat.add_comm b a, hleft] at hcont
  exact ⟨hcnt, hcont.trans he.symm⟩

/-! ## The commands -/

variable {s t : State} {c p q : Nat}

/-- R190: a `RESAMP` that ends with code 0 has passed its tests. -/
theorem execResamp_completed (h : execResamp c p q s = .next t) (ht : t.status = 0) :
    ∃ R inp out, s.res[c]? = some R ∧ s.pkt[p]? = some inp ∧ s.pkt[q]? = some out ∧ R.valid = true ∧
      StreamOperands s.lim p q inp out (s.ai 0) (s.ai 1) ∧
      resRate inp.rate.toNat R.facL.toNat R.facM.toNat ≤ 2 ^ 32 - 1 := by
  have raised : ∀ e, execResamp c p q s ≠ .next (s.raise e) := fun e he => by
    rw [he] at h
    cases h
    exact State.raise_status_ne_zero e ht
  by_cases hmiss : s.res.length ≤ c ∨ s.pkt.length ≤ p ∨ s.pkt.length ≤ q
  · exact absurd (execResamp_of_missing hmiss) (raised _)
  have hR : s.res[c]? = some s.res[c] := List.getElem?_eq_getElem (by omega)
  have hp : s.pkt[p]? = some s.pkt[p] := List.getElem?_eq_getElem (by omega)
  have hq : s.pkt[q]? = some s.pkt[q] := List.getElem?_eq_getElem (by omega)
  have hv : s.res[c].valid = true := by
    by_contra hv
    exact raised _ (execResamp_of_invalid hR hp hq (Bool.eq_false_of_not_eq_true hv))
  refine ⟨_, _, _, hR, hp, hq, hv, ?_⟩
  by_contra hbad
  rw [not_and_or, not_le] at hbad
  exact raised _ (execResamp_of_not_operands hR hp hq hv hbad)

/-- R156, R159: the state after a `RESAMP` on context `c` and output packet `q` that ran to `x`, with output rate `nr`. -/
def State.afterResamp (s : State) (c q : Nat) (inp out : Packet) (nr : Nat) (x : ResRun) : State :=
  (((s.setRes c x.ctx).setPkt q (resOutput inp out nr x)).setR 0 (intResult x.cnt)).complete

variable {x : ResRun} {nr : Nat}

@[simp] theorem State.afterResamp_res : (s.afterResamp c q inp out nr x).res = s.res.set c x.ctx := rfl
@[simp] theorem State.afterResamp_pkt : (s.afterResamp c q inp out nr x).pkt = s.pkt.set q (resOutput inp out nr x) := rfl
@[simp] theorem State.afterResamp_lim : (s.afterResamp c q inp out nr x).lim = s.lim := rfl
@[simp] theorem State.afterResamp_status : (s.afterResamp c q inp out nr x).status = 0 := State.complete_status_zero
@[simp] theorem State.afterResamp_result : (s.afterResamp c q inp out nr x).r[0] = intResult x.cnt :=
  Vector.getElem_set_self (by decide)

@[simp] theorem State.withArgs_res (f n : Int) : (s.withArgs f n).res = s.res := rfl

/-- R156: a `RESAMP` that passes its tests, its offset and its length given as numbers. -/
theorem execResamp_withArgs (hR : s.res[c]? = some R) (hp : s.pkt[p]? = some inp) (hq : s.pkt[q]? = some out)
    (hv : R.valid = true) {f n : Nat} (hops : StreamOperands s.lim p q inp out f n)
    (hnr : resRate inp.rate.toNat R.facL.toNat R.facM.toNat = nr) (hrate : nr ≤ 2 ^ 32 - 1) (hf : f < 2 ^ 63)
    (hn : n < 2 ^ 63) : execResamp c p q (s.withArgs f n) =
      .next ((s.withArgs f n).afterResamp c q inp out nr (resRun s.lim R inp out f n)) := by
  have h0 : (s.withArgs f n).ai 0 = f := State.withArgs_ai_zero (by omega) (by omega) _
  have h1 : (s.withArgs f n).ai 1 = n := State.withArgs_ai_one (by omega) (by omega) _
  have h := execResamp_of_operands (s := s.withArgs f n) hR hp hq hv (by rw [h0, h1]; exact hops) (hnr.trans_le hrate)
  rw [h0, h1, hnr] at h
  exact h

/-- R157: the statement, the lengths of the two parts given as numbers. -/
theorem execResamp_split {f a b : Nat} (hf : f < 2 ^ 63) (hn : a + b < 2 ^ 63)
    (h : execResamp c p q (s.withArgs f (a + b : Nat)) = .next t) (ht : t.status = 0)
    (hr : t.r[0] = intResult (a + b)) :
    ∃ u v, execResamp c p q (s.withArgs f a) = .next u ∧ u.status = 0 ∧ u.r[0] = intResult a ∧
      execResamp c p q (u.withArgs (f + a : Nat) b) = .next v ∧ v.status = 0 ∧ v.r[0] = intResult b ∧
      v.res = t.res ∧ v.pkt = t.pkt := by
  obtain ⟨R, inp, out, hR, hp, hq, hv, hops, hrate⟩ := execResamp_completed h ht
  rw [State.withArgs_ai_zero (by omega) (by omega), State.withArgs_ai_one (by omega) (by omega)] at hops
  rw [State.withArgs_res] at hR
  rw [State.withArgs_pkt] at hp hq
  rw [State.withArgs_lim] at hops
  generalize hnr : resRate inp.rate.toNat R.facL.toNat R.facM.toNat = nr at hrate
  obtain rfl := Host.Outcome.next.inj ((execResamp_withArgs hR hp hq hv hops hnr hrate hf hn).symm.trans h)
  obtain ⟨hpq, hinp, ⟨hcap, hdepth⟩, -, -, hlen⟩ := hops
  obtain ⟨-, -, -, hle⟩ := resRun_kept s.lim R inp out f (a + b)
  rw [State.afterResamp_result] at hr
  have hall := intResult_inj (by omega) (by omega) hr
  obtain ⟨hcnt, he⟩ := resRun_split nr hcap hall
  have hfirst := execResamp_withArgs (s := s) (n := a) hR hp hq hv
    ⟨hpq, hinp, ⟨hcap, hdepth⟩, by omega, by omega, by omega⟩ hnr hrate hf (by omega)
  have hsize := resOutput_size_le s.lim R inp f a nr hcap
  obtain ⟨hvalid, hfacL, hfacM, -⟩ := resRun_kept s.lim R inp out f a
  generalize resRun s.lim R inp out f a = y at hcnt he hfirst hsize hvalid hfacL hfacM
  have hsecond := execResamp_withArgs (s := (s.withArgs f a).afterResamp c q inp out nr y) (f := f + a) (n := b)
    (List.getElem?_set_self (List.getElem?_eq_some_iff.1 hR).1) ((List.getElem?_set_ne hpq.symm).trans hp)
    (List.getElem?_set_self (List.getElem?_eq_some_iff.1 hq).1) (hvalid.trans hv)
    ⟨hpq, hinp, ⟨hsize, hdepth⟩, by omega, by omega, by omega⟩ (by rw [hfacL, hfacM]; exact hnr) hrate (by omega)
    (by omega)
  rw [State.afterResamp_lim, State.withArgs_lim] at hsecond
  generalize resRun s.lim y.ctx inp (resOutput inp out nr y) (f + a) b = z at he hsecond
  refine ⟨_, _, hfirst, State.afterResamp_status, State.afterResamp_result.trans (by rw [hcnt]), hsecond,
    State.afterResamp_status, State.afterResamp_result.trans ?count, ?contexts, ?packets⟩
  case count =>
    have hz : z.cnt + a = a + b := (congrArg ResRun.cnt he).trans hall
    rw [show z.cnt = b by omega]
  case contexts =>
    simp only [State.afterResamp_res, State.withArgs_res, List.set_set, ← he]
    rfl
  case packets =>
    simp only [State.afterResamp_pkt, State.withArgs_pkt, List.set_set, ← he]
    rw [resOutput_resOutput]

/-- Settles O42: the command over all samples goes on, over the last ones, from where the command over the first ones
ends. -/
theorem resamplerCallsSplit : Obligations.ResamplerCallsSplit := by
  intro c p q s t f k n hf hf' hk hkn hn h ht hr
  obtain ⟨f, rfl⟩ := Int.eq_ofNat_of_zero_le hf
  obtain ⟨a, rfl⟩ := Int.eq_ofNat_of_zero_le hk
  obtain ⟨b, rfl⟩ := Int.le.dest hkn
  rw [← Int.natCast_add, ← intResult_eq_ofInt] at hr
  rw [show (a + b : Int) - a = b by omega, ← Int.natCast_add, ← intResult_eq_ofInt, ← intResult_eq_ofInt]
  exact execResamp_split (by omega) (by omega) h ht hr

end Sys2Proof.Machine

/-! The oscillator cache (R174 to R178): the effective mixing frequency, the table length in the words of the rule, what
bringing the cache up to date gives, and that a table in it is always a generated one. -/

namespace Sys2Proof.Machine

variable {C D : CnvCtx} {chan f : Int} {rate A ml len : Nat}

/-! ## The effective mixing frequency -/

theorem effectiveMix_of_folded
    (h : C.center.toInt - chan = 0 ∨ C.maxlen.toNat * (C.center.toInt - chan).natAbs < C.rate.toNat) :
    effectiveMix C chan = C.center.toInt - chan + C.rate.toNat := if_pos h

theorem effectiveMix_of_not_folded
    (h : ¬ (C.center.toInt - chan = 0 ∨ C.maxlen.toNat * (C.center.toInt - chan).natAbs < C.rate.toNat)) :
    effectiveMix C chan = C.center.toInt - chan := if_neg h

/-- R175: it depends on the configuration alone. -/
theorem effectiveMix_congr (hcenter : D.center = C.center) (hmaxlen : D.maxlen = C.maxlen) (hrate : D.rate = C.rate) :
    effectiveMix D chan = effectiveMix C chan := by
  unfold effectiveMix
  rw [hcenter, hmaxlen, hrate]

/-- R175, R181: with the channel at the centre it is the sample rate. -/
theorem effectiveMix_center (C : CnvCtx) : effectiveMix C C.center.toInt = C.rate.toNat := by
  rw [effectiveMix_of_folded (.inl (sub_self _)), sub_self, zero_add]

/-- R175: the period of a difference that is folded is longer than the table, so the difference is below the rate. -/
theorem natAbs_lt_of_folded {mf : Int} (hr : 1 ≤ rate) (hml : 1 ≤ ml) (h : mf = 0 ∨ ml * mf.natAbs < rate) :
    mf.natAbs < rate ∧ ml * mf.natAbs < rate := by
  rcases h with rfl | h
  · exact ⟨hr, hr⟩
  · exact ⟨(Nat.le_mul_of_pos_left _ hml).trans_lt h, h⟩

/-- R175: the range of the effective frequency (its end: log entry 8). -/
theorem effectiveMix_range (hr : 1 ≤ C.rate.toNat) (hml : 1 ≤ C.maxlen.toNat) (hcenter : FreqInRange C.center.toInt)
    (hchan : FreqInRange chan) : -2 ^ 63 ≤ effectiveMix C chan ∧ effectiveMix C chan ≤ 2 ^ 63 ∧
      (effectiveMix C chan = 2 ^ 63 → C.center.toInt = 2 ^ 62 ∧ chan = -2 ^ 62) := by
  have hlt := C.rate.isLt
  obtain ⟨c1, c2⟩ := hcenter
  obtain ⟨h1, h2⟩ := hchan
  by_cases h : C.center.toInt - chan = 0 ∨ C.maxlen.toNat * (C.center.toInt - chan).natAbs < C.rate.toNat
  · rw [effectiveMix_of_folded h]
    obtain ⟨hmf, -⟩ := natAbs_lt_of_folded hr hml h
    omega
  · rw [effectiveMix_of_not_folded h]
    omega

/-- Settles O46: folded or not, by the two equations. -/
theorem effectiveMixFrequency : Obligations.EffectiveMixFrequency := by
  intro C chan hr hml hcenter hchan mf f folded
  refine ⟨fun h => ?_, fun h => ?_, (effectiveMix_facts hr hml).1, effectiveMix_range hr hml hcenter hchan⟩
  · have e : f = mf + C.rate.toNat := effectiveMix_of_folded h
    obtain ⟨h1, h2⟩ := natAbs_lt_of_folded hr hml h
    rw [e, add_sub_cancel_right]
    exact ⟨rfl, by omega, h2⟩
  · have e : f = mf := effectiveMix_of_not_folded h
    rw [e]
    exact ⟨rfl, not_lt.1 fun hlt => h (.inr hlt)⟩

/-! ## The length of the table -/

/-- R176: the length found is that of the rule. -/
theorem tableLength_bestLength {b : LengthBest} (hr : 1 ≤ rate) (h : tableLength rate A ml = some b) :
    BestLength rate A ml b.len := by
  obtain ⟨b', j, e, h1, h2, rfl, hmin, hfirst⟩ := tableLength_spec (A := A) (ml := ml) hr
  obtain rfl := Option.some.inj (h.symm.trans e)
  exact ⟨j, ⟨h1, h2⟩, rfl, fun k hk => hmin k hk.1 hk.2, fun k hk => hfirst k hk.1⟩

/-- R176: the number of cycles with the smallest error, the earliest on ties, is one number. -/
theorem BestLength.unique {len' : Nat} (h : BestLength rate A ml len) (h' : BestLength rate A ml len') :
    len = len' := by
  obtain ⟨j, hj, rfl, hmin, hfirst⟩ := h
  obtain ⟨j', hj', rfl, hmin', hfirst'⟩ := h'
  rcases Nat.lt_trichotomy j j' with hlt | rfl | hgt
  · exact absurd (hfirst' j hj hlt) (not_lt.2 (hmin j' hj'))
  · rfl
  · exact absurd (hfirst j' hj' hgt) (not_lt.2 (hmin' j hj))

/-- R181: a frequency equal to the sample rate has a table of one entry. -/
theorem bestLength_self (hr : 1 ≤ rate) (ml : Nat) : BestLength rate rate ml 1 := by
  refine ⟨1, ⟨le_rfl, .inl rfl⟩, ?_, fun k _ => ?_, fun k hk hlt => ?_⟩
  · rw [one_mul, Nat.div_self hr]
  · rw [one_mul, Nat.mod_self]
    exact Nat.zero_le _
  · exact absurd hlt (not_lt.2 hk.1)

/-- Settles O47: the length that the search finds is the rule's, and that one fits. -/
theorem tableLengthSearch : Obligations.TableLengthSearch := by
  refine ⟨fun rate A ml hr _ => ?_, fun C chan len hr hml hlen => ?_⟩
  · obtain ⟨b, -, e, -⟩ := tableLength_spec (A := A) (ml := ml) hr
    have hb := tableLength_bestLength hr e
    exact ⟨b, e, hb, fun len hlen => hlen.unique hb⟩
  · obtain ⟨b, -, e, -⟩ := tableLength_spec (A := (effectiveMix C chan).natAbs) (ml := C.maxlen.toNat) hr
    obtain rfl := hlen.unique (tableLength_bestLength hr e)
    obtain ⟨hne, hfits⟩ := effectiveMix_facts (chan := chan) hr (by omega)
    have hA : 1 ≤ (effectiveMix C chan).natAbs := Int.natAbs_pos.2 hne
    refine ⟨tableLength_pos hr hA hml e, ?_⟩
    rcases tableLength_le hr hA e with h | h
    · exact h.le
    · exact h.trans_le (hfits hml)

/-! ## The cache brought up to date -/

/-- R178: a context that is ready is the one of the rule. -/
theorem upToDate_of_ready (hr : 1 ≤ C.rate.toNat) (h : updateCache C f = .ready D) : UpToDate C f D := by
  have hlt := C.maxlen.isLt
  rcases updateCache_cases f hr with ⟨hv, hf, e⟩ | ⟨hn, b, hb, ⟨hle, e⟩ | ⟨-, e⟩⟩ <;> cases e.symm.trans h
  · exact .inl ⟨⟨hv, hf⟩, rfl⟩
  · exact .inr ⟨hn, b.len, tableLength_bestLength hr hb, hle, CnvCtx.regenerated_isRegenerated f (by omega)⟩

/-- R178: where the cache holds the table, or the table fits, the context is made ready. -/
theorem exists_updateCache_ready (hr : 1 ≤ C.rate.toNat)
    (h : CacheHolds C f ∨ ∃ len, BestLength C.rate.toNat f.natAbs C.maxlen.toNat len ∧ len ≤ C.maxlen.toNat) :
    ∃ D, updateCache C f = .ready D := by
  rcases updateCache_cases f hr with ⟨-, -, e⟩ | ⟨hn, b, hb, ⟨-, e⟩ | ⟨hgt, -⟩⟩
  · exact ⟨_, e⟩
  · exact ⟨_, e⟩
  · obtain ⟨len, hlen, hle⟩ := h.resolve_left hn
    exact absurd (hlen.unique (tableLength_bestLength hr hb) ▸ hle) (not_le.2 hgt)

/-- R176, R178: where it does not hold the table and the table does not fit, it is not. -/
theorem updateCache_eq_tooLong (hr : 1 ≤ C.rate.toNat) (hn : ¬ CacheHolds C f)
    (hlen : BestLength C.rate.toNat f.natAbs C.maxlen.toNat len) (hgt : C.maxlen.toNat < len) :
    updateCache C f = .tooLong := by
  rcases updateCache_cases f hr with ⟨hv, hf, -⟩ | ⟨-, b, hb, ⟨hle, -⟩ | ⟨-, e⟩⟩
  · exact absurd ⟨hv, hf⟩ hn
  · exact absurd (hlen.unique (tableLength_bestLength hr hb) ▸ hle) (not_le.2 hgt)
  · exact e

/-- R174, R178: bringing the cache up to date touches neither the normalization table nor the configuration. -/
theorem UpToDate.config (h : UpToDate C f D) :
    D.valid = C.valid ∧ D.lut = C.lut ∧ D.rate = C.rate ∧ D.center = C.center ∧ D.maxlen = C.maxlen := by
  rcases h with ⟨-, rfl⟩ | ⟨-, len, -, -, hD⟩
  · exact ⟨rfl, rfl, rfl, rfl, rfl⟩
  · exact ⟨hD.valid, hD.lut, hD.rate, hD.center, hD.maxlen⟩

/-! ## A table in the cache is a generated one -/

/-- R176: a table just generated. -/
theorem Regenerated.cacheOk (hD : Regenerated C (effectiveMix C chan) len D) (hchan : FreqInRange chan)
    (hlen : BestLength C.rate.toNat (effectiveMix C chan).natAbs C.maxlen.toNat len) : D.CacheOk := by
  intro _
  have hmix : effectiveMix D chan = effectiveMix C chan := effectiveMix_congr hD.center hD.maxlen hD.rate
  refine ⟨chan, hchan, ?_, ?_, fun t ht => ?_⟩ <;> rw [hmix]
  · exact hD.ncoFreq
  · rw [hD.rate, hD.maxlen, hD.ncoLen]
    exact hlen
  · rw [hD.ncoLen] at ht
    rw [hD.rate, hD.cos, hD.sin, if_pos ht, if_pos ht]
    exact ⟨rfl, rfl⟩

theorem UpToDate.cacheOk (h : UpToDate C (effectiveMix C chan) D) (hC : C.CacheOk) (hchan : FreqInRange chan) :
    D.CacheOk := by
  rcases h with ⟨-, rfl⟩ | ⟨-, len, hlen, -, hD⟩
  · exact hC
  · exact hD.cacheOk hchan hlen

variable {s t : State} {c b q : Nat}

theorem State.CacheOk.of_same (h : SameContexts s t) (hs : s.CacheOk) : t.CacheOk := by
  unfold State.CacheOk
  rwa [h.cnv]

theorem State.CacheOk.setCnv (hs : s.CacheOk) (c : Nat) {C : CnvCtx} (hC : C.valid = true → C.CacheOk) :
    (s.setCnv c C).CacheOk :=
  forall_mem_set hs c hC

/-- R178: a mixing fill leaves the table that it mixed with; the cursor is no part of it. -/
theorem State.CacheOk.mixFill (hs : s.CacheOk) {D : CnvCtx} {B : RawSlot} {out : Packet} (hD : D.CacheOk) :
    (mixFill c q D B out chan s).CacheOk := by
  rcases mixFill_cases c q D B out chan s with ⟨-, e⟩ | ⟨-, e⟩ <;> rw [e]
  · exact hs.setCnv c fun _ => hD
  · exact hs.setCnv c fun _ => hD

/-- R178: a `CNVMIX` that ends with code 0 has passed the test of its channel. -/
theorem execCnvmix_freqInRange (h : execCnvmix c b q s = .next t) (ht : t.status = 0) : FreqInRange (s.ai 0) := by
  have raised : ∀ e, execCnvmix c b q s ≠ .next (s.raise e) := fun e he => by
    rw [he] at h
    cases h
    exact State.raise_status_ne_zero e ht
  by_cases hmiss : s.cnv.length ≤ c ∨ s.raw.length ≤ b ∨ s.pkt.length ≤ q
  · exact absurd (execCnvmix_of_missing hmiss) (raised _)
  have hC : s.cnv[c]? = some s.cnv[c] := List.getElem?_eq_getElem (by omega)
  have hB : s.raw[b]? = some s.raw[b] := List.getElem?_eq_getElem (by omega)
  have hq : s.pkt[q]? = some s.pkt[q] := List.getElem?_eq_getElem (by omega)
  have hv : s.cnv[c].valid = true := by
    by_contra hv
    exact raised _ (execCnvmix_of_invalid hC hB hq (Bool.eq_false_of_not_eq_true hv))
  by_contra hf
  exact raised _ (execCnvmix_of_not_operands hC hB hq hv (.inr hf))

/-- R174: a construction empties the cache or leaves the context invalid; only a `CNVMIX` that completes fills it. -/
theorem Ends.cacheOk {i : Instr} (hok : s.CnvOk) (hs : s.CacheOk) (h : Ends s i t)
    (hfreq : ∀ c b q, i = .cnvmix c b q → t.status = 0 → FreqInRange (s.ai 0)) : t.CacheOk := by
  cases h with
  | cnvinitFailed => exact hs.setCnv _ fun hv => Bool.noConfusion hv
  | configured => exact hs.setCnv _ fun _ hn => Bool.noConfusion hn
  | cnvmixTooLong => exact hs.setCnv _ fun _ hn => Bool.noConfusion hn
  | mixed hC _ hv _ hD =>
    have hmem := List.mem_of_getElem? hC
    have hD := upToDate_of_ready (hok _ hmem hv).rate_pos hD
    exact hs.mixFill (hD.cacheOk (hs _ hmem hv) (hfreq _ _ _ rfl (mixFill_status ..)))
  | _ => exact hs

theorem exec_cacheOk {i : Instr} (hok : s.CnvOk) (hs : s.CacheOk) (h : exec i s = .next t) : t.CacheOk :=
  (exec_ends h).cacheOk hok hs fun _ _ _ hi => execCnvmix_freqInRange (by rw [hi] at h; exact h)

/-- R71, R80, R210: a step leaves the contexts as they are, resets them, or is a command. -/
theorem step_contexts (h : step s = .next t) : SameContexts s t ∨ (∃ p m, SameContexts (State.resetWith p m) t) ∨
    ∃ u i, SameContexts s u ∧ exec i u = .next t := by
  rcases step_cases s with ⟨-, e⟩ | ⟨_, _, -, e⟩ | ⟨el, v, rest, -, -, e⟩ | ⟨m, rest, -, e⟩ | ⟨v, rest, _, -, -, e⟩ |
    ⟨v, rest, i, -, -, e⟩ <;> rw [e] at h
  · cases h
    exact .inl ⟨rfl, rfl, rfl, rfl⟩
  · cases h
    exact .inl ⟨rfl, rfl, rfl, rfl⟩
  · cases h
    obtain ⟨hfir, hres, hcnv, hlim⟩ := hostWrite_sameContexts { s with host := rest } el v
    exact .inl ⟨hfir, hres, hcnv, hlim⟩
  · cases h
    exact .inr (.inl ⟨s.params, m, rfl, rfl, rfl, rfl⟩)
  · cases h
    exact .inl ⟨rfl, rfl, rfl, rfl⟩
  · exact .inr (.inr ⟨State.latch { s with host := rest } (v.setWidth 32), i, ⟨rfl, rfl, rfl, rfl⟩, h⟩)

/-- Settles O15: a reset leaves no valid converter, and a command that fills a cache generates the table of its channel. -/
theorem oscillatorCacheStaysGenerated : Obligations.OscillatorCacheStaysGenerated := by
  intro s t _ hok hs h
  rcases step_contexts h with hsame | ⟨p, m, hsame⟩ | ⟨u, i, hsame, h⟩
  · exact hs.of_same hsame
  · exact (State.resetWith_cacheOk p m).of_same hsame
  · exact exec_cacheOk (hok.of_same hsame) (hs.of_same hsame) h

end Sys2Proof.Machine

/-! The normalization table (R172), exactly, and the mixer where the oscillator stands at (1.0, +0.0) (R177, R181). -/

namespace Sys2Proof.Machine

variable {f : Fmt}

/-! ## Rounding of a number that needs none -/

theorem signed_abs (q : ℝ) : signed (decide (q < 0)) |q| = q := by
  by_cases h : q < 0
  · rw [decide_eq_true h, signed_true, abs_of_neg h, neg_neg]
  · rw [decide_eq_false h, signed_false, abs_of_nonneg (not_lt.1 h)]

/-- The number of the sign and the magnitude that rounding gives where the magnitude is exact. -/
theorem signed_of_rounded {q : ℝ} {neg z : Bool} (h : neg = if q = 0 then z else decide (q < 0)) :
    signed neg |q| = q := by
  by_cases h0 : q = 0
  · rw [h0, abs_zero, signed_zero]
  · rw [h, if_neg h0, signed_abs]

/-- R13: a representable magnitude is its own nearest pattern. -/
theorem Fmt.IsNearest.eq_of_units {q : ℝ} {m n : Nat} (h : f.IsNearest q m) (hn : n ≤ f.infMag)
    (hq : (f.units n : ℝ) = q) : m = n := by
  have h0 := (h.2 n hn).1
  rw [hq, sub_self, abs_zero, ← hq] at h0
  have he := sub_eq_zero.1 (abs_nonpos_iff.1 h0)
  exact f.units_strictMono.injective (by exact_mod_cast he)

/-- R13: a whole number that fits a significand, times a power of two, is its own nearest pattern, and finite. -/
theorem Fmt.IsNearest.of_scaled {k : Int} {sh m : Nat} (h : f.IsNearest |(k : ℝ) * 2 ^ sh| m)
    (hk : k.natAbs ≤ 2 * 2 ^ f.mbits) (hsh : (sh + 2) * 2 ^ f.mbits < f.infMag) :
    m < f.infMag ∧ (f.units m : ℝ) = |(k : ℝ) * 2 ^ sh| := by
  obtain ⟨n, hn, hu⟩ := f.exists_units_eq hk sh
  have hq : (f.units n : ℝ) = |(k : ℝ) * 2 ^ sh| := by
    rw [hu, abs_mul, abs_of_pos (show (0 : ℝ) < 2 ^ sh by positivity), Nat.cast_mul, Nat.cast_natAbs, Int.cast_abs]
    norm_num
  obtain rfl := h.eq_of_units (hn.trans hsh.le) hq
  exact ⟨hn.trans_lt hsh, hq⟩

theorem Rounded64.of_scaled {x : F64} {k : Int} {sh : Nat} {z : Bool} (h : Rounded64 x (k * 2 ^ sh) z)
    (hk : k.natAbs ≤ 2 ^ 53) (hsh : sh ≤ 2044) : Finite64 x ∧ value64 x = k * 2 ^ sh := by
  obtain ⟨hfin, hu⟩ := h.1.of_scaled (by rw [fmt64_mbits]; omega) (by rw [fmt64_mbits, fmt64_infMag]; omega)
  rw [value64_eq_signed, hu]
  exact ⟨hfin, signed_of_rounded h.2⟩

theorem Rounded32.of_scaled {x : F32} {k : Int} {sh : Nat} {z : Bool} (h : Rounded32 x (k * 2 ^ sh) z)
    (hk : k.natAbs ≤ 2 ^ 24) (hsh : sh ≤ 252) : Finite32 x ∧ value32 x = k * 2 ^ sh := by
  have hmbits : fmt32.mbits = 23 := rfl
  obtain ⟨hfin, hu⟩ := h.1.of_scaled (by rw [hmbits]; omega) (by rw [hmbits, fmt32_infMag]; omega)
  rw [value32_eq_signed, hu]
  exact ⟨hfin, signed_of_rounded h.2⟩

/-! ## The normalization table -/

theorem fmt64_one_cast : (fmt64.one : ℝ) = 2 ^ 1074 := by
  rw [fmt64_one, Nat.cast_pow, Nat.cast_ofNat, show fmt64.unitExp = 1074 by decide]

theorem fmt32_one_cast : (fmt32.one : ℝ) = 2 ^ 149 := by
  rw [Fmt.one, Nat.cast_pow, Nat.cast_ofNat, show fmt32.unitExp = 149 by decide]

/-- R8: the divisor of the normalization. -/
theorem value64_cNorm : value64 cNorm = 2 ^ 1089 := by
  have e : cNorm = ofInt64 32768 := by decide +kernel
  rw [e, ofInt64_exact (by decide), fmt64_one_cast,
    show ((32768 : Int) : ℝ) = 2 ^ 15 by norm_num, ← pow_add]

/-- A power of two multiplied and divided by others. -/
theorem scaled_mul_div (k : ℝ) {a b c d : Nat} (h : a + b = d + c) : k * 2 ^ a * 2 ^ b / 2 ^ c = k * 2 ^ d := by
  rw [div_eq_iff (by positivity), mul_assoc, mul_assoc, ← pow_add, ← pow_add, h]

theorem rawSigned_natAbs_le {u : Nat} (hu : u < 65536) : (rawSigned u).natAbs ≤ 32768 := by
  unfold rawSigned
  split <;> omega

theorem rawSigned_cast (u : Nat) : (rawSigned u : ℝ) = if u < 32768 then (u : ℝ) else (u : ℝ) - 65536 := by
  unfold rawSigned
  split <;> push_cast <;> rfl

/-- R172: the whole number, its quotient by 32768 and the narrowed quotient are each exact. -/
theorem normEntry_exact {u : Nat} (hu : u < 65536) :
    Finite32 (normEntry u) ∧ value32 (normEntry u) = rawSigned u * 2 ^ 134 := by
  have hk := rawSigned_natAbs_le hu
  obtain ⟨hint, vint⟩ : Finite64 (ofInt64 (rawSigned u)) ∧ value64 (ofInt64 (rawSigned u)) = rawSigned u * 2 ^ 1074 := by
    refine Rounded64.of_scaled (z := false) ?_ (by omega) (by norm_num)
    rw [← fmt64_one_cast]
    exact ofInt64_rounded _
  obtain ⟨hdiv, vdiv⟩ : Finite64 (div64 (ofInt64 (rawSigned u)) cNorm) ∧
      value64 (div64 (ofInt64 (rawSigned u)) cNorm) = rawSigned u * 2 ^ 1059 := by
    obtain ⟨-, -, -, h, -⟩ := arithmetic64RoundsOnce _ cNorm hint (by decide)
    have h := h (by rw [value64_cNorm]; positivity)
    rw [vint, value64_cNorm, fmt64_one_cast, scaled_mul_div (d := 1059) _ (by norm_num)] at h
    exact h.of_scaled (by omega) (by norm_num)
  have h := cvt32_rounded hdiv
  rw [vdiv, fmt64_one_cast, fmt32_one_cast, scaled_mul_div (d := 134) _ (by norm_num)] at h
  exact h.of_scaled (by omega) (by norm_num)

/-- Settles O43: an exact entry, in units, and eight patterns computed. -/
theorem normalizationIsExact : Obligations.NormalizationIsExact := by
  refine ⟨fun u hu => ?_, by decide +kernel, by decide +kernel, by decide +kernel, by decide +kernel, by decide +kernel,
    by decide +kernel, by decide +kernel, by decide +kernel, fun u _ => rfl⟩
  obtain ⟨hfin, hv⟩ := normEntry_exact hu
  refine ⟨hfin, ?_⟩
  rw [hv, ← rawSigned_cast, fmt32_one_cast, mul_assoc, show (2 : ℝ) ^ 134 * 32768 = 2 ^ 149 by norm_num]

/-! ## Mixing with (1.0, +0.0) -/

theorem pack32_neg32_mag32 (x : F32) : pack32 (neg32 x) (mag32 x) = x := signMagnitude_self (w := 31) x

/-- A finite binary32 pattern other than -0.0. -/
structure Ordinary32 (x : F32) : Prop where
  finite : Finite32 x
  sign_of_zero : mag32 x = 0 → neg32 x = false

/-- R172: no entry of the normalization table is -0.0. -/
theorem normEntry_ordinary {u : Nat} (hu : u < 65536) : Ordinary32 (normEntry u) := by
  obtain ⟨hfin, hv⟩ := normEntry_exact hu
  refine ⟨hfin, fun h0 => ?_⟩
  rw [value32_eq_signed, h0, fmt32.units_zero, Nat.cast_zero, signed_zero, eq_comm, mul_eq_zero] at hv
  have hk : rawSigned u = 0 := by exact_mod_cast hv.resolve_right (by positivity)
  obtain rfl : u = 0 := by
    unfold rawSigned at hk
    split at hk <;> omega
  decide +kernel

/-- R13: a number times 1.0 is itself. -/
theorem mul32_one {x : F32} (hx : Finite32 x) : mul32 x 0x3F800000#32 = x := by
  have h1 : val32 0x3F800000#32 = .fin false fmt32.one := by decide +kernel
  rw [mul32, val32_of_finite hx, h1]
  show pack32 (neg32 x != false) (fmt32.round (fmt32.units (mag32 x) * fmt32.one) fmt32.one) = x
  rw [fmt32.round_units hx fmt32.one_pos, Bool.bne_false, pack32_neg32_mag32]

/-- R13: a number times +0.0 is a zero with the number's sign. -/
theorem val32_mul32_zero {x : F32} (hx : Finite32 x) : val32 (mul32 x 0#32) = .fin (neg32 x) 0 := by
  have h0 : val32 0#32 = .fin false 0 := by decide
  have hr : fmt32.round 0 fmt32.one = 0 := by
    have h := fmt32.round_units (m := 0) (by decide) fmt32.one_pos
    rwa [fmt32.units_zero, Nat.zero_mul] at h
  have e : mul32 x 0#32 = pack32 (neg32 x) 0 := by
    rw [mul32, val32_of_finite hx, h0]
    show pack32 (neg32 x != false) (fmt32.round (fmt32.units (mag32 x) * 0) fmt32.one) = _
    rw [Nat.mul_zero, hr, Bool.bne_false]
  rw [e, val32_of_zero (mag32_pack32 _ (Nat.zero_le _)), neg32_pack32 _ (Nat.zero_le _)]

/-- R13: a zero of either sign added to a number other than -0.0 leaves the number. -/
theorem result32_add_zero {x nan : F32} (hx : Ordinary32 x) (t : Bool) :
    result32 nan (.add (val32 x) (.fin t 0)) = x := by
  have hr : fmt32.round (fmt32.units (mag32 x)) 1 = mag32 x := by
    have h := fmt32.round_units hx.finite Nat.one_pos
    rwa [Nat.mul_one] at h
  have hself : result32 nan (.rat (neg32 x) (fmt32.units (mag32 x)) 1) = x := by
    show pack32 (neg32 x) (fmt32.round (fmt32.units (mag32 x)) 1) = x
    rw [hr, pack32_neg32_mag32]
  rw [val32_of_finite hx.finite, Exact.add_fin]
  by_cases hs : neg32 x = t
  · rw [if_pos hs]
    exact hself
  by_cases h0 : fmt32.units (mag32 x) = 0
  · have hneg := hx.sign_of_zero (Fmt.units_eq_zero.1 h0)
    rw [hneg, h0] at hself
    rwa [if_neg hs, if_pos h0]
  · rw [if_neg hs, if_neg h0, if_neg (Nat.not_lt_zero _)]
    exact hself

/-- R177, R181: the oscillator value (1.0, +0.0) leaves a sample as it is. -/
theorem mix_one_zero {i q : F32} (hi : Ordinary32 i) (hq : Ordinary32 q) :
    add32 (mul32 i 0x3F800000#32) (mul32 q 0#32) = i ∧ sub32 (mul32 q 0x3F800000#32) (mul32 i 0#32) = q := by
  rw [mul32_one hi.finite, mul32_one hq.finite, add32, sub32, val32_mul32_zero hi.finite, val32_mul32_zero hq.finite]
  exact ⟨result32_add_zero hi _, result32_add_zero hq _⟩

theorem mixSample_one_zero {i q : F32} (hi : Ordinary32 i) (hq : Ordinary32 q) :
    mixSample i q 0x3F800000#32 0#32 = (i, q) :=
  Prod.ext (mix_one_zero hi hq).1 (mix_one_zero hi hq).2

end Sys2Proof.Machine

/-! The converter's commands (R171, R173, R177, R178): what each leaves, branch by branch. -/

namespace Sys2Proof.Machine

variable {s : State} {c b q : Nat} {C D : CnvCtx} {B : RawSlot} {out : Packet}

/-! ## Construction -/

/-- R171: the operands of a `CNVINIT`. -/
abbrev CnvinitOperands (s : State) : Prop :=
  (1 ≤ s.ai 0 ∧ s.ai 0 ≤ 2 ^ 32 - 1) ∧ FreqInRange (s.ai 1) ∧ 1 ≤ s.ai 2 ∧ s.ai 2 ≤ s.lim.ncoMax

theorem execCnvinit_of_missing (h : s.cnv.length ≤ c) : execCnvinit c s = .next (s.raise .badIndex) := by
  rw [execCnvinit, List.getElem?_eq_none h]

/-- R171, R194: whichever test fails. -/
theorem execCnvinit_of_not_operands (hC : s.cnv[c]? = some C) (h : ¬ CnvinitOperands s) :
    execCnvinit c s = .next ((s.setCnv c { C with valid := false }).raise .badOperand) := by
  rw [execCnvinit, hC]
  dsimp only
  split
  · rfl
  rename_i hrate
  split
  · rfl
  rename_i hcenter
  refine if_pos ?_
  by_contra hmax
  exact h ⟨by omega, not_not.1 hcenter, by omega⟩

theorem execCnvinit_of_operands (hC : s.cnv[c]? = some C) (h : CnvinitOperands s) :
    execCnvinit c s = .next (s.setCnv c (C.built (s.ai 0) (s.ai 1) (s.ai 2))).complete := by
  obtain ⟨hrate, hcenter, hmax⟩ := h
  rw [execCnvinit, hC]
  dsimp only
  rw [if_neg (by omega), if_neg (not_not.2 hcenter), if_neg (by omega)]

/-- R172: a construction rewrites the 65536 entries of the table and no other element. -/
theorem CnvCtx.built_table_above (fs fcen ml : Int) {u : Nat} (hu : 65536 ≤ u) :
    (C.built fs fcen ml).lut.read u = C.lut.read u := by
  show (C.lut.fill 0 65536 normEntry).read u = _
  rw [Mem.read_fill, if_neg (by omega)]

/-- Settles O44: the three branches, and the context that is built. -/
theorem cnvinitBuildsConverter : Obligations.CnvinitBuildsConverter := by
  intro s c hl legal
  refine ⟨execCnvinit_of_missing, fun C hC => ⟨execCnvinit_of_not_operands hC, fun h => ?_⟩⟩
  have hmax := ncoMax_le_of_ok hl
  obtain ⟨hrate, hcenter, hml⟩ := id h
  obtain ⟨erate, ecenter, eml⟩ := CnvCtx.built_config (C := C) hrate.1 hrate.2 hcenter hml.1 (by omega)
  exact ⟨_, execCnvinit_of_operands hC h, rfl, erate, ecenter, eml, rfl, rfl, rfl, rfl, rfl, rfl,
    fun u => CnvCtx.built_table _ _ _, fun u => CnvCtx.built_table_above _ _ _⟩

/-! ## Raw samples -/

theorem rawPattern_lt (B : RawSlot) (i : Nat) : rawPattern B i < 65536 := by
  have h0 := (B.byte.read i).isLt
  have h1 := (B.byte.read (i + 1)).isLt
  unfold rawPattern
  omega

/-- R172, R74: the table of a legal context gives the normalized samples. -/
theorem CnvCtx.Ok.lut_rawI {l : Limits} (h : C.Ok l) (B : RawSlot) (j : Nat) :
    C.lut.read (rawI B j) = normEntry (rawI B j) :=
  h.table _ (rawPattern_lt _ _)

theorem CnvCtx.Ok.lut_rawQ {l : Limits} (h : C.Ok l) (B : RawSlot) (j : Nat) :
    C.lut.read (rawQ B j) = normEntry (rawQ B j) :=
  h.table _ (rawPattern_lt _ _)

/-- R76: the size of the packet after a fill fits its field. -/
theorem fillCount_size {l : Limits} (B : RawSlot) (h : PktOK l out) :
    (BitVec.ofNat 32 (out.size.toNat + fillCount B out)).toNat = out.size.toNat + fillCount B out := by
  have hcap := out.cap.isLt
  have hle : fillCount B out ≤ out.cap.toNat - out.size.toNat := Nat.min_le_right _ _
  obtain ⟨hsize, -⟩ := h
  rw [BitVec.toNat_ofNat, Nat.mod_eq_of_lt (by omega)]

section Streams

variable (hC : s.cnv[c]? = some C) (hB : s.raw[b]? = some B) (hq : s.pkt[q]? = some out) (hv : C.valid = true)
  (hok : RawOK s.lim B ∧ PktOK s.lim out)

/-! ## The straight fill -/

section

include hC hB hq hv hok

theorem execCnvfill_of_none (hn : fillCount B out = 0) :
    execCnvfill c b q s = .next (s.setR 0 (intResult 0)).complete := by
  rw [execCnvfill, hC, hB, hq]
  dsimp only
  rw [if_neg (by simp [hv]), if_neg (not_not.2 hok), if_pos hn]

theorem execCnvfill_of_some (hn : fillCount B out ≠ 0) :
    execCnvfill c b q s = .next
      ((s.setPkt q (fillOutput C B out (fillCount B out))).setR 0 (intResult (fillCount B out))).complete := by
  rw [execCnvfill, hC, hB, hq]
  dsimp only
  rw [if_neg (by simp [hv]), if_neg (not_not.2 hok), if_neg hn]

end

/-- R173: what a straight fill appends. -/
theorem fillOutput_appended {l : Limits} (h : C.Ok l) (B : RawSlot) (out : Packet) (n : Nat) :
    Appended out.re (fillOutput C B out n).re out.size.toNat n (fun j => normEntry (rawI B j)) ∧
    Appended out.im (fillOutput C B out n).im out.size.toNat n (fun j => normEntry (rawQ B j)) := by
  refine ⟨fun idx => ?_, fun idx => ?_⟩
  · rw [(fillOutput_read C B out n idx).1, h.lut_rawI]
  · rw [(fillOutput_read C B out n idx).2, h.lut_rawQ]

/-! ## The mixing fill -/

section

include hC hB hq hv hok

/-- R178: a `CNVMIX` that passes its tests and whose table is ready. -/
theorem execCnvmix_of_ready (hf : FreqInRange (s.ai 0)) (hD : updateCache C (effectiveMix C (s.ai 0)) = .ready D) :
    execCnvmix c b q s = .next (mixFill c q D B out (s.ai 0) s) := by
  rw [execCnvmix, hC, hB, hq]
  dsimp only
  rw [if_neg (by simp [hv]), if_neg (not_not.2 hok), if_neg (not_not.2 hf), hD]

/-- R176, R194: one that passes its tests and whose table does not fit. -/
theorem execCnvmix_of_tooLong (hf : FreqInRange (s.ai 0)) (hD : updateCache C (effectiveMix C (s.ai 0)) = .tooLong) :
    execCnvmix c b q s = .next ((s.setCnv c { C with ncoValid := false }).raise .capacityExceeded) := by
  rw [execCnvmix, hC, hB, hq]
  dsimp only
  rw [if_neg (by simp [hv]), if_neg (not_not.2 hok), if_neg (not_not.2 hf), hD]

end

theorem mixFill_of_none {chan : Int} (h : D.ncoLen = 0 ∨ fillCount B out = 0) :
    mixFill c q D B out chan s = ((s.setCnv c D).setR 0 (intResult 0)).complete := if_pos h

theorem mixFill_of_some {chan : Int} (hlen : D.ncoLen ≠ 0) (hn : fillCount B out ≠ 0) :
    mixFill c q D B out chan s =
      (((s.setCnv c { D with cur := BitVec.ofNat 32 (mixRun D B out (fillCount B out)).cur }).setPkt q
        (mixOutput D out chan (fillCount B out) (mixRun D B out (fillCount B out)))).setR 0
          (intResult (fillCount B out))).complete := if_neg (not_or.2 ⟨hlen, hn⟩)

/-- R45: the cursor stands inside a table that is not empty. -/
theorem CnvCtx.Ok.cur_lt {l : Limits} (h : D.Ok l) (hv : D.ncoValid = true) (hlen : D.ncoLen ≠ 0) :
    D.cur.toNat < D.ncoLen.toNat :=
  (h.cache hv).2.resolve_right fun h0 => hlen (BitVec.eq_of_toNat_eq h0.1)

/-- R178, R180: what a mixing fill appends, and where it leaves the cursor. -/
theorem mixRun_spec (B : RawSlot) (out : Packet) (n : Nat) (hcur : D.cur.toNat < D.ncoLen.toNat) :
    (mixRun D B out n).cur = (D.cur.toNat + n) % D.ncoLen.toNat ∧
    Appended out.re (mixRun D B out n).re out.size.toNat n (fun j => (D.mixAt B D.cur.toNat j).1) ∧
    Appended out.im (mixRun D B out n).im out.size.toNat n (fun j => (D.mixAt B D.cur.toNat j).2) := by
  obtain ⟨hc, hre, him, -⟩ := mixLoop_spec (b := B) (at_ := out.size.toNat)
    (x := { re := out.re, im := out.im, cur := D.cur.toNat }) hcur n
  exact ⟨hc, hre, him⟩

end Streams

/-- Settles O45: whether a sample fits decides the branch. -/
theorem cnvfillConverts : Obligations.CnvfillConverts := by
  intro s c b q C B out hC hB hq hv hCok hraw hpkt n uI uQ
  refine ⟨execCnvfill_of_none hC hB hq hv ⟨hraw, hpkt⟩, fun hn => ?_⟩
  obtain ⟨hre, him⟩ := fillOutput_appended hCok B out n
  exact ⟨_, execCnvfill_of_some hC hB hq hv ⟨hraw, hpkt⟩ (Nat.ne_of_gt hn), rfl, fillCount_size B hpkt, rfl, rfl, rfl, hre,
    him⟩

/-- Settles O48: the cache is made ready, and whether the table is empty or no sample fits decides the branch. -/
theorem cnvmixMixes : Obligations.CnvmixMixes := by
  intro s c b q C B out hC hB hq hv hCok hraw hpkt hlo hhi f n hfits
  obtain ⟨D, hD⟩ := exists_updateCache_ready hCok.rate_pos hfits
  have hup := upToDate_of_ready hCok.rate_pos hD
  obtain ⟨hDok, hDv⟩ := updateCache_ok hCok hD
  obtain ⟨-, -, hrate, -, -⟩ := hup.config
  have hexec := execCnvmix_of_ready hC hB hq hv ⟨hraw, hpkt⟩ ⟨hlo, hhi⟩ hD
  refine ⟨D, hup, fun h => hexec.trans (congrArg _ (mixFill_of_none h)), fun hlen hn => ?_⟩
  obtain ⟨hcur, hre, him⟩ := mixRun_spec B out n (hDok.cur_lt hDv hlen)
  rw [← hcur]
  exact ⟨_, hexec.trans (congrArg _ (mixFill_of_some hlen (Nat.ne_of_gt hn))), rfl, fillCount_size B hpkt, hrate,
    congrArg BitVec.toInt BitVec.ofInt_toInt, rfl, hre, him⟩

/-- Settles O50: the length found is the rule's, and it does not fit. -/
theorem cnvmixTableTooLong : Obligations.CnvmixTableTooLong := by
  intro s c b q C B out len hC hB hq hv hr hraw hpkt hlo hhi hn hlen hgt
  exact execCnvmix_of_tooLong hC hB hq hv ⟨hraw, hpkt⟩ ⟨hlo, hhi⟩ (updateCache_eq_tooLong hr hn hlen hgt)

/-- Settles O49: the mixer on the table's values of the two patterns and the oscillator's entry. -/
theorem mixerFormula : Obligations.MixerFormula := by
  intro C B cur j I Q cs sn
  rfl

end Sys2Proof.Machine

/-! The channel at the centre (R181): the table has the one entry (1.0, +0.0), so `CNVMIX` does what `CNVFILL` does, its
own cache apart. -/

namespace Sys2Proof.Machine

variable {s t u : State} {c b q : Nat} {C D : CnvCtx} {B : RawSlot} {out : Packet} {f : Int} {rate len : Nat}

/-! ## The first entry of a table -/

/-- R176: the angle of entry 0. -/
theorem phaseAngle_zero (f : Int) (h1 : 1 ≤ rate) (h2 : rate < 2 ^ 32) : phaseAngle f rate 0 = 0#64 := by
  have h0 : Int.emod (f * (0 : Nat)) rate = 0 := by rw [Nat.cast_zero, mul_zero]; exact Int.zero_emod _
  have hmul : mul64 twoPi64 (ofInt64 0) = 0#64 := by decide +kernel
  rw [phaseAngle, h0, hmul, div64_zero_ofInt64 (by omega) (by omega)]

theorem sin64_zero : sin64 0#64 = 0#64 := elementary_zero _ _ _

/-- R176, R181: entry 0 of every table is (1.0, +0.0). -/
theorem tableEntry_zero (f : Int) (h1 : 1 ≤ rate) (h2 : rate < 2 ^ 32) :
    cvt32 (cos64 (phaseAngle f rate 0)) = 0x3F800000#32 ∧ cvt32 (sin64 (phaseAngle f rate 0)) = 0#32 := by
  rw [phaseAngle_zero f h1 h2, cos64_zero, sin64_zero]
  exact ⟨by decide +kernel, by decide +kernel⟩

theorem Regenerated.entry_zero (h : Regenerated C f len D) (hr : 1 ≤ C.rate.toNat) (hlen : 0 < len) :
    D.cos.read 0 = 0x3F800000#32 ∧ D.sin.read 0 = 0#32 := by
  rw [h.cos, h.sin, if_pos hlen, if_pos hlen]
  exact tableEntry_zero f hr C.rate.isLt

/-! ## The cache with the channel at the centre -/

/-- R174: the key of the sample rate is stored for no other effective frequency of a channel in range. -/
theorem effectiveMix_eq_rate {l : Limits} {chan : Int} (hD : D.Ok l) (hchan : FreqInRange chan)
    (h : BitVec.ofInt 64 (effectiveMix D chan) = BitVec.ofInt 64 D.rate.toNat) : effectiveMix D chan = D.rate.toNat := by
  have hlt := D.rate.isLt
  obtain ⟨hlo, hhi, -⟩ := effectiveMix_range hD.rate_pos hD.maxlen_pos hD.center hchan
  have hmod := congrArg BitVec.toNat h
  rw [BitVec.toNat_ofInt, BitVec.toNat_ofInt] at hmod
  generalize effectiveMix D chan = x at *
  omega

/-- R181: `E` is the context `C` but for its cursor and its cache, which holds the table of the sample rate. -/
structure AtCentre (C E : CnvCtx) : Prop where
  valid : E.valid = C.valid
  lut : E.lut = C.lut
  rate : E.rate = C.rate
  center : E.center = C.center
  maxlen : E.maxlen = C.maxlen
  ncoValid : E.ncoValid = true
  ncoFreq : E.ncoFreq.toInt = C.rate.toNat
  ncoLen : E.ncoLen = 1
  cos : E.cos.read 0 = 0x3F800000#32
  sin : E.sin.read 0 = 0#32

/-- R174: the cache that is up to date holds the frequency. -/
theorem UpToDate.cacheHolds (h : UpToDate C f D) : CacheHolds D f := by
  rcases h with ⟨hC, rfl⟩ | ⟨-, _, -, -, hD⟩
  · exact hC
  · exact ⟨hD.ncoValid, hD.ncoFreq⟩

/-- R181: brought up to date for the centre, the cache holds one entry, whether it was there before or not. -/
theorem UpToDate.atCentre {l : Limits} (h : UpToDate C (effectiveMix C C.center.toInt) D) (hC : C.Ok l) (hcache : C.CacheOk)
    (hD : D.Ok l) : AtCentre C D := by
  obtain ⟨hvalid, hlut, hrate, hcenter, hmaxlen⟩ := h.config
  obtain ⟨hv, hf⟩ := h.cacheHolds
  rw [effectiveMix_center] at hf
  obtain ⟨chan, hchan, hkey, hlen, hentry⟩ := h.cacheOk hcache hC.center hv
  have hlt := D.rate.isLt
  rw [effectiveMix_eq_rate hD hchan (by rw [← hkey, hf, hrate]), Int.natAbs_natCast] at hlen
  have hone : D.ncoLen.toNat = 1 := hlen.unique (bestLength_self hD.rate_pos _)
  obtain ⟨hcos, hsin⟩ := hentry 0 (by omega)
  obtain ⟨ecos, esin⟩ := tableEntry_zero (effectiveMix D chan) hD.rate_pos hlt
  refine ⟨hvalid, hlut, hrate, hcenter, hmaxlen, hv, ?_, BitVec.eq_of_toNat_eq hone, hcos.trans ecos, hsin.trans esin⟩
  rw [hf, BitVec.toInt_ofInt, ← hrate]
  exact Int.bmod_eq_of_le (by omega) (by omega)

/-- R181: the table of one entry fits every maximum, so the cache is made ready. -/
theorem exists_ready_atCentre {l : Limits} (hC : C.Ok l) (hcache : C.CacheOk) :
    ∃ D, updateCache C (effectiveMix C C.center.toInt) = .ready D ∧ D.Ok l ∧ AtCentre C D := by
  obtain ⟨D, hD⟩ := exists_updateCache_ready (f := effectiveMix C C.center.toInt) hC.rate_pos
    (.inr ⟨1, by rw [effectiveMix_center, Int.natAbs_natCast]; exact bestLength_self hC.rate_pos _, hC.maxlen_pos⟩)
  obtain ⟨hDok, -⟩ := updateCache_ok hC hD
  exact ⟨D, hD, hDok, (upToDate_of_ready hC.rate_pos hD).atCentre hC hcache hDok⟩

/-- R181: every sample passes the table of one entry unchanged. -/
theorem AtCentre.mixAt {l : Limits} (h : AtCentre C D) (hC : C.Ok l) (B : RawSlot) (cur j : Nat) :
    D.mixAt B cur j = (normEntry (rawI B j), normEntry (rawQ B j)) := by
  rw [CnvCtx.mixAt, h.ncoLen, h.lut, show (1 : Word32).toNat = 1 from rfl, Nat.mod_one, h.cos, h.sin, hC.lut_rawI,
    hC.lut_rawQ]
  exact mixSample_one_zero (normEntry_ordinary (rawPattern_lt _ _)) (normEntry_ordinary (rawPattern_lt _ _))

/-! ## The two commands -/

/-- R181: packets with the same samples and the same metadata. -/
def Packet.SameSamples (P Q : Packet) : Prop :=
  Q.cap = P.cap ∧ Q.size = P.size ∧ Q.rate = P.rate ∧ Q.freq = P.freq ∧ Q.freqValid = P.freqValid ∧
    ∀ i, Q.re.read i = P.re.read i ∧ Q.im.read i = P.im.read i

theorem Packet.SameSamples.refl (P : Packet) : P.SameSamples P := ⟨rfl, rfl, rfl, rfl, rfl, fun _ => ⟨rfl, rfl⟩⟩

theorem mixOutput_sameSamples {l : Limits} (h : AtCentre C D) (hC : C.Ok l) (hD : D.Ok l) (B : RawSlot) (out : Packet)
    (n : Nat) : (fillOutput C B out n).SameSamples (mixOutput D out C.center.toInt n (mixRun D B out n)) := by
  have hlen : D.ncoLen ≠ 0 := by rw [h.ncoLen]; decide
  obtain ⟨-, hre, him⟩ := mixRun_spec B out n (hD.cur_lt h.ncoValid hlen)
  obtain ⟨fre, fim⟩ := fillOutput_appended hC B out n
  refine ⟨rfl, rfl, h.rate, BitVec.ofInt_toInt, rfl, fun i => ⟨?_, ?_⟩⟩
  · rw [fre i, ← funext fun j => congrArg Prod.fst (h.mixAt hC B D.cur.toNat j)]
    exact hre i
  · rw [fim i, ← funext fun j => congrArg Prod.snd (h.mixAt hC B D.cur.toNat j)]
    exact him i

theorem eq_of_getElem?_set_self {α : Type} {l : List α} {i : Nat} {x y : α} (h : (l.set i x)[i]? = some y) : x = y := by
  have hi := (List.getElem?_eq_some_iff.1 h).1
  rw [List.length_set] at hi
  exact Option.some.inj ((List.getElem?_set_self hi).symm.trans h)

theorem State.setPkt_self (hq : s.pkt[q]? = some out) : s.setPkt q out = s := by
  rw [State.setPkt, set_eq_self_of_getElem? hq]

/-- R181: with the channel at the centre `CNVFILL` and `CNVMIX` both raise the same error, or both complete with the same
count and the same samples. -/
theorem centre_ends (hC : s.cnv[c]? = some C) (hv : C.valid = true) (hCok : C.Ok s.lim) (hcache : C.CacheOk)
    (hcentre : s.ai 0 = C.center.toInt) (ht : execCnvfill c b q s = .next t) (hu : execCnvmix c b q s = .next u) :
    (∃ e, t = s.raise e ∧ u = s.raise e) ∨
    ∃ v P Q E, t = ((s.setPkt q P).setR 0 v).complete ∧ u = (((s.setCnv c E).setPkt q Q).setR 0 v).complete ∧
      P.SameSamples Q ∧ AtCentre C E := by
  have next_inj : ∀ {o : Host.Outcome State Fault Refusal} {x y : State}, o = .next x → o = .next y → x = y :=
    fun h1 h2 => Host.Outcome.next.inj (h1.symm.trans h2)
  by_cases hmiss : s.cnv.length ≤ c ∨ s.raw.length ≤ b ∨ s.pkt.length ≤ q
  · exact .inl ⟨_, next_inj ht (execCnvfill_of_missing hmiss), next_inj hu (execCnvmix_of_missing hmiss)⟩
  obtain ⟨B, hB⟩ : ∃ B, s.raw[b]? = some B := ⟨_, List.getElem?_eq_getElem (by omega)⟩
  obtain ⟨out, hq⟩ : ∃ out, s.pkt[q]? = some out := ⟨_, List.getElem?_eq_getElem (by omega)⟩
  by_cases hok : RawOK s.lim B ∧ PktOK s.lim out
  swap
  · exact .inl ⟨_, next_inj ht (execCnvfill_of_not_operands hC hB hq hv hok),
      next_inj hu (execCnvmix_of_not_operands hC hB hq hv (.inl hok))⟩
  obtain ⟨D, hD, hDok, hDc⟩ := exists_ready_atCentre hCok hcache
  rw [← hcentre] at hD
  have hmix := next_inj hu (execCnvmix_of_ready hC hB hq hv hok (by rw [hcentre]; exact hCok.center) hD)
  right
  by_cases hn : fillCount B out = 0
  · refine ⟨intResult 0, out, out, D, next_inj ht ?_, hmix.trans ?_, .refl out, hDc⟩
    · rw [State.setPkt_self hq]
      exact execCnvfill_of_none hC hB hq hv hok hn
    · rw [mixFill_of_none (.inr hn), State.setPkt_self (s := s.setCnv c D) hq]
  · have hlen : D.ncoLen ≠ 0 := by rw [hDc.ncoLen]; decide
    refine ⟨_, _, _, _, next_inj ht (execCnvfill_of_some hC hB hq hv hok hn), hmix.trans (mixFill_of_some hlen hn), ?_,
      { hDc with }⟩
    rw [hcentre]
    exact mixOutput_sameSamples hDc hCok hDok B out _

/-- Settles O51: the two commands end alike, entry 0 of a table is (1.0, +0.0), and that leaves a sample as it is. -/
theorem centreChannelPassesUnchanged : Obligations.CentreChannelPassesUnchanged := by
  refine ⟨fun s t u c b q C hC hv hCok hcache hcentre ht hu => ?commands, fun C D f len hr hlen h => h.entry_zero hr hlen,
    fun a b ha hb => ?samples⟩
  case samples =>
    have hi := normEntry_ordinary ha
    have hq := normEntry_ordinary hb
    exact ⟨(mix_one_zero hi hq).1, (mix_one_zero hi hq).2, mixSample_one_zero hi hq⟩
  case commands =>
    rcases centre_ends hC hv hCok hcache hcentre ht hu with ⟨e, rfl, rfl⟩ | ⟨v, P, Q, E, rfl, rfl, hPQ, hE⟩
    · refine ⟨rfl, rfl, fun _ _ => rfl, fun P Q hP hQ => ?_, rfl, fun _ _ => rfl, fun D E hD hE => ?_,
        fun h => absurd h (State.raise_status_ne_zero e)⟩
      · cases hP.symm.trans hQ
        exact Packet.SameSamples.refl P
      · cases hC.symm.trans hD
        cases hC.symm.trans hE
        exact ⟨rfl, rfl, rfl, rfl, rfl, rfl⟩
    · have hself : (s.cnv.set c E)[c]? = some E := List.getElem?_set_self (List.getElem?_eq_some_iff.1 hC).1
      refine ⟨rfl, ?_, fun j hj => ?_, fun P' Q' hP hQ => ?_, List.length_set, fun j hj => List.getElem?_set_ne hj.symm,
        fun D E' hD hE' => ?_, fun _ => ⟨E, hself, hE.ncoValid, hE.ncoFreq, hE.ncoLen, hE.cos, hE.sin⟩⟩
      · exact List.length_set.trans List.length_set.symm
      · exact (List.getElem?_set_ne hj.symm).trans (List.getElem?_set_ne hj.symm).symm
      · cases eq_of_getElem?_set_self hP
        cases eq_of_getElem?_set_self hQ
        exact hPQ
      · cases hC.symm.trans hD
        cases eq_of_getElem?_set_self hE'
        exact ⟨rfl, hE.valid, hE.lut, hE.rate, hE.center, hE.maxlen⟩

end Sys2Proof.Machine
